-- ==== Sys2Proof/Word.lean ====
section
/-! DEFINITION. The words of the YMH-4. -/

namespace Sys2Proof

/-- One instruction word (R20). -/
abbrev Word := BitVec 32

/-- The content of one scalar register, or of one lane of a vector register (R45). -/
abbrev U64 := BitVec 64

/-- One byte of memory. -/
abbrev Byte := BitVec 8

end Sys2Proof
end

