-- ==== Sys2Proof/Syntax.lean ====
section
/-! DEFINITION. The instructions and steps of the YMH-4: one constructor for each row of the opcode table.
The 256 rows with bits are instruction words; their fields stand in the order of the table. The switch marker
(bit 31 of every word but a prefix, R20) is the same field in every row: the decoder gives it beside the
instruction (`Decoded`). The 78 rows without bits are steps of the device (95_what_each_step_holds.md); the object
that such a step acts on is named by the arguments that the state holds while it runs (`State.args`). -/

namespace Sys2Proof

/-- Every row of the opcode table. -/
inductive Instr where
  /-- R30. Prefix that supplies 24 immediate bits to the instruction of its bundle. -/
  | pfxImm (i : BitVec 24)
  /-- R30. Prefix that supplies 24 further immediate bits above those of PFX.IMM or PFX.PATCH. -/
  | pfxImx (i : BitVec 24)
  /-- R31. Prefix that supplies bank, index, mask, type, broadcast, saturation, order and scope modifiers. -/
  | pfxMod (b : BitVec 3) (n : BitVec 3) (x : BitVec 2) (m : BitVec 4) (t : BitVec 5) (c : BitVec 1) (a : BitVec 1) (o : BitVec 2) (p : BitVec 3)
  /-- R30. Prefix that substitutes entry k of the kernel's patch table as immediate bits, raising PATCH_RANGE when k is out of range. -/
  | pfxPatch (k : BitVec 24)
  /-- R202. Prefix that sets the solo bit and the group's priority class from the bundle's instruction onward. -/
  | pfxSched (l : BitVec 1) (p : BitVec 2)
  /-- R190. Prefix that opens a split region of n words, checking the whole region and raising SPLIT_ILLEGAL if any word offends. -/
  | pfxSplit (n : BitVec 7)
  /-- R81. Unconditional branch by a signed 24-bit word offset. -/
  | bra (o : BitVec 24)
  /-- R81. Branches when the named scalar register is nonzero. -/
  | brs (a : BitVec 8) (o : BitVec 16)
  /-- R82. Branches on an any, all, none or not-all condition of a predicate restricted to live lanes. -/
  | brm (p : BitVec 4) (c : BitVec 4) (o : BitVec 16)
  /-- R81. Writes the return address to sd and branches by a signed offset. -/
  | call (d : BitVec 8) (o : BitVec 16)
  /-- R83. Jumps to the address in sa, raising MISALIGN for an unaligned target. -/
  | jmpi (a : BitVec 8)
  /-- R83. Jumps to the address in sa and tells the return predictor that a call ends there. -/
  | ret (a : BitVec 8)
  /-- R87. Parks the group and makes it last in its quarter's round-robin order, continuing at the given offset. -/
  | yieldNow (o : BitVec 12)
  /-- R85. Parks the group until no result destined for the named scalar register is outstanding. -/
  | yieldReg (a : BitVec 8) (o : BitVec 12)
  /-- R85. Parks the group until the named engine class counter is at most n. -/
  | yieldOc (c : BitVec 3) (n : BitVec 5) (o : BitVec 12)
  /-- R85. Parks the group until the package cycle count has advanced by 64 times k. -/
  | yieldSleep (k : BitVec 8) (o : BitVec 12)
  /-- R91. Raises the TRAP cause with the code in TRAPINFO. -/
  | trap (c : BitVec 8)
  /-- R91. Raises the BKPT cause with the code in TRAPINFO. -/
  | bkpt (c : BitVec 8)
  /-- R96. Starts invalidation of instruction-cache lines over a virtual range in every cache of the partition and parks the group. -/
  | icinv (a : BitVec 8) (b : BitVec 8)
  /-- R97. Scalar add modulo 2^64. -/
  | sadd (d : BitVec 8) (a : BitVec 8) (b : BitVec 8)
  /-- R97. Scalar subtract modulo 2^64. -/
  | ssub (d : BitVec 8) (a : BitVec 8) (b : BitVec 8)
  /-- R97. Low 64 bits of the scalar product. -/
  | smul (d : BitVec 8) (a : BitVec 8) (b : BitVec 8)
  /-- R97. High 64 bits of the signed 128-bit product. -/
  | smulh (d : BitVec 8) (a : BitVec 8) (b : BitVec 8)
  /-- R97. High 64 bits of the unsigned 128-bit product. -/
  | smulhn (d : BitVec 8) (a : BitVec 8) (b : BitVec 8)
  /-- R97. Signed scalar division truncated toward zero, with the defined results for zero divisor and overflow. -/
  | sdiv (d : BitVec 8) (a : BitVec 8) (b : BitVec 8)
  /-- R97. Unsigned scalar division. -/
  | sdivn (d : BitVec 8) (a : BitVec 8) (b : BitVec 8)
  /-- R97. Signed scalar remainder with the sign of the dividend. -/
  | srem (d : BitVec 8) (a : BitVec 8) (b : BitVec 8)
  /-- R97. Unsigned scalar remainder. -/
  | sremn (d : BitVec 8) (a : BitVec 8) (b : BitVec 8)
  /-- R97. Scalar bitwise and. -/
  | sand (d : BitVec 8) (a : BitVec 8) (b : BitVec 8)
  /-- R97. Scalar bitwise or. -/
  | sor (d : BitVec 8) (a : BitVec 8) (b : BitVec 8)
  /-- R97. Scalar bitwise exclusive or. -/
  | sxor (d : BitVec 8) (a : BitVec 8) (b : BitVec 8)
  /-- R97. Scalar shift left by b[5:0]. -/
  | sshl (d : BitVec 8) (a : BitVec 8) (b : BitVec 8)
  /-- R97. Scalar logical shift right by b[5:0]. -/
  | sshr (d : BitVec 8) (a : BitVec 8) (b : BitVec 8)
  /-- R97. Scalar arithmetic shift right by b[5:0]. -/
  | ssar (d : BitVec 8) (a : BitVec 8) (b : BitVec 8)
  /-- R97. Selects a or b by whether sd is nonzero and overwrites sd. -/
  | ssel (d : BitVec 8) (a : BitVec 8) (b : BitVec 8)
  /-- R97. Signed scalar minimum. -/
  | smin (d : BitVec 8) (a : BitVec 8) (b : BitVec 8)
  /-- R97. Signed scalar maximum. -/
  | smax (d : BitVec 8) (a : BitVec 8) (b : BitVec 8)
  /-- R97. Unsigned scalar minimum. -/
  | sminn (d : BitVec 8) (a : BitVec 8) (b : BitVec 8)
  /-- R97. Unsigned scalar maximum. -/
  | smaxn (d : BitVec 8) (a : BitVec 8) (b : BitVec 8)
  /-- R98. Adds the bundle's immediate to sa modulo 2^64. -/
  | saddi (d : BitVec 8) (a : BitVec 8) (i : BitVec 8)
  /-- R98. Loads the sign-extended bundle immediate into sd. -/
  | sli (d : BitVec 8) (i : BitVec 16)
  /-- R98. Writes the immediate's low 32 bits into the high half of sd. -/
  | slih (d : BitVec 8) (i : BitVec 16)
  /-- R99. Signed comparison of sd with sa by the relation in fn, writing 1 or 0. -/
  | scmp (d : BitVec 8) (a : BitVec 8) (f : BitVec 8)
  /-- R99. Unsigned comparison of sd with sa by the relation in fn, writing 1 or 0. -/
  | scmpn (d : BitVec 8) (a : BitVec 8) (f : BitVec 8)
  /-- R100. Writes the number of set bits of sa. -/
  | sunPopc (d : BitVec 8) (a : BitVec 8)
  /-- R100. Writes the leading zero count of sa. -/
  | sunClz (d : BitVec 8) (a : BitVec 8)
  /-- R100. Writes the trailing zero count of sa. -/
  | sunCtz (d : BitVec 8) (a : BitVec 8)
  /-- R100. Writes sa with its bit order reversed. -/
  | sunBrev (d : BitVec 8) (a : BitVec 8)
  /-- R100. Writes sa with its byte order reversed. -/
  | sunBswap (d : BitVec 8) (a : BitVec 8)
  /-- R100. Writes the complement of sa. -/
  | sunNot (d : BitVec 8) (a : BitVec 8)
  /-- R100. Writes 0 minus sa modulo 2^64. -/
  | sunNeg (d : BitVec 8) (a : BitVec 8)
  /-- R100. Writes the absolute value of sa. -/
  | sunAbs (d : BitVec 8) (a : BitVec 8)
  /-- R107. Performs one read-modify-write for the group in shared or pad memory, optionally returning the old value. -/
  | satom (d : BitVec 8) (a : BitVec 8) (p : BitVec 1) (r : BitVec 1) (w : BitVec 1) (o : BitVec 4)
  /-- R102. Reads a special register into sd under the privilege checks of R57. -/
  | srd (d : BitVec 8) (i : BitVec 12)
  /-- R102. Writes sd to a special register, serialising, and returns its old value in sd. -/
  | swr (d : BitVec 8) (i : BitVec 12)
  /-- R106. Scalar load from shared, pad or const space. -/
  | sld (d : BitVec 8) (a : BitVec 8) (x : BitVec 1) (p : BitVec 2) (z : BitVec 3)
  /-- R106. Scalar store to shared or pad space. -/
  | sst (d : BitVec 8) (a : BitVec 8) (p : BitVec 2) (z : BitVec 3)
  /-- R101. Scalar floating-point add of sd and sa. -/
  | sfpAdd (d : BitVec 8) (a : BitVec 8) (t : BitVec 2)
  /-- R101. Scalar floating-point subtract. -/
  | sfpSub (d : BitVec 8) (a : BitVec 8) (t : BitVec 2)
  /-- R101. Scalar floating-point multiply. -/
  | sfpMul (d : BitVec 8) (a : BitVec 8) (t : BitVec 2)
  /-- R101. Scalar floating-point divide. -/
  | sfpDiv (d : BitVec 8) (a : BitVec 8) (t : BitVec 2)
  /-- R101. Scalar floating-point square root of sa. -/
  | sfpSqrt (d : BitVec 8) (a : BitVec 8) (t : BitVec 2)
  /-- R101. Scalar floating-point minimum. -/
  | sfpMin (d : BitVec 8) (a : BitVec 8) (t : BitVec 2)
  /-- R101. Scalar floating-point maximum. -/
  | sfpMax (d : BitVec 8) (a : BitVec 8) (t : BitVec 2)
  /-- R101. Scalar floating-point equality test. -/
  | sfpEq (d : BitVec 8) (a : BitVec 8) (t : BitVec 2)
  /-- R101. Scalar floating-point less-than test. -/
  | sfpLt (d : BitVec 8) (a : BitVec 8) (t : BitVec 2)
  /-- R101. Scalar floating-point less-or-equal test. -/
  | sfpLe (d : BitVec 8) (a : BitVec 8) (t : BitVec 2)
  /-- R101. Converts a scalar floating-point value to saturated I64. -/
  | sfpCvti (d : BitVec 8) (a : BitVec 8) (t : BitVec 2)
  /-- R101. Converts an I64 scalar to floating point. -/
  | sfpCvtf (d : BitVec 8) (a : BitVec 8) (t : BitVec 2)
  /-- R103. Sets a predicate from sa[31:0]. -/
  | pset (d : BitVec 8) (a : BitVec 8)
  /-- R103. Sets a predicate from sa[31:0] and the live mask. -/
  | psetLive (d : BitVec 8) (a : BitVec 8)
  /-- R103. Reads a predicate into a scalar register. -/
  | pget (d : BitVec 8) (a : BitVec 8)
  /-- R103. Combines two predicates by the logic operation in fn. -/
  | plog (d : BitVec 8) (a : BitVec 8) (b : BitVec 4) (o : BitVec 4)
  /-- R103. Writes the lowest set bit index of a predicate, or 32. -/
  | pfirst (d : BitVec 8) (a : BitVec 8)
  /-- R103. Writes the highest set bit index of a predicate, or 32. -/
  | plast (d : BitVec 8) (a : BitVec 8)
  /-- R103. Writes the number of set bits of a predicate. -/
  | pcnt (d : BitVec 8) (a : BitVec 8)
  /-- R104. Serialising read and selective write of the mode register's vt, rm and cmixm fields. -/
  | mode (d : BitVec 8) (a : BitVec 8) (f : BitVec 3)
  /-- R105. Writes each active lane's number. -/
  | vlane (d : BitVec 8)
  /-- R105. Writes each active lane's number within the block. -/
  | vlaneBlk (d : BitVec 8)
  /-- R105. Writes each active lane's position within its quad. -/
  | vlaneQuad (d : BitVec 8)
  /-- R105. Writes a scalar value into every active lane. -/
  | vmovs (d : BitVec 8) (a : BitVec 8)
  /-- R105. Writes a scalar value into one named lane if active. -/
  | vmovsLane (d : BitVec 8) (a : BitVec 8) (l : BitVec 5)
  /-- R105. Copies a vector register in the active lanes. -/
  | vmov (d : BitVec 8) (a : BitVec 8)
  /-- R102. Copies one lane of a vector register into a scalar register. -/
  | smovv (d : BitVec 8) (a : BitVec 8) (l : BitVec 8)
  /-- R105. Writes the bundle immediate into every active lane. -/
  | vseti (d : BitVec 8) (i : BitVec 16)
  /-- R102. Sets an index register from sa[7:0]. -/
  | xset (d : BitVec 8) (a : BitVec 8)
  /-- R102. Adds sa[7:0] to an index register modulo 256. -/
  | xadd (d : BitVec 8) (a : BitVec 8)
  /-- R102. Reads an index register into a scalar register. -/
  | xget (d : BitVec 8) (a : BitVec 8)
  /-- R168. Per-lane load from shared, pad or const space after the all-lane fault checks. -/
  | ld (d : BitVec 8) (a : BitVec 8) (x : BitVec 1) (p : BitVec 2) (z : BitVec 3)
  /-- R168. Per-lane store to shared or pad space after the all-lane fault checks. -/
  | st (d : BitVec 8) (a : BitVec 8) (p : BitVec 2) (z : BitVec 3)
  /-- R172. Per-lane read-modify-write in shared or pad space, optionally returning old values. -/
  | atom (d : BitVec 8) (a : BitVec 8) (p : BitVec 1) (r : BitVec 1) (w : BitVec 1) (o : BitVec 4)
  /-- R116. Elementwise integer add, wrapping or saturating. -/
  | vadd (d : BitVec 8) (a : BitVec 8) (b : BitVec 8)
  /-- R116. Elementwise integer subtract. -/
  | vsub (d : BitVec 8) (a : BitVec 8) (b : BitVec 8)
  /-- R116. Elementwise saturating integer add. -/
  | vadds (d : BitVec 8) (a : BitVec 8) (b : BitVec 8)
  /-- R116. Elementwise saturating integer subtract. -/
  | vsubs (d : BitVec 8) (a : BitVec 8) (b : BitVec 8)
  /-- R116. Elementwise integer multiply. -/
  | vmul (d : BitVec 8) (a : BitVec 8) (b : BitVec 8)
  /-- R116. Elementwise high half of the integer product. -/
  | vmulh (d : BitVec 8) (a : BitVec 8) (b : BitVec 8)
  /-- R116. Elementwise integer multiply-add into vd. -/
  | vmad (d : BitVec 8) (a : BitVec 8) (b : BitVec 8)
  /-- R116. Bitwise and on all 64 bits of each lane. -/
  | vand (d : BitVec 8) (a : BitVec 8) (b : BitVec 8)
  /-- R116. Bitwise or on all 64 bits of each lane. -/
  | vor (d : BitVec 8) (a : BitVec 8) (b : BitVec 8)
  /-- R116. Bitwise exclusive or on all 64 bits of each lane. -/
  | vxor (d : BitVec 8) (a : BitVec 8) (b : BitVec 8)
  /-- R117. Elementwise shift left by b mod w. -/
  | vshl (d : BitVec 8) (a : BitVec 8) (b : BitVec 8)
  /-- R117. Elementwise logical shift right. -/
  | vshr (d : BitVec 8) (a : BitVec 8) (b : BitVec 8)
  /-- R117. Elementwise arithmetic shift right. -/
  | vsar (d : BitVec 8) (a : BitVec 8) (b : BitVec 8)
  /-- R116. Elementwise integer minimum. -/
  | vmin (d : BitVec 8) (a : BitVec 8) (b : BitVec 8)
  /-- R116. Elementwise integer maximum. -/
  | vmax (d : BitVec 8) (a : BitVec 8) (b : BitVec 8)
  /-- R116. Elementwise absolute difference. -/
  | vabsd (d : BitVec 8) (a : BitVec 8) (b : BitVec 8)
  /-- R119. Elementwise population count. -/
  | vbitPopc (d : BitVec 8) (a : BitVec 8)
  /-- R119. Elementwise leading zero count. -/
  | vbitClz (d : BitVec 8) (a : BitVec 8)
  /-- R119. Elementwise trailing zero count. -/
  | vbitCtz (d : BitVec 8) (a : BitVec 8)
  /-- R119. Elementwise bit reversal. -/
  | vbitBrev (d : BitVec 8) (a : BitVec 8)
  /-- R119. Elementwise complement. -/
  | vbitNot (d : BitVec 8) (a : BitVec 8)
  /-- R119. Elementwise negation, wrapping or saturating. -/
  | vbitNeg (d : BitVec 8) (a : BitVec 8)
  /-- R119. Elementwise absolute value, wrapping or saturating. -/
  | vbitAbs (d : BitVec 8) (a : BitVec 8)
  /-- R118. Elementwise add of the bundle immediate. -/
  | vaddi (d : BitVec 8) (a : BitVec 8) (i : BitVec 8)
  /-- R118. Elementwise shift left by an immediate. -/
  | vshli (d : BitVec 8) (a : BitVec 8) (i : BitVec 8)
  /-- R118. Elementwise logical shift right by an immediate. -/
  | vshri (d : BitVec 8) (a : BitVec 8) (i : BitVec 8)
  /-- R118. Elementwise arithmetic shift right by an immediate. -/
  | vsari (d : BitVec 8) (a : BitVec 8) (i : BitVec 8)
  /-- R120. Compares elements and writes one predicate bit per active lane. -/
  | vcmpp (p : BitVec 4) (c : BitVec 4) (a : BitVec 8) (b : BitVec 8)
  /-- R118. Elementwise multiply by the bundle immediate. -/
  | vmuli (d : BitVec 8) (a : BitVec 8) (i : BitVec 8)
  /-- R121. Writes an all-ones element mask where a is less than b. -/
  | vltm (d : BitVec 8) (a : BitVec 8) (b : BitVec 8)
  /-- R122. Selects va or vb per element by the top bit of vd. -/
  | vsel (d : BitVec 8) (a : BitVec 8) (b : BitVec 8)
  /-- R138. Forms two DOT sums of products per lane into the halves of vd. -/
  | vdot (d : BitVec 8) (a : BitVec 8) (b : BitVec 8)
  /-- R139. Forms one DOT sum of all products per lane. -/
  | vdots (d : BitVec 8) (a : BitVec 8) (b : BitVec 8)
  /-- R123. Permutes elements within each lane by exclusive or with k. -/
  | vswzXor (d : BitVec 8) (a : BitVec 8) (k : BitVec 4)
  /-- R123. Broadcasts element k within each lane. -/
  | vswzBcst (d : BitVec 8) (a : BitVec 8) (k : BitVec 4)
  /-- R123. Rotates elements within each lane by k. -/
  | vswzRot (d : BitVec 8) (a : BitVec 8) (k : BitVec 4)
  /-- R123. Reverses the elements within each lane. -/
  | vswzRev (d : BitVec 8) (a : BitVec 8)
  /-- R124. Narrows the elements of va and vb into vd. -/
  | vpack (d : BitVec 8) (a : BitVec 8) (b : BitVec 8)
  /-- R125. Widens the low half of each lane's elements. -/
  | vunpkLo (d : BitVec 8) (a : BitVec 8)
  /-- R125. Widens the high half of each lane's elements. -/
  | vunpkHi (d : BitVec 8) (a : BitVec 8)
  /-- R177. Loads a spill stack slot into each active lane. -/
  | ldk (d : BitVec 8) (k : BitVec 16)
  /-- R177. Stores each active lane into a spill stack slot. -/
  | stk (d : BitVec 8) (k : BitVec 16)
  /-- R127. Elementwise floating-point add. -/
  | vfadd (d : BitVec 8) (a : BitVec 8) (b : BitVec 8)
  /-- R127. Elementwise floating-point subtract. -/
  | vfsub (d : BitVec 8) (a : BitVec 8) (b : BitVec 8)
  /-- R127. Elementwise floating-point multiply. -/
  | vfmul (d : BitVec 8) (a : BitVec 8) (b : BitVec 8)
  /-- R128. Elementwise multiply-add into vd, fused or split by contract. -/
  | vfma (d : BitVec 8) (a : BitVec 8) (b : BitVec 8)
  /-- R128. Elementwise multiply-subtract of vd. -/
  | vfms (d : BitVec 8) (a : BitVec 8) (b : BitVec 8)
  /-- R128. Elementwise vd minus product. -/
  | vfnma (d : BitVec 8) (a : BitVec 8) (b : BitVec 8)
  /-- R129. Elementwise floating-point minimum ignoring a single NaN. -/
  | vfmin (d : BitVec 8) (a : BitVec 8) (b : BitVec 8)
  /-- R129. Elementwise floating-point maximum ignoring a single NaN. -/
  | vfmax (d : BitVec 8) (a : BitVec 8) (b : BitVec 8)
  /-- R129. Elementwise floating-point minimum propagating NaN. -/
  | vfminm (d : BitVec 8) (a : BitVec 8) (b : BitVec 8)
  /-- R129. Elementwise floating-point maximum propagating NaN. -/
  | vfmaxm (d : BitVec 8) (a : BitVec 8) (b : BitVec 8)
  /-- R121. Writes an all-ones element mask where a equals b. -/
  | veqm (d : BitVec 8) (a : BitVec 8) (b : BitVec 8)
  /-- R130. Elementwise floating-point negation. -/
  | vfunNeg (d : BitVec 8) (a : BitVec 8)
  /-- R130. Elementwise floating-point absolute value. -/
  | vfunAbs (d : BitVec 8) (a : BitVec 8)
  /-- R130. Rounds elements to integral values by rm. -/
  | vfunRint (d : BitVec 8) (a : BitVec 8)
  /-- R130. Rounds elements to integral values toward minus infinity. -/
  | vfunFloor (d : BitVec 8) (a : BitVec 8)
  /-- R130. Rounds elements to integral values toward plus infinity. -/
  | vfunCeil (d : BitVec 8) (a : BitVec 8)
  /-- R130. Rounds elements to integral values toward zero. -/
  | vfunTrunc (d : BitVec 8) (a : BitVec 8)
  /-- R130. Elementwise fractional part. -/
  | vfunFract (d : BitVec 8) (a : BitVec 8)
  /-- R130. Elementwise rectifier. -/
  | vfunRelu (d : BitVec 8) (a : BitVec 8)
  /-- R130. Elementwise sign function. -/
  | vfunSign (d : BitVec 8) (a : BitVec 8)
  /-- R133. Elementwise reciprocal under the contract's function table. -/
  | vfspecRcp (d : BitVec 8) (a : BitVec 8)
  /-- R133. Elementwise reciprocal square root. -/
  | vfspecRsqrt (d : BitVec 8) (a : BitVec 8)
  /-- R135. Elementwise correctly rounded square root. -/
  | vfspecSqrt (d : BitVec 8) (a : BitVec 8)
  /-- R133. Elementwise base-2 exponential. -/
  | vfspecExp2 (d : BitVec 8) (a : BitVec 8)
  /-- R133. Elementwise base-2 logarithm. -/
  | vfspecLog2 (d : BitVec 8) (a : BitVec 8)
  /-- R133. Elementwise sin(pi x). -/
  | vfspecSinpi (d : BitVec 8) (a : BitVec 8)
  /-- R133. Elementwise cos(pi x). -/
  | vfspecCospi (d : BitVec 8) (a : BitVec 8)
  /-- R133. Elementwise hyperbolic tangent. -/
  | vfspecTanh (d : BitVec 8) (a : BitVec 8)
  /-- R133. Elementwise SiLU. -/
  | vfspecSilu (d : BitVec 8) (a : BitVec 8)
  /-- R133. Elementwise error function. -/
  | vfspecErf (d : BitVec 8) (a : BitVec 8)
  /-- R131. Elementwise floating-point divide. -/
  | vfdiv (d : BitVec 8) (a : BitVec 8) (b : BitVec 8)
  /-- R132. Elementwise scaling by a power of two. -/
  | vfscl (d : BitVec 8) (a : BitVec 8) (b : BitVec 8)
  /-- R141. Maps floating-point elements to order keys with NaN lowest. -/
  | vfkeyMax (d : BitVec 8) (a : BitVec 8)
  /-- R141. Maps floating-point elements to order keys with NaN highest. -/
  | vfkeyMin (d : BitVec 8) (a : BitVec 8)
  /-- R141. Maps order keys back to floating-point values. -/
  | vfkeyInv (d : BitVec 8) (a : BitVec 8)
  /-- R142. Converts elements to a destination type with a rounding mode, placing wider results in a register run. -/
  | vcvt (d : BitVec 8) (a : BitVec 8) (r : BitVec 3) (t : BitVec 5)
  /-- R144. Converts like VCVT and folds every source element into AMAX. -/
  | vcvta (d : BitVec 8) (a : BitVec 8) (r : BitVec 3) (t : BitVec 5)
  /-- R145. Splits FP6 containers into nibble and two-bit plane bytes. -/
  | vf6Split (d : BitVec 8) (a : BitVec 8)
  /-- R145. Joins FP6 plane bytes back into containers. -/
  | vf6Join (d : BitVec 8) (a : BitVec 8)
  /-- R152. Gathers elements from any lane of the group by index. -/
  | vshfl (d : BitVec 8) (a : BitVec 8) (b : BitVec 8)
  /-- R153. Copies a fixed lane's value to every active lane. -/
  | vbcst (d : BitVec 8) (a : BitVec 8) (k : BitVec 5)
  /-- R153. Copies the lowest contributing lane's value to every active lane. -/
  | vbcstFirst (d : BitVec 8) (a : BitVec 8)
  /-- R155. Reduces contributing elements to their wrapped sum in sd. -/
  | vredAdd (d : BitVec 8) (a : BitVec 8)
  /-- R155. Reduces to the once-saturated sum. -/
  | vredAdds (d : BitVec 8) (a : BitVec 8)
  /-- R155. Reduces to the widened exact sum. -/
  | vredAddw (d : BitVec 8) (a : BitVec 8)
  /-- R155. Reduces to the least integer element. -/
  | vredMin (d : BitVec 8) (a : BitVec 8)
  /-- R155. Reduces to the greatest integer element. -/
  | vredMax (d : BitVec 8) (a : BitVec 8)
  /-- R155. Reduces by bitwise and. -/
  | vredAnd (d : BitVec 8) (a : BitVec 8)
  /-- R155. Reduces by bitwise or. -/
  | vredOr (d : BitVec 8) (a : BitVec 8)
  /-- R155. Reduces by bitwise exclusive or. -/
  | vredXor (d : BitVec 8) (a : BitVec 8)
  /-- R156. Reduces contributing elements by DOT in element order. -/
  | vredFadd (d : BitVec 8) (a : BitVec 8)
  /-- R156. Reduces to the floating-point minimum ignoring NaNs. -/
  | vredFmin (d : BitVec 8) (a : BitVec 8)
  /-- R156. Reduces to the floating-point maximum ignoring NaNs. -/
  | vredFmax (d : BitVec 8) (a : BitVec 8)
  /-- R157. Finds the least element and its lowest element number into sd and sd+1. -/
  | vrediMin (d : BitVec 8) (a : BitVec 8)
  /-- R157. Finds the greatest element and its lowest element number into sd and sd+1. -/
  | vrediMax (d : BitVec 8) (a : BitVec 8)
  /-- R159. Writes inclusive or exclusive running combinations in element order. -/
  | vscan (d : BitVec 8) (a : BitVec 8) (e : BitVec 1) (o : BitVec 4)
  /-- R160. Swaps whole lane values within each quad by lane xor fn. -/
  | vqxSwap (d : BitVec 8) (a : BitVec 8) (n : BitVec 2)
  /-- R160. Broadcasts one lane's value within each quad. -/
  | vqxBcst (d : BitVec 8) (a : BitVec 8) (n : BitVec 2)
  /-- R160. Sums contributing lanes per element within each quad. -/
  | vqxAdd (d : BitVec 8) (a : BitVec 8)
  /-- R160. Minimum over contributing lanes within each quad. -/
  | vqxMin (d : BitVec 8) (a : BitVec 8)
  /-- R160. Maximum over contributing lanes within each quad. -/
  | vqxMax (d : BitVec 8) (a : BitVec 8)
  /-- R161. Writes 1 if any contributing lane is nonzero. -/
  | vvoteAny (d : BitVec 8) (a : BitVec 8)
  /-- R161. Writes 1 if every contributing lane is nonzero. -/
  | vvoteAll (d : BitVec 8) (a : BitVec 8)
  /-- R161. Writes the ballot of nonzero contributing lanes. -/
  | vvoteBallot (d : BitVec 8) (a : BitVec 8)
  /-- R161. Writes 1 if the contributing lanes agree. -/
  | vvoteUniform (d : BitVec 8) (a : BitVec 8)
  /-- R162. Votes within lane-named membership subsets, raising MEMBER_MISMATCH on inconsistent masks. -/
  | vvotem (d : BitVec 8) (a : BitVec 8) (p : BitVec 4) (o : BitVec 2)
  /-- R154. Rotates all elements of the group by an immediate. -/
  | vrot (d : BitVec 8) (a : BitVec 8) (i : BitVec 8)
  /-- R261. Gathers A rows at issue and queues a dense or sparse matrix multiply-accumulate into a tile. -/
  | mxmma (t : BitVec 4) (n : BitVec 4) (i : BitVec 8) (h : BitVec 1) (y : BitVec 1)
  /-- R263. Reads one tile column into lanes after earlier abacus operations finish. -/
  | mxrd (d : BitVec 8) (t : BitVec 8) (c : BitVec 8)
  /-- R263. Queues a write of one tile column from lanes. -/
  | mxwr (a : BitVec 8) (t : BitVec 8) (c : BitVec 8)
  /-- R185. Initialises a barrier object and wakes its waiters with error status. -/
  | barinit (a : BitVec 8) (b : BitVec 8)
  /-- R186. Arrives on a barrier object with a byte count and returns the phase. -/
  | bararr (a : BitVec 8) (b : BitVec 8)
  /-- R186. Tests a barrier phase and parks until it completes or errs. -/
  | barwait (a : BitVec 8) (b : BitVec 8)
  /-- R186. Tests a barrier phase once without parking. -/
  | bartry (a : BitVec 8) (b : BitVec 8)
  /-- R189. Parks the group until an engine class counter is at most n. -/
  | waitc (c : BitVec 8) (n : BitVec 8)
  /-- R241. Returns multicast free slots to a channel counter of the issuing core. -/
  | slotret (a : BitVec 8) (b : BitVec 8)
  /-- R229. Checks a descriptor and issues a tensor copy to the copy engine. -/
  | cpt (a : BitVec 8) (b : BitVec 8)
  /-- R242. Issues a per-lane gather from virtual addresses into vd. -/
  | cpg (a : BitVec 8) (b : BitVec 8)
  /-- R242. Issues a per-lane scatter of vd to virtual addresses. -/
  | cps (a : BitVec 8) (b : BitVec 8)
  /-- R240. Issues a multicast copy to pad slices of cores in the mask, taking free slots. -/
  | cpm (a : BitVec 8) (b : BitVec 8)
  /-- R235. Issues a reducing copy combining into destination elements. -/
  | cpred (a : BitVec 8) (b : BitVec 8)
  /-- R253. Tries to acquire the core's abacus and writes the outcome to a predicate. -/
  | mxacq (a : BitVec 8)
  /-- R258. Checks and queues a new abacus format and pad base. -/
  | mxfmt (a : BitVec 8)
  /-- R259. Queues loading of one weight slot from an image. -/
  | mxldw (a : BitVec 8) (n : BitVec 4)
  /-- R259. Queues loading of a sparse value and metadata slot pair. -/
  | mxldws (a : BitVec 8) (n : BitVec 4)
  /-- R260. Queues zeroing of the tiles and slots named in sa. -/
  | mxzero (a : BitVec 8)
  /-- R264. Checks and queues a converted store of tile rows. -/
  | mxst (a : BitVec 8)
  /-- R269. Checks and queues a load of the knot registers, updating the knot view. -/
  | spknot (a : BitVec 8)
  /-- R271. Queues a load of the 144 row-affine pairs. -/
  | spaff (a : BitVec 8)
  /-- R277. Queues a load of the whole spline coefficient image. -/
  | spldc (a : BitVec 8)
  /-- R279. Gathers activation rows and queues spline evaluation into a tile. -/
  | speval (i : BitVec 8) (p : BitVec 1) (t : BitVec 4)
  /-- R283. Checks and queues coefficient gradient scatter into a buffer. -/
  | spgrad (a : BitVec 8)
  /-- R285. Checks and queues the input gradient computation. -/
  | spdx (a : BitVec 8)
  /-- R277. Queues a store of the spline image. -/
  | spstc (a : BitVec 8)
  /-- R287. Queues a read, optionally clearing, of a row's out-of-grid counters. -/
  | spcnt (d : BitVec 8) (a : BitVec 8)
  /-- R379. Asks the tile dispenser for a tile and writes status, handle, origin, extents and mask. -/
  | tnext (d : BitVec 8)
  /-- R380. Commits claimed atoms of a tile handle as done. -/
  | tdone (a : BitVec 8) (b : BitVec 8)
  /-- R380. Releases claimed atoms of a tile handle back to free. -/
  | trel (a : BitVec 8) (b : BitVec 8)
  /-- R381. Writes a snapshot of the grid's claimed, free, done and held counts. -/
  | tstat (d : BitVec 8)
  /-- R381. Reads a published or staged schedule register. -/
  | schr (d : BitVec 8) (g : BitVec 1) (i : BitVec 4)
  /-- R381. Stages a schedule register value for the tuner's block. -/
  | schw (a : BitVec 8) (i : BitVec 4)
  /-- R384. Publishes the staged schedule set as a new season. -/
  | schcom (d : BitVec 8)
  /-- R381. Reads 32 coverage fields from the dispenser's state. -/
  | covr (d : BitVec 8) (a : BitVec 8)
  /-- R363. Checks a launch record and starts a child grid in the group's tree. -/
  | spawn (d : BitVec 8) (a : BitVec 8)
  /-- R429. Checks a collective descriptor and counts the group's participation in a block collective. -/
  | coll (a : BitVec 8) (b : BitVec 8)
  /-- R431. Pops the oldest tile identifier from a harvest queue. -/
  | arqpop (d : BitVec 8) (a : BitVec 8)
  /-- R433. Issues a peer-to-local tensor copy for a carry step. -/
  | rld (d : BitVec 8) (b : BitVec 8)
  /-- R433. Issues a local-to-peer tensor copy for a carry step. -/
  | rst (d : BitVec 8) (b : BitVec 8)
  /-- R433. Issues a contribution copy to a remote reduction unit for a reduce step. -/
  | rred (d : BitVec 8) (b : BitVec 8)
  /-- R432. Pops a collective step from the die's step queue without waiting. -/
  | steppop (d : BitVec 8) (a : BitVec 8)
  /-- R432. Ends an outstanding collective step and releases prior accesses. -/
  | stepdone (a : BitVec 8) (b : BitVec 8)
  /-- R32. Takes one issue slot and changes no state; with S set it parks the group until every outstanding result is written. -/
  | nop
  /-- R84. Stops the group's issue and starts its wait for outstanding results and counters before release. -/
  | exit
  /-- R91. Leaves handler state and re-executes the trapping bundle at TRAPPC. -/
  | trapRetRetry
  /-- R91. Leaves handler state and continues at the hidden resume register. -/
  | trapRetNext
  /-- R91. Aborts the block with the current trap cause and TRAPINFO. -/
  | trapRetAbort
  /-- R94. Orders the group's memory accesses as an acquire, release, acquire-release or SC fence at its scope. -/
  | fence
  /-- R95. Discards words fetched ahead and orders later fetches after the group's observed writes. -/
  | ifence
  /-- R188. Arrives at the block's generation barrier of a single-core block and parks. -/
  | bsync
  /-- R298. Arrives at the cluster barrier generation of the block and parks. -/
  | csync
  /-- R244. Cancels the group's CP copies that have written no segment. -/
  | cpcan
  /-- R254. Gives up the abacus, which becomes free when the MXREL is signalled. -/
  | mxrel
  /-- R286. Checks and queues grid refinement of every cell. -/
  | spref
  /-- R202. A low-class group ready without issuing for 64 cycles counts as high class for its next issue. Acts on the arguments `blk`, `gid` of the turn. -/
  | lowClassPromotion
  /-- R35. A group parked by a switch marker wakes once every outstanding register result is written. Acts on the arguments `blk`, `gid` of the turn. -/
  | switchParkWake
  /-- R86. A yielded group's wake condition holds and it continues at its continuation. Acts on the arguments `blk`, `gid` of the turn. -/
  | yieldWake
  /-- R189. A group parked at WAITC wakes when the class counter falls to n, acquiring the operations' writes. Acts on the arguments `blk`, `gid` of the turn. -/
  | waitcWake
  /-- R186. A group parked at BARWAIT wakes when the phase changes, the error bit is set or BARINIT arrives. Acts on the arguments `blk`, `gid` of the turn. -/
  | barwaitWake
  /-- R96. Every instruction cache has acknowledged the invalidation and the ICINV park ends. Acts on the arguments `blk`, `gid` of the turn. -/
  | icinvAcknowledged
  /-- R193. The miss data arrive and the split region's miss pass runs under the miss split. Acts on the arguments `blk`, `gid` of the turn. -/
  | splitMissPass
  /-- R84. An exiting group's results and counters drain and its slot, registers and stack are released. Acts on the arguments `blk`, `gid` of the turn. -/
  | groupExitComplete
  /-- R233. The copy engine translates and writes one destination segment, skipping, waiting or denying on faulting pages. Acts on the arguments `op`, `seg` of the turn. -/
  | copySegment
  /-- R211. A finished engine operation is signalled in issue order: status word, barrier arrival, counter decrement. Acts on the arguments `op` of the turn. -/
  | engineSignal
  /-- R242. The memory side's verdicts for every lane of CPG or CPS return, and permitted lanes are performed or faults raised. Acts on the arguments `op` of the turn. -/
  | laneCopyVerdict
  /-- R256. The abacus starts and runs the next queued MX or SP operation to its results. Acts on the arguments `blk`, `mem` of the turn. -/
  | abacusOperation
  /-- R217. The reduced-rate idle interval after an abacus operation expires and the next operation may start. Acts on the argument `core` of the turn. -/
  | rateIdleIntervalEnd
  /-- R345. The event arbiter appends a waiting record to its queue when there is room and advances the write index. Acts on the arguments `die`, `part`, `q` of the turn. -/
  | faultRecord
  /-- R343. A write of MTUINV starts invalidation of cached MTU entries over a range. Acts on the arguments `quad`, `val` of the turn. -/
  | mtuinv
  /-- R343. An MTU invalidation completes, clearing busy and waking everything that waits on a page in its range. Acts on the arguments `quad` of the turn. -/
  | mtuInvalidationDone
  /-- R198. A write of RPLREL replays a replay record's unfinished lanes with the recorded operands. Acts on the arguments `die`, `part`, `val` of the turn. -/
  | rplrel
  /-- R337. A write of a window's control register takes effect on every core of the partition running the context. Acts on the arguments `part`, `ctx`, `w`, `val` of the turn. -/
  | wctl
  /-- R220. Measures the loaded almanac image with SHAKE256 and compares it with the fused digest. Acts on the arguments `core` of the turn. -/
  | almctlCommit
  /-- R219. Closes almanac loading on the core until reset. Acts on the arguments `core` of the turn. -/
  | almctlLock
  /-- R219. A write stores 8 bytes of the almanac image at ALMADDR and advances it. Acts on the arguments `core`, `val` of the turn. -/
  | almdata
  /-- R370. PREQ op 1 suspends the target on the die, stops its resident blocks and saves them. Acts on the arguments `die`, `part`, `grid` of the turn. -/
  | preemptRequest
  /-- R371. PREQ op 2 lifts the suspension and makes saved and held blocks waiting again. Acts on the arguments `die`, `part`, `grid` of the turn. -/
  | resumeRequest
  /-- R371. PREQ op 3 aborts the target's resident and saved blocks on the die and fails its grids. Acts on the arguments `die`, `part`, `grid` of the turn. -/
  | abortRequest
  /-- R369. A pre-emption request finishes, busy clears and a kind 0x43 record is sent. Acts on the arguments `die`, `part` of the turn. -/
  | preemptRequestDone
  /-- R365. The distributor places a waiting block, new, fresh or resuming, on eligible cores. -/
  | blockPlacement
  /-- R366. A grid passed over for 2^20 cycles becomes reserving. Acts on the arguments `grid` of the turn. -/
  | gridReserving
  /-- R360. The front end writes a grid or tree completion word and sends the requested record and interrupt. Acts on the arguments `id` of the turn. -/
  | completionWrite
  /-- R352. A loaded NOPKT completes at once and advances rd. Acts on the arguments `die`, `lane` of the turn. -/
  | nopkt
  /-- R361. Reads a launch record, creates a tree and seed grid, and completes at acceptance. Acts on the arguments `die`, `lane` of the turn. -/
  | dispatch
  /-- R354. Cleans or invalidates L2 lines of a range in every quadrant of the partition. Acts on the arguments `die`, `lane` of the turn. -/
  | cmaint
  /-- R354. Reads a word with acquire order and waits until its masked comparison holds. Acts on the arguments `die`, `lane` of the turn. -/
  | waitv
  /-- R354. A waiting WAITV rereads its word at least every 1,024 cycles. Acts on the arguments `die`, `lane` of the turn. -/
  | waitvPoll
  /-- R354. After earlier packets complete, writes or atomically adds a value with release order. Acts on the arguments `die`, `lane` of the turn. -/
  | signal
  /-- R354. Sets the queue's priority to the lesser of the new value and its ceiling. Acts on the arguments `die`, `lane` of the turn. -/
  | prio
  /-- R423. Starts creating a communicator: member exchange, contract choice, carry reservation and carry launch. Acts on the arguments `die`, `lane` of the turn. -/
  | commCreate
  /-- R425. Fails a communicator's collectives, closes its steps and ends its reservations. Acts on the arguments `die`, `lane` of the turn. -/
  | commDestroy
  /-- R425. Fails a communicator's collectives and returns it from error to open with seq 0. Acts on the arguments `die`, `lane` of the turn. -/
  | commReset
  /-- R349. A write of state 0 to a running lane requests it to stop. Acts on the arguments `die`, `lane` of the turn. -/
  | cqctlStop
  /-- R349. A write of state 1 starts the lane loading packets. Acts on the arguments `die`, `lane` of the turn. -/
  | cqctlRun
  /-- R400. A write of the partition's quadrant mask is checked and adds or removes quadrants. Acts on the arguments `part`, `val` of the turn. -/
  | pquads
  /-- R401. PCTL reset aborts the partition's work and returns its registers and lanes to reset. Acts on the arguments `part` of the turn. -/
  | partitionReset
  /-- R401. PCTL reset with scrub also scrubs every quadrant of the partition. Acts on the arguments `part` of the turn. -/
  | partitionResetScrub
  /-- R400. A write to QSTATE of an unscrubbed quadrant starts zeroing its HBM, L2 and SRAMs. Acts on the arguments `quad` of the turn. -/
  | quadrantScrub
  /-- R400. A quadrant scrub finishes and the quadrant enters state 0. Acts on the arguments `quad` of the turn. -/
  | scrubDone
  /-- R410. The report command writes a signed attestation report. Acts on the arguments `fn` of the turn. -/
  | mailboxReport
  /-- R408. The translate command produces a native image from an Agesk image or a cached one. Acts on the arguments `fn` of the turn. -/
  | mailboxTranslate
  /-- R407. A mailbox command ends, setting its status and length and raising completion. Acts on the arguments `fn` of the turn. -/
  | mailboxDone
  /-- R414. CKCTL op 1 starts copying every byte of the listed quadrants to the safe tier. -/
  | checkpointFull
  /-- R414. CKCTL op 2 starts copying dirty pages, clearing DIRTY before each read. -/
  | checkpointDirty
  /-- R416. A checkpoint ends, clearing busy and raising its completion vector. -/
  | checkpointDone
  /-- R417. A write of PWRCAP sets the module power limit. Acts on the arguments `val` of the turn. -/
  | pwrcap
  /-- R417. The module changes the arithmetic clock of every die in 25 MHz steps to hold its limits. Acts on the arguments `mhz` of the turn. -/
  | clockStep
  /-- R13. A write to a configuration or privileged register without behaviour of its own. Acts on the arguments `fn`, `off`, `val` of the turn. -/
  | configRegisterWrite
  /-- R13. Module reset returns all registers to their Reset values. -/
  | moduleReset
  /-- R405. A host CXL.mem read through a decoder is translated and completed, with poison on failure. Acts on the arguments `part`, `addr`, `len` of the turn. -/
  | hostMemRead
  /-- R405. A host CXL.mem write through a decoder is translated and performed or dropped. Acts on the arguments `part`, `addr`, `bytes` of the turn. -/
  | hostMemWrite
  /-- R418. A fabric link trains or retrains with its working lanes and rate. Acts on the arguments `link`, `val` of the turn. -/
  | linkTrained
  /-- R437. A link with no working lane goes down and its traffic moves to other links. Acts on the arguments `link` of the turn. -/
  | linkDown
  /-- R420. A peer access arrives, is checked against ROUTE and translated, and a verdict is returned. Acts on the arguments `acc` of the turn. -/
  | peerAccessIn
  /-- R423. A member's table, count, rank and carried set arrive during a create. Acts on the arguments `msg` of the turn. -/
  | commMemberMessage
  /-- R423. A create fails when a member has not answered or cores are not idle within 100 ms. Acts on the arguments `part`, `c` of the turn. -/
  | commCreateTimeout
  /-- R429. Once every group of the block has issued COLL or exited, the collective takes a sequence number and starts. Acts on the arguments `part`, `c` of the turn. -/
  | collectiveStart
  /-- R434. Once all P contributions of an element arrive, the reduction unit writes it once. Acts on the arguments `op`, `seg` of the turn. -/
  | reductionUnitWrite
  /-- R431. A tile with its final values is announced into its harvest queue when there is room. Acts on the arguments `part`, `c` of the turn. -/
  | harvestPush
  /-- R430. The collective completes at this member, signalling every COLL and making one barrier arrival. Acts on the arguments `part`, `c` of the turn. -/
  | collectiveComplete
  /-- R437. A member that sends no flit for 100 ms while a collective waits is lost. Acts on the arguments `part`, `c` of the turn. -/
  | memberLostTimeout
  /-- R224. An uncorrectable error in unnamed core state faults the core and aborts its blocks. Acts on the arguments `core` of the turn. -/
  | coreFault
  /-- R303. An uncorrectable error in the cluster barrier unit or slot counters faults the cluster. Acts on the arguments `cluster` of the turn. -/
  | clusterFault
  /-- R411. The patrol scrubber reads each HBM granule once in 12 hours, correcting or poisoning. Acts on the arguments `addr` of the turn. -/
  | patrolScrub
  /-- R33. A fixed-latency result of class A, B or C is written to its register some cycles after its producer issued. Acts on the arguments `blk`, `gid` of the turn. -/
  | fixedLatencyResultWrite
  /-- R168. The memory side returns the data of a group's LD, SLD, ATOM or SATOM, or finishes an MXMMA or SPEVAL gather, writing the scoreboarded result. Acts on the arguments `blk`, `gid`, `id`, `lanes` of the turn. -/
  | memoryResponse
  /-- R25. The group issues a word that matches no allocated encoding and raises ILLEGAL. Acts on the arguments `word` of the turn. -/
  | illegalEncoding
  /-- R83. The group's next word cannot be fetched through the windows and memory side, and the bundle raises its fetch fault or stalls with a fault record. Acts on the arguments `cause`, `addr` of the turn. -/
  | fetchFault
  /-- R405. A host or peer access that has waited on a MIG page for 10 ms is denied, completing with poison or a denial verdict. Acts on the arguments `id` of the turn. -/
  | migWaitTimeout
  /-- R435. A member's message about a collective arrives: its description for sequence s, or its detection of a failure. Acts on the arguments `part`, `c` of the turn. -/
  | collectiveExchange
  /-- R401. A partition reset finishes its sequence and PSTATE.state returns from 2 to 1. Acts on the arguments `part` of the turn. -/
  | partitionResetDone
  /-- R403. The CXL host port link trains at x16, x8 or x4, or fails to come up. Acts on the arguments `val` of the turn. -/
  | hostPortTraining
deriving DecidableEq, Repr

end Sys2Proof
end

