-- ==== Sys2Proof/Decode.lean ====
section
/-! DEFINITION. The decoder and the encoder of instruction words, both written from the match, mask and field
columns of the opcode table. A word that no row of the table matches is rejected by name; what its fields hold
(R25) is `Instr.wellFormed`'s. -/

namespace Sys2Proof

/-- Why bytes are not an instruction of the table. -/
inductive DecodeError where
  /-- Fewer than four bytes are left. -/
  | short
  /-- No row of the opcode table matches the word (R22 to R25). -/
  | noRow
deriving DecidableEq, Repr

/-- Bits [lo + n - 1 : lo] of a word as a number. -/
def bits (w : Word) (lo n : Nat) : Nat := w.toNat / 2 ^ lo % 2 ^ n

/-- The switch marker, bit 31 (R20). -/
def marker (w : Word) : Bool := bits w 31 1 == 1

/-- Bits [lo + n - 1 : lo] of a word as a field. -/
def fld (w : Word) (lo n : Nat) : BitVec n := BitVec.ofNat n (w.toNat / 2 ^ lo)

/-- The rows of major opcodes 0x00 to 0x0F (R22). -/
def decode0 (w : Word) : Option Instr :=
  if bits w 24 7 = 0 ∧ bits w 0 24 = 0 then some .nop else
  if bits w 31 1 = 0 ∧ bits w 24 7 = 1 then
    some (.pfxImm (fld w 0 24)) else
  if bits w 31 1 = 0 ∧ bits w 24 7 = 2 then
    some (.pfxImx (fld w 0 24)) else
  if bits w 31 1 = 0 ∧ bits w 24 7 = 3 then
    some (.pfxMod (fld w 21 3) (fld w 18 3) (fld w 16 2) (fld w 12 4) (fld w 7 5) (fld w 6 1) (fld w 5 1) (fld w 3 2) (fld w 0 3)) else
  if bits w 31 1 = 0 ∧ bits w 24 7 = 4 then
    some (.pfxPatch (fld w 0 24)) else
  if bits w 31 1 = 0 ∧ bits w 24 7 = 5 ∧ bits w 3 21 = 0 then
    some (.pfxSched (fld w 2 1) (fld w 0 2)) else
  if bits w 31 1 = 0 ∧ bits w 24 7 = 6 ∧ bits w 7 17 = 0 then
    some (.pfxSplit (fld w 0 7)) else
  if bits w 24 7 = 7 then
    some (.bra (fld w 0 24)) else
  if bits w 24 7 = 8 then
    some (.brs (fld w 16 8) (fld w 0 16)) else
  if bits w 24 7 = 9 then
    some (.brm (fld w 20 4) (fld w 16 4) (fld w 0 16)) else
  if bits w 24 7 = 0xa then
    some (.call (fld w 16 8) (fld w 0 16)) else
  if bits w 24 7 = 0xb ∧ bits w 16 8 = 0 ∧ bits w 0 8 = 0 then
    some (.jmpi (fld w 8 8)) else
  if bits w 24 7 = 0xb ∧ bits w 16 8 = 0 ∧ bits w 0 8 = 1 then
    some (.ret (fld w 8 8)) else
  if bits w 24 7 = 0xc ∧ bits w 0 24 = 0 then some .exit else
  if bits w 24 7 = 0xd ∧ bits w 12 12 = 0 then
    some (.yieldNow (fld w 0 12)) else
  if bits w 24 7 = 0xd ∧ bits w 20 4 = 1 then
    some (.yieldReg (fld w 12 8) (fld w 0 12)) else
  if bits w 24 7 = 0xd ∧ bits w 20 4 = 2 then
    some (.yieldOc (fld w 17 3) (fld w 12 5) (fld w 0 12)) else
  if bits w 24 7 = 0xd ∧ bits w 20 4 = 3 then
    some (.yieldSleep (fld w 12 8) (fld w 0 12)) else
  if bits w 24 7 = 0xe ∧ bits w 0 16 = 0 then
    some (.trap (fld w 16 8)) else
  if bits w 24 7 = 0xe ∧ bits w 0 16 = 2 then
    some (.bkpt (fld w 16 8)) else
  if bits w 24 7 = 0xe ∧ bits w 0 24 = 1 then some .trapRetRetry else
  if bits w 24 7 = 0xe ∧ bits w 0 24 = 0x10001 then some .trapRetNext else
  if bits w 24 7 = 0xe ∧ bits w 0 24 = 0x20001 then some .trapRetAbort else
  if bits w 24 7 = 0xf ∧ bits w 0 24 = 0 then some .fence else
  if bits w 24 7 = 0xf ∧ bits w 0 24 = 1 then some .ifence else
  if bits w 24 7 = 0xf ∧ bits w 0 8 = 2 then
    some (.icinv (fld w 16 8) (fld w 8 8)) else
  none

/-- The rows of major opcodes 0x10 to 0x1F (R22). -/
def decode1 (w : Word) : Option Instr :=
  if bits w 24 7 = 0x10 then
    some (.sadd (fld w 16 8) (fld w 8 8) (fld w 0 8)) else
  if bits w 24 7 = 0x11 then
    some (.ssub (fld w 16 8) (fld w 8 8) (fld w 0 8)) else
  if bits w 24 7 = 0x12 then
    some (.smul (fld w 16 8) (fld w 8 8) (fld w 0 8)) else
  if bits w 24 7 = 0x13 then
    some (.smulh (fld w 16 8) (fld w 8 8) (fld w 0 8)) else
  if bits w 24 7 = 0x14 then
    some (.smulhn (fld w 16 8) (fld w 8 8) (fld w 0 8)) else
  if bits w 24 7 = 0x15 then
    some (.sdiv (fld w 16 8) (fld w 8 8) (fld w 0 8)) else
  if bits w 24 7 = 0x16 then
    some (.sdivn (fld w 16 8) (fld w 8 8) (fld w 0 8)) else
  if bits w 24 7 = 0x17 then
    some (.srem (fld w 16 8) (fld w 8 8) (fld w 0 8)) else
  if bits w 24 7 = 0x18 then
    some (.sremn (fld w 16 8) (fld w 8 8) (fld w 0 8)) else
  if bits w 24 7 = 0x19 then
    some (.sand (fld w 16 8) (fld w 8 8) (fld w 0 8)) else
  if bits w 24 7 = 0x1a then
    some (.sor (fld w 16 8) (fld w 8 8) (fld w 0 8)) else
  if bits w 24 7 = 0x1b then
    some (.sxor (fld w 16 8) (fld w 8 8) (fld w 0 8)) else
  if bits w 24 7 = 0x1c then
    some (.sshl (fld w 16 8) (fld w 8 8) (fld w 0 8)) else
  if bits w 24 7 = 0x1d then
    some (.sshr (fld w 16 8) (fld w 8 8) (fld w 0 8)) else
  if bits w 24 7 = 0x1e then
    some (.ssar (fld w 16 8) (fld w 8 8) (fld w 0 8)) else
  if bits w 24 7 = 0x1f then
    some (.ssel (fld w 16 8) (fld w 8 8) (fld w 0 8)) else
  none

/-- The rows of major opcodes 0x20 to 0x2F (R22). -/
def decode2 (w : Word) : Option Instr :=
  if bits w 24 7 = 0x20 then
    some (.smin (fld w 16 8) (fld w 8 8) (fld w 0 8)) else
  if bits w 24 7 = 0x21 then
    some (.smax (fld w 16 8) (fld w 8 8) (fld w 0 8)) else
  if bits w 24 7 = 0x22 then
    some (.sminn (fld w 16 8) (fld w 8 8) (fld w 0 8)) else
  if bits w 24 7 = 0x23 then
    some (.smaxn (fld w 16 8) (fld w 8 8) (fld w 0 8)) else
  if bits w 24 7 = 0x24 then
    some (.saddi (fld w 16 8) (fld w 8 8) (fld w 0 8)) else
  if bits w 24 7 = 0x25 then
    some (.sli (fld w 16 8) (fld w 0 16)) else
  if bits w 24 7 = 0x26 then
    some (.slih (fld w 16 8) (fld w 0 16)) else
  if bits w 24 7 = 0x27 then
    some (.scmp (fld w 16 8) (fld w 8 8) (fld w 0 8)) else
  if bits w 24 7 = 0x28 then
    some (.scmpn (fld w 16 8) (fld w 8 8) (fld w 0 8)) else
  if bits w 24 7 = 0x29 ∧ bits w 0 8 = 0 then
    some (.sunPopc (fld w 16 8) (fld w 8 8)) else
  if bits w 24 7 = 0x29 ∧ bits w 0 8 = 1 then
    some (.sunClz (fld w 16 8) (fld w 8 8)) else
  if bits w 24 7 = 0x29 ∧ bits w 0 8 = 2 then
    some (.sunCtz (fld w 16 8) (fld w 8 8)) else
  if bits w 24 7 = 0x29 ∧ bits w 0 8 = 3 then
    some (.sunBrev (fld w 16 8) (fld w 8 8)) else
  if bits w 24 7 = 0x29 ∧ bits w 0 8 = 4 then
    some (.sunBswap (fld w 16 8) (fld w 8 8)) else
  if bits w 24 7 = 0x29 ∧ bits w 0 8 = 5 then
    some (.sunNot (fld w 16 8) (fld w 8 8)) else
  if bits w 24 7 = 0x29 ∧ bits w 0 8 = 6 then
    some (.sunNeg (fld w 16 8) (fld w 8 8)) else
  if bits w 24 7 = 0x29 ∧ bits w 0 8 = 7 then
    some (.sunAbs (fld w 16 8) (fld w 8 8)) else
  if bits w 24 7 = 0x2a ∧ bits w 7 1 = 0 then
    some (.satom (fld w 16 8) (fld w 8 8) (fld w 6 1) (fld w 5 1) (fld w 4 1) (fld w 0 4)) else
  if bits w 24 7 = 0x2b ∧ bits w 12 4 = 0 then
    some (.srd (fld w 16 8) (fld w 0 12)) else
  if bits w 24 7 = 0x2c ∧ bits w 12 4 = 0 then
    some (.swr (fld w 16 8) (fld w 0 12)) else
  if bits w 24 7 = 0x2d ∧ bits w 6 2 = 0 then
    some (.sld (fld w 16 8) (fld w 8 8) (fld w 5 1) (fld w 3 2) (fld w 0 3)) else
  if bits w 24 7 = 0x2e ∧ bits w 5 3 = 0 then
    some (.sst (fld w 16 8) (fld w 8 8) (fld w 3 2) (fld w 0 3)) else
  if bits w 24 7 = 0x2f ∧ bits w 0 6 = 0 then
    some (.sfpAdd (fld w 16 8) (fld w 8 8) (fld w 6 2)) else
  if bits w 24 7 = 0x2f ∧ bits w 0 6 = 1 then
    some (.sfpSub (fld w 16 8) (fld w 8 8) (fld w 6 2)) else
  if bits w 24 7 = 0x2f ∧ bits w 0 6 = 2 then
    some (.sfpMul (fld w 16 8) (fld w 8 8) (fld w 6 2)) else
  if bits w 24 7 = 0x2f ∧ bits w 0 6 = 3 then
    some (.sfpDiv (fld w 16 8) (fld w 8 8) (fld w 6 2)) else
  if bits w 24 7 = 0x2f ∧ bits w 0 6 = 4 then
    some (.sfpSqrt (fld w 16 8) (fld w 8 8) (fld w 6 2)) else
  if bits w 24 7 = 0x2f ∧ bits w 0 6 = 5 then
    some (.sfpMin (fld w 16 8) (fld w 8 8) (fld w 6 2)) else
  if bits w 24 7 = 0x2f ∧ bits w 0 6 = 6 then
    some (.sfpMax (fld w 16 8) (fld w 8 8) (fld w 6 2)) else
  if bits w 24 7 = 0x2f ∧ bits w 0 6 = 7 then
    some (.sfpEq (fld w 16 8) (fld w 8 8) (fld w 6 2)) else
  if bits w 24 7 = 0x2f ∧ bits w 0 6 = 8 then
    some (.sfpLt (fld w 16 8) (fld w 8 8) (fld w 6 2)) else
  if bits w 24 7 = 0x2f ∧ bits w 0 6 = 9 then
    some (.sfpLe (fld w 16 8) (fld w 8 8) (fld w 6 2)) else
  if bits w 24 7 = 0x2f ∧ bits w 0 6 = 0xa then
    some (.sfpCvti (fld w 16 8) (fld w 8 8) (fld w 6 2)) else
  if bits w 24 7 = 0x2f ∧ bits w 0 6 = 0xb then
    some (.sfpCvtf (fld w 16 8) (fld w 8 8) (fld w 6 2)) else
  none

/-- The rows of major opcodes 0x30 to 0x3F (R22). -/
def decode3 (w : Word) : Option Instr :=
  if bits w 24 7 = 0x30 ∧ bits w 0 8 = 0 then
    some (.pset (fld w 16 8) (fld w 8 8)) else
  if bits w 24 7 = 0x30 ∧ bits w 0 8 = 1 then
    some (.psetLive (fld w 16 8) (fld w 8 8)) else
  if bits w 24 7 = 0x31 ∧ bits w 0 8 = 0 then
    some (.pget (fld w 16 8) (fld w 8 8)) else
  if bits w 24 7 = 0x32 then
    some (.plog (fld w 16 8) (fld w 8 8) (fld w 4 4) (fld w 0 4)) else
  if bits w 24 7 = 0x33 ∧ bits w 0 8 = 0 then
    some (.pfirst (fld w 16 8) (fld w 8 8)) else
  if bits w 24 7 = 0x33 ∧ bits w 0 8 = 1 then
    some (.plast (fld w 16 8) (fld w 8 8)) else
  if bits w 24 7 = 0x34 ∧ bits w 0 8 = 0 then
    some (.pcnt (fld w 16 8) (fld w 8 8)) else
  if bits w 24 7 = 0x35 ∧ bits w 3 5 = 0 then
    some (.mode (fld w 16 8) (fld w 8 8) (fld w 0 3)) else
  if bits w 24 7 = 0x36 ∧ bits w 0 16 = 0 then
    some (.vlane (fld w 16 8)) else
  if bits w 24 7 = 0x36 ∧ bits w 0 16 = 1 then
    some (.vlaneBlk (fld w 16 8)) else
  if bits w 24 7 = 0x36 ∧ bits w 0 16 = 2 then
    some (.vlaneQuad (fld w 16 8)) else
  if bits w 24 7 = 0x37 ∧ bits w 0 8 = 0 then
    some (.vmovs (fld w 16 8) (fld w 8 8)) else
  if bits w 24 7 = 0x37 ∧ bits w 5 3 = 4 then
    some (.vmovsLane (fld w 16 8) (fld w 8 8) (fld w 0 5)) else
  if bits w 24 7 = 0x38 ∧ bits w 0 8 = 0 then
    some (.vmov (fld w 16 8) (fld w 8 8)) else
  if bits w 24 7 = 0x39 then
    some (.smovv (fld w 16 8) (fld w 8 8) (fld w 0 8)) else
  if bits w 24 7 = 0x3a then
    some (.vseti (fld w 16 8) (fld w 0 16)) else
  if bits w 24 7 = 0x3b ∧ bits w 0 8 = 0 then
    some (.xset (fld w 16 8) (fld w 8 8)) else
  if bits w 24 7 = 0x3b ∧ bits w 0 8 = 1 then
    some (.xadd (fld w 16 8) (fld w 8 8)) else
  if bits w 24 7 = 0x3c ∧ bits w 0 8 = 0 then
    some (.xget (fld w 16 8) (fld w 8 8)) else
  if bits w 24 7 = 0x3d ∧ bits w 6 2 = 0 then
    some (.ld (fld w 16 8) (fld w 8 8) (fld w 5 1) (fld w 3 2) (fld w 0 3)) else
  if bits w 24 7 = 0x3e ∧ bits w 5 3 = 0 then
    some (.st (fld w 16 8) (fld w 8 8) (fld w 3 2) (fld w 0 3)) else
  if bits w 24 7 = 0x3f ∧ bits w 7 1 = 0 then
    some (.atom (fld w 16 8) (fld w 8 8) (fld w 6 1) (fld w 5 1) (fld w 4 1) (fld w 0 4)) else
  none

/-- The rows of major opcodes 0x40 to 0x4F (R22). -/
def decode4 (w : Word) : Option Instr :=
  if bits w 24 7 = 0x40 then
    some (.vadd (fld w 16 8) (fld w 8 8) (fld w 0 8)) else
  if bits w 24 7 = 0x41 then
    some (.vsub (fld w 16 8) (fld w 8 8) (fld w 0 8)) else
  if bits w 24 7 = 0x42 then
    some (.vadds (fld w 16 8) (fld w 8 8) (fld w 0 8)) else
  if bits w 24 7 = 0x43 then
    some (.vsubs (fld w 16 8) (fld w 8 8) (fld w 0 8)) else
  if bits w 24 7 = 0x44 then
    some (.vmul (fld w 16 8) (fld w 8 8) (fld w 0 8)) else
  if bits w 24 7 = 0x45 then
    some (.vmulh (fld w 16 8) (fld w 8 8) (fld w 0 8)) else
  if bits w 24 7 = 0x46 then
    some (.vmad (fld w 16 8) (fld w 8 8) (fld w 0 8)) else
  if bits w 24 7 = 0x47 then
    some (.vand (fld w 16 8) (fld w 8 8) (fld w 0 8)) else
  if bits w 24 7 = 0x48 then
    some (.vor (fld w 16 8) (fld w 8 8) (fld w 0 8)) else
  if bits w 24 7 = 0x49 then
    some (.vxor (fld w 16 8) (fld w 8 8) (fld w 0 8)) else
  if bits w 24 7 = 0x4a then
    some (.vshl (fld w 16 8) (fld w 8 8) (fld w 0 8)) else
  if bits w 24 7 = 0x4b then
    some (.vshr (fld w 16 8) (fld w 8 8) (fld w 0 8)) else
  if bits w 24 7 = 0x4c then
    some (.vsar (fld w 16 8) (fld w 8 8) (fld w 0 8)) else
  if bits w 24 7 = 0x4d then
    some (.vmin (fld w 16 8) (fld w 8 8) (fld w 0 8)) else
  if bits w 24 7 = 0x4e then
    some (.vmax (fld w 16 8) (fld w 8 8) (fld w 0 8)) else
  if bits w 24 7 = 0x4f then
    some (.vabsd (fld w 16 8) (fld w 8 8) (fld w 0 8)) else
  none

/-- The rows of major opcodes 0x50 to 0x5F (R22). -/
def decode5 (w : Word) : Option Instr :=
  if bits w 24 7 = 0x50 ∧ bits w 0 8 = 0 then
    some (.vbitPopc (fld w 16 8) (fld w 8 8)) else
  if bits w 24 7 = 0x50 ∧ bits w 0 8 = 1 then
    some (.vbitClz (fld w 16 8) (fld w 8 8)) else
  if bits w 24 7 = 0x50 ∧ bits w 0 8 = 2 then
    some (.vbitCtz (fld w 16 8) (fld w 8 8)) else
  if bits w 24 7 = 0x50 ∧ bits w 0 8 = 3 then
    some (.vbitBrev (fld w 16 8) (fld w 8 8)) else
  if bits w 24 7 = 0x50 ∧ bits w 0 8 = 4 then
    some (.vbitNot (fld w 16 8) (fld w 8 8)) else
  if bits w 24 7 = 0x50 ∧ bits w 0 8 = 5 then
    some (.vbitNeg (fld w 16 8) (fld w 8 8)) else
  if bits w 24 7 = 0x50 ∧ bits w 0 8 = 6 then
    some (.vbitAbs (fld w 16 8) (fld w 8 8)) else
  if bits w 24 7 = 0x51 then
    some (.vaddi (fld w 16 8) (fld w 8 8) (fld w 0 8)) else
  if bits w 24 7 = 0x52 then
    some (.vshli (fld w 16 8) (fld w 8 8) (fld w 0 8)) else
  if bits w 24 7 = 0x53 then
    some (.vshri (fld w 16 8) (fld w 8 8) (fld w 0 8)) else
  if bits w 24 7 = 0x54 then
    some (.vsari (fld w 16 8) (fld w 8 8) (fld w 0 8)) else
  if bits w 24 7 = 0x55 then
    some (.vcmpp (fld w 20 4) (fld w 16 4) (fld w 8 8) (fld w 0 8)) else
  if bits w 24 7 = 0x56 then
    some (.vmuli (fld w 16 8) (fld w 8 8) (fld w 0 8)) else
  if bits w 24 7 = 0x57 then
    some (.vltm (fld w 16 8) (fld w 8 8) (fld w 0 8)) else
  if bits w 24 7 = 0x58 then
    some (.vsel (fld w 16 8) (fld w 8 8) (fld w 0 8)) else
  if bits w 24 7 = 0x59 then
    some (.vdot (fld w 16 8) (fld w 8 8) (fld w 0 8)) else
  if bits w 24 7 = 0x5a then
    some (.vdots (fld w 16 8) (fld w 8 8) (fld w 0 8)) else
  if bits w 24 7 = 0x5b ∧ bits w 4 4 = 0 then
    some (.vswzXor (fld w 16 8) (fld w 8 8) (fld w 0 4)) else
  if bits w 24 7 = 0x5b ∧ bits w 4 4 = 4 then
    some (.vswzBcst (fld w 16 8) (fld w 8 8) (fld w 0 4)) else
  if bits w 24 7 = 0x5b ∧ bits w 4 4 = 8 then
    some (.vswzRot (fld w 16 8) (fld w 8 8) (fld w 0 4)) else
  if bits w 24 7 = 0x5b ∧ bits w 0 8 = 0xc0 then
    some (.vswzRev (fld w 16 8) (fld w 8 8)) else
  if bits w 24 7 = 0x5c then
    some (.vpack (fld w 16 8) (fld w 8 8) (fld w 0 8)) else
  if bits w 24 7 = 0x5d ∧ bits w 0 8 = 0 then
    some (.vunpkLo (fld w 16 8) (fld w 8 8)) else
  if bits w 24 7 = 0x5d ∧ bits w 0 8 = 1 then
    some (.vunpkHi (fld w 16 8) (fld w 8 8)) else
  if bits w 24 7 = 0x5e then
    some (.ldk (fld w 16 8) (fld w 0 16)) else
  if bits w 24 7 = 0x5f then
    some (.stk (fld w 16 8) (fld w 0 16)) else
  none

/-- The rows of major opcodes 0x60 to 0x6F (R22). -/
def decode6 (w : Word) : Option Instr :=
  if bits w 24 7 = 0x60 then
    some (.vfadd (fld w 16 8) (fld w 8 8) (fld w 0 8)) else
  if bits w 24 7 = 0x61 then
    some (.vfsub (fld w 16 8) (fld w 8 8) (fld w 0 8)) else
  if bits w 24 7 = 0x62 then
    some (.vfmul (fld w 16 8) (fld w 8 8) (fld w 0 8)) else
  if bits w 24 7 = 0x63 then
    some (.vfma (fld w 16 8) (fld w 8 8) (fld w 0 8)) else
  if bits w 24 7 = 0x64 then
    some (.vfms (fld w 16 8) (fld w 8 8) (fld w 0 8)) else
  if bits w 24 7 = 0x65 then
    some (.vfnma (fld w 16 8) (fld w 8 8) (fld w 0 8)) else
  if bits w 24 7 = 0x66 then
    some (.vfmin (fld w 16 8) (fld w 8 8) (fld w 0 8)) else
  if bits w 24 7 = 0x67 then
    some (.vfmax (fld w 16 8) (fld w 8 8) (fld w 0 8)) else
  if bits w 24 7 = 0x68 then
    some (.vfminm (fld w 16 8) (fld w 8 8) (fld w 0 8)) else
  if bits w 24 7 = 0x69 then
    some (.vfmaxm (fld w 16 8) (fld w 8 8) (fld w 0 8)) else
  if bits w 24 7 = 0x6a then
    some (.veqm (fld w 16 8) (fld w 8 8) (fld w 0 8)) else
  if bits w 24 7 = 0x6b ∧ bits w 0 8 = 0 then
    some (.vfunNeg (fld w 16 8) (fld w 8 8)) else
  if bits w 24 7 = 0x6b ∧ bits w 0 8 = 1 then
    some (.vfunAbs (fld w 16 8) (fld w 8 8)) else
  if bits w 24 7 = 0x6b ∧ bits w 0 8 = 2 then
    some (.vfunRint (fld w 16 8) (fld w 8 8)) else
  if bits w 24 7 = 0x6b ∧ bits w 0 8 = 3 then
    some (.vfunFloor (fld w 16 8) (fld w 8 8)) else
  if bits w 24 7 = 0x6b ∧ bits w 0 8 = 4 then
    some (.vfunCeil (fld w 16 8) (fld w 8 8)) else
  if bits w 24 7 = 0x6b ∧ bits w 0 8 = 5 then
    some (.vfunTrunc (fld w 16 8) (fld w 8 8)) else
  if bits w 24 7 = 0x6b ∧ bits w 0 8 = 6 then
    some (.vfunFract (fld w 16 8) (fld w 8 8)) else
  if bits w 24 7 = 0x6b ∧ bits w 0 8 = 7 then
    some (.vfunRelu (fld w 16 8) (fld w 8 8)) else
  if bits w 24 7 = 0x6b ∧ bits w 0 8 = 8 then
    some (.vfunSign (fld w 16 8) (fld w 8 8)) else
  if bits w 24 7 = 0x6c ∧ bits w 0 8 = 0 then
    some (.vfspecRcp (fld w 16 8) (fld w 8 8)) else
  if bits w 24 7 = 0x6c ∧ bits w 0 8 = 1 then
    some (.vfspecRsqrt (fld w 16 8) (fld w 8 8)) else
  if bits w 24 7 = 0x6c ∧ bits w 0 8 = 2 then
    some (.vfspecSqrt (fld w 16 8) (fld w 8 8)) else
  if bits w 24 7 = 0x6c ∧ bits w 0 8 = 3 then
    some (.vfspecExp2 (fld w 16 8) (fld w 8 8)) else
  if bits w 24 7 = 0x6c ∧ bits w 0 8 = 4 then
    some (.vfspecLog2 (fld w 16 8) (fld w 8 8)) else
  if bits w 24 7 = 0x6c ∧ bits w 0 8 = 5 then
    some (.vfspecSinpi (fld w 16 8) (fld w 8 8)) else
  if bits w 24 7 = 0x6c ∧ bits w 0 8 = 6 then
    some (.vfspecCospi (fld w 16 8) (fld w 8 8)) else
  if bits w 24 7 = 0x6c ∧ bits w 0 8 = 7 then
    some (.vfspecTanh (fld w 16 8) (fld w 8 8)) else
  if bits w 24 7 = 0x6c ∧ bits w 0 8 = 8 then
    some (.vfspecSilu (fld w 16 8) (fld w 8 8)) else
  if bits w 24 7 = 0x6c ∧ bits w 0 8 = 9 then
    some (.vfspecErf (fld w 16 8) (fld w 8 8)) else
  if bits w 24 7 = 0x6d then
    some (.vfdiv (fld w 16 8) (fld w 8 8) (fld w 0 8)) else
  if bits w 24 7 = 0x6e then
    some (.vfscl (fld w 16 8) (fld w 8 8) (fld w 0 8)) else
  if bits w 24 7 = 0x6f ∧ bits w 0 8 = 0 then
    some (.vfkeyMax (fld w 16 8) (fld w 8 8)) else
  if bits w 24 7 = 0x6f ∧ bits w 0 8 = 1 then
    some (.vfkeyMin (fld w 16 8) (fld w 8 8)) else
  if bits w 24 7 = 0x6f ∧ bits w 0 8 = 2 then
    some (.vfkeyInv (fld w 16 8) (fld w 8 8)) else
  none

/-- The rows of major opcodes 0x70 to 0x7F (R22). -/
def decode7 (w : Word) : Option Instr :=
  if bits w 24 7 = 0x70 then
    some (.vcvt (fld w 16 8) (fld w 8 8) (fld w 5 3) (fld w 0 5)) else
  if bits w 24 7 = 0x71 then
    some (.vcvta (fld w 16 8) (fld w 8 8) (fld w 5 3) (fld w 0 5)) else
  if bits w 24 7 = 0x72 ∧ bits w 0 8 = 0 then
    some (.vf6Split (fld w 16 8) (fld w 8 8)) else
  if bits w 24 7 = 0x72 ∧ bits w 0 8 = 1 then
    some (.vf6Join (fld w 16 8) (fld w 8 8)) else
  if bits w 24 7 = 0x73 then
    some (.vshfl (fld w 16 8) (fld w 8 8) (fld w 0 8)) else
  if bits w 24 7 = 0x74 ∧ bits w 5 3 = 0 then
    some (.vbcst (fld w 16 8) (fld w 8 8) (fld w 0 5)) else
  if bits w 24 7 = 0x74 ∧ bits w 0 8 = 0x20 then
    some (.vbcstFirst (fld w 16 8) (fld w 8 8)) else
  if bits w 24 7 = 0x75 ∧ bits w 0 8 = 0 then
    some (.vredAdd (fld w 16 8) (fld w 8 8)) else
  if bits w 24 7 = 0x75 ∧ bits w 0 8 = 1 then
    some (.vredAdds (fld w 16 8) (fld w 8 8)) else
  if bits w 24 7 = 0x75 ∧ bits w 0 8 = 2 then
    some (.vredAddw (fld w 16 8) (fld w 8 8)) else
  if bits w 24 7 = 0x75 ∧ bits w 0 8 = 3 then
    some (.vredMin (fld w 16 8) (fld w 8 8)) else
  if bits w 24 7 = 0x75 ∧ bits w 0 8 = 4 then
    some (.vredMax (fld w 16 8) (fld w 8 8)) else
  if bits w 24 7 = 0x75 ∧ bits w 0 8 = 5 then
    some (.vredAnd (fld w 16 8) (fld w 8 8)) else
  if bits w 24 7 = 0x75 ∧ bits w 0 8 = 6 then
    some (.vredOr (fld w 16 8) (fld w 8 8)) else
  if bits w 24 7 = 0x75 ∧ bits w 0 8 = 7 then
    some (.vredXor (fld w 16 8) (fld w 8 8)) else
  if bits w 24 7 = 0x75 ∧ bits w 0 8 = 8 then
    some (.vredFadd (fld w 16 8) (fld w 8 8)) else
  if bits w 24 7 = 0x75 ∧ bits w 0 8 = 9 then
    some (.vredFmin (fld w 16 8) (fld w 8 8)) else
  if bits w 24 7 = 0x75 ∧ bits w 0 8 = 0xa then
    some (.vredFmax (fld w 16 8) (fld w 8 8)) else
  if bits w 24 7 = 0x76 ∧ bits w 0 8 = 0 then
    some (.vrediMin (fld w 16 8) (fld w 8 8)) else
  if bits w 24 7 = 0x76 ∧ bits w 0 8 = 1 then
    some (.vrediMax (fld w 16 8) (fld w 8 8)) else
  if bits w 24 7 = 0x77 ∧ bits w 5 3 = 0 then
    some (.vscan (fld w 16 8) (fld w 8 8) (fld w 4 1) (fld w 0 4)) else
  if bits w 24 7 = 0x78 ∧ bits w 2 6 = 0 then
    some (.vqxSwap (fld w 16 8) (fld w 8 8) (fld w 0 2)) else
  if bits w 24 7 = 0x78 ∧ bits w 2 6 = 1 then
    some (.vqxBcst (fld w 16 8) (fld w 8 8) (fld w 0 2)) else
  if bits w 24 7 = 0x78 ∧ bits w 0 8 = 8 then
    some (.vqxAdd (fld w 16 8) (fld w 8 8)) else
  if bits w 24 7 = 0x78 ∧ bits w 0 8 = 9 then
    some (.vqxMin (fld w 16 8) (fld w 8 8)) else
  if bits w 24 7 = 0x78 ∧ bits w 0 8 = 0xa then
    some (.vqxMax (fld w 16 8) (fld w 8 8)) else
  if bits w 24 7 = 0x79 ∧ bits w 0 8 = 0 then
    some (.vvoteAny (fld w 16 8) (fld w 8 8)) else
  if bits w 24 7 = 0x79 ∧ bits w 0 8 = 1 then
    some (.vvoteAll (fld w 16 8) (fld w 8 8)) else
  if bits w 24 7 = 0x79 ∧ bits w 0 8 = 2 then
    some (.vvoteBallot (fld w 16 8) (fld w 8 8)) else
  if bits w 24 7 = 0x79 ∧ bits w 0 8 = 3 then
    some (.vvoteUniform (fld w 16 8) (fld w 8 8)) else
  if bits w 24 7 = 0x7a ∧ bits w 2 2 = 0 then
    some (.vvotem (fld w 16 8) (fld w 8 8) (fld w 4 4) (fld w 0 2)) else
  if bits w 24 7 = 0x7b then
    some (.vrot (fld w 16 8) (fld w 8 8) (fld w 0 8)) else
  if bits w 24 7 = 0x7c ∧ bits w 2 6 = 0 then
    some (.mxmma (fld w 20 4) (fld w 16 4) (fld w 8 8) (fld w 1 1) (fld w 0 1)) else
  if bits w 24 7 = 0x7d then
    some (.mxrd (fld w 16 8) (fld w 8 8) (fld w 0 8)) else
  if bits w 24 7 = 0x7e then
    some (.mxwr (fld w 16 8) (fld w 8 8) (fld w 0 8)) else
  if bits w 24 7 = 0x7f ∧ bits w 16 8 = 0 then
    some (.barinit (fld w 8 8) (fld w 0 8)) else
  if bits w 24 7 = 0x7f ∧ bits w 16 8 = 1 then
    some (.bararr (fld w 8 8) (fld w 0 8)) else
  if bits w 24 7 = 0x7f ∧ bits w 16 8 = 2 then
    some (.barwait (fld w 8 8) (fld w 0 8)) else
  if bits w 24 7 = 0x7f ∧ bits w 16 8 = 3 then
    some (.bartry (fld w 8 8) (fld w 0 8)) else
  if bits w 24 7 = 0x7f ∧ bits w 0 24 = 0x40000 then some .bsync else
  if bits w 24 7 = 0x7f ∧ bits w 0 24 = 0x50000 then some .csync else
  if bits w 24 7 = 0x7f ∧ bits w 16 8 = 6 then
    some (.waitc (fld w 8 8) (fld w 0 8)) else
  if bits w 24 7 = 0x7f ∧ bits w 16 8 = 7 then
    some (.slotret (fld w 8 8) (fld w 0 8)) else
  if bits w 24 7 = 0x7f ∧ bits w 16 8 = 0x10 then
    some (.cpt (fld w 8 8) (fld w 0 8)) else
  if bits w 24 7 = 0x7f ∧ bits w 16 8 = 0x11 then
    some (.cpg (fld w 8 8) (fld w 0 8)) else
  if bits w 24 7 = 0x7f ∧ bits w 16 8 = 0x12 then
    some (.cps (fld w 8 8) (fld w 0 8)) else
  if bits w 24 7 = 0x7f ∧ bits w 16 8 = 0x13 then
    some (.cpm (fld w 8 8) (fld w 0 8)) else
  if bits w 24 7 = 0x7f ∧ bits w 16 8 = 0x14 then
    some (.cpred (fld w 8 8) (fld w 0 8)) else
  if bits w 24 7 = 0x7f ∧ bits w 0 24 = 0x150000 then some .cpcan else
  if bits w 24 7 = 0x7f ∧ bits w 16 8 = 0x20 ∧ bits w 0 8 = 0 then
    some (.mxacq (fld w 8 8)) else
  if bits w 24 7 = 0x7f ∧ bits w 0 24 = 0x210000 then some .mxrel else
  if bits w 24 7 = 0x7f ∧ bits w 16 8 = 0x22 ∧ bits w 0 8 = 0 then
    some (.mxfmt (fld w 8 8)) else
  if bits w 24 7 = 0x7f ∧ bits w 16 8 = 0x23 ∧ bits w 4 4 = 0 then
    some (.mxldw (fld w 8 8) (fld w 0 4)) else
  if bits w 24 7 = 0x7f ∧ bits w 16 8 = 0x24 ∧ bits w 4 4 = 0 then
    some (.mxldws (fld w 8 8) (fld w 0 4)) else
  if bits w 24 7 = 0x7f ∧ bits w 16 8 = 0x25 ∧ bits w 0 8 = 0 then
    some (.mxzero (fld w 8 8)) else
  if bits w 24 7 = 0x7f ∧ bits w 16 8 = 0x26 ∧ bits w 0 8 = 0 then
    some (.mxst (fld w 8 8)) else
  if bits w 24 7 = 0x7f ∧ bits w 16 8 = 0x30 ∧ bits w 0 8 = 0 then
    some (.spknot (fld w 8 8)) else
  if bits w 24 7 = 0x7f ∧ bits w 16 8 = 0x31 ∧ bits w 0 8 = 0 then
    some (.spaff (fld w 8 8)) else
  if bits w 24 7 = 0x7f ∧ bits w 16 8 = 0x32 ∧ bits w 0 8 = 0 then
    some (.spldc (fld w 8 8)) else
  if bits w 24 7 = 0x7f ∧ bits w 16 8 = 0x33 ∧ bits w 5 3 = 0 then
    some (.speval (fld w 8 8) (fld w 4 1) (fld w 0 4)) else
  if bits w 24 7 = 0x7f ∧ bits w 16 8 = 0x34 ∧ bits w 0 8 = 0 then
    some (.spgrad (fld w 8 8)) else
  if bits w 24 7 = 0x7f ∧ bits w 16 8 = 0x35 ∧ bits w 0 8 = 0 then
    some (.spdx (fld w 8 8)) else
  if bits w 24 7 = 0x7f ∧ bits w 0 24 = 0x360000 then some .spref else
  if bits w 24 7 = 0x7f ∧ bits w 16 8 = 0x37 ∧ bits w 0 8 = 0 then
    some (.spstc (fld w 8 8)) else
  if bits w 24 7 = 0x7f ∧ bits w 16 8 = 0x38 then
    some (.spcnt (fld w 8 8) (fld w 0 8)) else
  if bits w 24 7 = 0x7f ∧ bits w 16 8 = 0x40 ∧ bits w 0 8 = 0 then
    some (.tnext (fld w 8 8)) else
  if bits w 24 7 = 0x7f ∧ bits w 16 8 = 0x41 then
    some (.tdone (fld w 8 8) (fld w 0 8)) else
  if bits w 24 7 = 0x7f ∧ bits w 16 8 = 0x42 then
    some (.trel (fld w 8 8) (fld w 0 8)) else
  if bits w 24 7 = 0x7f ∧ bits w 16 8 = 0x43 ∧ bits w 0 8 = 0 then
    some (.tstat (fld w 8 8)) else
  if bits w 24 7 = 0x7f ∧ bits w 16 8 = 0x44 ∧ bits w 5 3 = 0 then
    some (.schr (fld w 8 8) (fld w 4 1) (fld w 0 4)) else
  if bits w 24 7 = 0x7f ∧ bits w 16 8 = 0x45 ∧ bits w 4 4 = 0 then
    some (.schw (fld w 8 8) (fld w 0 4)) else
  if bits w 24 7 = 0x7f ∧ bits w 16 8 = 0x46 ∧ bits w 0 8 = 0 then
    some (.schcom (fld w 8 8)) else
  if bits w 24 7 = 0x7f ∧ bits w 16 8 = 0x47 then
    some (.covr (fld w 8 8) (fld w 0 8)) else
  if bits w 24 7 = 0x7f ∧ bits w 16 8 = 0x50 then
    some (.spawn (fld w 8 8) (fld w 0 8)) else
  if bits w 24 7 = 0x7f ∧ bits w 16 8 = 0x60 then
    some (.coll (fld w 8 8) (fld w 0 8)) else
  if bits w 24 7 = 0x7f ∧ bits w 16 8 = 0x61 then
    some (.arqpop (fld w 8 8) (fld w 0 8)) else
  if bits w 24 7 = 0x7f ∧ bits w 16 8 = 0x62 then
    some (.rld (fld w 8 8) (fld w 0 8)) else
  if bits w 24 7 = 0x7f ∧ bits w 16 8 = 0x63 then
    some (.rst (fld w 8 8) (fld w 0 8)) else
  if bits w 24 7 = 0x7f ∧ bits w 16 8 = 0x64 then
    some (.rred (fld w 8 8) (fld w 0 8)) else
  if bits w 24 7 = 0x7f ∧ bits w 16 8 = 0x65 then
    some (.steppop (fld w 8 8) (fld w 0 8)) else
  if bits w 24 7 = 0x7f ∧ bits w 16 8 = 0x66 then
    some (.stepdone (fld w 8 8) (fld w 0 8)) else
  none

/-- What a word holds: its switch marker and its instruction. In a prefix word bit 31 is reserved, so a prefix
decodes only with the marker clear (R20, R28). -/
structure Decoded where
  mark  : Bool
  instr : Instr
deriving DecidableEq, Repr

/-- The instruction that a word holds, by its major opcode (R20, R22). -/
def decodeWord (w : Word) : Except DecodeError Decoded :=
  match (match bits w 28 3 with
    | 0 => decode0 w | 1 => decode1 w | 2 => decode2 w | 3 => decode3 w
    | 4 => decode4 w | 5 => decode5 w | 6 => decode6 w | _ => decode7 w) with
  | some i => .ok ⟨marker w, i⟩
  | none => .error .noRow

/-- A word from its four bytes, the first at the lowest address (R10). -/
def wordOf (b0 b1 b2 b3 : Byte) : Word :=
  BitVec.ofNat 32 (b0.toNat + 256 * b1.toNat + 65536 * b2.toNat + 16777216 * b3.toNat)

/-- The decoder on bytes: the instruction and the bytes after it. -/
def decode : List Byte → Except DecodeError (Decoded × List Byte)
  | b0 :: b1 :: b2 :: b3 :: rest =>
    match decodeWord (wordOf b0 b1 b2 b3) with
    | .ok d => .ok (d, rest)
    | .error e => .error e
  | _ => .error .short

/-- The bits of an instruction's word below the switch marker, as a number; a step of the device has none. -/
def encodeLow : Instr → Option Nat
  | .nop => some (0x00000000)
  | .pfxImm i => some (0x01000000 + i.toNat)
  | .pfxImx i => some (0x02000000 + i.toNat)
  | .pfxMod b n x m t c a o p => some (0x03000000 + b.toNat * 0x200000 + n.toNat * 0x40000 + x.toNat * 0x10000 + m.toNat * 0x1000 + t.toNat * 0x80 + c.toNat * 0x40 + a.toNat * 0x20 + o.toNat * 0x8 + p.toNat)
  | .pfxPatch k => some (0x04000000 + k.toNat)
  | .pfxSched l p => some (0x05000000 + l.toNat * 0x4 + p.toNat)
  | .pfxSplit n => some (0x06000000 + n.toNat)
  | .bra o => some (0x07000000 + o.toNat)
  | .brs a o => some (0x08000000 + a.toNat * 0x10000 + o.toNat)
  | .brm p c o => some (0x09000000 + p.toNat * 0x100000 + c.toNat * 0x10000 + o.toNat)
  | .call d o => some (0x0A000000 + d.toNat * 0x10000 + o.toNat)
  | .jmpi a => some (0x0B000000 + a.toNat * 0x100)
  | .ret a => some (0x0B000001 + a.toNat * 0x100)
  | .exit => some (0x0C000000)
  | .yieldNow o => some (0x0D000000 + o.toNat)
  | .yieldReg a o => some (0x0D100000 + a.toNat * 0x1000 + o.toNat)
  | .yieldOc c n o => some (0x0D200000 + c.toNat * 0x20000 + n.toNat * 0x1000 + o.toNat)
  | .yieldSleep k o => some (0x0D300000 + k.toNat * 0x1000 + o.toNat)
  | .trap c => some (0x0E000000 + c.toNat * 0x10000)
  | .bkpt c => some (0x0E000002 + c.toNat * 0x10000)
  | .trapRetRetry => some (0x0E000001)
  | .trapRetNext => some (0x0E010001)
  | .trapRetAbort => some (0x0E020001)
  | .fence => some (0x0F000000)
  | .ifence => some (0x0F000001)
  | .icinv a b => some (0x0F000002 + a.toNat * 0x10000 + b.toNat * 0x100)
  | .sadd d a b => some (0x10000000 + d.toNat * 0x10000 + a.toNat * 0x100 + b.toNat)
  | .ssub d a b => some (0x11000000 + d.toNat * 0x10000 + a.toNat * 0x100 + b.toNat)
  | .smul d a b => some (0x12000000 + d.toNat * 0x10000 + a.toNat * 0x100 + b.toNat)
  | .smulh d a b => some (0x13000000 + d.toNat * 0x10000 + a.toNat * 0x100 + b.toNat)
  | .smulhn d a b => some (0x14000000 + d.toNat * 0x10000 + a.toNat * 0x100 + b.toNat)
  | .sdiv d a b => some (0x15000000 + d.toNat * 0x10000 + a.toNat * 0x100 + b.toNat)
  | .sdivn d a b => some (0x16000000 + d.toNat * 0x10000 + a.toNat * 0x100 + b.toNat)
  | .srem d a b => some (0x17000000 + d.toNat * 0x10000 + a.toNat * 0x100 + b.toNat)
  | .sremn d a b => some (0x18000000 + d.toNat * 0x10000 + a.toNat * 0x100 + b.toNat)
  | .sand d a b => some (0x19000000 + d.toNat * 0x10000 + a.toNat * 0x100 + b.toNat)
  | .sor d a b => some (0x1A000000 + d.toNat * 0x10000 + a.toNat * 0x100 + b.toNat)
  | .sxor d a b => some (0x1B000000 + d.toNat * 0x10000 + a.toNat * 0x100 + b.toNat)
  | .sshl d a b => some (0x1C000000 + d.toNat * 0x10000 + a.toNat * 0x100 + b.toNat)
  | .sshr d a b => some (0x1D000000 + d.toNat * 0x10000 + a.toNat * 0x100 + b.toNat)
  | .ssar d a b => some (0x1E000000 + d.toNat * 0x10000 + a.toNat * 0x100 + b.toNat)
  | .ssel d a b => some (0x1F000000 + d.toNat * 0x10000 + a.toNat * 0x100 + b.toNat)
  | .smin d a b => some (0x20000000 + d.toNat * 0x10000 + a.toNat * 0x100 + b.toNat)
  | .smax d a b => some (0x21000000 + d.toNat * 0x10000 + a.toNat * 0x100 + b.toNat)
  | .sminn d a b => some (0x22000000 + d.toNat * 0x10000 + a.toNat * 0x100 + b.toNat)
  | .smaxn d a b => some (0x23000000 + d.toNat * 0x10000 + a.toNat * 0x100 + b.toNat)
  | .saddi d a i => some (0x24000000 + d.toNat * 0x10000 + a.toNat * 0x100 + i.toNat)
  | .sli d i => some (0x25000000 + d.toNat * 0x10000 + i.toNat)
  | .slih d i => some (0x26000000 + d.toNat * 0x10000 + i.toNat)
  | .scmp d a f => some (0x27000000 + d.toNat * 0x10000 + a.toNat * 0x100 + f.toNat)
  | .scmpn d a f => some (0x28000000 + d.toNat * 0x10000 + a.toNat * 0x100 + f.toNat)
  | .sunPopc d a => some (0x29000000 + d.toNat * 0x10000 + a.toNat * 0x100)
  | .sunClz d a => some (0x29000001 + d.toNat * 0x10000 + a.toNat * 0x100)
  | .sunCtz d a => some (0x29000002 + d.toNat * 0x10000 + a.toNat * 0x100)
  | .sunBrev d a => some (0x29000003 + d.toNat * 0x10000 + a.toNat * 0x100)
  | .sunBswap d a => some (0x29000004 + d.toNat * 0x10000 + a.toNat * 0x100)
  | .sunNot d a => some (0x29000005 + d.toNat * 0x10000 + a.toNat * 0x100)
  | .sunNeg d a => some (0x29000006 + d.toNat * 0x10000 + a.toNat * 0x100)
  | .sunAbs d a => some (0x29000007 + d.toNat * 0x10000 + a.toNat * 0x100)
  | .satom d a p r w o => some (0x2A000000 + d.toNat * 0x10000 + a.toNat * 0x100 + p.toNat * 0x40 + r.toNat * 0x20 + w.toNat * 0x10 + o.toNat)
  | .srd d i => some (0x2B000000 + d.toNat * 0x10000 + i.toNat)
  | .swr d i => some (0x2C000000 + d.toNat * 0x10000 + i.toNat)
  | .sld d a x p z => some (0x2D000000 + d.toNat * 0x10000 + a.toNat * 0x100 + x.toNat * 0x20 + p.toNat * 0x8 + z.toNat)
  | .sst d a p z => some (0x2E000000 + d.toNat * 0x10000 + a.toNat * 0x100 + p.toNat * 0x8 + z.toNat)
  | .sfpAdd d a t => some (0x2F000000 + d.toNat * 0x10000 + a.toNat * 0x100 + t.toNat * 0x40)
  | .sfpSub d a t => some (0x2F000001 + d.toNat * 0x10000 + a.toNat * 0x100 + t.toNat * 0x40)
  | .sfpMul d a t => some (0x2F000002 + d.toNat * 0x10000 + a.toNat * 0x100 + t.toNat * 0x40)
  | .sfpDiv d a t => some (0x2F000003 + d.toNat * 0x10000 + a.toNat * 0x100 + t.toNat * 0x40)
  | .sfpSqrt d a t => some (0x2F000004 + d.toNat * 0x10000 + a.toNat * 0x100 + t.toNat * 0x40)
  | .sfpMin d a t => some (0x2F000005 + d.toNat * 0x10000 + a.toNat * 0x100 + t.toNat * 0x40)
  | .sfpMax d a t => some (0x2F000006 + d.toNat * 0x10000 + a.toNat * 0x100 + t.toNat * 0x40)
  | .sfpEq d a t => some (0x2F000007 + d.toNat * 0x10000 + a.toNat * 0x100 + t.toNat * 0x40)
  | .sfpLt d a t => some (0x2F000008 + d.toNat * 0x10000 + a.toNat * 0x100 + t.toNat * 0x40)
  | .sfpLe d a t => some (0x2F000009 + d.toNat * 0x10000 + a.toNat * 0x100 + t.toNat * 0x40)
  | .sfpCvti d a t => some (0x2F00000A + d.toNat * 0x10000 + a.toNat * 0x100 + t.toNat * 0x40)
  | .sfpCvtf d a t => some (0x2F00000B + d.toNat * 0x10000 + a.toNat * 0x100 + t.toNat * 0x40)
  | .pset d a => some (0x30000000 + d.toNat * 0x10000 + a.toNat * 0x100)
  | .psetLive d a => some (0x30000001 + d.toNat * 0x10000 + a.toNat * 0x100)
  | .pget d a => some (0x31000000 + d.toNat * 0x10000 + a.toNat * 0x100)
  | .plog d a b o => some (0x32000000 + d.toNat * 0x10000 + a.toNat * 0x100 + b.toNat * 0x10 + o.toNat)
  | .pfirst d a => some (0x33000000 + d.toNat * 0x10000 + a.toNat * 0x100)
  | .plast d a => some (0x33000001 + d.toNat * 0x10000 + a.toNat * 0x100)
  | .pcnt d a => some (0x34000000 + d.toNat * 0x10000 + a.toNat * 0x100)
  | .mode d a f => some (0x35000000 + d.toNat * 0x10000 + a.toNat * 0x100 + f.toNat)
  | .vlane d => some (0x36000000 + d.toNat * 0x10000)
  | .vlaneBlk d => some (0x36000001 + d.toNat * 0x10000)
  | .vlaneQuad d => some (0x36000002 + d.toNat * 0x10000)
  | .vmovs d a => some (0x37000000 + d.toNat * 0x10000 + a.toNat * 0x100)
  | .vmovsLane d a l => some (0x37000080 + d.toNat * 0x10000 + a.toNat * 0x100 + l.toNat)
  | .vmov d a => some (0x38000000 + d.toNat * 0x10000 + a.toNat * 0x100)
  | .smovv d a l => some (0x39000000 + d.toNat * 0x10000 + a.toNat * 0x100 + l.toNat)
  | .vseti d i => some (0x3A000000 + d.toNat * 0x10000 + i.toNat)
  | .xset d a => some (0x3B000000 + d.toNat * 0x10000 + a.toNat * 0x100)
  | .xadd d a => some (0x3B000001 + d.toNat * 0x10000 + a.toNat * 0x100)
  | .xget d a => some (0x3C000000 + d.toNat * 0x10000 + a.toNat * 0x100)
  | .ld d a x p z => some (0x3D000000 + d.toNat * 0x10000 + a.toNat * 0x100 + x.toNat * 0x20 + p.toNat * 0x8 + z.toNat)
  | .st d a p z => some (0x3E000000 + d.toNat * 0x10000 + a.toNat * 0x100 + p.toNat * 0x8 + z.toNat)
  | .atom d a p r w o => some (0x3F000000 + d.toNat * 0x10000 + a.toNat * 0x100 + p.toNat * 0x40 + r.toNat * 0x20 + w.toNat * 0x10 + o.toNat)
  | .vadd d a b => some (0x40000000 + d.toNat * 0x10000 + a.toNat * 0x100 + b.toNat)
  | .vsub d a b => some (0x41000000 + d.toNat * 0x10000 + a.toNat * 0x100 + b.toNat)
  | .vadds d a b => some (0x42000000 + d.toNat * 0x10000 + a.toNat * 0x100 + b.toNat)
  | .vsubs d a b => some (0x43000000 + d.toNat * 0x10000 + a.toNat * 0x100 + b.toNat)
  | .vmul d a b => some (0x44000000 + d.toNat * 0x10000 + a.toNat * 0x100 + b.toNat)
  | .vmulh d a b => some (0x45000000 + d.toNat * 0x10000 + a.toNat * 0x100 + b.toNat)
  | .vmad d a b => some (0x46000000 + d.toNat * 0x10000 + a.toNat * 0x100 + b.toNat)
  | .vand d a b => some (0x47000000 + d.toNat * 0x10000 + a.toNat * 0x100 + b.toNat)
  | .vor d a b => some (0x48000000 + d.toNat * 0x10000 + a.toNat * 0x100 + b.toNat)
  | .vxor d a b => some (0x49000000 + d.toNat * 0x10000 + a.toNat * 0x100 + b.toNat)
  | .vshl d a b => some (0x4A000000 + d.toNat * 0x10000 + a.toNat * 0x100 + b.toNat)
  | .vshr d a b => some (0x4B000000 + d.toNat * 0x10000 + a.toNat * 0x100 + b.toNat)
  | .vsar d a b => some (0x4C000000 + d.toNat * 0x10000 + a.toNat * 0x100 + b.toNat)
  | .vmin d a b => some (0x4D000000 + d.toNat * 0x10000 + a.toNat * 0x100 + b.toNat)
  | .vmax d a b => some (0x4E000000 + d.toNat * 0x10000 + a.toNat * 0x100 + b.toNat)
  | .vabsd d a b => some (0x4F000000 + d.toNat * 0x10000 + a.toNat * 0x100 + b.toNat)
  | .vbitPopc d a => some (0x50000000 + d.toNat * 0x10000 + a.toNat * 0x100)
  | .vbitClz d a => some (0x50000001 + d.toNat * 0x10000 + a.toNat * 0x100)
  | .vbitCtz d a => some (0x50000002 + d.toNat * 0x10000 + a.toNat * 0x100)
  | .vbitBrev d a => some (0x50000003 + d.toNat * 0x10000 + a.toNat * 0x100)
  | .vbitNot d a => some (0x50000004 + d.toNat * 0x10000 + a.toNat * 0x100)
  | .vbitNeg d a => some (0x50000005 + d.toNat * 0x10000 + a.toNat * 0x100)
  | .vbitAbs d a => some (0x50000006 + d.toNat * 0x10000 + a.toNat * 0x100)
  | .vaddi d a i => some (0x51000000 + d.toNat * 0x10000 + a.toNat * 0x100 + i.toNat)
  | .vshli d a i => some (0x52000000 + d.toNat * 0x10000 + a.toNat * 0x100 + i.toNat)
  | .vshri d a i => some (0x53000000 + d.toNat * 0x10000 + a.toNat * 0x100 + i.toNat)
  | .vsari d a i => some (0x54000000 + d.toNat * 0x10000 + a.toNat * 0x100 + i.toNat)
  | .vcmpp p c a b => some (0x55000000 + p.toNat * 0x100000 + c.toNat * 0x10000 + a.toNat * 0x100 + b.toNat)
  | .vmuli d a i => some (0x56000000 + d.toNat * 0x10000 + a.toNat * 0x100 + i.toNat)
  | .vltm d a b => some (0x57000000 + d.toNat * 0x10000 + a.toNat * 0x100 + b.toNat)
  | .vsel d a b => some (0x58000000 + d.toNat * 0x10000 + a.toNat * 0x100 + b.toNat)
  | .vdot d a b => some (0x59000000 + d.toNat * 0x10000 + a.toNat * 0x100 + b.toNat)
  | .vdots d a b => some (0x5A000000 + d.toNat * 0x10000 + a.toNat * 0x100 + b.toNat)
  | .vswzXor d a k => some (0x5B000000 + d.toNat * 0x10000 + a.toNat * 0x100 + k.toNat)
  | .vswzBcst d a k => some (0x5B000040 + d.toNat * 0x10000 + a.toNat * 0x100 + k.toNat)
  | .vswzRot d a k => some (0x5B000080 + d.toNat * 0x10000 + a.toNat * 0x100 + k.toNat)
  | .vswzRev d a => some (0x5B0000C0 + d.toNat * 0x10000 + a.toNat * 0x100)
  | .vpack d a b => some (0x5C000000 + d.toNat * 0x10000 + a.toNat * 0x100 + b.toNat)
  | .vunpkLo d a => some (0x5D000000 + d.toNat * 0x10000 + a.toNat * 0x100)
  | .vunpkHi d a => some (0x5D000001 + d.toNat * 0x10000 + a.toNat * 0x100)
  | .ldk d k => some (0x5E000000 + d.toNat * 0x10000 + k.toNat)
  | .stk d k => some (0x5F000000 + d.toNat * 0x10000 + k.toNat)
  | .vfadd d a b => some (0x60000000 + d.toNat * 0x10000 + a.toNat * 0x100 + b.toNat)
  | .vfsub d a b => some (0x61000000 + d.toNat * 0x10000 + a.toNat * 0x100 + b.toNat)
  | .vfmul d a b => some (0x62000000 + d.toNat * 0x10000 + a.toNat * 0x100 + b.toNat)
  | .vfma d a b => some (0x63000000 + d.toNat * 0x10000 + a.toNat * 0x100 + b.toNat)
  | .vfms d a b => some (0x64000000 + d.toNat * 0x10000 + a.toNat * 0x100 + b.toNat)
  | .vfnma d a b => some (0x65000000 + d.toNat * 0x10000 + a.toNat * 0x100 + b.toNat)
  | .vfmin d a b => some (0x66000000 + d.toNat * 0x10000 + a.toNat * 0x100 + b.toNat)
  | .vfmax d a b => some (0x67000000 + d.toNat * 0x10000 + a.toNat * 0x100 + b.toNat)
  | .vfminm d a b => some (0x68000000 + d.toNat * 0x10000 + a.toNat * 0x100 + b.toNat)
  | .vfmaxm d a b => some (0x69000000 + d.toNat * 0x10000 + a.toNat * 0x100 + b.toNat)
  | .veqm d a b => some (0x6A000000 + d.toNat * 0x10000 + a.toNat * 0x100 + b.toNat)
  | .vfunNeg d a => some (0x6B000000 + d.toNat * 0x10000 + a.toNat * 0x100)
  | .vfunAbs d a => some (0x6B000001 + d.toNat * 0x10000 + a.toNat * 0x100)
  | .vfunRint d a => some (0x6B000002 + d.toNat * 0x10000 + a.toNat * 0x100)
  | .vfunFloor d a => some (0x6B000003 + d.toNat * 0x10000 + a.toNat * 0x100)
  | .vfunCeil d a => some (0x6B000004 + d.toNat * 0x10000 + a.toNat * 0x100)
  | .vfunTrunc d a => some (0x6B000005 + d.toNat * 0x10000 + a.toNat * 0x100)
  | .vfunFract d a => some (0x6B000006 + d.toNat * 0x10000 + a.toNat * 0x100)
  | .vfunRelu d a => some (0x6B000007 + d.toNat * 0x10000 + a.toNat * 0x100)
  | .vfunSign d a => some (0x6B000008 + d.toNat * 0x10000 + a.toNat * 0x100)
  | .vfspecRcp d a => some (0x6C000000 + d.toNat * 0x10000 + a.toNat * 0x100)
  | .vfspecRsqrt d a => some (0x6C000001 + d.toNat * 0x10000 + a.toNat * 0x100)
  | .vfspecSqrt d a => some (0x6C000002 + d.toNat * 0x10000 + a.toNat * 0x100)
  | .vfspecExp2 d a => some (0x6C000003 + d.toNat * 0x10000 + a.toNat * 0x100)
  | .vfspecLog2 d a => some (0x6C000004 + d.toNat * 0x10000 + a.toNat * 0x100)
  | .vfspecSinpi d a => some (0x6C000005 + d.toNat * 0x10000 + a.toNat * 0x100)
  | .vfspecCospi d a => some (0x6C000006 + d.toNat * 0x10000 + a.toNat * 0x100)
  | .vfspecTanh d a => some (0x6C000007 + d.toNat * 0x10000 + a.toNat * 0x100)
  | .vfspecSilu d a => some (0x6C000008 + d.toNat * 0x10000 + a.toNat * 0x100)
  | .vfspecErf d a => some (0x6C000009 + d.toNat * 0x10000 + a.toNat * 0x100)
  | .vfdiv d a b => some (0x6D000000 + d.toNat * 0x10000 + a.toNat * 0x100 + b.toNat)
  | .vfscl d a b => some (0x6E000000 + d.toNat * 0x10000 + a.toNat * 0x100 + b.toNat)
  | .vfkeyMax d a => some (0x6F000000 + d.toNat * 0x10000 + a.toNat * 0x100)
  | .vfkeyMin d a => some (0x6F000001 + d.toNat * 0x10000 + a.toNat * 0x100)
  | .vfkeyInv d a => some (0x6F000002 + d.toNat * 0x10000 + a.toNat * 0x100)
  | .vcvt d a r t => some (0x70000000 + d.toNat * 0x10000 + a.toNat * 0x100 + r.toNat * 0x20 + t.toNat)
  | .vcvta d a r t => some (0x71000000 + d.toNat * 0x10000 + a.toNat * 0x100 + r.toNat * 0x20 + t.toNat)
  | .vf6Split d a => some (0x72000000 + d.toNat * 0x10000 + a.toNat * 0x100)
  | .vf6Join d a => some (0x72000001 + d.toNat * 0x10000 + a.toNat * 0x100)
  | .vshfl d a b => some (0x73000000 + d.toNat * 0x10000 + a.toNat * 0x100 + b.toNat)
  | .vbcst d a k => some (0x74000000 + d.toNat * 0x10000 + a.toNat * 0x100 + k.toNat)
  | .vbcstFirst d a => some (0x74000020 + d.toNat * 0x10000 + a.toNat * 0x100)
  | .vredAdd d a => some (0x75000000 + d.toNat * 0x10000 + a.toNat * 0x100)
  | .vredAdds d a => some (0x75000001 + d.toNat * 0x10000 + a.toNat * 0x100)
  | .vredAddw d a => some (0x75000002 + d.toNat * 0x10000 + a.toNat * 0x100)
  | .vredMin d a => some (0x75000003 + d.toNat * 0x10000 + a.toNat * 0x100)
  | .vredMax d a => some (0x75000004 + d.toNat * 0x10000 + a.toNat * 0x100)
  | .vredAnd d a => some (0x75000005 + d.toNat * 0x10000 + a.toNat * 0x100)
  | .vredOr d a => some (0x75000006 + d.toNat * 0x10000 + a.toNat * 0x100)
  | .vredXor d a => some (0x75000007 + d.toNat * 0x10000 + a.toNat * 0x100)
  | .vredFadd d a => some (0x75000008 + d.toNat * 0x10000 + a.toNat * 0x100)
  | .vredFmin d a => some (0x75000009 + d.toNat * 0x10000 + a.toNat * 0x100)
  | .vredFmax d a => some (0x7500000A + d.toNat * 0x10000 + a.toNat * 0x100)
  | .vrediMin d a => some (0x76000000 + d.toNat * 0x10000 + a.toNat * 0x100)
  | .vrediMax d a => some (0x76000001 + d.toNat * 0x10000 + a.toNat * 0x100)
  | .vscan d a e o => some (0x77000000 + d.toNat * 0x10000 + a.toNat * 0x100 + e.toNat * 0x10 + o.toNat)
  | .vqxSwap d a n => some (0x78000000 + d.toNat * 0x10000 + a.toNat * 0x100 + n.toNat)
  | .vqxBcst d a n => some (0x78000004 + d.toNat * 0x10000 + a.toNat * 0x100 + n.toNat)
  | .vqxAdd d a => some (0x78000008 + d.toNat * 0x10000 + a.toNat * 0x100)
  | .vqxMin d a => some (0x78000009 + d.toNat * 0x10000 + a.toNat * 0x100)
  | .vqxMax d a => some (0x7800000A + d.toNat * 0x10000 + a.toNat * 0x100)
  | .vvoteAny d a => some (0x79000000 + d.toNat * 0x10000 + a.toNat * 0x100)
  | .vvoteAll d a => some (0x79000001 + d.toNat * 0x10000 + a.toNat * 0x100)
  | .vvoteBallot d a => some (0x79000002 + d.toNat * 0x10000 + a.toNat * 0x100)
  | .vvoteUniform d a => some (0x79000003 + d.toNat * 0x10000 + a.toNat * 0x100)
  | .vvotem d a p o => some (0x7A000000 + d.toNat * 0x10000 + a.toNat * 0x100 + p.toNat * 0x10 + o.toNat)
  | .vrot d a i => some (0x7B000000 + d.toNat * 0x10000 + a.toNat * 0x100 + i.toNat)
  | .mxmma t n i h y => some (0x7C000000 + t.toNat * 0x100000 + n.toNat * 0x10000 + i.toNat * 0x100 + h.toNat * 0x2 + y.toNat)
  | .mxrd d t c => some (0x7D000000 + d.toNat * 0x10000 + t.toNat * 0x100 + c.toNat)
  | .mxwr a t c => some (0x7E000000 + a.toNat * 0x10000 + t.toNat * 0x100 + c.toNat)
  | .barinit a b => some (0x7F000000 + a.toNat * 0x100 + b.toNat)
  | .bararr a b => some (0x7F010000 + a.toNat * 0x100 + b.toNat)
  | .barwait a b => some (0x7F020000 + a.toNat * 0x100 + b.toNat)
  | .bartry a b => some (0x7F030000 + a.toNat * 0x100 + b.toNat)
  | .bsync => some (0x7F040000)
  | .csync => some (0x7F050000)
  | .waitc c n => some (0x7F060000 + c.toNat * 0x100 + n.toNat)
  | .slotret a b => some (0x7F070000 + a.toNat * 0x100 + b.toNat)
  | .cpt a b => some (0x7F100000 + a.toNat * 0x100 + b.toNat)
  | .cpg a b => some (0x7F110000 + a.toNat * 0x100 + b.toNat)
  | .cps a b => some (0x7F120000 + a.toNat * 0x100 + b.toNat)
  | .cpm a b => some (0x7F130000 + a.toNat * 0x100 + b.toNat)
  | .cpred a b => some (0x7F140000 + a.toNat * 0x100 + b.toNat)
  | .cpcan => some (0x7F150000)
  | .mxacq a => some (0x7F200000 + a.toNat * 0x100)
  | .mxrel => some (0x7F210000)
  | .mxfmt a => some (0x7F220000 + a.toNat * 0x100)
  | .mxldw a n => some (0x7F230000 + a.toNat * 0x100 + n.toNat)
  | .mxldws a n => some (0x7F240000 + a.toNat * 0x100 + n.toNat)
  | .mxzero a => some (0x7F250000 + a.toNat * 0x100)
  | .mxst a => some (0x7F260000 + a.toNat * 0x100)
  | .spknot a => some (0x7F300000 + a.toNat * 0x100)
  | .spaff a => some (0x7F310000 + a.toNat * 0x100)
  | .spldc a => some (0x7F320000 + a.toNat * 0x100)
  | .speval i p t => some (0x7F330000 + i.toNat * 0x100 + p.toNat * 0x10 + t.toNat)
  | .spgrad a => some (0x7F340000 + a.toNat * 0x100)
  | .spdx a => some (0x7F350000 + a.toNat * 0x100)
  | .spref => some (0x7F360000)
  | .spstc a => some (0x7F370000 + a.toNat * 0x100)
  | .spcnt d a => some (0x7F380000 + d.toNat * 0x100 + a.toNat)
  | .tnext d => some (0x7F400000 + d.toNat * 0x100)
  | .tdone a b => some (0x7F410000 + a.toNat * 0x100 + b.toNat)
  | .trel a b => some (0x7F420000 + a.toNat * 0x100 + b.toNat)
  | .tstat d => some (0x7F430000 + d.toNat * 0x100)
  | .schr d g i => some (0x7F440000 + d.toNat * 0x100 + g.toNat * 0x10 + i.toNat)
  | .schw a i => some (0x7F450000 + a.toNat * 0x100 + i.toNat)
  | .schcom d => some (0x7F460000 + d.toNat * 0x100)
  | .covr d a => some (0x7F470000 + d.toNat * 0x100 + a.toNat)
  | .spawn d a => some (0x7F500000 + d.toNat * 0x100 + a.toNat)
  | .coll a b => some (0x7F600000 + a.toNat * 0x100 + b.toNat)
  | .arqpop d a => some (0x7F610000 + d.toNat * 0x100 + a.toNat)
  | .rld d b => some (0x7F620000 + d.toNat * 0x100 + b.toNat)
  | .rst d b => some (0x7F630000 + d.toNat * 0x100 + b.toNat)
  | .rred d b => some (0x7F640000 + d.toNat * 0x100 + b.toNat)
  | .steppop d a => some (0x7F650000 + d.toNat * 0x100 + a.toNat)
  | .stepdone a b => some (0x7F660000 + a.toNat * 0x100 + b.toNat)
  | .lowClassPromotion => none
  | .switchParkWake => none
  | .yieldWake => none
  | .waitcWake => none
  | .barwaitWake => none
  | .icinvAcknowledged => none
  | .splitMissPass => none
  | .groupExitComplete => none
  | .copySegment => none
  | .engineSignal => none
  | .laneCopyVerdict => none
  | .abacusOperation => none
  | .rateIdleIntervalEnd => none
  | .faultRecord => none
  | .mtuinv => none
  | .mtuInvalidationDone => none
  | .rplrel => none
  | .wctl => none
  | .almctlCommit => none
  | .almctlLock => none
  | .almdata => none
  | .preemptRequest => none
  | .resumeRequest => none
  | .abortRequest => none
  | .preemptRequestDone => none
  | .blockPlacement => none
  | .gridReserving => none
  | .completionWrite => none
  | .nopkt => none
  | .dispatch => none
  | .cmaint => none
  | .waitv => none
  | .waitvPoll => none
  | .signal => none
  | .prio => none
  | .commCreate => none
  | .commDestroy => none
  | .commReset => none
  | .cqctlStop => none
  | .cqctlRun => none
  | .pquads => none
  | .partitionReset => none
  | .partitionResetScrub => none
  | .quadrantScrub => none
  | .scrubDone => none
  | .mailboxReport => none
  | .mailboxTranslate => none
  | .mailboxDone => none
  | .checkpointFull => none
  | .checkpointDirty => none
  | .checkpointDone => none
  | .pwrcap => none
  | .clockStep => none
  | .configRegisterWrite => none
  | .moduleReset => none
  | .hostMemRead => none
  | .hostMemWrite => none
  | .linkTrained => none
  | .linkDown => none
  | .peerAccessIn => none
  | .commMemberMessage => none
  | .commCreateTimeout => none
  | .collectiveStart => none
  | .reductionUnitWrite => none
  | .harvestPush => none
  | .collectiveComplete => none
  | .memberLostTimeout => none
  | .coreFault => none
  | .clusterFault => none
  | .patrolScrub => none
  | .fixedLatencyResultWrite => none
  | .memoryResponse => none
  | .illegalEncoding => none
  | .fetchFault => none
  | .migWaitTimeout => none
  | .collectiveExchange => none
  | .partitionResetDone => none
  | .hostPortTraining => none

/-- Whether an instruction word is a prefix (R22). -/
def Instr.isPrefix : Instr → Bool
  | .pfxImm _ | .pfxImx _ | .pfxMod .. | .pfxPatch _ | .pfxSched .. | .pfxSplit _ => true
  | _ => false

/-- The place of the switch marker in a word. -/
def markBit (mark : Bool) : Nat := if mark then 0x80000000 else 0

/-- The word of an instruction with its switch marker; a step of the device has none, and neither has a prefix
with the marker set. -/
def encode (d : Decoded) : Option Word :=
  if d.mark && d.instr.isPrefix then none
  else (encodeLow d.instr).map fun n => BitVec.ofNat 32 (n + markBit d.mark)

/-- The bytes of a word, the lowest address first (R10). -/
def wordBytes (w : Word) : List Byte :=
  [fld w 0 8, fld w 8 8, fld w 16 8, fld w 24 8]

/-- The instruction that the decoder reads from an instruction whose bits are `w`, numbered as the opcode table
numbers them; every instruction of this hardware is one word of 32 bits. -/
def decodeTableWord (nbits w : Nat) : Option Instr :=
  match decode (wordBytes (BitVec.ofNat 32 (w % 2 ^ nbits))) with
  | .ok (d, _) => some d.instr
  | .error _ => none

end Sys2Proof
end

