-- ==== Sys2Proof/Config.lean ====
section
/-! DEFINITION. What the manual leaves open: constants without a value, so that nothing can be proved from one. -/

namespace Sys2Proof.Config

/-- The free values of log entry 2: the outcome that a timing-dependent set of R15 takes, by a running number. -/
opaque free : Nat → BitVec 64

/-- A free byte: what a peer's memory answers (R420), by a running number. -/
opaque freeByte : Nat → Byte

/-- The layout of the save area is not given (R370): the byte that a save writes, by a running number. -/
opaque saveByte : Nat → Byte

/-- The digest of the almanac image that is fused into the part (R220). -/
opaque fusedDigest : BitVec 512

/-- The microcode revision, a constant of the firmware (R398). -/
opaque mcrev : BitVec 32

/-- The translator version, a constant of the firmware (R398). -/
opaque xlat : BitVec 32

/-- The measurement of the firmware that a report names, by byte (R410). -/
opaque firmware : Nat → Byte

/-- The measurement of the microcode, by byte (R410). -/
opaque microcode : Nat → Byte

/-- The package identity registers of function 0, by offset (R404). -/
opaque identity : Nat → BitVec 64

/-- The 1,952 bytes of the module's public identity key, as 244 words of 8 bytes (R410). -/
opaque publicKey : Nat → BitVec 64

/-- Cloastux's certificate for it, by word of 8 bytes; its length is not given (R410). -/
opaque certificate : Nat → BitVec 64

end Sys2Proof.Config
end

