-- ==== Sys2Proof/Machine/State.lean ====
section
/-! DEFINITION. The state of the YMH-4 module, level by level: group, core, block, die, package, fabric.
Every field is plain data. The fields of the model's own are named as such in their docstrings. -/

namespace Sys2Proof.Machine

/-- A sparse register file or memory: keys strictly rising, no key that holds zero; a key that is not listed
reads as zero. -/
abbrev SMap (w : Nat) := List (Nat × BitVec w)

/-- A table of structured things by number: keys strictly rising. -/
abbrev Table (α : Type) := List (Nat × α)

/-! ## The group -/

/-- A register of a group, by file (R45). -/
inductive Reg where
  | s (n : Nat)
  | v (n : Nat)
  | p (n : Nat)
  | x (n : Nat)
deriving DecidableEq, Repr

/-- The five engine classes (R210). -/
inductive EngClass where
  | cp | gt | mx | sp | cl
deriving DecidableEq, Repr

/-- The place of a barrier object (R178): an offset of a block's shared memory, or a pad intermediate address. -/
inductive BarLoc where
  | shared (blk off : Nat)
  | pad (ia : Nat)
deriving DecidableEq, Repr

/-- A fixed-latency result that a consumer may still read as old (R16): the register, its content before the
write by lane (a scalar, predicate or index register uses lane 0), the producer's slot and its distance, the lanes of
that content that are poisoned (R222), and the outstanding results that were issued before the write, with the lanes
that they still write: each belongs to the content before the write (R17). -/
structure Early where
  reg    : Reg
  old    : SMap 64
  slot   : Nat
  dist   : Nat
  bad    : List Nat
  behind : List (Nat × BitVec 32)
deriving DecidableEq, Repr

/-- An outstanding scoreboarded result (R18): its number, its register, the lanes still waited for, the engine
operation that will write it (0: a memory response, whose value the register holds already), and the lanes that a
later instruction has written since (R17). -/
structure Outstanding where
  id    : Nat
  reg   : Reg
  lanes : BitVec 32
  op    : Nat
  ovr   : BitVec 32
deriving DecidableEq, Repr

/-- A deferred CMIX or COLL_MISMATCH of a signalled operation (R243, R436). -/
structure Deferred where
  cause : BitVec 8
  info  : U64
  cls   : EngClass
  seq   : Nat          -- issue number within its class
  order : Nat          -- issue number over all classes
  reg   : Option Reg   -- the status register, or a CPG's vd
  bar   : Option BarLoc  -- the barrier object of a failed collective
  due   : Bool         -- to be raised at the group's next word
deriving DecidableEq, Repr

/-- One replay record (R197): the operation it belongs to and its unfinished lanes. The operand values stand in
the operation. -/
structure Replay where
  op    : Nat
  seq   : Nat
  addr  : U64
  lanes : BitVec 32
  asked : Bool           -- its release waits until its own fault records are taken (R345)
deriving DecidableEq, Repr

/-- The parks of R201, with what each waits for. -/
inductive Park where
  | run
  | sMark
  | yieldNow
  | yieldReg (reg : Nat)
  | yieldOc (c : EngClass) (n : Nat)
  | yieldSleep (till : U64)
  | waitc (c : EngClass) (n : Nat)
  | barwait (sd : Nat) (loc : BarLoc) (phase : BitVec 32) (reinit : Bool)
  | bsync (gen : Nat)
  | icinv (ranges : List (Nat × Nat))
  | splitMiss
  | replay (id : Nat)
  | verdict (op : Nat)
  | wctl (ctx w : Nat) (val : U64)
  | mtuinv (quad : Nat)
  | exiting
deriving DecidableEq, Repr

/-- The pass of a split region (R193). -/
inductive Pass where
  | whole | hit | miss
deriving DecidableEq, Repr

/-- A split region in progress (R190 to R195): first word, length in words, mask, the bundle after the splitting
access, and the pass. -/
structure Split where
  base  : U64
  len   : Nat
  mask  : Option (BitVec 32)
  after : U64
  acc   : Nat            -- the outstanding result of the splitting access
  hit   : BitVec 32
  miss  : BitVec 32
  pass  : Pass
  late  : Bool           -- the model's own: the accesses of the hit pass are performed later (R194, log entry 3)
deriving DecidableEq, Repr

/-- Where an access lands: an offset of shared memory or of the constant block, or a pad byte by intermediate address
and key. -/
inductive Spot where
  | shared (off : Nat)
  | const (off : Nat)
  | pad (ia key : Nat)
deriving DecidableEq, Repr

/-- What an access of the hit pass that has not been performed yet does (R194, R314): a load, a store, or an atomic with its op
and whether it returns the old value. -/
inductive LateKind where
  | ld (sx : Bool)
  | st
  | atom (op : Nat) (ret flush : Bool)
deriving DecidableEq, Repr

/-- An access of the hit pass of a split region that has been issued and not yet performed (R194): its outstanding result, what
it does, the bytes of a lane, its data register, whether it is an SC operation, and its lanes with their places (none: a
helper lane whose access would fault) and operands. -/
structure Late where
  id    : Nat
  kind  : LateKind
  n     : Nat
  vd    : Nat
  sc    : Bool
  lanes : List (Nat × Option Spot × U64 × U64)
deriving DecidableEq, Repr

/-- The subfields of PFX.MOD (R31). -/
structure Mod where
  bank  : BitVec 3
  ind   : BitVec 3
  sel   : BitVec 2
  mask  : BitVec 4
  type  : BitVec 5
  bcast : Bool
  sat   : Bool
  order : BitVec 2
  scope : BitVec 3
deriving DecidableEq, Repr

/-- The bundle in progress (R28): the address at which it was entered, its prefix words so far, what they supply,
and the first prefix word that breaks R27 or R28. -/
structure Bundle where
  entry : U64
  words : List Word
  imm   : Option (BitVec 24)
  imx   : Option (BitVec 24)
  patch : Option (BitVec 24)
  mod   : Option Mod
  sched : Option (Bool × BitVec 2)
  split : Option (BitVec 7)
  rank  : Nat
  bad   : Option (Nat × Word)
deriving DecidableEq, Repr

/-- A number for each engine class. -/
structure PerClass where
  cp : Nat
  gt : Nat
  mx : Nat
  sp : Nat
  cl : Nat
deriving DecidableEq, Repr

/-- A gather of MXMMA or SPEVAL that the group stalls on (R261, R279): its instruction word, whether the data have
arrived, and the gathered rows (row number, bytes, poison of each byte position). -/
structure Gather where
  id   : Nat
  word : Word
  pc   : U64
  done : Bool
  rows : List (Nat × List Byte)
deriving DecidableEq, Repr

/-- One group (R45 to R59). -/
structure Group where
  core     : Nat
  slot     : Nat
  quarter  : Nat
  v        : SMap 64          -- key 32 × register + lane
  s        : SMap 64
  p        : SMap 32          -- p0 to p14; p15 is `live`
  x        : SMap 8
  live     : BitVec 32
  pc       : U64
  resume   : U64
  mode     : BitVec 32
  amax     : BitVec 32
  amaxNan  : Bool
  cmixcnt  : BitVec 32
  oc       : PerClass
  issued   : PerClass         -- operations issued in each class so far
  replay   : Table Replay
  cause    : BitVec 8
  trapPc   : U64
  trapInfo : U64
  handler  : Bool
  scClock  : BitVec 96
  high     : Bool             -- priority class
  promoted : Bool
  stood    : Nat              -- cycles it has stood ready without issuing
  park     : Park
  parkPc   : U64              -- the bundle of the word that parked
  parkAt   : U64              -- the address of that word
  parkS    : Bool             -- that word carried the switch marker (R35)
  split    : Option Split
  bundle   : Bundle
  slotNo   : Nat              -- issue slots taken
  early    : List Early
  pend     : List Outstanding
  deferred : List Deferred
  stack    : SMap 64          -- key 32 × slot + lane
  ahead    : List (Nat × Word)  -- words fetched ahead, by virtual address
  fetchIa  : Option Nat       -- the intermediate address a fetch waits on (R83)
  gather   : Option Gather
  poison   : List (Reg × Nat) -- poisoned registers, with the lane
  nextAt   : U64              -- the cycle of the next issue: checked kernels and F64 words (R115, R203)
  posted   : List Late        -- accesses of a hit pass, in order, that are not yet performed (R194)
  held     : Option Nat       -- the model's own: the first free value of a word that is held to be issued again (R16)
deriving DecidableEq, Repr

/-! ## The abacus -/

/-- The knot registers (R269). -/
structure Knot where
  klo     : BitVec 32
  kinv    : BitVec 32
  g       : Nat
  cubic   : Bool
  clamp   : Nat
  base    : Nat
  bf16    : Bool
  xtype   : Nat
  padbase : U64
deriving DecidableEq, Repr

/-- The format register of MXFMT (R258). -/
structure MxFmt where
  n       : Nat
  accI32  : Bool
  btype   : Nat
  atype   : Nat
  padbase : U64
deriving DecidableEq, Repr

/-- What a queued MX or SP operation does; every operand was read at issue (R256). A place in memory is that of the
first byte: an offset of the block's shared memory, or a pad intermediate address (R335). -/
inductive MxKind where
  | fmt (f : MxFmt)
  | ldw (loc : BarLoc) (slot planes : Nat)
  | zero (tiles slots : BitVec 16)
  | st (loc : BarLoc) (ctl : U64) (rows : List Nat)
  | mma (tile slot : Nat) (sparse : Bool) (rows : List (Nat × List Byte))
  | wr (tile col : Nat) (vals : List (Nat × BitVec 32))
  | rel
  | knot (k : Knot)
  | aff (loc : BarLoc)
  | ldc (loc : BarLoc)
  | eval (tile : Nat) (rows : List (Nat × List Byte))
  | grad (loc : BarLoc) (d1 d2 : U64)
  | grads (loc : BarLoc) (left : List (Nat × Nat × Bool)) (met : List Nat)  -- a running SPGRAD: the entries still to be
                                                       -- updated (offset, F32 code, poison), and the armed objects it has met
  | dx (loc : BarLoc) (d1 : U64)
  | refine
  | stc (loc : BarLoc)
  | cnt (row : Nat) (clear : Bool) (sd : Nat)
  | rd (tile col vd : Nat) (lanes live : BitVec 32)
deriving DecidableEq, Repr

/-- A queued abacus operation of a group. -/
structure MxOp where
  id    : Nat
  gid   : Nat
  kind  : MxKind
deriving DecidableEq, Repr

/-- The abacus of one member core of a block (R247 to R252, R269 to R282). -/
structure Abacus where
  holder   : Option Nat          -- the group that holds it
  relPend  : Bool                -- an MXREL is not yet signalled
  fmt      : MxFmt               -- in force in the queue
  fmtView  : MxFmt               -- of the latest MXFMT issued
  knot     : Knot
  knotView : Knot
  cells    : SMap 256            -- key 64 × row + column
  cellBad  : List Nat            -- poisoned cells
  cellOver : Table (BitVec 16)   -- slots of a poisoned cell overwritten since
  tiles    : SMap 40             -- key 4096 × tile + 64 × row + column
  tileBad  : List Nat
  liveT    : BitVec 16
  liveS    : BitVec 16
  scale    : SMap 32             -- exclusive or with 1.0, so that placement is empty
  bias     : SMap 32
  latch    : Table (SMap 32)     -- valid rows: xp by input
  count    : SMap 32
  least    : Table (BitVec 32)   -- rows with a least u other than +∞
  greatest : Table (BitVec 32)   -- rows with a greatest u other than −∞
  queue    : List MxOp
deriving DecidableEq, Repr

/-! ## The core -/

/-- A member of a gang that has issued a kind-0 YIELD without leading the gang (R87, R205): its block, its number and slot,
and the slots of the quarter's other groups that the quarter serves before it. -/
structure Yielded where
  blk   : Nat
  gid   : Nat
  slot  : Nat
  first : List Nat
deriving DecidableEq, Repr

/-- One quarter's issue state (R87, R202): the slot issued last, the slot that holds the quarter for its bundle, and the
groups that have yielded within a gang. -/
structure Quarter where
  lastSlot : Nat
  lock     : Option Nat
  yielded  : List Yielded
deriving DecidableEq, Repr

/-- One core outside its groups and blocks. -/
structure CoreSt where
  dvsize   : Nat               -- D in units of 4 KiB
  padattr  : BitVec 48
  almImage : SMap 64           -- 8 bytes by image offset / 8
  almAddr  : Nat
  almMeas  : BitVec 512
  almValid : Bool
  almMis   : Bool
  almLock  : Bool
  eccCnt   : BitVec 32
  faulted  : Bool
  clock    : BitVec 96
  quarters : Table Quarter
  icache   : Table Word        -- stale words by intermediate address
  carry    : Option Nat        -- the communicator that has it reserved (R423)
  idle     : Option Nat        -- the cycle at which its abacus's idle interval ends (R217)
deriving DecidableEq, Repr

/-! ## Engine operations -/

/-- Where one byte lies after the windows: block shared memory or an intermediate address. -/
inductive Loc where
  | shared (blk off : Nat)
  | ia (a : Nat)
deriving DecidableEq, Repr

/-- The tensor copies (R225, R433). -/
inductive CopyKind where
  | cpt | cpm | cpred | rld | rst | rred
deriving DecidableEq, Repr

/-- A tensor copy's resolved descriptor (R226 to R228): control word, extents, and for each side its address, the place
of that address and the strides. -/
structure Copy where
  kind    : CopyKind
  ctl     : U64
  ext     : List Nat
  srcVa   : U64
  src     : Loc
  sst     : List Int
  dstVa   : U64
  dst     : Loc
  dstr    : List Int
  cluster : Nat                -- the cluster of the issuing core
deriving DecidableEq, Repr

/-- The memory side's verdict on an engine's access to one element. -/
inductive Tgt where
  | shared (blk off : Nat)
  | key (k stamp : Nat) (dirty : Option Nat)
  | wait (kind : Nat)
  | deny (kind : Nat) (far : Bool)        -- far: the far end's denial (R420)
deriving DecidableEq, Repr

/-- A lane with its verdict. -/
structure LaneTgt where
  lane : Nat
  ia   : Nat
  va   : U64
  data : U64
  tgt  : Tgt
  out  : Bool              -- a pad address that names no byte
deriving DecidableEq, Repr

/-- A lane copy (R242): its word and destination, and for each active lane its number, intermediate address, virtual
address and data; the lanes not yet performed; whether its verdicts are awaited; the word's execution mask; the deferred
conditions that the word has observed; the permitted lanes that are still to be performed and those that have been, where the
lanes are performed one by one (R322); the keys of the armed barrier objects that they have met (R183); and the accesses of its
group that are to be performed before its lanes (R194, R323). -/
structure LaneCopy where
  put     : Bool               -- CPS
  word    : Word
  vd      : Nat
  size    : Nat
  lanes   : List (Nat × Nat × U64 × U64)
  todo    : BitVec 32
  asked   : Bool
  mask    : BitVec 32
  seen    : List Nat
  late    : Bool               -- the model's own: the lanes are performed one by one (log entry 3)
  ready   : List LaneTgt
  landed  : List LaneTgt
  hits    : List Nat
  after   : List Nat           -- the model's own (log entry 3)
deriving DecidableEq, Repr

/-- What an engine operation does. -/
inductive OpKind where
  | copy (c : Copy)
  | lane (l : LaneCopy)
  | abacus (rel : Bool)        -- rel: an MXREL
  | coll (comm coll : Nat) (bar : Option BarLoc)   -- its communicator, collective and barrier object
deriving DecidableEq, Repr

/-- One outstanding engine operation (R211). -/
structure EngOp where
  blk      : Nat
  gid      : Nat
  cls      : EngClass
  seq      : Nat               -- issue number in its class
  status   : Option Nat        -- scalar status register
  kind     : OpKind
  barrier  : Option BarLoc     -- the object it arrives on
  planned  : Nat
  todo     : List Nat          -- segments not yet carried out
  fixups   : List Nat          -- segments on the fix-up list
  fixed    : Nat
  waiting  : List (Nat × Nat)  -- segments that wait, with the page's intermediate address
  denied   : BitVec 8
  code     : Nat               -- highest code so far, by the rank of R234
  written  : Nat               -- in half bytes
  started  : Bool
  finished : Bool
  stamp    : Option U64        -- first byte with a mismatched stamp
  told     : List (Nat × Nat)  -- pages whose fault record has been sent, with the kind (R236)
deriving DecidableEq, Repr

/-! ## The block -/

/-- Where a block stands. -/
inductive BlockSt where
  | resident | saved | resuming
deriving DecidableEq, Repr

/-- One placed block (R293 to R299). -/
structure Block where
  grid     : Nat
  part     : Nat
  ctx      : Nat
  idx      : Nat × Nat × Nat
  cores    : List Nat
  st       : BlockSt
  saveOff  : Nat
  groups   : Table Group
  gen      : Nat
  shared   : SMap 8
  sharedBad : List Nat          -- poisoned 8-byte units
  stackBad : List (Nat × Nat)   -- (group, 32 × slot + lane)
  bars     : List Nat           -- offsets on which a barrier operation has acted
  staged   : Table U64
  abaci    : Table Abacus       -- by member number
  channels : Table (Table (Nat × Nat))  -- channel → core of the cluster → (free slots, initial count)
  lost     : Bool               -- an uncorrectable error in its saved state
deriving DecidableEq, Repr

/-! ## Trees, grids and the dispenser -/

/-- A tree (R357, R358). -/
structure Tree where
  part    : Nat
  die     : Nat
  lane    : Nat
  seed    : Nat
  counter : Nat
  failed  : Option (Nat × Nat × BitVec 8 × U64 × Nat)  -- grid, error, cause, TRAPINFO, core
  word    : Nat
  value   : U64
  flags   : BitVec 8
  vec     : BitVec 16
  ctx     : Nat
deriving DecidableEq, Repr

/-- A SPAWN that has issued and whose launch record cannot be read yet (R363): the group and the register of its result, its
outstanding number, its tree and depth, the address of the record, and the page that the read waits on. -/
structure Spawn where
  blk   : Nat
  gid   : Nat
  reg   : Nat
  tree  : Nat
  depth : Nat
  va    : Nat
  ia    : Nat
  wait  : Nat
deriving DecidableEq, Repr

/-- The kernel header as read at the first placement attempt (R42). -/
structure Header where
  contract  : Nat
  allot     : Nat          -- A
  groups    : Nat
  cores     : Nat
  producer  : Nat
  tuner     : Nat
  flags     : BitVec 8
  shared    : Nat
  stack     : Nat
  code      : Nat
  trap      : Nat
  entry     : Nat
  patches   : Nat
  constSize : Nat          -- bytes
  ext       : List Nat
  atom      : List Nat
deriving DecidableEq, Repr

/-- A live tile handle (R380, R382): the block that it belongs to, the atoms of the TNEXT that created it with their mask bits,
those that it still claims or holds, and whether they are held (R383). -/
structure Handle where
  blk   : Nat
  atoms : List (Nat × Nat)
  left  : List Nat
  held  : Bool
deriving DecidableEq, Repr

/-- A dispenser step that reads fields of the map (R383): the exit (code 0), resumption (1) or pre-emption (2) of a block with
the handles that it had then; a TDONE (code 3) or TREL (0) of a block on a handle, with its mask; a COVR of a group, with the
outstanding result, the register and the first atom. -/
inductive DispStep where
  | owner (code blk : Nat) (handles : List Nat)
  | commit (code blk handle : Nat) (mask : U64)
  | read (blk gid id reg lo : Nat)
deriving DecidableEq, Repr

/-- The dispenser's state of a grid (R376 to R387). -/
structure Disp where
  die     : Nat
  slotOk  : Bool
  order   : BitVec 8
  tile    : U64
  place   : BitVec 512
  season  : BitVec 32
  ext     : List Nat
  atom    : List Nat
  hold    : Bool
  cursor  : Nat
  nextH   : Nat
  handles : Table Handle
  done    : List Nat                 -- atoms that count as done
  mapLoc  : Nat                      -- intermediate address of the map
  zeroed  : Nat                      -- bytes of the map written with zero so far
  wait    : List Nat                 -- the pages of the map that the dispenser waits on, each by an address of it
  pending : List (Nat × Nat)         -- map writes that wait: atom, code
  later   : List DispStep            -- steps that wait for their fields, in order
deriving DecidableEq, Repr

/-- A grid (R357 to R368). -/
structure Grid where
  tree     : Nat
  depth    : Nat
  part     : Nat
  ctx      : Nat
  die      : Nat
  prio     : Nat
  privOk   : Bool           -- its queue's priv bit, or a privileged spawning group
  seed     : Bool
  record   : List Byte      -- its launch record
  hdr      : Option Header
  started  : Bool           -- its constant block and map are ready
  consts   : List Byte
  next     : Nat            -- blocks of x·y·z placed or discarded so far
  failed   : Option (Nat × BitVec 8 × U64 × Nat)  -- error, cause, TRAPINFO, core
  accepted : Nat            -- acceptance order
  mask     : Option (BitVec 512)  -- its placement mask, once read; 0 names every core (R359)
  wait     : Option Nat     -- a page that the front end waits on before its first block
  carry    : Option Nat     -- the communicator whose carry grid it is (R423)
  passed   : U64            -- cycle since which it has been passed over, or all ones
  reserving : Bool
  disp     : Option Disp
deriving DecidableEq, Repr

/-! ## The die -/

/-- One ring of fault or event records (R347), with the records that wait at the arbiter (R345). -/
structure EvQueue where
  base : BitVec 40
  size : Nat
  wr   : BitVec 32
  rd   : BitVec 32
  irq  : Bool
  vec  : BitVec 16
  waiting : List (Nat × List Byte)   -- with the operation that waits at the record, or 0
deriving DecidableEq, Repr

/-- The pre-emption set of a partition on a die (R369). -/
structure Preempt where
  psave  : BitVec 40
  psize  : BitVec 40
  pctx   : Nat
  busy   : Bool
  op     : Nat
  ctx    : Nat               -- the context and the grid of the running request
  grid   : Nat
  blocks : Nat
  badctx : Bool
  nospace : Bool
  todo   : List Nat          -- blocks the request still has to act on
  rplmask : BitVec 32        -- RPLMASK (R347)
  rplrel : U64
deriving DecidableEq, Repr

/-- One command-processor lane (R349). -/
structure Lane where
  ring  : U64
  wrva  : U64
  rd    : BitVec 32
  ctx   : Nat
  k     : Nat
  ceil  : Nat
  prio  : Nat
  priv  : Bool
  state : Nat
  stop  : Bool
  pkt   : Option (List Byte)
  wait  : Option Nat         -- a page it waits on
  stage : Nat                -- progress of a multi-step packet
deriving DecidableEq, Repr

/-- One quadrant (R342, R399). -/
structure Quad where
  state   : Nat
  part    : Nat
  l1base  : BitVec 40
  l1count : Nat
  invVal  : U64
  busy    : Bool
  inv     : List U64         -- MTUINV values whose invalidation runs
  cached  : Table (Nat × U64)  -- entries that the MTU holds: by page, the entry's address and value (R343)
deriving DecidableEq, Repr

/-- One window of a context (R336). -/
structure Window where
  base  : U64
  limit : U64
  off   : U64
  ctl   : BitVec 7
deriving DecidableEq, Repr

/-! ## Package and fabric -/

/-- A partition (R399, R421, R405). -/
structure Part where
  pquads  : BitVec 16
  pclose  : BitVec 16
  state   : Nat
  refused : Bool
  decoders : Table (U64 × U64 × U64)
  routes  : SMap 64
  resetWait : List Nat
  xlat    : List (List Byte × List Byte)   -- keys of translated images, and the images (R409)
deriving DecidableEq, Repr

/-- The mailbox of a function (R407): its registers, the running command, the page it waits on, the input that its channel
has read, the output that the channel still has to write (the status it ends with, the byte offset, the bytes left), and
what it will end with: status and bytes written. -/
structure Mailbox where
  arg0   : U64
  arg1   : U64
  cmd    : Nat
  len    : BitVec 32
  status : Nat
  busy   : Bool
  wait   : Option Nat
  got    : List Byte
  out    : Option (Nat × Nat × List Byte)
  result : Option (Nat × Nat)
deriving DecidableEq, Repr

/-- The checkpoint registers (R414). -/
structure Ckpt where
  dst   : U64
  quads : BitVec 16
  links : BitVec 24
  bytes : BitVec 40
  error : Bool
  busy  : Bool
  op    : Nat
  covers : BitVec 16                -- the quadrants that the running checkpoint covers
  pend  : List (Nat × Nat × Nat)   -- the quadrants whose channel has not ended, with what it sends next: a piece of 2 MiB,
                                   -- or the indices of a table entry (R414, R415)
deriving DecidableEq, Repr

/-- A communicator (R421 to R425): COMMSTAT, the member table, the messages of members that have not been used yet, the
carry cores per die, the reserved cores, the carry grid, the lane whose packet creates or destroys it, and since when. -/
structure Comm where
  part     : Nat
  handle   : Nat
  seq      : BitVec 32
  rank     : Nat
  contract : Nat
  state    : Nat
  members  : List U64
  count    : Nat
  msgs     : List (List Nat)
  perDie   : Nat
  cores    : List Nat
  grid     : Option Nat
  table    : Nat
  record   : Nat
  word     : Nat
  ctx      : Nat
  lane     : Nat
  since    : U64
  told     : Bool              -- its table has been sent to the members
  closing  : Bool              -- a destroy waits for the carry grid to complete
  early    : List (List Nat)   -- descriptions that came before their collective started here (R435)
deriving DecidableEq, Repr

/-- A collective in progress at this member (R429 to R436). -/
structure Collective where
  part    : Nat
  ctx     : Nat
  comm    : Nat
  seq     : BitVec 32
  blk     : Nat
  ops     : Table Nat                -- the COLL of each group of the block
  desc    : List U64
  bar     : Option BarLoc
  die     : Nat
  started : Bool                     -- it has its sequence number
  begun   : Bool                     -- the comparison has passed and its steps are pushed
  failed  : Option Nat
  seen    : Table Nat                -- by rank, the cycle of the member's last flit
  exch    : List Nat                 -- ranks whose description has arrived
  src     : Nat                      -- intermediate addresses of the source and the destination
  dst     : Nat
  left    : List (Nat × Nat)         -- destination bytes not yet written: from, up to
  tiles   : List Nat                 -- tiles announced
  wait    : Option Nat               -- a page that it waits on
  parts   : List (Nat × Nat × Option Nat)   -- contributions held by the reduction unit: element, rank, value or poison
  told    : List (Nat × Nat)         -- pages whose fault record has been sent, with the kind (R436)
deriving DecidableEq, Repr

/-- A step of a collective (R432), until it is ended. -/
structure Step where
  coll   : Nat
  comm   : Nat
  die    : Nat
  kind   : Nat               -- 0 load, 1 store, 2 reduce
  src    : U64
  dst    : U64
  ety    : Nat
  bytes  : Nat
  part   : Nat × Nat         -- the bytes of the collective's destination that a load writes
  popped : Bool
  taken  : List Nat          -- elements of a reduce step that the unit has taken
  sent   : List (Nat × Nat)  -- elements sent to it by an RRED that it has not answered: operation, element
  refused : Bool             -- the unit has refused a contribution
  asked  : Bool              -- STEPDONE was issued for it while it was refused
deriving DecidableEq, Repr

/-- What leaves the module, in order, by kind: 1 a write to a peer, 2 a poisoned write to a peer, 3 a contribution to a
peer's reduction unit, 4 a verdict to a peer, 5 a reply to the host, 6 a message to a member of a communicator, 7 bytes
for the safe tier (R405, R413, R420, R423, R433, R435). -/
structure Out where
  kind : Nat
  dest : Nat
  addr : Nat
  data : List Byte
deriving DecidableEq, Repr

/-- An access of the host or of a peer to a partition's memory (R405, R420): the kind (0 read, 1 write, 2 poisoned write,
3 contribution to a reduction unit), the intermediate address, its bytes, the sending member (none: the host), the
communicator handle and sequence number of a contribution, and since when it waits on a migrating page. -/
structure HostWait where
  part  : Nat
  ia    : Nat
  kind  : Nat
  len   : Nat
  data  : List Byte
  who   : Option (Nat × Nat)
  about : Nat × Nat
  since : U64
deriving DecidableEq, Repr

/-- A line that an L2 slice holds (R332, R333): the place in memory that its page was mapped to when the line was read,
and whether it has been written since. -/
structure L2Line where
  key   : Nat
  dirty : Bool
deriving DecidableEq, Repr

/-- A page copy on a system channel (R239, R344): the partition, the intermediate address read, the memory written, the
bytes in all, those copied, and the page it waits on. -/
structure Chan where
  part : Nat
  src  : Nat
  dst  : Nat
  len  : Nat
  off  : Nat
  wait : Option Nat
deriving DecidableEq, Repr

/-- A kernel image that has been placed on a cluster (R302): cluster, partition, context, image, the ranges of its lines by
intermediate address / 128 (none: its lines passed a bound, and it runs unpinned), and the live grids of it that have been
placed on the cluster. -/
structure Pin where
  cluster : Nat
  part    : Nat
  ctx     : Nat
  image   : Nat
  lines   : List (Nat × Nat)
  grids   : List Nat
deriving DecidableEq, Repr

/-- Whose move is next: the model's own schedule is a list of turns (log entry 1). -/
inductive Turn where
  | issue (core quarter : Nat)                 -- a quarter issues one word (R202)
  | gang (core quarter : Nat) (order : List (Nat × Nat))  -- it issues the words of a gang, in some order (R204, R205)
  | event (i : Instr) (args : List Nat)        -- a step of the device or of its surroundings
  | tick (n : Nat)                             -- n cycles pass
  | cacheEntry (ia : Nat)                      -- the MTU reads the entries of an address and holds them (R343)
  | ctxLoad (part ctx w : Nat) (v : Window)    -- the command processor loads a window at a context's start (R336)
  | fetchAhead (blk gid n : Nat)               -- a group's fetch unit reads n words ahead (R83, R326)
  | icacheFill (core ia : Nat)                 -- an instruction cache holds a word (R326)
  | poisonReg (blk gid : Nat) (r : Reg) (lane : Nat)  -- a double-bit error (R222)
  | poisonMem (addr : Nat)
  | poisonShared (blk unit : Nat)
  | poisonStack (blk gid key : Nat)
  | poisonTile (blk mem key : Nat)
  | poisonCell (blk mem key : Nat)
  | gradEntries (blk mem n : Nat)              -- a running SPGRAD updates its next n entries (R284)
  | icacheDrop (core ia : Nat)                 -- an instruction cache discards a line with an error (R224, R303)
  | corrected (die core : Nat)                 -- a corrected single-bit error (R221, R411)
  | l2Hold (ia : Nat)                          -- an L2 slice reads a line and holds it (R332)
  | l2Evict (ia : Nat)                         -- it gives a line up, written back if dirty (R333)
  | pageCopy (part src dst len : Nat)          -- firmware starts a page copy on a system channel (R344)
  | channel (id : Nat)                         -- a system channel goes on (R239)
  | unitDone (op : Nat)                        -- a peer's reduction unit answers an RRED (R433)
  | lateHits (blk gid : Nat)                   -- from now on the accesses of a group's hit pass are performed later (R194)
  | land (blk gid : Nat)                       -- the oldest of them is performed
  | laneLate (op : Nat)                        -- the lanes of a lane copy are performed one by one (R322)
  | laneLand (op lane : Nat)                   -- one of them is performed
deriving DecidableEq, Repr

/-- The whole machine. -/
structure State where
  cycle    : U64
  modid    : BitVec 8
  clkMhz   : BitVec 16
  pwrCap   : BitVec 16
  links    : Table U64
  hostLanes : Nat
  mem      : List Host.Cell
  memBad   : List Nat                  -- poisoned granules
  padBars  : List Nat                  -- pad addresses on which a barrier operation has acted
  cores    : Table CoreSt
  blocks   : Table Block
  ops      : Table EngOp
  trees    : Table Tree
  grids    : Table Grid
  comps    : Table Nat                  -- completions that wait on a page (R442), by grid or tree
  spawns   : Table Spawn                -- SPAWNs whose record is still to be read, by outstanding number (R363)
  queues   : Table EvQueue             -- key by die, partition and queue
  preempt  : Table Preempt             -- key by die and partition
  susp     : List (Nat × Nat × Nat × Nat)  -- die, partition, context, grid (0: every grid)
  lifted   : List (Nat × Nat × Nat × Nat)  -- grids resumed alone while their context is suspended (R371)
  lanes    : Table Lane                -- key 64 × die + lane
  quads    : Table Quad
  windows  : Table Window              -- key by partition, context and window
  parts    : Table Part
  eccCorr  : SMap 64
  eccUnc   : SMap 64
  eccAddr  : SMap 64
  mailbox  : Table Mailbox
  ckpt     : Ckpt
  comms    : Table Comm                -- key by partition and number
  colls    : Table Collective
  harvest  : Table (List U64)          -- key by die, partition, context and queue
  steps    : Table Step                -- by step id
  pinned   : List Pin
  l2       : Table L2Line              -- held lines, by intermediate address / 128
  chans    : Table Chan                -- page copies on system channels
  hostWaits : Table HostWait
  msix     : List (Nat × Nat)          -- interrupts raised: function, vector
  outbox   : List Out
  free     : Nat                       -- the model's own: counter of free values (log entry 2)
  nextId   : Nat                       -- the model's own: next fresh number
  rot      : Nat                       -- the model's own: rotation of the default order
  cur      : Option (Nat × Nat)        -- the model's own: block and group that issue
  mark     : Bool                      -- the model's own: switch marker of the word that issues (bit 31, R20)
  args     : List Nat                  -- the model's own: the arguments of the step that runs
  schedule : List Turn                 -- the model's own (log entry 1)
deriving DecidableEq, Repr

/-- Why a step stops with a fault. -/
inductive Fault where
  /-- Raised by the meaning of an instruction word when no group issues it (`cur` names none). `step` always names
  one, so this fault only meets a caller of `exec`. Safe: the machine stops where there is nothing to go on with. -/
  | noGroup
deriving DecidableEq, Repr

/-- Why a step is refused. -/
inductive Refusal where
  /-- Raised by `exec` at an instruction that has no meaning yet. Safe: the model stops. -/
  | notModelled (mnemonic : String)
deriving DecidableEq, Repr

/-- The machine right after module reset. Every register stands at the value of its Reset column; what the spec
gives no reset value for is named in log entries 1, 4 and 6. Tables list only what differs from their default, which
is the reset value of each register (`CoreSt.reset`, `Quad.reset`, `EvQueue.reset` and so on). -/
def State.reset : State where
  cycle := 0
  modid := 0
  clkMhz := 1100
  pwrCap := 2400
  links := []
  hostLanes := 0
  mem := []
  memBad := []
  padBars := []
  cores := []
  blocks := []
  ops := []
  trees := []
  grids := []
  comps := []
  spawns := []
  queues := []
  preempt := []
  susp := []
  lifted := []
  lanes := []
  quads := []
  windows := []
  parts := []
  eccCorr := []
  eccUnc := []
  eccAddr := []
  mailbox := []
  ckpt := ⟨0, 0, 0, 0, false, false, 0, 0, []⟩
  comms := []
  colls := []
  harvest := []
  steps := []
  pinned := []
  l2 := []
  chans := []
  hostWaits := []
  msix := []
  outbox := []
  free := 0
  nextId := 1
  rot := 0
  cur := none
  mark := false
  args := []
  schedule := []

end Sys2Proof.Machine
end

