-- ==== Sys2Proof/Machine/Base.lean ====
section
/-! DEFINITION. Named operations over sparse registers, tables, memory and the parts of the state. -/

namespace Sys2Proof.Machine

open Host (Outcome Cell)

/-! ## Sparse registers -/

/-- The value at a key; zero when it is not listed. -/
def SMap.get {w : Nat} (m : SMap w) (k : Nat) : BitVec w :=
  match m with
  | [] => 0
  | (a, v) :: m => if a = k then v else SMap.get m k

/-- Insert an entry before the first higher key. -/
def SMap.insert {w : Nat} (m : SMap w) (k : Nat) (v : BitVec w) : SMap w :=
  match m with
  | [] => [(k, v)]
  | (a, u) :: r => if k < a then (k, v) :: (a, u) :: r else (a, u) :: SMap.insert r k v

/-- Replace the value at a key; zero removes the entry, so that equal contents are equal lists. -/
def SMap.set {w : Nat} (m : SMap w) (k : Nat) (v : BitVec w) : SMap w :=
  let r := m.filter fun p => p.1 != k
  if v = 0 then r else SMap.insert r k v

/-- Replace the values at many keys, in order. -/
def SMap.setMany {w : Nat} (m : SMap w) (l : List (Nat × BitVec w)) : SMap w :=
  l.foldl (fun m p => SMap.set m p.1 p.2) m

/-- The entries with keys from `lo` up to but not including `hi`. -/
def SMap.range {w : Nat} (m : SMap w) (lo hi : Nat) : SMap w :=
  m.filter fun p => lo ≤ p.1 && p.1 < hi

/-! ## Tables -/

/-- The entry at a key. -/
def Table.find {α : Type} (t : Table α) (k : Nat) : Option α :=
  match t with
  | [] => none
  | (a, v) :: r => if a = k then some v else Table.find r k

/-- Put an entry at a key, keeping the keys rising. -/
def Table.put {α : Type} (t : Table α) (k : Nat) (v : α) : Table α :=
  match t with
  | [] => [(k, v)]
  | (a, u) :: r =>
    if k < a then (k, v) :: (a, u) :: r
    else if k = a then (k, v) :: r
    else (a, u) :: Table.put r k v

/-- Remove the entry at a key. -/
def Table.del {α : Type} (t : Table α) (k : Nat) : Table α :=
  t.filter fun p => p.1 != k

/-- Change the entry at a key, if there is one. -/
def Table.adj {α : Type} (t : Table α) (k : Nat) (f : α → α) : Table α :=
  t.map fun p => if p.1 = k then (p.1, f p.2) else p

/-- Change every entry. -/
def Table.mapVal {α : Type} (t : Table α) (f : Nat → α → α) : Table α :=
  t.map fun p => (p.1, f p.1 p.2)

/-! ## Memory (R10, log entry 4)

One space of keys: HBM at its package address (R340), a core's slice from 2^51 + 2^19 × core
(R207), host memory at `hostBase` plus its physical address. -/

/-- The key of host physical address 0. -/
def hostBase : Nat := 2 ^ 60

/-- The key of peer address 0; no byte of a peer stands in memory. -/
def peerBase : Nat := 2 ^ 61

/-- Where the model keeps the bytes of a held L2 line: this key plus the intermediate address (R333). -/
def l2Base : Nat := 2 ^ 59

/-- The key of a byte of a core's die-visible region of `dv` × 4 KiB: pad offset o is slice offset (512 − D) KiB + o
(R207, R329). -/
def padKey (core dv off : Nat) : Nat := 2 ^ 51 + core * 2 ^ 19 + (2 ^ 19 - 4096 * dv) + off

/-- What a byte that nothing has written reads as (log entry 4). -/
def Memory.fill : Byte := 0

/-- The byte at a key. -/
def Memory.get (m : List Cell) (a : Nat) : Byte :=
  match m with
  | [] => Memory.fill
  | (k, b) :: r => if k = a then b else Memory.get r a

/-- List a byte before the first higher key. -/
def Memory.insert (m : List Cell) (a : Nat) (b : Byte) : List Cell :=
  match m with
  | [] => [(a, b)]
  | (k, c) :: r => if a < k then (a, b) :: (k, c) :: r else (k, c) :: Memory.insert r a b

/-- Write one byte, keeping the canonical form: a byte equal to what an unlisted address reads as is not listed. -/
def Memory.set (m : List Cell) (a : Nat) (b : Byte) : List Cell :=
  let r := m.filter fun p => p.1 != a
  if b = Memory.fill then r else Memory.insert r a b

/-- The canonical form, above a bound: keys strictly rising, no entry equal to what an unlisted byte reads as. -/
def Memory.wfFrom (lo : Nat) (m : List Cell) : Bool :=
  match m with
  | [] => true
  | (k, b) :: r => decide (lo ≤ k) && b != Memory.fill && Memory.wfFrom (k + 1) r

/-- Memory in its canonical form. -/
def Memory.wf (m : List Cell) : Bool := Memory.wfFrom 0 m

/-- `n` bytes from a key up. -/
def Memory.read (m : List Cell) (a n : Nat) : List Byte :=
  match n with
  | 0 => []
  | n + 1 => Memory.get m a :: Memory.read m (a + 1) n

/-- Write bytes from a key up. -/
def Memory.write (m : List Cell) (a : Nat) (bs : List Byte) : List Cell :=
  match bs with
  | [] => m
  | b :: r => Memory.write (Memory.set m a b) (a + 1) r

/-- The number of little-endian bytes (R10). -/
def leNat (bs : List Byte) : Nat :=
  match bs with
  | [] => 0
  | b :: r => b.toNat + 256 * leNat r

/-- The `n` little-endian bytes of a number. -/
def leBytes (n v : Nat) : List Byte :=
  match n with
  | 0 => []
  | n + 1 => BitVec.ofNat 8 v :: leBytes n (v / 256)

/-- A little-endian number read from memory. -/
def Memory.num (m : List Cell) (a n : Nat) : Nat := leNat (Memory.read m a n)

/-! ## Numbers -/

/-- The low `n` bits of a number read as two's complement. -/
def sext (n v : Nat) : Int :=
  let u := v % 2 ^ n
  if 2 * u ≥ 2 ^ n then (u : Int) - 2 ^ n else u

/-- An integer as the low 64 bits of its two's complement. -/
def ofInt64 (x : Int) : U64 := BitVec.ofInt 64 x

/-- Bits of a number. -/
def bitsOf (v lo n : Nat) : Nat := v / 2 ^ lo % 2 ^ n

/-- The smallest multiple of `k` that is at least `n`. -/
def roundUp (n k : Nat) : Nat := (n + k - 1) / k * k

/-- Quotient rounded up. -/
def ceilDiv (n k : Nat) : Nat := (n + k - 1) / k

/-- The lanes set in a mask, in increasing order (R14). -/
def lanesOf (m : BitVec 32) : List Nat := (List.range 32).filter fun l => m.getLsbD l

/-- A mask with exactly the lanes of a list. -/
def maskOf (l : List Nat) : BitVec 32 := l.foldl (fun m i => m ||| (1#32 <<< i)) 0

/-! ## Access to the parts of the state -/

/-- A core that nothing has touched: its registers as module reset leaves them (R13, R219, R338). -/
def CoreSt.reset : CoreSt where
  dvsize := 0
  padattr := 0x030303030303
  almImage := []
  almAddr := 0
  almMeas := 0
  almValid := false
  almMis := false
  almLock := false
  eccCnt := 0
  faulted := false
  clock := 0
  quarters := []
  icache := []
  carry := none
  idle := none

/-- A core's state. -/
def State.core (s : State) (c : Nat) : CoreSt := (s.cores.find c).getD CoreSt.reset

/-- Change a core's state. -/
def State.modCore (s : State) (c : Nat) (f : CoreSt → CoreSt) : State :=
  { s with cores := s.cores.put c (f (s.core c)) }

/-- A block. -/
def State.block (s : State) (b : Nat) : Option Block := s.blocks.find b

/-- Change a block. -/
def State.modBlock (s : State) (b : Nat) (f : Block → Block) : State :=
  { s with blocks := s.blocks.adj b f }

/-- A group of a block. -/
def State.group (s : State) (b g : Nat) : Option Group := (s.block b).bind fun k => k.groups.find g

/-- A group of a resident block. -/
def State.resident (s : State) (b g : Nat) : Option Group :=
  (s.block b).bind fun k => if k.st = .resident then k.groups.find g else none

/-- Change a group. -/
def State.modGroup (s : State) (b g : Nat) (f : Group → Group) : State :=
  s.modBlock b fun k => { k with groups := k.groups.adj g f }

/-- Change the group that issues. -/
def State.modCur (s : State) (f : Group → Group) : State :=
  match s.cur with
  | some (b, g) => s.modGroup b g f
  | none => s

/-- The block and the group that issue. -/
def State.curGroup (s : State) : Option (Block × Group) :=
  match s.cur with
  | none => none
  | some (b, g) =>
    match s.block b with
    | none => none
    | some k => (k.groups.find g).map fun r => (k, r)

/-- A quarter's issue state. -/
def CoreSt.quarter (c : CoreSt) (q : Nat) : Quarter := (c.quarters.find q).getD ⟨31, none, []⟩

/-- The grid of a block. -/
def State.gridOf (s : State) (k : Block) : Option Grid := s.grids.find k.grid

/-- A header that nothing has read. -/
def Header.none : Header where
  contract := 0
  allot := 8
  groups := 1
  cores := 1
  producer := 0xFF
  tuner := 0xFF
  flags := 0
  shared := 0
  stack := 0
  code := 0
  trap := 0
  entry := 0x40
  patches := 0
  constSize := 0
  ext := [0, 0, 0, 0]
  atom := [0, 0, 0, 0]

/-- The kernel header that governs a block (R362). -/
def State.hdr (s : State) (k : Block) : Header :=
  ((s.gridOf k).bind fun g => g.hdr).getD Header.none

/-- The effective contract of a header (R58, R215). -/
def Header.eff (h : Header) : Nat := if h.contract = 0 then 4 else h.contract

/-- Whether the kernel is checked (R37). -/
def Header.checked (h : Header) : Bool := h.flags.getLsbD 1

/-- Whether a grid's groups are privileged (R44). -/
def Grid.privileged (g : Grid) : Bool :=
  g.privOk && (g.hdr.map fun h => h.flags.getLsbD 5).getD false

/-- Whether the groups of a block are privileged (R44). -/
def State.privileged (s : State) (k : Block) : Bool := ((s.gridOf k).map Grid.privileged).getD false

/-- The die of a core (R58). -/
def dieOf (core : Nat) : Nat := core / 128

/-- The package cluster of a core. -/
def clusterOf (core : Nat) : Nat := core / 8

/-- The package quadrant of a core (R4, R329). -/
def quadOf (core : Nat) : Nat := core / 32

/-- The number of an argument of a step of the device. -/
def State.arg (s : State) (n : Nat) : Nat := s.args.getD n 0

/-- The next free value (R15): whichever of two outcomes occurs. -/
def State.flip (s : State) : Bool × State :=
  ((Config.free s.free).getLsbD 0, { s with free := s.free + 1 })

/-! ## Registers of a group -/

/-- A scalar register; s0 reads as zero (R45). -/
def Group.getS (g : Group) (n : Nat) : U64 := if n = 0 then 0 else g.s.get n

/-- A predicate register; p15 is the live mask (R45). -/
def Group.getP (g : Group) (n : Nat) : BitVec 32 := if n = 15 then g.live else g.p.get n

/-- An index register. -/
def Group.getX (g : Group) (n : Nat) : BitVec 8 := g.x.get n

/-- One lane of a vector register. -/
def Group.getV (g : Group) (n l : Nat) : U64 := g.v.get (32 * n + l)

/-- Write a scalar register; a write to s0 is discarded (R45). A whole write ends the register's poison (R222). -/
def Group.setS (g : Group) (n : Nat) (v : U64) : Group :=
  if n = 0 then g else { g with s := g.s.set n v, poison := g.poison.filter fun p => p.1 != .s n }

/-- Write a predicate register; p15 is read-only (R45). -/
def Group.setP (g : Group) (n : Nat) (v : BitVec 32) : Group :=
  if n ≥ 15 then g else { g with p := g.p.set n v, poison := g.poison.filter fun p => p.1 != .p n }

/-- Write an index register. -/
def Group.setX (g : Group) (n : Nat) (v : BitVec 8) : Group :=
  { g with x := g.x.set n v, poison := g.poison.filter fun p => p.1 != .x n }

/-- Write one lane of a vector register. -/
def Group.setV (g : Group) (n l : Nat) (v : U64) : Group :=
  { g with v := g.v.set (32 * n + l) v, poison := g.poison.filter fun p => p != (.v n, l) }

/-- Write a vector register in the lanes of a list. -/
def Group.setVs (g : Group) (n : Nat) (ls : List Nat) (f : Nat → U64) : Group :=
  ls.foldl (fun g l => g.setV n l (f l)) g

/-- A register's content by lane; a register that is not a vector register uses lane 0. -/
def Group.content (g : Group) (r : Reg) : SMap 64 :=
  match r with
  | .s n => SMap.set [] 0 (g.getS n)
  | .p n => SMap.set [] 0 ((g.getP n).setWidth 64)
  | .x n => SMap.set [] 0 ((g.getX n).setWidth 64)
  | .v n => (g.v.range (32 * n) (32 * n + 32)).map fun e => (e.1 - 32 * n, e.2)

/-- The group with a register's whole content replaced (R16). -/
def Group.withContent (g : Group) (r : Reg) (c : SMap 64) : Group :=
  match r with
  | .s n => { g with s := g.s.set n (c.get 0) }
  | .p n => { g with p := g.p.set n ((c.get 0).setWidth 32) }
  | .x n => { g with x := g.x.set n ((c.get 0).setWidth 8) }
  | .v n => { g with v := (List.range 32).foldl (fun m l => SMap.set m (32 * n + l) (c.get l)) g.v }

/-- The group with a register as it was before an early result, its poison included (R16, R222). -/
def Group.asOld (g : Group) (e : Early) : Group :=
  { g.withContent e.reg e.old with
    poison := (g.poison.filter fun p => p.1 != e.reg) ++ e.bad.map fun l => (e.reg, l) }

/-- An older outstanding result that lands in a lane belongs to the content before a later early write (R17, R18). -/
def Early.take (e : Early) (id : Nat) (r : Reg) (lane : Nat) (v : U64) (bad : Bool) : Early :=
  if e.reg == r && e.behind.any (fun b => b.1 == id && b.2.getLsbD lane) then
    { e with old := e.old.set lane v, bad := (e.bad.filter (· != lane)) ++ (if bad then [lane] else []) }
  else e

/-- A result that lands takes its place in the old contents of its register. -/
def Group.landOld (g : Group) (id : Nat) (r : Reg) (lane : Nat) (v : U64) (bad : Bool) : Group :=
  { g with early := g.early.map fun e => e.take id r lane v bad }

/-- Write the bits of a predicate register that a mask names; the register is wholly overwritten, and its poison ends,
when the mask names every bit (R47, R222). -/
def Group.setPBits (g : Group) (n : Nat) (m v : BitVec 32) : Group :=
  let r := g.setP n ((g.getP n &&& ~~~m) ||| (v &&& m))
  if m = 0xFFFFFFFF then r else { r with poison := g.poison }

/-- Every outstanding fixed-latency result completes (R36). -/
def Group.settle (g : Group) : Group := { g with early := [] }

/-- A number of a class. -/
def PerClass.get (p : PerClass) (c : EngClass) : Nat :=
  match c with
  | .cp => p.cp | .gt => p.gt | .mx => p.mx | .sp => p.sp | .cl => p.cl

/-- Replace the number of a class. -/
def PerClass.set (p : PerClass) (c : EngClass) (n : Nat) : PerClass :=
  match c with
  | .cp => { p with cp := n } | .gt => { p with gt := n } | .mx => { p with mx := n }
  | .sp => { p with sp := n } | .cl => { p with cl := n }

/-- The class of a code (R189, R210). -/
def EngClass.ofCode (n : Nat) : Option EngClass :=
  match n with
  | 0 => some .cp | 1 => some .gt | 2 => some .mx | 3 => some .sp | 4 => some .cl | _ => none

/-- An empty bundle entered at an address (R28). -/
def Bundle.empty (pc : U64) : Bundle := ⟨pc, [], none, none, none, none, none, none, 0, none⟩

/-! ## The abacus of a member -/

/-- The knot registers at their Reset values (R269). -/
def Knot.reset : Knot := ⟨0, 0x3F800000, 1, true, 0, 0, false, 0, 0⟩

/-- The format register at its Reset values (R258). -/
def MxFmt.reset : MxFmt := ⟨0, false, 0x12, 0x12, 0⟩

/-- An abacus when its block is placed (R251, R252, R271, R281, R282). -/
def Abacus.reset : Abacus where
  holder := none
  relPend := false
  fmt := MxFmt.reset
  fmtView := MxFmt.reset
  knot := Knot.reset
  knotView := Knot.reset
  cells := []
  cellBad := []
  cellOver := []
  tiles := []
  tileBad := []
  liveT := 0
  liveS := 0
  scale := []
  bias := []
  latch := []
  count := []
  least := []
  greatest := []
  queue := []

/-- A cell is poisoned: none of its slots counts as overwritten since (R222, R265). -/
def Abacus.spoilCell (a : Abacus) (key : Nat) : Abacus :=
  { a with cellBad := if a.cellBad.contains key then a.cellBad else key :: a.cellBad, cellOver := a.cellOver.del key }

/-- The abacus of a member. -/
def Block.abacus (k : Block) (m : Nat) : Abacus := (k.abaci.find m).getD Abacus.reset

/-- The member number of a core in a block. -/
def Block.member (k : Block) (core : Nat) : Nat := (k.cores.idxOf? core).getD 0

end Sys2Proof.Machine
end

