-- ==== Sys2Proof/WellFormed.lean ====
section
/-! DEFINITION. Which decoded words allocate every value they hold (R25): the checks on fields that the match and
mask columns of the opcode table leave free. A word that fails one is malformed and raises ILLEGAL (R26). -/

namespace Sys2Proof

/-- The element type codes that R61 defines. -/
def typeDefined (t : Nat) : Bool := t ≤ 0x09 || (0x10 ≤ t && t ≤ 0x18)

/-- The size and sign fields of a load (R106): sizes 5 to 7 are reserved, and a 64-bit or 128-bit load does not
extend its sign. -/
def loadFnOk (x : BitVec 1) (space : BitVec 2) (size : BitVec 3) : Bool :=
  space.toNat ≤ 2 && size.toNat ≤ 4 && (x = 0 || size.toNat ≤ 2)

/-- The fn byte of a store (R106): no store to const. -/
def storeFnOk (space : BitVec 2) (size : BitVec 3) : Bool := space.toNat ≤ 1 && size.toNat ≤ 4

/-- Every value that the word holds is allocated by its instruction's entry (R25). -/
def Instr.wellFormed (i : Instr) : Bool :=
  match i with
  | .pfxSched _ p => p != 3                               -- R27
  | .pfxSplit n => 1 ≤ n.toNat && n.toNat ≤ 64            -- R27
  | .pfxMod _ n x _ t _ _ _ p =>                          -- R31: sel needs an ind bit; type and scope are defined
    (x = 0 || n != 0) && (typeDefined t.toNat || t = 0x1F) && p.toNat ≤ 5
  | .brm _ c _ => c.toNat ≤ 3                             -- R82
  | .yieldOc c _ _ => c.toNat ≤ 4                         -- R85
  | .scmp _ _ f | .scmpn _ _ f => f.toNat ≤ 5             -- R99
  | .satom _ _ _ _ _ o | .atom _ _ _ _ _ o => o.toNat ≤ 10  -- R172
  | .sld _ _ x p z | .ld _ _ x p z => loadFnOk x p z      -- R106
  | .sst _ _ p z | .st _ _ p z => storeFnOk p z
  | .pset d _ | .psetLive d _ => d.toNat ≤ 14             -- R47, R103
  | .pget _ a | .pfirst _ a | .plast _ a | .pcnt _ a => a.toNat ≤ 15
  | .plog d a _ o => d.toNat ≤ 14 && a.toNat ≤ 15 && o.toNat ≤ 7
  | .smovv _ _ l => l.toNat ≤ 31                          -- R102
  | .xset d _ | .xadd d _ => d.toNat ≤ 3
  | .xget _ a => a.toNat ≤ 3
  | .vcmpp p _ _ _ => p != 15                             -- R47
  | .vcvt _ _ r t | .vcvta _ _ r t => r.toNat ≤ 4 && typeDefined t.toNat  -- R142
  | .vscan _ _ _ o => o.toNat ≤ 8                         -- R159
  | .vqxSwap _ _ n => n != 0                              -- R160
  | .mxmma _ n _ _ y => y = 0 || n.getLsbD 0 = false      -- R255: an even slot for a sparse plane
  | .mxrd _ t c | .mxwr _ t c => t.toNat ≤ 15 && c.toNat ≤ 63
  | .mxldws _ n => n.getLsbD 0 = false
  | .mxacq a => a.toNat ≤ 14
  | .waitc c n => c.toNat ≤ 4 && n.toNat ≤ 63             -- R189
  | _ => true

end Sys2Proof
end

