-- ==== Sys2Proof/Machine/Operands.lean ====
section
/-! DEFINITION. Operand forms: for every instruction word its operand fields, what each names and how it is used,
the prefixes it can use (R29 to R31), the element types it accepts (R112, R149) and its latency class (R22, R33). -/

namespace Sys2Proof.Machine

/-- The register files that operand fields name. -/
inductive RegFile where
  | s | v | p | x
deriving DecidableEq, Repr

/-- One operand: the field F1, F2 or F3 that a bank or ind bit of PFX.MOD reaches (0: none), the number in the
field, the file, the length of the run, and whether it is read and written. -/
structure Opnd where
  pos  : Nat
  num  : Nat
  file : RegFile
  run  : Nat
  rd   : Bool
  wr   : Bool
deriving DecidableEq, Repr

/-- Latency classes (R22, R33). -/
inductive Lat where
  | none | A | B | C | V
deriving DecidableEq, Repr

/-- Instruction families that need a flag of the kernel header (R25). -/
inductive Fam where
  | none | mat | spl
deriving DecidableEq, Repr

/-- The operand form of an instruction word. -/
structure Shape where
  ops        : List Opnd := []
  imm        : Option (Nat × Nat) := none   -- width and content of the own immediate field (R30)
  mask       : Bool := false
  types      : Option (List Nat) := none    -- accepted codes, when it takes the vector element type
  byContract : Bool := false                -- and only those that the contract allows (R138, R149)
  bcast      : Bool := false
  sat        : List Nat := []               -- types with which sat is usable (R113)
  orders     : List Nat := []               -- nonzero orders that it accepts
  scope      : Bool := false
  helpers    : Bool := false
  lat        : Lat := .none
  cls        : Option EngClass := none      -- the class that counts it (R210)
  region     : Bool := false                -- may stand in a split region (R191)
  xlane      : Bool := false                -- reads lanes in its own way (R150)
  fam        : Fam := .none
  noMod      : Bool := false                -- takes no PFX.MOD at all (R85, R93)
  moves      : Bool := false                -- only moves elements: 1 cycle for every type (R150)
deriving DecidableEq, Repr

/-- The distance of a latency class (R33). -/
def Lat.dist (l : Lat) : Nat :=
  match l with
  | .A => 4 | .B => 6 | .C => 16 | _ => 0

/-- An operand that is read. -/
def rd {n : Nat} (pos : Nat) (f : RegFile) (r : BitVec n) (run : Nat := 1) : Opnd := ⟨pos, r.toNat, f, run, true, false⟩

/-- An operand that is written. -/
def wr {n : Nat} (pos : Nat) (f : RegFile) (r : BitVec n) (run : Nat := 1) : Opnd := ⟨pos, r.toNat, f, run, false, true⟩

/-- An operand that is read and written. -/
def up {n : Nat} (pos : Nat) (f : RegFile) (r : BitVec n) (run : Nat := 1) : Opnd := ⟨pos, r.toNat, f, run, true, true⟩

/-- INT of R112. -/
def tINT : List Nat := [0, 1, 2, 3, 4, 5, 6, 7, 8, 9]
/-- FA of R112. -/
def tFA : List Nat := [0x10, 0x11, 0x12, 0x13]
/-- INT and FA. -/
def tNUM : List Nat := tINT ++ tFA
/-- Every defined type (R61). -/
def tALL : List Nat := tNUM ++ [0x14, 0x15, 0x16, 0x17, 0x18]
/-- The types of VPACK. -/
def tPACK : List Nat := [0, 4, 1, 5, 2, 6, 3, 7]
/-- The types of VUNPK. -/
def tUNPK : List Nat := [8, 9, 0, 4, 1, 5, 2, 6]
/-- The types of VFSPEC. -/
def tSPEC : List Nat := [0x11, 0x12, 0x13]
/-- The types of VFKEY. -/
def tKEY : List Nat := tFA ++ [0x14, 0x15]
/-- The factor types of VDOT and VDOTS. -/
def tDOT : List Nat := [0, 4, 8, 9, 0x12, 0x13, 0x14, 0x15, 0x16, 0x17, 0x18]
/-- The types of VRED.fadd. -/
def tRFADD : List Nat := [0x11, 0x12, 0x13, 0x14, 0x15, 0x16, 0x17, 0x18]
/-- The types of width 8 or more (R149, R242). -/
def tW8 : List Nat := [0, 1, 2, 3, 4, 5, 6, 7, 0x10, 0x11, 0x12, 0x13, 0x14, 0x15, 0x16, 0x17]

/-- The width in bits of a type (R61); an FP6 type counts its container. -/
def typeWidth (t : Nat) : Nat :=
  match t with
  | 0 | 4 | 0x14 | 0x15 | 0x16 | 0x17 => 8
  | 1 | 5 | 0x12 | 0x13 => 16
  | 2 | 6 | 0x11 => 32
  | 8 | 9 | 0x18 => 4
  | _ => 64

/-- The elements of a type in one lane (R53). -/
def typeElems (t : Nat) : Nat := 64 / typeWidth t

/-- Whether a type is a signed integer, and whether it is an integer (R61). -/
def typeSigned (t : Nat) : Bool := t ≤ 3 || t == 8

/-- Whether a type is an integer type. -/
def typeInt (t : Nat) : Bool := t ≤ 9

/-- The registers of VCVT's destination run (R142). -/
def cvtRun (ty dst : Nat) : Nat := max 1 (typeWidth dst / typeWidth ty)

/-- The almanac entry of a contract (R214). -/
def almEntry (c : Nat) : Nat :=
  match c with
  | 0 | 4 => 0x00000007FFCA07F0
  | 1 => 0x0000000C01958B04
  | 2 => 0x000000080FA98368
  | 3 => 0x00000007FFB987F0
  | _ => 0

/-- Whether an almanac entry allows a factor type (R213): N8 counts with I8, N4 with I4; F32 needs no permission
in VRED.fadd (R149). -/
def contractAllows (c t : Nat) : Bool :=
  let e := almEntry c
  match t with
  | 0x12 => e.testBit 23 | 0 | 4 => e.testBit 24 | 0x13 => e.testBit 25 | 0x14 => e.testBit 26
  | 0x15 => e.testBit 27 | 0x16 => e.testBit 28 | 0x17 => e.testBit 29 | 0x18 => e.testBit 30
  | 8 | 9 => e.testBit 31 | 0x11 => true | _ => false

/-- The operand form of every instruction word, by its entry; a step of the device has none. `ty` is the element
type in force (R112). VCVT and VCVTA stand in a region: what they fold into AMAX is no write of a special register that R191
bars there (DESIGN CHOICE, log entry 54). -/
def shapeOf (i : Instr) (ty : Nat) : Shape :=
  match i with
  | .nop => { region := true }
  | .pfxImm _ => {}
  | .pfxImx _ => {}
  | .pfxMod _ _ _ _ _ _ _ _ _ => {}
  | .pfxPatch _ => {}
  | .pfxSched _ _ => {}
  | .pfxSplit _ => {}
  | .bra _ => {}
  | .brs a _ => { ops := [rd 1 .s a] }
  | .brm p _ _ => { ops := [rd 0 .p p] }
  | .call d _ => { ops := [wr 1 .s d], lat := .A }
  | .jmpi a => { ops := [rd 2 .s a] }
  | .ret a => { ops := [rd 2 .s a] }
  | .exit => {}
  | .yieldNow _ => { noMod := true }
  | .yieldReg _ _ => { noMod := true }
  | .yieldOc _ _ _ => { noMod := true }
  | .yieldSleep _ _ => { noMod := true }
  | .trap _ => {}
  | .bkpt _ => {}
  | .trapRetRetry => {}
  | .trapRetNext => {}
  | .trapRetAbort => {}
  | .fence => { scope := true, orders := [1, 2, 3] }
  | .ifence => { noMod := true }
  | .icinv a b => { ops := [rd 1 .s a, rd 2 .s b] }
  | .sadd d a b => { ops := [wr 1 .s d, rd 2 .s a, rd 3 .s b], lat := .A }
  | .ssub d a b => { ops := [wr 1 .s d, rd 2 .s a, rd 3 .s b], lat := .A }
  | .smul d a b => { ops := [wr 1 .s d, rd 2 .s a, rd 3 .s b], lat := .B }
  | .smulh d a b => { ops := [wr 1 .s d, rd 2 .s a, rd 3 .s b], lat := .B }
  | .smulhn d a b => { ops := [wr 1 .s d, rd 2 .s a, rd 3 .s b], lat := .B }
  | .sdiv d a b => { ops := [wr 1 .s d, rd 2 .s a, rd 3 .s b], lat := .C }
  | .sdivn d a b => { ops := [wr 1 .s d, rd 2 .s a, rd 3 .s b], lat := .C }
  | .srem d a b => { ops := [wr 1 .s d, rd 2 .s a, rd 3 .s b], lat := .C }
  | .sremn d a b => { ops := [wr 1 .s d, rd 2 .s a, rd 3 .s b], lat := .C }
  | .sand d a b => { ops := [wr 1 .s d, rd 2 .s a, rd 3 .s b], lat := .A }
  | .sor d a b => { ops := [wr 1 .s d, rd 2 .s a, rd 3 .s b], lat := .A }
  | .sxor d a b => { ops := [wr 1 .s d, rd 2 .s a, rd 3 .s b], lat := .A }
  | .sshl d a b => { ops := [wr 1 .s d, rd 2 .s a, rd 3 .s b], lat := .A }
  | .sshr d a b => { ops := [wr 1 .s d, rd 2 .s a, rd 3 .s b], lat := .A }
  | .ssar d a b => { ops := [wr 1 .s d, rd 2 .s a, rd 3 .s b], lat := .A }
  | .ssel d a b => { ops := [up 1 .s d, rd 2 .s a, rd 3 .s b], lat := .A }
  | .smin d a b => { ops := [wr 1 .s d, rd 2 .s a, rd 3 .s b], lat := .A }
  | .smax d a b => { ops := [wr 1 .s d, rd 2 .s a, rd 3 .s b], lat := .A }
  | .sminn d a b => { ops := [wr 1 .s d, rd 2 .s a, rd 3 .s b], lat := .A }
  | .smaxn d a b => { ops := [wr 1 .s d, rd 2 .s a, rd 3 .s b], lat := .A }
  | .saddi d a i => { ops := [wr 1 .s d, rd 2 .s a], imm := some (8, i.toNat), lat := .A }
  | .sli d i => { ops := [wr 1 .s d], imm := some (16, i.toNat), lat := .A }
  | .slih d i => { ops := [up 1 .s d], imm := some (16, i.toNat), lat := .A }
  | .scmp d a _ => { ops := [up 1 .s d, rd 2 .s a], lat := .A }
  | .scmpn d a _ => { ops := [up 1 .s d, rd 2 .s a], lat := .A }
  | .sunPopc d a => { ops := [wr 1 .s d, rd 2 .s a], lat := .A }
  | .sunClz d a => { ops := [wr 1 .s d, rd 2 .s a], lat := .A }
  | .sunCtz d a => { ops := [wr 1 .s d, rd 2 .s a], lat := .A }
  | .sunBrev d a => { ops := [wr 1 .s d, rd 2 .s a], lat := .A }
  | .sunBswap d a => { ops := [wr 1 .s d, rd 2 .s a], lat := .A }
  | .sunNot d a => { ops := [wr 1 .s d, rd 2 .s a], lat := .A }
  | .sunNeg d a => { ops := [wr 1 .s d, rd 2 .s a], lat := .A }
  | .sunAbs d a => { ops := [wr 1 .s d, rd 2 .s a], lat := .A }
  | .satom d a _ r _ o => { ops := [rd 1 .s d (if o = 8 then 2 else 1), wr 1 .s d (if r = 1 then 1 else 0), rd 2 .s a], imm := some (0, 0), orders := [1, 2, 3], scope := true, lat := if r = 1 then .V else .none }
  | .srd d _ => { ops := [wr 1 .s d], lat := .A }
  | .swr d _ => { ops := [up 1 .s d], lat := .A }
  | .sld d a _ _ z => { ops := [wr 1 .s d (if z = 4 then 2 else 1), rd 2 .s a], imm := some (0, 0), scope := true, orders := [1, 3], lat := .V }
  | .sst d a _ z => { ops := [rd 1 .s d (if z = 4 then 2 else 1), rd 2 .s a], imm := some (0, 0), scope := true, orders := [2, 3] }
  | .sfpAdd d a _ => { ops := [up 1 .s d, rd 2 .s a], lat := .B }
  | .sfpSub d a _ => { ops := [up 1 .s d, rd 2 .s a], lat := .B }
  | .sfpMul d a _ => { ops := [up 1 .s d, rd 2 .s a], lat := .B }
  | .sfpDiv d a _ => { ops := [up 1 .s d, rd 2 .s a], lat := .C }
  | .sfpSqrt d a _ => { ops := [wr 1 .s d, rd 2 .s a], lat := .C }
  | .sfpMin d a _ => { ops := [up 1 .s d, rd 2 .s a], lat := .B }
  | .sfpMax d a _ => { ops := [up 1 .s d, rd 2 .s a], lat := .B }
  | .sfpEq d a _ => { ops := [up 1 .s d, rd 2 .s a], lat := .B }
  | .sfpLt d a _ => { ops := [up 1 .s d, rd 2 .s a], lat := .B }
  | .sfpLe d a _ => { ops := [up 1 .s d, rd 2 .s a], lat := .B }
  | .sfpCvti d a _ => { ops := [wr 1 .s d, rd 2 .s a], lat := .B }
  | .sfpCvtf d a _ => { ops := [wr 1 .s d, rd 2 .s a], lat := .B }
  | .pset d a => { ops := [wr 0 .p d, rd 2 .s a], lat := .A }
  | .psetLive d a => { ops := [wr 0 .p d, rd 2 .s a], lat := .A }
  | .pget d a => { ops := [wr 1 .s d, rd 0 .p a], lat := .A }
  | .plog d a b _ => { ops := [wr 0 .p d, rd 0 .p a, rd 0 .p b], lat := .A }
  | .pfirst d a => { ops := [wr 1 .s d, rd 0 .p a], lat := .A }
  | .plast d a => { ops := [wr 1 .s d, rd 0 .p a], lat := .A }
  | .pcnt d a => { ops := [wr 1 .s d, rd 0 .p a], lat := .A }
  | .mode d a _ => { ops := [wr 1 .s d, rd 2 .s a], lat := .A }
  | .vlane d => { ops := [wr 1 .v d], mask := true, lat := .A }
  | .vlaneBlk d => { ops := [wr 1 .v d], mask := true, lat := .A }
  | .vlaneQuad d => { ops := [wr 1 .v d], mask := true, lat := .A }
  | .vmovs d a => { ops := [wr 1 .v d, rd 2 .s a], mask := true, lat := .A }
  | .vmovsLane d a _ => { ops := [wr 1 .v d, rd 2 .s a], mask := true, lat := .A }
  | .vmov d a => { ops := [wr 1 .v d, rd 2 .v a], mask := true, lat := .A }
  | .smovv d a _ => { ops := [wr 1 .s d, rd 2 .v a], xlane := true, lat := .A }
  | .vseti d i => { ops := [wr 1 .v d], imm := some (16, i.toNat), mask := true, lat := .A }
  | .xset d a => { ops := [wr 0 .x d, rd 2 .s a], lat := .A }
  | .xadd d a => { ops := [up 0 .x d, rd 2 .s a], lat := .A }
  | .xget d a => { ops := [wr 1 .s d, rd 0 .x a], lat := .A }
  | .ld d a _ _ z => { ops := [wr 1 .v d (if z = 4 then 2 else 1), rd 2 .v a], imm := some (0, 0), mask := true, scope := true, region := true, orders := [1, 3], lat := .V }
  | .st d a _ z => { ops := [rd 1 .v d (if z = 4 then 2 else 1), rd 2 .v a], imm := some (0, 0), mask := true, scope := true, region := true, orders := [2, 3] }
  | .atom d a _ r _ o => { ops := [rd 1 .v d (if o = 8 then 2 else 1), wr 1 .v d (if r = 1 then 1 else 0), rd 2 .v a], imm := some (0, 0), orders := [1, 2, 3], scope := true, mask := true, lat := if r = 1 then .V else .none, region := true }
  | .vadd d a b => { ops := [wr 1 .v d, rd 2 .v a, rd 3 .v b], mask := true, bcast := true, region := true, types := some tINT, sat := tALL, lat := .A }
  | .vsub d a b => { ops := [wr 1 .v d, rd 2 .v a, rd 3 .v b], mask := true, bcast := true, region := true, types := some tINT, sat := tALL, lat := .A }
  | .vadds d a b => { ops := [wr 1 .v d, rd 2 .v a, rd 3 .v b], mask := true, bcast := true, region := true, types := some tINT, lat := .A }
  | .vsubs d a b => { ops := [wr 1 .v d, rd 2 .v a, rd 3 .v b], mask := true, bcast := true, region := true, types := some tINT, lat := .A }
  | .vmul d a b => { ops := [wr 1 .v d, rd 2 .v a, rd 3 .v b], mask := true, bcast := true, region := true, types := some tINT, sat := tALL, lat := .B }
  | .vmulh d a b => { ops := [wr 1 .v d, rd 2 .v a, rd 3 .v b], mask := true, bcast := true, region := true, types := some tINT, lat := .B }
  | .vmad d a b => { ops := [up 1 .v d, rd 2 .v a, rd 3 .v b], mask := true, bcast := true, region := true, types := some tINT, sat := tALL, lat := .B }
  | .vand d a b => { ops := [wr 1 .v d, rd 2 .v a, rd 3 .v b], mask := true, bcast := true, region := true, types := some tALL, lat := .A }
  | .vor d a b => { ops := [wr 1 .v d, rd 2 .v a, rd 3 .v b], mask := true, bcast := true, region := true, types := some tALL, lat := .A }
  | .vxor d a b => { ops := [wr 1 .v d, rd 2 .v a, rd 3 .v b], mask := true, bcast := true, region := true, types := some tALL, lat := .A }
  | .vshl d a b => { ops := [wr 1 .v d, rd 2 .v a, rd 3 .v b], mask := true, bcast := true, region := true, types := some tINT, sat := tALL, lat := .A }
  | .vshr d a b => { ops := [wr 1 .v d, rd 2 .v a, rd 3 .v b], mask := true, bcast := true, region := true, types := some tINT, lat := .A }
  | .vsar d a b => { ops := [wr 1 .v d, rd 2 .v a, rd 3 .v b], mask := true, bcast := true, region := true, types := some tINT, lat := .A }
  | .vmin d a b => { ops := [wr 1 .v d, rd 2 .v a, rd 3 .v b], mask := true, bcast := true, region := true, types := some tINT, lat := .A }
  | .vmax d a b => { ops := [wr 1 .v d, rd 2 .v a, rd 3 .v b], mask := true, bcast := true, region := true, types := some tINT, lat := .A }
  | .vabsd d a b => { ops := [wr 1 .v d, rd 2 .v a, rd 3 .v b], mask := true, bcast := true, region := true, types := some tINT, lat := .A }
  | .vbitPopc d a => { ops := [wr 1 .v d, rd 2 .v a], mask := true, region := true, types := some tINT, lat := .A }
  | .vbitClz d a => { ops := [wr 1 .v d, rd 2 .v a], mask := true, region := true, types := some tINT, lat := .A }
  | .vbitCtz d a => { ops := [wr 1 .v d, rd 2 .v a], mask := true, region := true, types := some tINT, lat := .A }
  | .vbitBrev d a => { ops := [wr 1 .v d, rd 2 .v a], mask := true, region := true, types := some tINT, lat := .A }
  | .vbitNot d a => { ops := [wr 1 .v d, rd 2 .v a], mask := true, region := true, types := some tINT, lat := .A }
  | .vbitNeg d a => { ops := [wr 1 .v d, rd 2 .v a], mask := true, region := true, types := some tINT, sat := tALL, lat := .A }
  | .vbitAbs d a => { ops := [wr 1 .v d, rd 2 .v a], mask := true, region := true, types := some tINT, sat := tALL, lat := .A }
  | .vaddi d a i => { ops := [wr 1 .v d, rd 2 .v a], imm := some (8, i.toNat), mask := true, region := true, types := some tINT, sat := tALL, lat := .A }
  | .vshli d a i => { ops := [wr 1 .v d, rd 2 .v a], imm := some (8, i.toNat), mask := true, region := true, types := some tINT, sat := tALL, lat := .A }
  | .vshri d a i => { ops := [wr 1 .v d, rd 2 .v a], imm := some (8, i.toNat), mask := true, region := true, types := some tINT, lat := .A }
  | .vsari d a i => { ops := [wr 1 .v d, rd 2 .v a], imm := some (8, i.toNat), mask := true, region := true, types := some tINT, lat := .A }
  | .vcmpp p _ a b => { ops := [wr 0 .p p, rd 2 .v a, rd 3 .v b], mask := true, bcast := true, types := some tNUM, lat := .A }
  | .vmuli d a i => { ops := [wr 1 .v d, rd 2 .v a], imm := some (8, i.toNat), mask := true, region := true, types := some tINT, sat := tALL, lat := .B }
  | .vltm d a b => { ops := [wr 1 .v d, rd 2 .v a, rd 3 .v b], mask := true, bcast := true, region := true, types := some tNUM, lat := .A }
  | .vsel d a b => { ops := [up 1 .v d, rd 2 .v a, rd 3 .v b], mask := true, bcast := true, region := true, types := some tALL, lat := .A }
  | .vdot d a b => { ops := [up 1 .v d, rd 2 .v a, rd 3 .v b], mask := true, bcast := true, region := true, types := some tDOT, byContract := true, sat := tINT, lat := .B }
  | .vdots d a b => { ops := [up 1 .v d, rd 2 .v a, rd 3 .v b], mask := true, bcast := true, region := true, types := some tDOT, byContract := true, sat := tINT, lat := .B }
  | .vswzXor d a _ => { ops := [wr 1 .v d, rd 2 .v a], mask := true, region := true, types := some tALL, lat := .A }
  | .vswzBcst d a _ => { ops := [wr 1 .v d, rd 2 .v a], mask := true, region := true, types := some tALL, lat := .A }
  | .vswzRot d a _ => { ops := [wr 1 .v d, rd 2 .v a], mask := true, region := true, types := some tALL, lat := .A }
  | .vswzRev d a => { ops := [wr 1 .v d, rd 2 .v a], mask := true, region := true, types := some tALL, lat := .A }
  | .vpack d a b => { ops := [wr 1 .v d, rd 2 .v a, rd 3 .v b], mask := true, bcast := true, region := true, types := some tPACK, sat := tALL, lat := .A }
  | .vunpkLo d a => { ops := [wr 1 .v d, rd 2 .v a], mask := true, region := true, types := some tUNPK, lat := .A }
  | .vunpkHi d a => { ops := [wr 1 .v d, rd 2 .v a], mask := true, region := true, types := some tUNPK, lat := .A }
  | .ldk d _ => { ops := [wr 1 .v d], mask := true, region := true, lat := .V }
  | .stk d _ => { ops := [rd 1 .v d], mask := true, region := true }
  | .vfadd d a b => { ops := [wr 1 .v d, rd 2 .v a, rd 3 .v b], mask := true, bcast := true, region := true, types := some tFA, sat := tALL, lat := .B }
  | .vfsub d a b => { ops := [wr 1 .v d, rd 2 .v a, rd 3 .v b], mask := true, bcast := true, region := true, types := some tFA, sat := tALL, lat := .B }
  | .vfmul d a b => { ops := [wr 1 .v d, rd 2 .v a, rd 3 .v b], mask := true, bcast := true, region := true, types := some tFA, sat := tALL, lat := .B }
  | .vfma d a b => { ops := [up 1 .v d, rd 2 .v a, rd 3 .v b], mask := true, bcast := true, region := true, types := some tFA, sat := tALL, lat := .B }
  | .vfms d a b => { ops := [up 1 .v d, rd 2 .v a, rd 3 .v b], mask := true, bcast := true, region := true, types := some tFA, sat := tALL, lat := .B }
  | .vfnma d a b => { ops := [up 1 .v d, rd 2 .v a, rd 3 .v b], mask := true, bcast := true, region := true, types := some tFA, sat := tALL, lat := .B }
  | .vfmin d a b => { ops := [wr 1 .v d, rd 2 .v a, rd 3 .v b], mask := true, bcast := true, region := true, types := some tFA, lat := .A }
  | .vfmax d a b => { ops := [wr 1 .v d, rd 2 .v a, rd 3 .v b], mask := true, bcast := true, region := true, types := some tFA, lat := .A }
  | .vfminm d a b => { ops := [wr 1 .v d, rd 2 .v a, rd 3 .v b], mask := true, bcast := true, region := true, types := some tFA, lat := .A }
  | .vfmaxm d a b => { ops := [wr 1 .v d, rd 2 .v a, rd 3 .v b], mask := true, bcast := true, region := true, types := some tFA, lat := .A }
  | .veqm d a b => { ops := [wr 1 .v d, rd 2 .v a, rd 3 .v b], mask := true, bcast := true, region := true, types := some tNUM, lat := .A }
  | .vfunNeg d a => { ops := [wr 1 .v d, rd 2 .v a], mask := true, region := true, types := some tFA, lat := .B }
  | .vfunAbs d a => { ops := [wr 1 .v d, rd 2 .v a], mask := true, region := true, types := some tFA, lat := .B }
  | .vfunRint d a => { ops := [wr 1 .v d, rd 2 .v a], mask := true, region := true, types := some tFA, lat := .B }
  | .vfunFloor d a => { ops := [wr 1 .v d, rd 2 .v a], mask := true, region := true, types := some tFA, lat := .B }
  | .vfunCeil d a => { ops := [wr 1 .v d, rd 2 .v a], mask := true, region := true, types := some tFA, lat := .B }
  | .vfunTrunc d a => { ops := [wr 1 .v d, rd 2 .v a], mask := true, region := true, types := some tFA, lat := .B }
  | .vfunFract d a => { ops := [wr 1 .v d, rd 2 .v a], mask := true, region := true, types := some tFA, lat := .B }
  | .vfunRelu d a => { ops := [wr 1 .v d, rd 2 .v a], mask := true, region := true, types := some tFA, lat := .B }
  | .vfunSign d a => { ops := [wr 1 .v d, rd 2 .v a], mask := true, region := true, types := some tFA, lat := .B }
  | .vfspecRcp d a => { ops := [wr 1 .v d, rd 2 .v a], mask := true, region := true, types := some tSPEC, lat := .C }
  | .vfspecRsqrt d a => { ops := [wr 1 .v d, rd 2 .v a], mask := true, region := true, types := some tSPEC, lat := .C }
  | .vfspecSqrt d a => { ops := [wr 1 .v d, rd 2 .v a], mask := true, region := true, types := some tSPEC, lat := .C }
  | .vfspecExp2 d a => { ops := [wr 1 .v d, rd 2 .v a], mask := true, region := true, types := some tSPEC, lat := .C }
  | .vfspecLog2 d a => { ops := [wr 1 .v d, rd 2 .v a], mask := true, region := true, types := some tSPEC, lat := .C }
  | .vfspecSinpi d a => { ops := [wr 1 .v d, rd 2 .v a], mask := true, region := true, types := some tSPEC, lat := .C }
  | .vfspecCospi d a => { ops := [wr 1 .v d, rd 2 .v a], mask := true, region := true, types := some tSPEC, lat := .C }
  | .vfspecTanh d a => { ops := [wr 1 .v d, rd 2 .v a], mask := true, region := true, types := some tSPEC, lat := .C }
  | .vfspecSilu d a => { ops := [wr 1 .v d, rd 2 .v a], mask := true, region := true, types := some tSPEC, lat := .C }
  | .vfspecErf d a => { ops := [wr 1 .v d, rd 2 .v a], mask := true, region := true, types := some tSPEC, lat := .C }
  | .vfdiv d a b => { ops := [wr 1 .v d, rd 2 .v a, rd 3 .v b], mask := true, bcast := true, region := true, types := some tFA, sat := tALL, lat := .C }
  | .vfscl d a b => { ops := [wr 1 .v d, rd 2 .v a, rd 3 .v b], mask := true, bcast := true, region := true, types := some tFA, sat := tALL, lat := .B }
  | .vfkeyMax d a => { ops := [wr 1 .v d, rd 2 .v a], mask := true, region := true, types := some tKEY, lat := .A }
  | .vfkeyMin d a => { ops := [wr 1 .v d, rd 2 .v a], mask := true, region := true, types := some tKEY, lat := .A }
  | .vfkeyInv d a => { ops := [wr 1 .v d, rd 2 .v a], mask := true, region := true, types := some tKEY, lat := .A }
  | .vcvt d a _ t => { ops := [wr 1 .v d (cvtRun ty t.toNat), rd 2 .v a], mask := true, region := true, types := some tALL, sat := tALL, lat := .B }
  | .vcvta d a _ t => { ops := [wr 1 .v d (cvtRun ty t.toNat), rd 2 .v a], mask := true, region := true, types := some tALL, sat := tALL, lat := .B }
  | .vf6Split d a => { ops := [wr 1 .v d, rd 2 .v a], mask := true, region := true, lat := .B }
  | .vf6Join d a => { ops := [wr 1 .v d, rd 2 .v a], mask := true, region := true, lat := .B }
  | .vshfl d a b => { ops := [wr 1 .v d, rd 2 .v a, rd 3 .v b], mask := true, bcast := true, xlane := true, moves := true, types := some tW8, lat := .C }
  | .vbcst d a _ => { ops := [wr 1 .v d, rd 2 .v a], mask := true, xlane := true, lat := .C }
  | .vbcstFirst d a => { ops := [wr 1 .v d, rd 2 .v a], mask := true, helpers := true, xlane := true, lat := .C }
  | .vredAdd d a => { ops := [wr 1 .s d, rd 2 .v a], mask := true, helpers := true, xlane := true, types := some tINT, lat := .C }
  | .vredAdds d a => { ops := [wr 1 .s d, rd 2 .v a], mask := true, helpers := true, xlane := true, types := some tINT, lat := .C }
  | .vredAddw d a => { ops := [wr 1 .s d, rd 2 .v a], mask := true, helpers := true, xlane := true, types := some tINT, lat := .C }
  | .vredMin d a => { ops := [wr 1 .s d, rd 2 .v a], mask := true, helpers := true, xlane := true, types := some tINT, lat := .C }
  | .vredMax d a => { ops := [wr 1 .s d, rd 2 .v a], mask := true, helpers := true, xlane := true, types := some tINT, lat := .C }
  | .vredAnd d a => { ops := [wr 1 .s d, rd 2 .v a], mask := true, helpers := true, xlane := true, types := some tINT, lat := .C }
  | .vredOr d a => { ops := [wr 1 .s d, rd 2 .v a], mask := true, helpers := true, xlane := true, types := some tINT, lat := .C }
  | .vredXor d a => { ops := [wr 1 .s d, rd 2 .v a], mask := true, helpers := true, xlane := true, types := some tINT, lat := .C }
  | .vredFadd d a => { ops := [wr 1 .s d, rd 2 .v a], mask := true, helpers := true, xlane := true, types := some tRFADD, byContract := true, lat := .C }
  | .vredFmin d a => { ops := [wr 1 .s d, rd 2 .v a], mask := true, helpers := true, xlane := true, types := some tFA, lat := .C }
  | .vredFmax d a => { ops := [wr 1 .s d, rd 2 .v a], mask := true, helpers := true, xlane := true, types := some tFA, lat := .C }
  | .vrediMin d a => { ops := [wr 1 .s d 2, rd 2 .v a], mask := true, helpers := true, xlane := true, types := some tNUM, lat := .C }
  | .vrediMax d a => { ops := [wr 1 .s d 2, rd 2 .v a], mask := true, helpers := true, xlane := true, types := some tNUM, lat := .C }
  | .vscan d a _ o => { ops := [wr 1 .v d, rd 2 .v a], mask := true, helpers := true, xlane := true, types := some (if o.toNat ≤ 5 then tINT else tFA), lat := .C }
  | .vqxSwap d a _ => { ops := [wr 1 .v d, rd 2 .v a], mask := true, xlane := true, lat := .C }
  | .vqxBcst d a _ => { ops := [wr 1 .v d, rd 2 .v a], mask := true, xlane := true, lat := .C }
  | .vqxAdd d a => { ops := [wr 1 .v d, rd 2 .v a], mask := true, helpers := true, xlane := true, types := some tNUM, lat := .C }
  | .vqxMin d a => { ops := [wr 1 .v d, rd 2 .v a], mask := true, helpers := true, xlane := true, types := some tNUM, lat := .C }
  | .vqxMax d a => { ops := [wr 1 .v d, rd 2 .v a], mask := true, helpers := true, xlane := true, types := some tNUM, lat := .C }
  | .vvoteAny d a => { ops := [wr 1 .s d, rd 2 .v a], mask := true, helpers := true, xlane := true, lat := .C }
  | .vvoteAll d a => { ops := [wr 1 .s d, rd 2 .v a], mask := true, helpers := true, xlane := true, lat := .C }
  | .vvoteBallot d a => { ops := [wr 1 .s d, rd 2 .v a], mask := true, helpers := true, xlane := true, lat := .C }
  | .vvoteUniform d a => { ops := [wr 1 .s d, rd 2 .v a], mask := true, helpers := true, xlane := true, lat := .C }
  | .vvotem d a p _ => { ops := [wr 1 .v d, rd 2 .v a, rd 0 .p p], mask := true, helpers := true, xlane := true, lat := .C }
  | .vrot d a i => { ops := [wr 1 .v d, rd 2 .v a], imm := some (8, i.toNat), mask := true, xlane := true, moves := true, types := some tALL, lat := .C }
  | .mxmma _ _ i _ _ => { ops := [rd 2 .v i], mask := true, cls := some .mx, fam := .mat }
  | .mxrd d _ _ => { ops := [wr 1 .v d], mask := true, lat := .V, fam := .mat }
  | .mxwr a _ _ => { ops := [rd 1 .v a], mask := true, cls := some .mx, fam := .mat }
  | .barinit a b => { ops := [rd 2 .s a, rd 3 .s b] }
  | .bararr a b => { ops := [up 2 .s a, rd 3 .s b], scope := true, lat := .V }
  | .barwait a b => { ops := [up 2 .s a, rd 3 .s b], scope := true, lat := .V }
  | .bartry a b => { ops := [up 2 .s a, rd 3 .s b], scope := true, lat := .V }
  | .bsync => {}
  | .csync => {}
  | .waitc _ _ => {}
  | .slotret a b => { ops := [rd 2 .s a, rd 3 .s b] }
  | .cpt a b => { ops := [wr 2 .s a, rd 3 .s b 24], lat := .V, cls := some .cp }
  | .cpg a b => { ops := [wr 2 .v a, rd 3 .v b], mask := true, region := true, types := some tW8, lat := .V, cls := some .gt }
  | .cps a b => { ops := [rd 2 .v a, rd 3 .v b], mask := true, types := some tW8, cls := some .gt }
  | .cpm a b => { ops := [wr 2 .s a, rd 3 .s b 24], lat := .V, cls := some .cp }
  | .cpred a b => { ops := [wr 2 .s a, rd 3 .s b 24], lat := .V, cls := some .cp }
  | .cpcan => {}
  | .mxacq a => { ops := [wr 0 .p a], lat := .V, fam := .mat }
  | .mxrel => { cls := some .mx, fam := .mat }
  | .mxfmt a => { ops := [rd 2 .s a 2], cls := some .mx, fam := .mat }
  | .mxldw a _ => { ops := [rd 2 .s a], cls := some .mx, fam := .mat }
  | .mxldws a _ => { ops := [rd 2 .s a], cls := some .mx, fam := .mat }
  | .mxzero a => { ops := [rd 2 .s a], cls := some .mx, fam := .mat }
  | .mxst a => { ops := [rd 2 .s a 2], mask := true, cls := some .mx, fam := .mat }
  | .spknot a => { ops := [rd 2 .s a 3], cls := some .sp, fam := .spl }
  | .spaff a => { ops := [rd 2 .s a], cls := some .sp, fam := .spl }
  | .spldc a => { ops := [rd 2 .s a], cls := some .sp, fam := .spl }
  | .speval i _ _ => { ops := [rd 2 .v i], mask := true, cls := some .sp, fam := .spl }
  | .spgrad a => { ops := [rd 2 .s a 3], cls := some .sp, fam := .spl }
  | .spdx a => { ops := [rd 2 .s a 2], cls := some .sp, fam := .spl }
  | .spref => { cls := some .sp, fam := .spl }
  | .spstc a => { ops := [rd 2 .s a], cls := some .sp, fam := .spl }
  | .spcnt d a => { ops := [wr 2 .s d 2, rd 3 .s a], lat := .V, cls := some .sp, fam := .spl }
  | .tnext d => { ops := [wr 2 .s d 6], lat := .V }
  | .tdone a b => { ops := [rd 2 .s a, rd 3 .s b] }
  | .trel a b => { ops := [rd 2 .s a, rd 3 .s b] }
  | .tstat d => { ops := [wr 2 .s d 2], lat := .V }
  | .schr d _ _ => { ops := [wr 2 .s d], lat := .V }
  | .schw a _ => { ops := [rd 2 .s a] }
  | .schcom d => { ops := [wr 2 .s d], lat := .V }
  | .covr d a => { ops := [wr 2 .s d, rd 3 .s a], lat := .V }
  | .spawn d a => { ops := [wr 2 .s d, rd 3 .s a], lat := .V }
  | .coll a b => { ops := [rd 2 .s a, rd 3 .s b 8], cls := some .cl }
  | .arqpop d a => { ops := [wr 2 .s d, rd 3 .s a], lat := .V }
  | .rld d b => { ops := [wr 2 .s d, rd 3 .s b 24], lat := .V, cls := some .cl }
  | .rst d b => { ops := [wr 2 .s d, rd 3 .s b 24], lat := .V, cls := some .cl }
  | .rred d b => { ops := [wr 2 .s d, rd 3 .s b 24], lat := .V, cls := some .cl }
  | .steppop d a => { ops := [wr 2 .s d 4, rd 3 .s a], lat := .V }
  | .stepdone a b => { ops := [rd 2 .s a, rd 3 .s b] }  | _ => {}

/-! ## The bundle's fields -/

/-- The subfields in force without PFX.MOD (R31). -/
def Mod.default : Mod := ⟨0, 0, 0, 0, 0x1F, false, false, 0, 0⟩

/-- The subfields in force in a bundle. -/
def Bundle.mods (b : Bundle) : Mod := b.mod.getD Mod.default

/-- The element type in force: the override, otherwise mode.vt (R112). -/
def typeInForce (b : Bundle) (mode : BitVec 32) : Nat :=
  if b.mods.type = 0x1F then mode.toNat % 32 else b.mods.type.toNat

/-- Bit of a three-bit PFX.MOD field that reaches F1, F2 or F3 (R31). -/
def fieldBit (f : BitVec 3) (pos : Nat) : Bool := (1 ≤ pos && pos ≤ 3) && f.getLsbD (3 - pos)

/-- An operand under bcast: F3 names a scalar register (R31, R111). -/
def Opnd.bc (m : Mod) (o : Opnd) : Opnd := if m.bcast && o.pos == 3 then { o with file := .s } else o

/-- The register number that an operand field produces (R31). -/
def Opnd.number (m : Mod) (x : Nat) (o : Opnd) : Nat :=
  o.num + (if fieldBit m.bank o.pos then 256 else 0) + (if fieldBit m.ind o.pos then x else 0)

/-- The registers that an operand stands for, given the number of the first. -/
def Opnd.regs (o : Opnd) (n : Nat) : List Reg :=
  (List.range o.run).map fun k =>
    match o.file with
    | .s => Reg.s (n + k) | .v => Reg.v (n + k) | .p => Reg.p (n + k) | .x => Reg.x (n + k)

/-- Whether each subfield of a PFX.MOD is usable by an instruction of a shape (R29, R31); the bank bit of a broadcast F3 is
not usable on VSHFL (R148). `ty` is the type in force. That the sat bit of VDOT and VDOTS with a floating-point type is
unusable also where the type comes from the mode register is a DESIGN CHOICE (log entry 54). -/
def modUsable (sh : Shape) (m : Mod) (ty : Nat) : Bool :=
  let ops := sh.ops.map (Opnd.bc m)
  let bankOk (p : Nat) := !fieldBit m.bank p || ops.any fun o => o.pos == p && o.file == .s && !(sh.xlane && p == 3)
  let indOk (p : Nat) := !fieldBit m.ind p || ops.any fun o => o.pos == p && (o.file == .s || o.file == .v)
  [1, 2, 3].all (fun p => bankOk p && indOk p)
  && (m.sel = 0 || m.ind != 0)
  && (m.mask = 0 || sh.mask)
  && (m.type = 0x1F || sh.types.isSome)
  && (!m.bcast || sh.bcast)
  && (!m.sat || sh.sat.contains ty)
  && (m.order = 0 || sh.orders.contains m.order.toNat)
  && (m.scope = 0 || sh.scope || (sh.helpers && m.scope = 1))

/-- The signed value of the low `n` bits of a number, as 64 bits. -/
def sext64 (n v : Nat) : U64 := ofInt64 (sext n v)

/-- The immediate of R30: IMX, then IMM or a patch entry, then the own field of `f` bits. -/
def immediate (f own : Nat) (imm : Option Nat) (patch : Option Nat) (imx : Option Nat) : U64 :=
  let (v, n) := match patch, imm with
    | some k, _ => (own + k * 2 ^ f, f + 32)
    | none, some k => (own + k * 2 ^ f, f + 24)
    | none, none => (own, f)
  let (v, n) := match imx with
    | some k => (v + k * 2 ^ n, n + 24)
    | none => (v, n)
  if n = 0 then 0 else if n ≤ 64 then sext64 n v else BitVec.ofNat 64 v

/-- Registers are in bounds (R31, R46); otherwise the TRAPINFO of REG_BOUND, from the number of the highest
register of the run (DESIGN CHOICE, log entry 54). -/
def boundFault (allot : Nat) (o : Opnd) (n : Nat) : Option U64 :=
  let hi := n + o.run - 1
  if o.run = 0 then none
  else match o.file with
    | .v => if hi ≥ allot then some (BitVec.ofNat 64 (hi % 512)) else none
    | .s => if hi > 511 then some (BitVec.ofNat 64 (hi % 512 + 512)) else none
    | _ => none

end Sys2Proof.Machine
end

