-- ==== Sys2Proof/Machine/Num.lean ====
section
/-! DEFINITION. Exact values, element formats and rounding (R61 to R74), and the accumulation rule DOT (R75 to
R79). An exact finite value is a sign, a natural number and a power of two. -/

namespace Sys2Proof.Machine

/-! ## Exact values -/

/-- An exact value: NaN, an infinity, or (−1)^neg × man × 2^exp. A zero keeps its sign. -/
inductive Val where
  | nan
  | inf (neg : Bool)
  | fin (neg : Bool) (man : Nat) (exp : Int)
deriving DecidableEq, Repr

/-- +0. -/
def Val.zero : Val := .fin false 0 0

/-- An integer as an exact value; zero is +0. -/
def Val.ofInt (x : Int) : Val := .fin (x < 0) x.natAbs 0

/-- Negation; a NaN stays a NaN. -/
def Val.neg (a : Val) : Val :=
  match a with
  | .nan => .nan
  | .inf s => .inf (!s)
  | .fin s m e => .fin (!s) m e

/-- Magnitude. -/
def Val.abs (a : Val) : Val :=
  match a with
  | .nan => .nan
  | .inf _ => .inf false
  | .fin _ m e => .fin false m e

/-- The sign of a value; a NaN has none. -/
def Val.isNeg (a : Val) : Bool :=
  match a with
  | .nan => false
  | .inf s => s
  | .fin s _ _ => s

/-- Whether a value is a zero. -/
def Val.isZero (a : Val) : Bool :=
  match a with
  | .fin _ 0 _ => true
  | _ => false

/-- Whether a value is a NaN. -/
def Val.isNan (a : Val) : Bool := a == .nan

/-- A zero keeps only its sign; a value is otherwise unchanged. -/
def Val.tidy (a : Val) : Val :=
  match a with
  | .fin s 0 _ => .fin s 0 0
  | a => a

/-- The signed integer of a finite value in units of 2^e, for e at most its exponent. -/
def units (s : Bool) (m : Nat) (x e : Int) : Int :=
  let u : Int := m * 2 ^ (x - e).toNat
  if s then -u else u

/-- The exact sum. A sum that is exactly zero is −0 if both operands are −0, or `down` asks for −0 where the signs
differ (R126); otherwise +0. -/
def Val.add (down : Bool) (a b : Val) : Val :=
  match a, b with
  | .nan, _ => .nan
  | _, .nan => .nan
  | .inf s, .inf t => if s = t then .inf s else .nan
  | .inf s, _ => .inf s
  | _, .inf t => .inf t
  | .fin s m x, .fin t n y =>
    let e := min x y
    let u := units s m x e + units t n y e
    if u = 0 then .fin (if s = t && m = 0 && n = 0 then s else down) 0 0
    else .fin (u < 0) u.natAbs e

/-- The exact product; ∞ × 0 is NaN, and a zero has the exclusive-or of the signs (R126). -/
def Val.mul (a b : Val) : Val :=
  match a, b with
  | .nan, _ => .nan
  | _, .nan => .nan
  | .inf s, .inf t => .inf (s != t)
  | .inf s, .fin t n _ => if n = 0 then .nan else .inf (s != t)
  | .fin s m _, .inf t => if m = 0 then .nan else .inf (s != t)
  | .fin s m x, .fin t n y => .fin (s != t) (m * n) (x + y)

/-- Bits of quotient and root computed beyond the longest significand, the last one sticky. -/
def extraBits : Nat := 80

/-- The quotient to more bits than any format holds, with the rest in a sticky last bit, so that one rounding of it
is the rounding of the exact quotient (R131). -/
def Val.div (a b : Val) : Val :=
  match a, b with
  | .nan, _ => .nan
  | _, .nan => .nan
  | .inf _, .inf _ => .nan
  | .inf s, .fin t _ _ => .inf (s != t)
  | .fin s _ _, .inf t => .fin (s != t) 0 0
  | .fin s m x, .fin t n y =>
    if n = 0 then (if m = 0 then .nan else .inf (s != t))
    else if m = 0 then .fin (s != t) 0 0
    else
      let k := extraBits + Nat.log2 n
      let q := m * 2 ^ k / n
      let r := m * 2 ^ k % n
      .fin (s != t) (2 * q + (if r = 0 then 0 else 1)) (x - y - k - 1)

/-- The integer square root, one bit of the result at a time from bit `n` down. -/
def isqrtFrom (v : Nat) : Nat → Nat → Nat
  | 0, r => r
  | n + 1, r => isqrtFrom v n (if (r + 2 ^ n) * (r + 2 ^ n) ≤ v then r + 2 ^ n else r)

/-- The integer square root. -/
def isqrt (v : Nat) : Nat := isqrtFrom v (Nat.log2 v / 2 + 1) 0

/-- The square root with a sticky last bit; −0 for −0, NaN below zero (R101, R134). -/
def Val.sqrt (a : Val) : Val :=
  match a with
  | .nan => .nan
  | .inf s => if s then .nan else .inf false
  | .fin s m x =>
    if m = 0 then .fin s 0 0
    else if s then .nan
    else
      let k := 2 * extraBits + (if x % 2 = 0 then 0 else 1)
      let r := isqrt (m * 2 ^ k)
      .fin false (2 * r + (if r * r = m * 2 ^ k then 0 else 1)) ((x - k) / 2 - 1)

/-- Scaling by a power of two. -/
def Val.scale (a : Val) (k : Int) : Val :=
  match a with
  | .fin s m e => .fin s m (e + k)
  | a => a

/-- Order of two values that are not NaN; −0 equals +0. -/
def Val.cmp (a b : Val) : Ordering :=
  match a, b with
  | .inf s, .inf t => if s = t then .eq else if s then .lt else .gt
  | .inf s, _ => if s then .lt else .gt
  | _, .inf t => if t then .gt else .lt
  | .fin s m x, .fin t n y =>
    let e := min x y
    compare (units s m x e) (units t n y e)
  | _, _ => .eq

/-! ## Rounding to a multiple of a power of two (R69) -/

/-- Whether a magnitude with quotient `q` and remainder `r` of 2^k rounds away from zero. -/
def roundUpMag (mode : Nat) (neg : Bool) (q r k : Nat) : Bool :=
  match mode with
  | 0 => 2 * r > 2 ^ k || (2 * r == 2 ^ k && q % 2 == 1)
  | 1 => false
  | 2 => neg && r != 0
  | 3 => !neg && r != 0
  | _ => 2 * r ≥ 2 ^ k && r != 0

/-- The magnitude man × 2^exp in units of 2^q, rounded. A magnitude below half a unit rounds alike however small it
is, which bounds the shift. -/
def roundUnits (mode : Nat) (neg : Bool) (man : Nat) (exp q : Int) : Nat :=
  if exp ≥ q then man * 2 ^ (exp - q).toNat
  else
    let k := min (q - exp).toNat (Nat.log2 man + 2)
    let a := man / 2 ^ k
    if roundUpMag mode neg a (man % 2 ^ k) k then a + 1 else a

/-- A finite value rounded to an integer (R72, R130). -/
def roundInt (mode : Nat) (neg : Bool) (man : Nat) (exp : Int) : Int :=
  let u : Int := roundUnits mode neg man exp 0
  if neg then -u else u

/-! ## Formats (R62, R76) -/

/-- How a format treats its highest exponent: IEEE, E4M3, or no infinity and no NaN. -/
inductive FmtKind where
  | ieee | e4m3 | full
deriving DecidableEq, Repr

/-- A floating-point format. -/
structure Fmt where
  ebits : Nat
  mbits : Nat
  bias  : Nat
  kind  : FmtKind
deriving DecidableEq, Repr

/-- F32. -/
def fF32 : Fmt := ⟨8, 23, 127, .ieee⟩

/-- ACC(w) of R76: a w-bit significand with the exponent range of F32. -/
def fACC (w : Nat) : Fmt := ⟨8, w - 1, 127, .ieee⟩

/-- The format of a floating-point type code (R61, R62). -/
def fmtOf (t : Nat) : Fmt :=
  match t with
  | 0x10 => ⟨11, 52, 1023, .ieee⟩
  | 0x12 => ⟨5, 10, 15, .ieee⟩
  | 0x13 => ⟨8, 7, 127, .ieee⟩
  | 0x14 => ⟨4, 3, 7, .e4m3⟩
  | 0x15 => ⟨5, 2, 15, .ieee⟩
  | 0x16 => ⟨3, 2, 3, .full⟩
  | 0x17 => ⟨2, 3, 1, .full⟩
  | 0x18 => ⟨2, 1, 1, .full⟩
  | _ => fF32

/-- Bits below the sign. -/
def Fmt.low (f : Fmt) : Nat := f.ebits + f.mbits

/-- The code of the largest finite magnitude. -/
def Fmt.maxCode (f : Fmt) : Nat :=
  match f.kind with
  | .ieee => (2 ^ f.ebits - 1) * 2 ^ f.mbits - 1
  | .e4m3 => 0x7E
  | .full => 2 ^ f.low - 1

/-- The code of infinity in an IEEE format. -/
def Fmt.infCode (f : Fmt) : Nat := (2 ^ f.ebits - 1) * 2 ^ f.mbits

/-- The canonical NaN of a format that has one (R63, R250). -/
def Fmt.nanCode (f : Fmt) : Nat :=
  match f.kind with
  | .ieee => f.infCode + 2 ^ (f.mbits - 1)
  | .e4m3 => 0x7F
  | .full => 0

/-- The sign bit in place. -/
def Fmt.signed (f : Fmt) (neg : Bool) (mag : Nat) : Nat := if neg then mag + 2 ^ f.low else mag

/-- The exact value of a code (R62). -/
def Fmt.val (f : Fmt) (code : Nat) : Val :=
  let neg := code.testBit f.low
  let c := code % 2 ^ f.low
  if c > f.maxCode then (if f.kind == .ieee && c == f.infCode then .inf neg else .nan)
  else
    let e := c / 2 ^ f.mbits
    let m := c % 2 ^ f.mbits
    if e = 0 then (if m = 0 then .fin neg 0 0 else .fin neg m (1 - (f.bias : Int) - f.mbits))
    else .fin neg (m + 2 ^ f.mbits) ((e : Int) - f.bias - f.mbits)

/-- Whether a code is subnormal. -/
def Fmt.subnormal (f : Fmt) (code : Nat) : Bool :=
  let c := code % 2 ^ f.low
  c != 0 && c < 2 ^ f.mbits

/-- An overflow, or with `src` an infinite source (R70). -/
def Fmt.over (f : Fmt) (mode : Nat) (sat src neg : Bool) : Nat :=
  match f.kind with
  | .full => f.signed neg f.maxCode
  | .e4m3 => if sat then f.signed neg f.maxCode else f.nanCode
  | .ieee =>
    let toMax := !src && (sat || mode == 1 || (mode == 2 && !neg) || (mode == 3 && neg))
    f.signed neg (if toMax then f.maxCode else f.infCode)

/-- round(f, x, mode) with saturation (R69 to R71). -/
def Fmt.round (f : Fmt) (mode : Nat) (sat : Bool) (x : Val) : Nat :=
  match x with
  | .nan => f.nanCode
  | .inf neg => f.over mode sat true neg
  | .fin neg man exp =>
    if man = 0 then f.signed neg 0
    else
      let e := (Nat.log2 man : Int) + exp
      let q := max (e - f.mbits) (1 - (f.bias : Int) - f.mbits)
      let m := roundUnits mode neg man exp q
      let c := if m < 2 ^ f.mbits then m
        else (q + f.mbits + f.bias).toNat * 2 ^ f.mbits + (m - 2 ^ f.mbits)
      if c > f.maxCode then f.over mode sat false neg else f.signed neg c

/-! ## Elements (R53, R61) -/

/-- The code of an element within its container: FP6 ignores bits [7:6] (R67). -/
def typeCode (t c : Nat) : Nat := if t = 0x16 || t = 0x17 then c % 64 else c

/-- The exact value of an element of a type; an integer zero is +0. -/
def typeVal (t c : Nat) : Val :=
  if typeInt t then
    (if typeSigned t then Val.ofInt (sext (typeWidth t) c) else .fin false c 0)
  else (fmtOf t).val (typeCode t c)

/-- The least value of an integer type. -/
def intMin (t : Nat) : Int := if typeSigned t then -(2 ^ (typeWidth t - 1)) else 0

/-- The greatest value of an integer type. -/
def intMax (t : Nat) : Int := if typeSigned t then 2 ^ (typeWidth t - 1) - 1 else 2 ^ typeWidth t - 1

/-- An integer clamped to a type (R14). -/
def satInt (t : Nat) (x : Int) : Int := max (intMin t) (min (intMax t) x)

/-- The w-bit code of an integer. -/
def wrapInt (w : Nat) (x : Int) : Nat := (x % 2 ^ w).toNat

/-- The integer that an element of an integer type holds. -/
def intVal (t c : Nat) : Int := if typeSigned t then sext (typeWidth t) c else (c % 2 ^ typeWidth t : Nat)

/-- The conversion of R68 to R72: an element of type `t` to type `d`. R72 names only narrowing and exact widening between
integer types; an integer that a type of its own width or wider cannot hold (a negative one, to an unsigned type) keeps its
low bits too, and is clamped with sat (DESIGN CHOICE, log entry 45). -/
def convert (t d mode : Nat) (sat : Bool) (c : Nat) : Nat :=
  if typeInt t && typeInt d then
    let x := intVal t c
    wrapInt (typeWidth d) (if sat then satInt d x else x)
  else if typeInt d then
    match typeVal t c with
    | .nan => 0
    | .inf neg => wrapInt (typeWidth d) (if neg then intMin d else intMax d)
    | .fin neg m e => wrapInt (typeWidth d) (satInt d (roundInt mode neg m e))
  else (fmtOf d).round mode sat (typeVal t c)

/-- Whether a type has NaN (R62). -/
def typeHasNan (t : Nat) : Bool := t == 0x10 || t == 0x11 || t == 0x12 || t == 0x13 || t == 0x14 || t == 0x15

/-- A conversion that takes a NaN to a format without NaN sets AMAXNAN (R71). -/
def nanLost (t d c : Nat) : Bool := (typeVal t c).isNan && !typeHasNan d

/-- Element `e` of a lane, of width `w`. -/
def elem (w e : Nat) (x : U64) : Nat := x.toNat / 2 ^ (w * e) % 2 ^ w

/-- A lane from its elements of width `w`, element 0 lowest. -/
def packElems (w : Nat) (l : List Nat) : U64 :=
  BitVec.ofNat 64 (l.foldr (fun v acc => v % 2 ^ w + 2 ^ w * acc) 0)

/-- A lane computed element by element (R109). -/
def mapElems (t : Nat) (f : Nat → Nat) : U64 :=
  packElems (typeWidth t) ((List.range (typeElems t)).map f)

/-! ## Contracts (R74, R75, R213, R214) -/

/-- Whether the contract flushes subnormals. -/
def ctFlush (c : Nat) : Bool := (almEntry c).testBit 18
/-- Whether multiply-add is fused. -/
def ctFused (c : Nat) : Bool := (almEntry c).testBit 19
/-- The summation group g. -/
def ctG (c : Nat) : Nat := almEntry c % 32
/-- The truncation T; 63 means exact. -/
def ctT (c : Nat) : Nat := almEntry c / 32 % 64
/-- ACCIN. -/
def ctAccin (c : Nat) : Bool := (almEntry c).testBit 11
/-- ACCW. -/
def ctAccw (c : Nat) : Nat := almEntry c / 2 ^ 12 % 64
/-- The function-table revision. -/
def ctFt (c : Nat) : Nat := almEntry c / 2 ^ 20 % 8
/-- The rate field: 1 full, 2 half, 3 quarter. -/
def ctRate (c : Nat) : Nat := almEntry c / 2 ^ 34 % 4
/-- Spline mode allowed. -/
def ctSpline (c : Nat) : Bool := (almEntry c).testBit 33
/-- Sparse planes allowed. -/
def ctSparse (c : Nat) : Bool := (almEntry c).testBit 32

/-- A factor or operand under the subnormal policy: a subnormal counts as a zero of its sign under FLUSH. -/
def flushIn (flush : Bool) (f : Fmt) (code : Nat) : Val :=
  let v := f.val code
  if flush && f.subnormal code then .fin v.isNeg 0 0 else v

/-- An F32 result under FLUSH: a subnormal becomes a zero of its sign; results of other types stay (R74). -/
def flushOut (flush : Bool) (f : Fmt) (code : Nat) : Nat :=
  if flush && f == fF32 && f.subnormal code then f.signed (code.testBit f.low) 0 else code

/-! ## DOT (R77, R78) -/

/-- Truncation of a finite member to a multiple of 2^q toward zero; one that becomes zero keeps its sign. -/
def truncTo (q : Int) (v : Val) : Val :=
  match v with
  | .fin s m e => if m = 0 then v else (let u := roundUnits 1 s m e q; .fin s u (if u = 0 then 0 else q))
  | v => v

/-- The largest floor(log2 |x|) of the nonzero finite members. -/
def maxExp (l : List Val) : Option Int :=
  l.foldl (fun a v => match v with
    | .fin _ m e =>
      if m = 0 then a
      else (let x := (Nat.log2 m : Int) + e; match a with | none => some x | some y => some (max x y))
    | _ => a) none

/-- The exact sum of values with the zero rule of R77: an exact zero is −0 only if every value added is −0. -/
def sumVals (l : List Val) : Val :=
  match l with
  | [] => Val.zero
  | v :: r => r.foldl (Val.add false) v

/-- The accumulator's value under the subnormal policy. -/
def flushAcc (flush : Bool) (f : Fmt) (code : Nat) : Nat :=
  if flush && f.subnormal code then f.signed (code.testBit f.low) 0 else code

/-- One step of DOT on a group of terms; the accumulator comes as a value, the result is a code of ACC(ACCW). -/
def dotStep (c : Nat) (a : Val) (grp : List Val) : Nat :=
  let f := fACC (ctAccw c)
  let mem := if ctAccin c then a :: grp else grp
  let special := mem.any (fun v => match v with | .fin .. => false | _ => true)
  let mem := if ctT c = 63 || special then mem
    else match maxExp mem with
      | none => mem
      | some e => mem.map (truncTo (e - ctT c))
  let s := sumVals mem
  let r := if ctAccin c then f.round 0 false s else f.round 0 false (Val.add false a s)
  flushAcc (ctFlush c) f r

/-- DOT over the terms in groups of g; `n` bounds the number of groups. -/
def dotGroups (c : Nat) : Nat → Val → List Val → Val
  | 0, acc, _ => acc
  | n + 1, acc, ts =>
    if ts.isEmpty then acc
    else dotGroups c n ((fACC (ctAccw c)).val (dotStep c acc (ts.take (ctG c)))) (ts.drop (ctG c))

/-- DOT(acc, t0, …) with the parameters of contract `c`, as a code of ACC(ACCW); a NaN anywhere gives NaN (R78). -/
def dotVal (c : Nat) (acc : Val) (ts : List Val) : Nat :=
  let f := fACC (ctAccw c)
  if acc.isNan || ts.any Val.isNan then f.nanCode
  else f.round 0 false (dotGroups c ts.length acc ts)

/-- DOT on an accumulator given as a code of ACC(ACCW). -/
def dot (c : Nat) (acc : Nat) (ts : List Val) : Nat := dotVal c ((fACC (ctAccw c)).val acc) ts

/-- A value leaves the unit as F32 (R79). -/
def dotOut (c : Nat) (acc : Nat) : Nat := fF32.round 0 false ((fACC (ctAccw c)).val acc)

/-- An F32 code as the accumulator of a DOT. -/
def dotIn (c : Nat) (code : Nat) : Nat :=
  (fACC (ctAccw c)).round 0 false (flushIn (ctFlush c) fF32 code)

/-- The product of two factors as a term, under the subnormal policy (R77). -/
def factor (c t code : Nat) : Val :=
  if typeInt t then typeVal t code else flushIn (ctFlush c) (fmtOf t) (typeCode t code)

/-- F32 arithmetic rounded RNE, as the spline basis and the function tables use it. -/
def rne32 (v : Val) : Nat := fF32.round 0 false v

/-! ## Minimum and maximum (R129, R141) -/

/-- The order key of a non-NaN code: unsigned order is the order of the values, −0 below +0. -/
def orderKey (f : Fmt) (code : Nat) : Nat :=
  let w := f.low + 1
  if code.testBit f.low then 2 ^ w - 1 - code % 2 ^ w else code % 2 ^ w + 2 ^ f.low

/-- VFMIN and VFMAX: one NaN gives the other operand. -/
def fMinMax (f : Fmt) (isMax : Bool) (a b : Nat) : Nat :=
  match (f.val a).isNan, (f.val b).isNan with
  | true, true => f.nanCode
  | true, false => b
  | false, true => a
  | false, false =>
    if isMax then (if orderKey f a ≥ orderKey f b then a else b)
    else (if orderKey f a ≤ orderKey f b then a else b)

/-! ## Elementwise operations (R74, R101, R126 to R132) -/

/-- An operand of an arithmetic instruction of a floating-point type under the subnormal policy. -/
def fpIn (flush : Bool) (t c : Nat) : Val := flushIn flush (fmtOf t) (c % 2 ^ typeWidth t)

/-- A result of an arithmetic instruction: one rounding, then the subnormal policy. -/
def fpOut (flush : Bool) (t rm : Nat) (sat : Bool) (v : Val) : Nat :=
  flushOut flush (fmtOf t) ((fmtOf t).round rm sat v)

/-- a + b. -/
def fpAdd (flush : Bool) (t rm : Nat) (sat : Bool) (a b : Nat) : Nat :=
  fpOut flush t rm sat (Val.add (rm == 2) (fpIn flush t a) (fpIn flush t b))

/-- a − b. -/
def fpSub (flush : Bool) (t rm : Nat) (sat : Bool) (a b : Nat) : Nat :=
  fpOut flush t rm sat (Val.add (rm == 2) (fpIn flush t a) (fpIn flush t b).neg)

/-- a × b. -/
def fpMul (flush : Bool) (t rm : Nat) (sat : Bool) (a b : Nat) : Nat :=
  fpOut flush t rm sat (Val.mul (fpIn flush t a) (fpIn flush t b))

/-- a / b. -/
def fpDiv (flush : Bool) (t rm : Nat) (sat : Bool) (a b : Nat) : Nat :=
  fpOut flush t rm sat (Val.div (fpIn flush t a) (fpIn flush t b))

/-- The square root. -/
def fpSqrt (flush : Bool) (t rm : Nat) (a : Nat) : Nat := fpOut flush t rm false (Val.sqrt (fpIn flush t a))

/-- A comparison of two codes, false with a NaN; no subnormal policy applies. -/
def fpCmp (t : Nat) (rel : Ordering → Bool) (a b : Nat) : Bool :=
  let x := (fmtOf t).val (a % 2 ^ typeWidth t)
  let y := (fmtOf t).val (b % 2 ^ typeWidth t)
  !x.isNan && !y.isNan && rel (x.cmp y)

end Sys2Proof.Machine
end

