-- ==== Sys2Proof/Machine/Flags.lean ====
section
/-! DEFINITION. The flags of a group: the mode register (R54, R104), AMAX and AMAXNAN (R55), CMIXCNT (R58). The
hardware has no condition codes, and SFP raises no flags (R73). -/

namespace Sys2Proof.Machine

/-- Rounding mode rm (R54). -/
def Group.rm (g : Group) : Nat := g.mode.toNat / 32 % 8

/-- Element type vt (R54). -/
def Group.vt (g : Group) : Nat := g.mode.toNat % 32

/-- cmixm (R54). -/
def Group.cmixm (g : Group) : Bool := g.mode.getLsbD 8

/-- The mode register from its fields. -/
def modeWord (vt rm : Nat) (cmixm : Bool) : BitVec 32 :=
  BitVec.ofNat 32 (vt % 32 + rm % 8 * 32 + (if cmixm then 256 else 0))

/-- MODE's new content by the selecting bits of fn, or nothing for a forbidden vt or rm (R54, R104). -/
def modeNew (old : BitVec 32) (fn : Nat) (a : U64) : Option (BitVec 32) :=
  let vt := if fn.testBit 0 then a.toNat % 32 else old.toNat % 32
  let rm := if fn.testBit 1 then a.toNat / 32 % 8 else old.toNat / 32 % 8
  let cm := if fn.testBit 2 then a.getLsbD 8 else old.getLsbD 8
  if (fn.testBit 0 && !tALL.contains vt) || (fn.testBit 1 && rm ≥ 5) then none else some (modeWord vt rm cm)

/-- The fold of a source value into AMAX and AMAXNAN (R55). AMAX is never negative, so its codes are ordered as
numbers. -/
def foldAmax (st : BitVec 32 × Bool) (v : Val) : BitVec 32 × Bool :=
  match v with
  | .nan => (st.1, true)
  | v => (BitVec.ofNat 32 (max st.1.toNat (fF32.round 3 false v.abs)), st.2)

/-- Folds of many values into a group. -/
def Group.fold (g : Group) (vs : List Val) : Group :=
  let r := vs.foldl foldAmax (g.amax, g.amaxNan)
  { g with amax := r.1, amaxNan := r.2 }

/-- AMAXNAN is set (R71). -/
def Group.setNan (g : Group) (b : Bool) : Group := { g with amaxNan := g.amaxNan || b }

end Sys2Proof.Machine
end

