-- ==== Sys2Proof/Machine/Translate.lean ====
section
/-! DEFINITION. The two translations of an address: windows at the issuing side (R334), the page tables and the
pad attributes at the memory side (R329, R330, R338 to R341); and reading and writing the bytes behind them. -/

namespace Sys2Proof.Machine

open Host (Cell)

/-! ## Windows -/

/-- The table key of window `w` of a context. -/
def winKey (part ctx w : Nat) : Nat := (part * 2 ^ 32 + ctx) * 16 + w

/-- A window as reset leaves it: disabled (R336). -/
def Window.off0 : Window := ⟨0, 0, 0, 0⟩

/-- A window of a context. -/
def State.window (s : State) (part ctx w : Nat) : Window := (s.windows.find (winKey part ctx w)).getD Window.off0

/-- The window's kind: 0 disabled, 1 HBM, 2 pad, 3 host, 4 peer. -/
def Window.kind (w : Window) : Nat := w.ctl.toNat % 8

/-- Read, write and fetch permission. -/
def Window.canR (w : Window) : Bool := w.ctl.getLsbD 4
/-- Write permission. -/
def Window.canW (w : Window) : Bool := w.ctl.getLsbD 5
/-- Fetch permission. -/
def Window.canX (w : Window) : Bool := w.ctl.getLsbD 6

/-- Whether a window maps a virtual address (R334). -/
def Window.maps (w : Window) (va : Nat) : Bool :=
  w.kind != 0 && w.base.toNat ≤ va && va < w.base.toNat + w.limit.toNat

/-- The intermediate address of a virtual address in a window; the sum wraps at 2^52. -/
def Window.ia (w : Window) (va : Nat) : Nat := (va - w.base.toNat + w.off.toNat) % 2 ^ 52

/-- The lowest-numbered window that maps a virtual address, with its intermediate address (R334). -/
def State.mapVa (s : State) (part ctx va : Nat) : Option (Window × Nat) :=
  (((List.range 16).map fun w => s.window part ctx w).find? fun w => w.maps va).map fun w => (w, w.ia va)

/-- The first byte of a range of `len` bytes that the window of its lowest byte does not cover (R441). -/
def Window.beyond (w : Window) (va len : Nat) : Option Nat :=
  let e := w.base.toNat + w.limit.toNat
  if va + len ≤ e then none else some e

/-- A window whose kind and intermediate address disagree raises WINDOW_PERM at use (R334). -/
def Window.kindOk (w : Window) (ia : Nat) : Bool := (w.kind == 2) == (ia.testBit 51)

/-! ## The memory side -/

/-- What the memory side answers to an access. -/
inductive MemSide where
  | ok (key : Nat) (stamp : Nat) (dirty : Option Nat)   -- the byte's key, the page's stamp, the entry to mark DIRTY
  | wait (kind : Nat)                                   -- 1 not present, 2 migrating
  | deny (kind : Nat)                                   -- the kind of R346
deriving DecidableEq, Repr

/-- A quadrant that nothing has configured: its registers at their Reset values (R342, R399). -/
def Quad.reset : Quad := ⟨0, 0, 0, 0, 0, false, [], []⟩

/-- A quadrant. -/
def State.quad (s : State) (q : Nat) : Quad := (s.quads.find q).getD Quad.reset

/-- Change a quadrant. -/
def State.modQuad (s : State) (q : Nat) (f : Quad → Quad) : State := { s with quads := s.quads.put q (f (s.quad q)) }

/-- Whether a partition owns a quadrant (R330, R399). -/
def State.owns (s : State) (part q : Nat) : Bool := q < 16 && (s.quad q).state == 2 && (s.quad q).part == part

/-- The poison granule of a byte: 32 bytes of HBM or host memory, 8 of the scratchpad (R222, R411). -/
def granule (key : Nat) : Nat × Nat :=
  if 2 ^ 51 ≤ key && key < 2 ^ 52 then (key / 8 * 8, 8) else (key / 32 * 32, 32)

/-- Whether a byte is poisoned. -/
def State.bad (s : State) (key : Nat) : Bool := s.memBad.contains (granule key).1

/-- Whether any of `n` bytes is poisoned. -/
def State.badRange (s : State) (key n : Nat) : Bool := (List.range n).any fun k => s.bad (key + k)

/-- The key under which the MTU holds the level-1 entry of an intermediate address, or its level-2 entry. -/
def mtuKey (ia : Nat) (leaf2 : Bool) : Nat := ia / 2 ^ 21 % 2 ^ 26 * 64 + (if leaf2 then ia / 2 ^ 16 % 32 else 32)

/-- A table entry as the MTU sees it: one it read earlier and still holds, or the bytes in memory (R343). -/
def State.mtuEntry (s : State) (q key addr : Nat) : Nat :=
  match (s.quad q).cached.find key with
  | some e => e.2.toNat
  | none => Memory.num s.mem addr 8

/-- Whether reading a table entry meets an uncorrectable error; an entry that the MTU holds is not read (R339). -/
def State.entryBad (s : State) (q key addr : Nat) : Bool :=
  ((s.quad q).cached.find key).isNone && s.badRange addr 8

/-- The walk of R339: the leaf entry, its address and the target, or why there is none. -/
def State.walk (s : State) (ia : Nat) : Except MemSide (Nat × Nat × Nat) :=
  let q := ia / 2 ^ 47 % 16
  let i1 := ia / 2 ^ 21 % 2 ^ 26
  let r := s.quad q
  if i1 ≥ r.l1count then .error (.deny 6)
  else
    let a1 := r.l1base.toNat * 4096 + 8 * i1
    if s.entryBad q (mtuKey ia false) a1 then .error (.deny 7)
    else
      let e1 := s.mtuEntry q (mtuKey ia false) a1
      if !e1.testBit 0 then .error (.wait 1)
      else if e1.testBit 54 then
        .ok (e1, a1, e1 / 2 ^ 21 % 2 ^ 31 * 2 ^ 21 + ia % 2 ^ 21)
      else
        let a2 := e1 / 2 ^ 8 % 2 ^ 44 * 2 ^ 8 + 8 * (ia / 2 ^ 16 % 32)
        if s.entryBad q (mtuKey ia true) a2 then .error (.deny 7)
        else
          let e2 := s.mtuEntry q (mtuKey ia true) a2
          if !e2.testBit 0 || e2.testBit 54 then .error (.wait 1)
          else .ok (e2, a2, e2 / 2 ^ 16 % 2 ^ 36 * 2 ^ 16 + ia % 2 ^ 16)

/-- The place of a byte of memory that an access uses: the place to which its page is mapped, or the line that the L2 still
holds from an earlier mapping of the page (R333). -/
def State.l2Key (s : State) (ia key : Nat) : Nat :=
  match s.l2.find (ia / 128) with
  | some l => if l.key = key / 128 * 128 then key else l2Base + ia
  | none => key

/-- Bytes of HBM in one quadrant (R340). -/
def hbmBytes : Nat := 24000000000

/-- Whether `n` bytes at a package HBM address stand in a quadrant that a partition owns. What its registers name elsewhere,
the partition does not write (R397, log entry 50). -/
def State.ownsHbm (s : State) (part a n : Nat) : Bool := s.owns part (a / 2 ^ 35) && a % 2 ^ 35 + n ≤ hbmBytes

/-- The memory side's answer to an access of a partition to a memory intermediate address (R330, R339 to R341). -/
def State.hbmSide (s : State) (part ia : Nat) (r w : Bool) : MemSide :=
  let q := ia / 2 ^ 47 % 16
  if !s.owns part q then .deny 5
  else match s.walk ia with
    | .error e => e
    | .ok (e, a, t) =>
      let home := e / 2 ^ 57 % 4
      if home = 3 then .wait 1
      else if e.testBit 56 then .wait 2
      else if r && !e.testBit 1 then .deny 3
      else if w && !e.testBit 2 then .deny 4
      else
        let d := if w && !e.testBit 55 && s.ownsHbm part a 8 then some a else none
        if home = 0 then
          if !s.owns part (t / 2 ^ 35) then .deny 5
          else if t % 2 ^ 35 ≥ hbmBytes then .deny 11
          else .ok (s.l2Key ia t) (e / 2 ^ 60 % 16) d
        else .ok (s.l2Key ia ((if home = 1 then hostBase else peerBase) + t)) (e / 2 ^ 60 % 16) d

/-- The attributes of the pad page of an offset (R338). -/
def CoreSt.padPage (c : CoreSt) (off : Nat) : Nat := c.padattr.toNat / 2 ^ (8 * (off / 2 ^ 16)) % 256

/-- The memory side's answer to an access to a pad intermediate address that names a byte (R330, R338). -/
def State.padSide (s : State) (part ia : Nat) (r w : Bool) : MemSide :=
  let core := ia / 2 ^ 19 % 512
  let a := (s.core core).padPage (ia % 2 ^ 19)
  if !s.owns part (quadOf core) then .deny 5
  else if r && !a.testBit 0 then .deny 3
  else if w && !a.testBit 1 then .deny 4
  else .ok (padKey core (s.core core).dvsize (ia % 2 ^ 19)) (a / 4 % 16) none

/-- Whether a pad intermediate address names `n` bytes within its core's die-visible region (R329). -/
def State.padNames (s : State) (ia n : Nat) : Bool :=
  ia / 2 ^ 28 % 2 ^ 23 == 0 && ia % 2 ^ 19 + n ≤ 4096 * (s.core (ia / 2 ^ 19 % 512)).dvsize

/-- The memory side's answer to an access to any intermediate address. -/
def State.memSide (s : State) (part ia : Nat) (r w : Bool) : MemSide :=
  if ia.testBit 51 then s.padSide part ia r w else s.hbmSide part ia r w

/-! ## Bytes -/

/-- Store cells: the bytes change, and a poison granule that they cover wholly is clean again (R222, R412). -/
def State.storeCells (s : State) (cs : List Cell) : State :=
  { s with
    mem := cs.foldl (fun m c => Memory.set m c.1 c.2) s.mem
    memBad := s.memBad.filter fun g => !(List.range (granule g).2).all fun k => cs.any fun c => c.1 == g + k }

/-- Store bytes from a key up. -/
def State.storeBytes (s : State) (key : Nat) (bs : List Byte) : State :=
  s.storeCells ((List.range bs.length).zip bs |>.map fun p => (key + p.1, p.2))

/-- Poison the granule of a byte (R239, R412). -/
def State.spoil (s : State) (key : Nat) : State :=
  let g := (granule key).1
  if s.memBad.contains g then s else { s with memBad := g :: s.memBad }

/-- Set DIRTY in an entry, in memory and in what the MTU holds of it (R341). -/
def State.setDirty (s : State) (e : Option Nat) : State :=
  match e with
  | none => s
  | some a =>
    let s := { s with mem := Memory.set s.mem (a + 6) (Memory.get s.mem (a + 6) ||| 0x80) }
    { s with quads := s.quads.mapVal fun _ q =>
        { q with cached := q.cached.mapVal fun _ e => if e.1 = a then (a, e.2 ||| 0x80000000000000) else e } }

/-! ## Peers (R418 to R421) -/

/-- A partition that nothing has configured: its registers at their Reset values (R399, R405, R421). -/
def Part.reset : Part := ⟨0, 0, 0, false, [], [], [], []⟩

/-- A partition. -/
def State.part (s : State) (p : Nat) : Part := (s.parts.find p).getD Part.reset

/-- Change a partition. -/
def State.modPart (s : State) (p : Nat) (f : Part → Part) : State := { s with parts := s.parts.put p (f (s.part p)) }

/-- The fabric address of a peer target; entry 0 and entries that hold 0 route nowhere (R420, R421). -/
def State.fabricAddr (s : State) (part t : Nat) : Option Nat :=
  let i := t / 2 ^ 44 % 256
  let r := ((s.part part).routes.get i).toNat
  if i = 0 || r = 0 then none else some (r / 2 ^ 52 * 2 ^ 52 + (r + t % 2 ^ 44) % 2 ^ 52)

/-- Whether some up link leads to a module (R437). -/
def State.linked (s : State) (module : Nat) : Bool :=
  s.links.any fun l => l.2.getLsbD 0 && l.2.toNat / 2 ^ 8 % 256 == module

/-- A flit of a partition of a module, given by bits [63:52] of its fabric addresses, has come to a partition: the member of
a communicator there is heard by every collective that runs (R437). -/
def State.heard (s : State) (part who : Nat) : State :=
  { s with colls := s.colls.mapVal fun _ k =>
      match s.comms.find k.comm with
      | none => k
      | some c =>
        if k.part = part && k.started then
          { k with seen := (((List.range c.count).zip c.members).filter fun m =>
              m.1 != c.rank && m.2.toNat / 2 ^ 52 == who).foldl (fun t m => t.put m.1 s.cycle.toNat) k.seen }
        else k }

/-- The far end's verdict on an access to a peer target (R420): denied at the issuing side without a route or a link;
otherwise the receiving module's answer, which is a free value (log entry 2). -/
def State.farEnd (s : State) (part t : Nat) : Bool × State :=
  match s.fabricAddr part t with
  | none => (false, s)
  | some a => if s.linked (a / 2 ^ 56) then (s.heard part (a / 2 ^ 52)).flip else (false, s)

/-- A message that leaves the module towards a peer (R420, log entry 8): its kind, a number, the fabric address, data. -/
def State.toPeer (s : State) (kind num part t : Nat) (bs : List Byte) : State :=
  { s with outbox := s.outbox ++ [⟨kind, num, (s.fabricAddr part t).getD 0, bs⟩] }

/-- Read `n` bytes behind a key, and whether they are poisoned; a peer's bytes are free values (R420, log entry 2). -/
def State.load (s : State) (key n : Nat) : List Byte × Bool × State :=
  if key ≥ peerBase then
    let (bad, s) := s.flip
    ((List.range n).map fun k => Config.freeByte (s.free + k), bad, { s with free := s.free + n })
  else (Memory.read s.mem key n, s.badRange key n, s)

/-! ## Where an element of an engine's access lands -/

/-- The verdict on an access of `n` bytes (R236, R242, R330, R341, R420). A pad address that names no byte counts as
denied (log entry 9). -/
def State.target (s : State) (part : Nat) (l : Loc) (n : Nat) (r w : Bool) : Tgt × State :=
  match l with
  | .shared b off => (.shared b off, s)
  | .ia a =>
    match s.memSide part a r w with
    | .wait k => (.wait k, s)
    | .deny k => (.deny k false, s)
    | .ok key stamp dirty =>
      if a.testBit 51 && !s.padNames a n then (.deny (if r then 3 else 4) false, s)
      else if key ≥ peerBase then
        let (yes, s) := s.farEnd part (key - peerBase)
        (if yes then .key key stamp dirty else .deny (if r then 3 else 4) true, s)
      else (.key key stamp dirty, s)

/-! ## Held L2 lines (R332, R333)

While its page's mapping stands, a held line has the bytes that memory has: every agent sees them alike (R332), and the
line is brought up to date before each step. Once the page is mapped elsewhere, the line keeps the bytes of its
intermediate address, which accesses then read and write in the line, until it is given up. A write through the line's
intermediate address makes it dirty. -/

/-- Bytes are written to memory through an intermediate address: the lines that hold them are dirty (R333). -/
def State.touch (s : State) (key n : Nat) : State :=
  { s with l2 := s.l2.mapVal fun i l =>
      let lo := if l.key = l2Base then l2Base + 128 * i else l.key
      { l with dirty := l.dirty || (lo < key + n && key < lo + 128) } }

/-- The partition of the quadrant that an intermediate address names. -/
def State.partOfIa (s : State) (ia : Nat) : Nat := (s.quad (ia / 2 ^ 47 % 16)).part

/-- The place to which the line of an intermediate address is mapped now, if its partition may reach it (R340, R397). -/
def State.l2Target (s : State) (ia : Nat) : Option Nat :=
  match s.walk ia with
  | .ok (e, _, t) =>
    let home := e / 2 ^ 57 % 4
    if !s.owns (s.partOfIa ia) (ia / 2 ^ 47 % 16) then none
    else if home = 0 then (if s.ownsHbm (s.partOfIa ia) t 128 then some t else none)
    else if home = 1 then some (hostBase + t)
    else if home = 2 then some (peerBase + t)
    else none
  | .error _ => none

/-- Copy the bytes of a line of 128 bytes with its poison. -/
def State.lineMove (s : State) (src dst : Nat) : State :=
  (((List.range 4).filter fun i => s.bad (src + 32 * i)).map fun i => dst + 32 * i).foldl State.spoil
    (s.storeBytes dst (Memory.read s.mem src 128))

/-- A held line is brought up to date; one whose page is mapped elsewhere keeps its bytes from then on. -/
def State.l2Line (s : State) (n : Nat) (l : L2Line) : State :=
  if l.key = l2Base then s
  else if s.l2Target (128 * n) = some l.key then s.lineMove l.key (l2Base + 128 * n)
  else { s with l2 := s.l2.put n { l with key := l2Base } }

/-- Every held line is brought up to date. -/
def State.l2Sync (s : State) : State := s.l2.foldl (fun s x => s.l2Line x.1 x.2) s

/-- An L2 slice reads a line and holds it: one of the module's or the host's memory that it does not hold yet. -/
def State.l2Hold (s : State) (ia : Nat) : State :=
  let n := ia / 128
  match s.l2Target (128 * n), s.l2.find n with
  | some t, none =>
    if ia ≥ 2 ^ 51 || t ≥ peerBase then s
    else { s.lineMove t (l2Base + 128 * n) with l2 := s.l2.put n ⟨t, false⟩ }
  | _, _ => s

/-- A held line is dropped; its bytes are gone. -/
def State.l2Drop (s : State) (n : Nat) : State :=
  { s.storeBytes (l2Base + 128 * n) (List.replicate 128 0) with l2 := s.l2.del n }

/-- The line at a key is sent to a peer, poisoned granules as poisoned writes (R411, R420). -/
def State.lineSend (s : State) (part src t : Nat) : State :=
  (List.range 4).foldl (fun s i =>
    let key := src + 32 * i
    if s.bad key then s.toPeer 2 32 part (t + 32 * i) [] else s.toPeer 1 0 part (t + 32 * i) (Memory.read s.mem key 32)) s

/-- A held line is written back if it is dirty: to the place to which its page is mapped at that moment (R333); one that is
written to a peer is given up. One whose page has no place, or none that its partition may reach, stays dirty (log entry 53).
Answers whether nothing is left to write back. -/
def State.l2Clean (s : State) (n : Nat) : Bool × State :=
  match s.l2.find n with
  | none => (true, s)
  | some l =>
    if !l.dirty then (true, s)
    else if l.key ≠ l2Base then (true, { s with l2 := s.l2.put n { l with dirty := false } })
    else match s.l2Target (128 * n) with
      | none => (false, s)
      | some t =>
        if t < peerBase then (true, { s.lineMove (l2Base + 128 * n) t with l2 := s.l2.put n ⟨t, false⟩ })
        else
          let part := s.partOfIa (128 * n)
          let (yes, s) := s.farEnd part (t - peerBase)
          if yes then (true, (s.lineSend part (l2Base + 128 * n) (t - peerBase)).l2Drop n) else (false, s)

/-- A held line is given up: written back if dirty, and dropped. A dirty line without a place to go stays. -/
def State.l2Evict (s : State) (n : Nat) : State :=
  match s.l2.find n, s.l2Clean n with
  | some _, (true, s) => s.l2Drop n
  | _, (_, s) => s

/-- The page of an intermediate address: 2 MiB where level 1 decides, otherwise 64 KiB (R339). -/
def State.pageOf (s : State) (ia : Nat) : Nat :=
  if ia.testBit 51 then ia / 2 ^ 16 * 2 ^ 16
  else
    let r := s.quad (ia / 2 ^ 47 % 16)
    let i1 := ia / 2 ^ 21 % 2 ^ 26
    let e1 := s.mtuEntry (ia / 2 ^ 47 % 16) (mtuKey ia false) (r.l1base.toNat * 4096 + 8 * i1)
    if i1 ≥ r.l1count || !e1.testBit 0 || e1.testBit 54 then ia / 2 ^ 21 * 2 ^ 21 else ia / 2 ^ 16 * 2 ^ 16

/-- The page that the fault records of a partition name for an intermediate address: where another partition has the quadrant,
nothing of its tables is consulted (R330), and the model counts by 64 KiB (log entry 19). -/
def State.faultPage (s : State) (part ia : Nat) : Nat :=
  if ia.testBit 51 || s.owns part (ia / 2 ^ 47 % 16) then s.pageOf ia else ia / 2 ^ 16 * 2 ^ 16

end Sys2Proof.Machine
end

