-- ==== Sys2Proof/Machine/Barrier.lean ====
section
/-! DEFINITION. Fault records (R345, R346) and barrier objects (R178 to R187). -/

namespace Sys2Proof.Machine

/-! ## Records -/

/-- The table key of a queue: die, partition, queue (R345). -/
def queueKey (die part q : Nat) : Nat := (die * 16 + part) * 2 + q

/-- A queue as reset leaves it (R347). -/
def EvQueue.reset : EvQueue := ⟨0, 7, 0, 0, false, 0, []⟩

/-- A queue. -/
def State.queue (s : State) (die part q : Nat) : EvQueue := (s.queues.find (queueKey die part q)).getD EvQueue.reset

/-- Change a queue. -/
def State.modQueue (s : State) (die part q : Nat) (f : EvQueue → EvQueue) : State :=
  { s with queues := s.queues.put (queueKey die part q) (f (s.queue die part q)) }

/-- A record reaches the arbiter's input and waits there; no record is dropped (R345). -/
def State.post (s : State) (die part q : Nat) (rec : List Byte) (tag : Nat := 0) : State :=
  s.modQueue die part q fun k => { k with waiting := k.waiting ++ [(tag, rec)] }

/-- An operation waits while a record of its own waits at an arbiter (R345). `tag` is the operation's number. -/
def State.held (s : State) (tag : Nat) : Bool := s.queues.any fun q => q.2.waiting.any fun r => r.1 == tag

/-- The first 28 bytes of a fault record (R346). The walk that meets an uncorrectable entry (kind 7) has no virtual
address. -/
def faultBytes (va ia lanes kind source record slot core : Nat) : List Byte :=
  leBytes 8 (if kind = 7 then 0 else va) ++ leBytes 8 ia ++ leBytes 4 lanes ++ leBytes 1 kind ++ leBytes 1 source ++ leBytes 1 record
    ++ leBytes 1 slot ++ leBytes 2 core ++ leBytes 2 0

/-- The die sends a fault record to its partition's fault queue (R345, R346). -/
def State.fault (s : State) (part core va ia lanes kind source record slot : Nat) (tag : Nat := 0) :
    State :=
  s.post (dieOf core) part 0 (faultBytes va ia lanes kind source record slot core) tag

/-! ## Barrier objects -/

/-- Where the byte of a pad intermediate address lies now (R207, R329, R335). An address that a change of D has left beyond
its core's region names no byte: its key is one that nothing else reaches (log entry 48). -/
def State.padKeyOf (s : State) (ia : Nat) : Nat :=
  if s.padNames ia 1 then padKey (ia / 2 ^ 19 % 512) (s.core (ia / 2 ^ 19 % 512)).dvsize (ia % 2 ^ 19) else 2 ^ 58 + ia

/-- The 16 bytes of a barrier object as a number (R179). -/
def State.barGet (s : State) (l : BarLoc) : Nat :=
  match l with
  | .shared b o => ((s.block b).map fun k => leNat ((List.range 16).map fun i => k.shared.get (o + i))).getD 0
  | .pad a => Memory.num s.mem (s.padKeyOf a) 16

/-- Write bytes of a block's shared memory; a poisoned unit that they cover wholly is clean again (R222). -/
def State.storeShared (s : State) (b : Nat) (cs : List (Nat × Byte)) : State :=
  s.modBlock b fun k => { k with
    shared := k.shared.setMany cs
    sharedBad := k.sharedBad.filter fun u => !(List.range 8).all fun i => cs.any fun c => c.1 == 8 * u + i }

/-- Write the 16 bytes of a barrier object. -/
def State.barPut (s : State) (l : BarLoc) (v : Nat) : State :=
  match l with
  | .shared b o => s.storeShared b ((List.range 16).zip (leBytes 16 v) |>.map fun p => (o + p.1, p.2))
  | .pad a => s.storeBytes (s.padKeyOf a) (leBytes 16 v)

/-- A barrier operation acts on the object, which is a barrier object from then on. What makes 16 bytes a barrier object for
the ordinary writes of R183 the spec does not say: in the model, that a barrier operation has acted on them (DESIGN CHOICE, log
entry 55). -/
def State.barTouch (s : State) (l : BarLoc) : State :=
  match l with
  | .shared b o => s.modBlock b fun k => if k.bars.contains o then k else { k with bars := o :: k.bars }
  | .pad a =>
    if s.padBars.contains (s.padKeyOf a) then s else { s with padBars := s.padKeyOf a :: s.padBars }

/-- The fields of a barrier object (R179). -/
structure BarObj where
  error    : Bool
  phase    : Nat
  bytes    : Int
  count    : Nat
  expected : Nat
  top      : Nat          -- the reserved bits
deriving DecidableEq, Repr

/-- Read the fields. -/
def BarObj.of (v : Nat) : BarObj :=
  ⟨v.testBit 96, v / 2 ^ 64 % 2 ^ 32, sext 32 (v / 2 ^ 32), v / 2 ^ 16 % 2 ^ 16, v % 2 ^ 16, v / 2 ^ 97 % 2 ^ 31⟩

/-- The object's bytes as a number. -/
def BarObj.num (o : BarObj) : Nat :=
  o.expected + o.count * 2 ^ 16 + (BitVec.ofInt 32 o.bytes).toNat * 2 ^ 32 + o.phase * 2 ^ 64
    + (if o.error then 2 ^ 96 else 0) + o.top * 2 ^ 97

/-- A phase completes in the step in which both counts reach zero (R180). -/
def BarObj.complete (o : BarObj) : BarObj :=
  if o.expected != 0 && o.count == 0 && o.bytes == 0 then
    { o with phase := (o.phase + 1) % 2 ^ 32, count := o.expected, bytes := 0 }
  else o

/-- An arrival: `dec` for one by BARARR, and the bytes added (R181, R182). -/
def BarObj.arrive (o : BarObj) (dec : Bool) (add : Int) : BarObj :=
  let b := o.bytes + add
  if o.expected = 0 || (dec && o.count == 0) || b < -(2 ^ 31) || b ≥ 2 ^ 31 then { o with error := true }
  else BarObj.complete { o with count := if dec then o.count - 1 else o.count, bytes := b }

/-- A group that waits by BARWAIT on an object that `hit` names has met a BARINIT or an error there: whatever is written to the
object afterwards, its test finds done with bit 32 set (R182, R183, R185, R186). -/
def Group.barPoke (hit : BarLoc → Bool) (g : Group) : Group :=
  match g.park with
  | .barwait sd loc ph _ => if hit loc then { g with park := .barwait sd loc ph true } else g
  | _ => g

/-- Every group that waits on such an object. -/
def State.barPoke (s : State) (hit : BarLoc → Bool) : State :=
  { s with blocks := s.blocks.mapVal fun _ k => { k with groups := k.groups.mapVal fun _ g => g.barPoke hit } }

/-- Whether a place is that of an object: a pad object is known by where its bytes lie. -/
def State.sameBar (s : State) (l x : BarLoc) : Bool :=
  match l, x with
  | .shared b o, .shared b' o' => b == b' && o == o'
  | .pad a, .pad a' => s.padKeyOf a == s.padKeyOf a'
  | _, _ => false

/-- An arrival on an object in memory: the object before and after, and the state; the error bit wakes its waiters (R180 to
R182). -/
def State.arrive (s : State) (l : BarLoc) (dec : Bool) (add : Int) : BarObj × BarObj × State :=
  let o := BarObj.of (s.barGet l)
  let n := o.arrive dec add
  let t := (s.barPut l n.num).barTouch l
  (o, n, if n.error then t.barPoke (s.sameBar l) else t)

/-- BARINIT writes the whole object (R185). -/
def State.barInit (s : State) (l : BarLoc) (expected : Nat) : State :=
  ((s.barPut l (BarObj.num ⟨false, 0, 0, expected, expected, 0⟩)).barTouch l).barPoke (s.sameBar l)

/-- The object is armed (R179). -/
def BarObj.armed (o : BarObj) : Bool := o.expected != 0

/-- The barrier objects of a list of places that a write of some bytes touches and that are armed (R183). -/
def armedHits (objs : List Nat) (keys : List Nat) (armed : Nat → Bool) : List Nat :=
  objs.filter fun o => keys.any (fun k => o ≤ k && k < o + 16) && armed o

/-- Set the error bit of an object and wake its waiters (R182, R183): bit 0 of its byte 12; poison that stands beside it stays
(R222). -/
def State.barError (s : State) (l : BarLoc) : State :=
  (match l with
  | .shared b o =>
    s.storeShared b [(o + 12, (((s.block b).map fun (k : Block) => k.shared.get (o + 12)).getD 0) ||| 1)]
  | .pad a => s.storeCells [(s.padKeyOf a + 12, Memory.get s.mem (s.padKeyOf a + 12) ||| 1)]).barPoke (s.sameBar l)

/-- Set the error bit of each armed object of a block's shared memory that a write of some bytes touches (R183); `old` is
the state before. -/
def State.sharedErrors (s old : State) (b : Nat) (offs : List Nat) : State :=
  let objs := ((old.block b).map fun k => k.bars).getD []
  (armedHits objs offs fun o => (BarObj.of (old.barGet (.shared b o))).armed).foldl (fun s o => s.barError (.shared b o)) s

/-- An ordinary write to a block's shared memory: performed as written, then the error bit of every armed object
that it touches is set (R183). -/
def State.ordShared (s : State) (b : Nat) (cs : List (Nat × Byte)) : State :=
  (s.storeShared b cs).sharedErrors s b (cs.map Prod.fst)

/-- The pad object at a key. -/
def State.barAt (s : State) (a : Nat) : BarObj := BarObj.of (Memory.num s.mem a 16)

/-- A pad object is the one at a key. -/
def State.barAtKey (s : State) (key : Nat) (l : BarLoc) : Bool :=
  match l with
  | .pad a => s.padKeyOf a == key
  | _ => false

/-- Set the error bit of the pad objects at some keys, and wake their waiters (R183). -/
def State.keyErrors (s : State) (objs : List Nat) : State :=
  objs.foldl (fun s a => (s.storeCells [(a + 12, Memory.get s.mem (a + 12) ||| 1)]).barPoke (s.barAtKey a)) s

/-- Set the error bit of each armed pad object that a write of some bytes touches (R183); `old` is the state before. -/
def State.padErrors (s old : State) (keys : List Nat) : State :=
  s.keyErrors (armedHits old.padBars keys fun a => (old.barAt a).armed)

/-- An ordinary write to memory behind keys, with the same rule for pad objects. -/
def State.ordCells (s : State) (cs : List Host.Cell) : State := (s.storeCells cs).padErrors s (cs.map Prod.fst)

/-- An access of several parts has written bytes of a block's shared memory and of memory: `old` is the state before it. Each
object that was armed before the access has its error bit set, whatever any part wrote there (R183). -/
def State.wroteAll (s old : State) (b : Nat) (offs keys : List Nat) : State :=
  (s.sharedErrors old b offs).padErrors old keys

/-- Poisoned words that bytes written together cover whole are clean (R222, R412). -/
def State.cleanBytes (s : State) (b : Nat) (offs keys : List Nat) : State :=
  { s.modBlock b (fun k => { k with
      sharedBad := k.sharedBad.filter fun u => !(List.range 8).all fun i => offs.contains (8 * u + i) }) with
    memBad := s.memBad.filter fun g => !(List.range (granule g).2).all fun i => keys.contains (g + i) }

end Sys2Proof.Machine
end

