-- ==== Sys2Proof/Machine/Access.lean ====
section
/-! DEFINITION. The bytes of a group's own accesses: reading and writing them, atomics, and the accesses of a hit pass that are
performed after their issue (R168, R171 to R176, R193, R194, R314). -/

namespace Sys2Proof.Machine

/-! ## Bytes behind a spot -/

/-- Bytes of a block's shared memory. -/
def Block.bytes (k : Block) (off n : Nat) : List Byte := (List.range n).map fun i => k.shared.get (off + i)

/-- The constant block of a block's grid (R166). -/
def State.constBytes (s : State) (k : Block) (off n : Nat) : List Byte :=
  ((((s.gridOf k).map fun g => g.consts).getD []).drop off).take n

/-- The bytes of an access as they stand. -/
def State.spotRead (s : State) (b : Nat) (p : Spot) (n : Nat) : List Byte :=
  match p with
  | .shared off => ((s.block b).map fun k => k.bytes off n).getD []
  | .const off => ((s.block b).map fun k => s.constBytes k off n).getD []
  | .pad _ key => Memory.read s.mem key n

/-- An ordinary write (R183). -/
def State.spotWrite (s : State) (b : Nat) (p : Spot) (bs : List Byte) : State :=
  match p with
  | .shared off => s.ordShared b ((List.range bs.length).zip bs |>.map fun q => (off + q.1, q.2))
  | .const _ => s
  | .pad _ key => s.ordCells ((List.range bs.length).zip bs |>.map fun q => (key + q.1, q.2))

/-- The offsets of shared memory that accesses of `n` bytes write. -/
def spotOffs (n : Nat) (ps : List Spot) : List Nat :=
  ps.flatMap fun p => match p with
    | .shared off => (List.range n).map fun i => off + i
    | _ => []

/-- The keys of memory that they write. -/
def spotKeys (n : Nat) (ps : List Spot) : List Nat :=
  ps.flatMap fun p => match p with
    | .pad _ key => (List.range n).map fun i => key + i
    | _ => []

/-- The lanes of one store have written, one after another: the poisoned words that they cover together are clean (R171, R222),
and the objects that were armed before are in error (R183). -/
def State.spotsWritten (s old : State) (b n : Nat) (ps : List Spot) : State :=
  (s.cleanBytes b (spotOffs n ps) (spotKeys n ps)).wroteAll old b (spotOffs n ps) (spotKeys n ps)

/-- A loaded value of `n` bytes, zero-extended or sign-extended (R168). -/
def loadVal (sx : Bool) (bs : List Byte) : U64 :=
  let v := leNat bs
  if sx then ofInt64 (sext (8 * bs.length) v) else BitVec.ofNat 64 v

/-- The list in an arbitrary order: any element may come first (log entry 2). -/
def shuffle {α : Type} (free : Nat) : Nat → List α → List α
  | 0, l => l
  | n + 1, l =>
    let i := (Config.free free).toNat % l.length
    match l[i]? with
    | some x => x :: shuffle (free + 1) n (l.eraseIdx i)
    | none => l

/-- The barrier objects that an access of `n` bytes touches. -/
def State.objectsAt (s : State) (b n : Nat) (p : Spot) : List Spot :=
  let touched (at_ : Nat) (o : Nat) : Bool := o < at_ + n && at_ < o + 16
  match p with
  | .shared off => ((((s.block b).map Block.bars).getD []).filter (touched off)).map Spot.shared
  | .const _ => []
  | .pad _ key => (s.padBars.filter (touched key)).map fun o => .pad 0 o

/-- Whether two lane accesses of `n` bytes meet: in their bytes, or in a barrier object (R171, R176, R183). -/
def State.lanesMeet (s : State) (b n : Nat) (ps : List Spot) : Bool :=
  !decide ps.Nodup || !decide (ps.flatMap (s.objectsAt b n)).Nodup

/-- The lanes in the order in which they are performed: it matters only where two of them meet. -/
def State.laneOrder {α : Type} (s : State) (b n : Nat) (l : List (Nat × Spot × α)) : List (Nat × Spot × α) × State :=
  if s.lanesMeet b n (l.map fun q => q.2.1) then (shuffle s.free l.length l, { s with free := s.free + l.length })
  else (l, s)

/-- The new value of an atomic of `w` bits from the old value, the operand and cas's new value; none for a failed
cas, which writes nothing. -/
def atomNew (flush : Bool) (op w o v n : Nat) : Option Nat :=
  match op with
  | 0 => some ((o + v) % 2 ^ w)
  | 1 => some (wrapInt w (max (-(2 ^ (w - 1) : Int)) (min (2 ^ (w - 1) - 1) (sext w o + sext w v))))
  | 2 => some (if sext w v < sext w o then v else o)
  | 3 => some (if sext w o < sext w v then v else o)
  | 4 => some (o &&& v)
  | 5 => some (o ||| v)
  | 6 => some (o ^^^ v)
  | 7 => some v
  | 8 => if o = v then some n else none
  | 9 => some (fpAdd flush (if w = 32 then 0x11 else 0x10) 0 false o v)
  | _ => some (max o v)

/-- One read-modify-write: the old value and the state after. -/
def State.atom (s : State) (b : Nat) (flush : Bool) (op w : Nat) (p : Spot) (v n : Nat) : Nat × State :=
  let o := leNat (s.spotRead b p (w / 8))
  match atomNew flush op w o (v % 2 ^ w) (n % 2 ^ w) with
  | some x => (o, s.spotWrite b p (leBytes (w / 8) x))
  | none => (o, s)

/-- Whether an atomic that finds a number writes: all do but a cas that fails (R173). -/
def atomWrites (op w o v : Nat) : Bool := op != 8 || o == v % 2 ^ w

/-- The lanes of one atomic have written, one after another: the objects that were armed before are in error (R183). -/
def State.atomsWritten (s old : State) (b n : Nat) (ps : List Spot) : State :=
  s.wroteAll old b (spotOffs n ps) (spotKeys n ps)

/-! ## Results that land -/

/-- The outstanding results of a group change. A deferred condition whose register an S park has waited for falls due
once that result is no longer outstanding (R243). -/
def Group.settlePend (g : Group) (pend : List Outstanding) : Group :=
  let gone (d : Deferred) : Bool :=
    g.park == .sMark && g.pend.any (fun e => e.id == d.order) && !pend.any (fun e => e.id == d.order)
  { g with pend := pend, deferred := g.deferred.map fun d => if gone d then { d with due := true } else d }

/-- A vector register takes a lane of an operation's result, unless a later instruction has written the lane (R17); to a
later early result it is part of the content before (R18). -/
def Group.takeLane (g : Group) (id vd lane : Nat) (v : U64) (bad : Bool) : Group :=
  (if g.pend.any (fun e => e.id == id && e.reg == .v vd && e.ovr.getLsbD lane) then g
  else
    let g := g.setV vd lane v
    if bad then { g with poison := (.v vd, lane) :: g.poison } else g).landOld id (.v vd) lane v bad

/-! ## SC operations (R318) -/

/-- The highest clock of the package's cores (R318). -/
def State.topClock (s : State) : BitVec 96 :=
  s.cores.foldl (fun m c => if m.toNat < c.2.clock.toNat then c.2.clock else m) 0

/-- An SC operation takes its core's next timestamp, above those of all cores (R318, R319, log entry 23). -/
def State.stampSc (s : State) (core b gid : Nat) : State :=
  let t := s.topClock + 1
  (s.modCore core fun k => { k with clock := t }).modGroup b gid fun g => { g with scClock := t }

/-! ## Accesses that are performed after their issue (R194) -/

/-- One lane of a late access is performed. -/
def State.lateLane (s : State) (b gid : Nat) (a : Late) (l : Nat) (sp : Option Spot) (v w : U64) : State :=
  let data (u v : Nat) : List Byte := if a.n = 16 then leBytes 8 u ++ leBytes 8 v else leBytes a.n u
  match a.kind, sp with
  | .ld sx, sp =>
    let bs := (sp.map fun p => s.spotRead b p a.n).getD []
    s.modGroup b gid fun g =>
      if a.n = 16 then (g.takeLane a.id a.vd l (loadVal false (bs.take 8)) false).takeLane a.id (a.vd + 1) l
        (loadVal false (bs.drop 8)) false
      else g.takeLane a.id a.vd l (loadVal sx bs) false
  | .st, some p => s.spotWrite b p (data v.toNat w.toNat)
  | .atom op ret flush, some p =>
    let u := s.atom b flush op (8 * a.n) p v.toNat w.toNat
    if ret then u.2.modGroup b gid fun g => g.takeLane a.id a.vd l (BitVec.ofNat 64 u.1) false else u.2
  | _, none => s

/-- Where a lane of a late atomic writes, given what its place holds. -/
def State.lateWrites (s : State) (b : Nat) (a : Late) (sp : Option Spot) (v : U64) : List Spot :=
  match a.kind, sp with
  | .atom op _ _, some p => if atomWrites op (8 * a.n) (leNat (s.spotRead b p a.n)) v.toNat then [p] else []
  | _, _ => []

/-- Lanes of a late access are performed, one after another: the places that its atomics have written come with the state. -/
def State.lateLanes (b gid : Nat) (a : Late) :
    List (Nat × Option Spot × U64 × U64) → State × List Spot → State × List Spot
  | [], r => r
  | x :: l, r => State.lateLanes b gid a l (r.1.lateLane b gid a x.1 x.2.1 x.2.2.1 x.2.2.2,
      r.1.lateWrites b a x.2.1 x.2.2.1 ++ r.2)

/-- A late access is performed: its lanes, in any order where they meet (R171), and its results land. -/
def State.perform (s : State) (b gid : Nat) (a : Late) : State :=
  let ps := a.lanes.filterMap fun x => x.2.1
  let meet := s.lanesMeet b a.n ps
  let ls := if meet then shuffle s.free a.lanes.length a.lanes else a.lanes
  let s0 := if meet then { s with free := s.free + a.lanes.length } else s
  let r := State.lateLanes b gid a ls (s0, [])
  let s := if a.kind = .st then r.1.spotsWritten s0 b a.n ps else r.1.atomsWritten s0 b a.n r.2
  let s := if a.sc then (match s.group b gid with | some g => s.stampSc g.core b gid | none => s) else s
  s.modGroup b gid fun g => g.settlePend (g.pend.filter fun e => !(e.id == a.id && e.op != 0))

/-- The oldest late access of a group is performed. -/
def State.land (s : State) (b gid : Nat) : State :=
  match (s.group b gid).map Group.posted with
  | some (a :: r) => (s.perform b gid a).modGroup b gid fun g => { g with posted := r }
  | _ => s

/-- Every late access of a group is performed, in order. -/
def State.landAll (s : State) (b gid : Nat) : State :=
  let l := ((s.group b gid).map Group.posted).getD []
  (l.foldl (fun s a => s.perform b gid a) s).modGroup b gid fun g => { g with posted := [] }

/-- The late accesses of a group are performed up to the last of those that `sel` picks, in order: each keeps its place (R194). -/
def State.landThrough (s : State) (b gid : Nat) (sel : Late → Bool) : State :=
  let l := ((s.group b gid).map Group.posted).getD []
  let left := (l.reverse.takeWhile fun a => !sel a).length
  ((l.take (l.length - left)).foldl (fun s a => s.perform b gid a) s).modGroup b gid fun g =>
    { g with posted := l.drop (l.length - left) }

/-- Two ranges of bytes at places meet. -/
def Spot.meets (p : Spot) (n : Nat) (q : Spot) (m : Nat) : Bool :=
  match p, q with
  | .shared a, .shared b => a < b + m && b < a + n
  | .pad _ a, .pad _ b => a < b + m && b < a + n
  | _, _ => false

/-- A late access touches some bytes. -/
def Late.touches (a : Late) (m : Nat) (qs : List Spot) : Bool :=
  a.lanes.any fun x => x.2.1.any fun p => qs.any fun q => p.meets a.n q m

/-- Every late access of a block's groups is performed. -/
def State.landBlock (s : State) (b : Nat) : State :=
  (((s.block b).map fun k => k.groups.map Prod.fst).getD []).foldl (fun s g => s.landAll b g) s

end Sys2Proof.Machine
end

