-- ==== Sys2Proof/Machine/Ops.lean ====
section
/-! DEFINITION. The operations that every instruction shares: the abort of a block (R89), taking a trap and
returning from it (R88, R91), instruction fetch (R83), and the issue of one word (R16, R26, R31, R34, R201). -/

namespace Sys2Proof.Machine

open Host (Outcome)

/-! ## Failures (R89, R246, R362) -/

/-- A collective fails, unless it has failed already; its steps that no carry kernel has taken go with it, and a refused one
whose STEPDONE was issued ends with it (R433). -/
def State.collFail (s : State) (id reason : Nat) : State :=
  { s with
    colls := s.colls.adj id fun k => if k.failed.isNone then { k with failed := some reason } else k
    steps := s.steps.filter fun t => t.2.coll != id || (t.2.popped && !(t.2.refused && t.2.asked)) }

/-- A communicator enters state 3 and its running collectives fail with a reason (R436, R437). -/
def State.commFail (s : State) (comm reason : Nat) : State :=
  let hit := s.colls.filter fun k => k.2.comm == comm && k.2.started
  let s := { s with comms := s.comms.adj comm fun c => if c.state = 2 then { c with state := 3 } else c }
  hit.foldl (fun s k => s.collFail k.1 reason) s

/-- A grid fails: it and its tree keep the first failure (R362). A carry grid takes its communicator with it (R246,
R437). -/
def State.failGrid (s : State) (gh err : Nat) (cause : BitVec 8) (info : U64) (core : Nat) : State :=
  match s.grids.find gh with
  | none => s
  | some g =>
    if g.failed.isSome then s
    else
      let s := match g.carry with
        | some k => s.commFail k 1
        | none => s
      let s := { s with grids := s.grids.put gh { g with failed := some (err, cause, info, core) } }
      { s with trees := s.trees.adj g.tree fun t =>
          if t.failed.isSome then t else { t with failed := some (gh, err, cause, info, core) } }

/-- A quarter no longer waits for the rest of a group's bundle (R202). -/
def State.unlock (s : State) (core slot : Nat) : State :=
  s.modCore core fun c =>
    { c with quarters := c.quarters.mapVal fun _ r => if r.lock == some slot then { r with lock := none } else r }

/-- A block leaves its cores: its slots, registers and memory are released. A SPAWN of it whose record has not been read starts
nothing: its tree no longer counts it (R89, R363). -/
def State.dropBlock (s : State) (b : Nat) : State :=
  match s.block b with
  | none => s
  | some k =>
    let s := k.groups.foldl (fun s g => s.unlock g.2.core g.2.slot) s
    let gone (t : Nat) : Nat := (s.spawns.filter fun x => x.2.blk == b && x.2.tree == t).length
    { s with
      blocks := s.blocks.del b
      colls := s.colls.filter fun c => c.2.blk != b || c.2.started
      spawns := s.spawns.filter fun x => x.2.blk != b
      trees := s.trees.mapVal fun t r => { r with counter := r.counter - gone t } }

/-- Source element type. -/
def Copy.st (c : Copy) : Nat := bitsOf c.ctl.toNat 0 5
/-- Whether elements are copied unchanged (dtype 0x1F). -/
def Copy.same (c : Copy) : Bool := bitsOf c.ctl.toNat 8 5 == 0x1F
/-- Destination element type. -/
def Copy.dt (c : Copy) : Nat := if c.same then c.st else bitsOf c.ctl.toNat 8 5

/-- A reduce step that an RRED serves: a step of this type, of an open communicator of its partition (R433). -/
def State.redStep (s : State) (part : Nat) (c : Copy) : Option Step :=
  match s.steps.find (bitsOf c.ctl.toNat 32 32) with
  | some t =>
    if t.kind = 2 && t.comm / 8 = part && t.ety = c.dt && (s.comms.find t.comm).map Comm.state == some 2
        && (s.colls.find t.coll).map Collective.failed == some none then some t else none
  | none => none

/-- An outstanding operation of an aborted block ends (R246): an arrival on a pad object is made with the planned
bytes, one on a shared object is dropped; an RRED leaves its step unended, so the collective that it serves fails. -/
def State.endOp (s : State) (o : EngOp) : State :=
  let s := match o.kind, o.barrier with
    | .coll _ _ _, _ => s
    | .abacus _, _ => s
    | _, some (.pad a) => (s.arrive (.pad a) false (-(o.planned : Int))).2.2
    | _, _ => s
  match o.kind with
  | .copy c =>
    (match c.kind, (s.block o.blk).bind fun k => s.redStep k.part c with
     | .rred, some t => s.commFail t.comm 1
     | _, _ => s)
  | _ => s

/-- Every outstanding operation of a block ends, as at its abort; the accesses that its groups have issued are performed. -/
def State.endOps (s : State) (b : Nat) : State :=
  let s := s.landBlock b
  let mine := s.ops.filter fun o => o.2.blk == b
  let s := mine.foldl (fun s o => s.endOp o.2) s
  { s with ops := s.ops.filter fun o => o.2.blk != b }

/-- The abort of a block (R89, R304): its operations end, the grid fails with the trap's cause and TRAPINFO, and the
block's resources are freed. -/
def State.abortBlock (s : State) (b err : Nat) (cause : BitVec 8) (info : U64) (core : Nat) : State :=
  match s.block b with
  | none => s
  | some k => ((s.endOps b).failGrid k.grid err cause info core).dropBlock b

/-- The abort of a list of blocks with one cause. -/
def State.abortAll (s : State) (bs : List Nat) (err : Nat) (cause : BitVec 8) (info : U64) (core : Nat) : State :=
  bs.foldl (fun s b => s.abortBlock b err cause info core) s

/-- The core that the completion record of a grid names when a core faults under it: the core of a failing group, or 0xFFFF
where no group of the grid is on it (R356). -/
def State.groupOn (s : State) (gh core : Nat) : Nat :=
  if s.blocks.any fun b => b.2.grid == gh && b.2.st == .resident && b.2.groups.any fun g => g.2.core == core then core
  else 0xFFFF

/-- A carry core of a communicator faults (R437): the carry grid fails, and the communicator with it. -/
def State.carryFault (s : State) (key core : Nat) : State :=
  match (s.comms.find key).bind Comm.grid with
  | some gh => (s.failGrid gh 1 0x14 0xFFFFFFFFFFFFFFFF (s.groupOn gh core)).commFail key 1
  | none => s.commFail key 1

/-- Blocks are aborted by the fault of a core or a cluster (R224, R303): with cause UNCORRECTABLE and TRAPINFO all ones. `at_`
tells the core of a block's failing group. -/
def State.abortLost (s : State) (bs : List Nat) (at_ : Block → Nat) : State :=
  bs.foldl (fun s b => s.abortBlock b 1 0x14 0xFFFFFFFFFFFFFFFF (((s.block b).map at_).getD 0xFFFF)) s

/-- A core is faulted (R224): it stops issuing, every block resident on it is aborted, and a record of kind 8 is sent. A
carry core takes its communicator with it (R437). -/
def State.coreFault (s : State) (core : Nat) : State :=
  let hit := (s.blocks.filter fun b => b.2.st == .resident && b.2.cores.contains core).map Prod.fst
  let carry := (s.core core).carry
  let s := s.modCore core fun c => { c with faulted := true }
  let s := match carry with
    | some k => s.carryFault k core
    | none => s
  (s.abortLost hit fun k => if k.groups.any fun g => g.2.core == core then core else 0xFFFF).fault (s.quad (quadOf core)).part core 0 0 0 8 4 0xFF 0

/-! ## Traps (R88 to R91) -/

/-- The virtual address of the kernel header of a block's grid (R359). -/
def State.kernelBase (s : State) (k : Block) : Nat := ((s.gridOf k).map fun g => leNat (g.record.take 8)).getD 0

/-- A group enters its trap handler (R88): results settle, the trap registers and the resume register are written,
and fetching goes on at the handler. The resume register is the word after the bundle; R88 does not say where a bundle ends
that cannot be fetched to its instruction word: the model takes the word that cannot be fetched as its last (DESIGN CHOICE,
log entry 42). -/
def Group.enter (g : Group) (cause : BitVec 8) (info : U64) (handler : U64) : Group :=
  { g with
    early := []
    cause := cause
    trapPc := g.bundle.entry
    trapInfo := info
    resume := g.pc + 4
    handler := true
    pc := handler
    bundle := Bundle.empty handler
    park := .run
    fetchIa := none
    gather := none
    held := none }

/-- Taking a trap: the one operation of R88 and R89. In handler state, or without a handler, the block is aborted. -/
def State.trap (s : State) (b gid : Nat) (cause : BitVec 8) (info : U64) : State :=
  match s.block b with
  | none => s
  | some k =>
    match k.groups.find gid with
    | none => s
    | some g =>
      let h := s.hdr k
      if g.handler || h.trap = 0 then s.abortBlock b 1 cause info g.core
      else (s.unlock g.core g.slot).modGroup b gid fun g =>
        g.enter cause info (BitVec.ofNat 64 (s.kernelBase k + h.trap))

/-- The end of a split region or of one of its passes (R193). -/
def Group.regionEnd (g : Group) : Group :=
  if g.handler then g
  else match g.split with
    | none => g
    | some r =>
      if g.pc = r.base + BitVec.ofNat 64 (4 * r.len) then
        match r.pass with
        | .whole => { g with split := none }
        | .miss => { g with split := none }
        | .hit => if r.miss = 0 then { g with split := none } else { g with park := .splitMiss, early := [] }
      else g

/-! ## Instruction fetch (R83, R326) -/

/-- What fetching a word gives. -/
inductive Fetched where
  | word (w : Word)
  | fault (cause : BitVec 8) (rec : Option (Nat × Nat × Nat) := none)  -- with a fault record to send (R330)
  | wait (kind ia : Nat)        -- the page is not present or MIG
deriving DecidableEq, Repr

/-- Cause codes of R92. -/
def cILLEGAL : BitVec 8 := 0x01
/-- ILLEGAL_TYPE. -/
def cTYPE : BitVec 8 := 0x02
/-- REG_BOUND. -/
def cREG : BitVec 8 := 0x03
/-- PRIV. -/
def cPRIV : BitVec 8 := 0x04
/-- MISALIGN. -/
def cALIGN : BitVec 8 := 0x05
/-- SPAD_BOUND. -/
def cSPAD : BitVec 8 := 0x06
/-- WINDOW_MISS. -/
def cMISS : BitVec 8 := 0x07
/-- WINDOW_PERM. -/
def cPERM : BitVec 8 := 0x08
/-- PAGE_PERM. -/
def cPAGE : BitVec 8 := 0x0A
/-- CMIX. -/
def cCMIX : BitVec 8 := 0x0B
/-- COPY_ROLE. -/
def cROLE : BitVec 8 := 0x0C
/-- MX_NOT_HELD. -/
def cHELD : BitVec 8 := 0x0D
/-- MEMBER_MISMATCH. -/
def cMEMBER : BitVec 8 := 0x0E
/-- SPLIT_ILLEGAL. -/
def cSPLIT : BitVec 8 := 0x0F
/-- TILE_OWNER. -/
def cTILE : BitVec 8 := 0x10
/-- SCHED_RIGHT. -/
def cSCHED : BitVec 8 := 0x11
/-- SPAWN_LIMIT. -/
def cSPAWN : BitVec 8 := 0x12
/-- COLL_MISMATCH. -/
def cCOLL : BitVec 8 := 0x13
/-- UNCORRECTABLE. -/
def cUNC : BitVec 8 := 0x14
/-- BKPT. -/
def cBKPT : BitVec 8 := 0x15
/-- TRAP. -/
def cTRAP : BitVec 8 := 0x16
/-- PATCH_RANGE. -/
def cPATCH : BitVec 8 := 0x17
/-- STACK_BOUND. -/
def cSTACK : BitVec 8 := 0x18

/-- All ones, the TRAPINFO of poisoned register state (R92). -/
def allOnes : U64 := 0xFFFFFFFFFFFFFFFF

/-- The number of the free value that a group's fetch of a word from a peer takes (log entry 2): one for each address, slot
and cycle, apart from those that the machine counts. -/
def State.peerIndex (s : State) (g : Group) (key : Nat) : Nat :=
  (((((g.slotNo + 1) * 2 ^ 64 + s.cycle.toNat) * 2 ^ 9 + g.core) * 2 ^ 5 + g.slot) * 2 ^ 64 + key) * 4

/-- A word that is fetched from a peer (R340, R420): denied without a route or an up link, or by the far end, whose verdict
and bytes are free values. -/
def State.peerWord (s : State) (part : Nat) (g : Group) (key : Nat) : Option Word :=
  let n := s.peerIndex g key
  match s.fabricAddr part (key - peerBase) with
  | none => none
  | some a =>
    if s.linked (a / 2 ^ 56) && (Config.free n).getLsbD 0 then
      some (BitVec.ofNat 32 (leNat ((List.range 4).map fun i => Config.freeByte (n + i))))
    else none

/-- The word at a virtual address through the windows and the memory side, in the order of R83. `code` asks for X,
otherwise for R (patch entries, R30). An instruction cache or the fetch unit may hold an older word (R326). A denial by the far
end of a peer's page sends a record of kind 3 (R420). -/
def State.fetchWord (s : State) (k : Block) (g : Group) (va : Nat) (code : Bool) : Fetched :=
  match g.ahead.find? fun e => e.1 == va with
  | some e => .word e.2
  | none =>
    match s.mapVa k.part k.ctx va with
    | none => .fault cMISS
    | some (w, ia) =>
      if !(if code then w.canX else w.canR) || !w.kindOk ia then .fault cPERM
      else if w.kind = 2 && !s.padNames ia 4 then .fault cSPAD
      else match s.memSide k.part ia true false with
        | .wait n => .wait n ia
        | .deny n => .fault cPAGE (if n = 5 then some (va, ia, n) else none)
        | .ok key _ _ =>
          match (s.core g.core).icache.find ia with
          | some w => .word w
          | none =>
            if key ≥ peerBase then
              match s.peerWord k.part g key with
              | some w => .word w
              | none => .fault cPAGE (some (va, ia, 3))
            else .word (BitVec.ofNat 32 (Memory.num s.mem key 4))

/-- The sender that answers a fetch of a word from a peer's page: what heads the fabric address, if an up link leads there. -/
def State.answerer (s : State) (k : Block) (g : Group) (va : Nat) (code : Bool) : Option Nat :=
  match s.mapVa k.part k.ctx va with
  | none => none
  | some (w, ia) =>
    if (g.ahead.any fun e => e.1 == va) || !(if code then w.canX else w.canR) || !w.kindOk ia
        || ((s.core g.core).icache.find ia).isSome then none
    else match s.memSide k.part ia true false with
      | .ok key _ _ =>
        if key < peerBase then none
        else (s.fabricAddr k.part (key - peerBase)).bind fun a => if s.linked (a / 2 ^ 56) then some (a / 2 ^ 52) else none
      | _ => none

/-- The collectives that run hear the answer to a fetch from a peer (R437). -/
def State.hearFetch (s : State) (k : Block) (g : Group) (va : Nat) (code : Bool) : State :=
  match s.answerer k g va code with
  | some who => s.heard k.part who
  | none => s

/-- The source of a fetch's fault record: the partition filter's denial is the group's own, the far end's is the fabric's
(R330, R346, R420). -/
def fetchSource (rec : Option (Nat × Nat × Nat)) : Nat := if (rec.map fun r => r.2.2) = some 3 then 5 else 4

/-! ## Reading operands (R16, R18, R34) -/

/-- The number of the bundle's instruction word in slots is the slots taken so far; a result is early when it is
closer than its distance (R34). -/
def Group.isEarly (g : Group) (r : Reg) : Option Early :=
  g.early.find? fun e => e.reg == r && g.slotNo < e.slot + e.dist

/-- Read a list of registers: each that is early takes its old or its new content, one free choice for the whole
register (R16, log entry 2). Answers the group as read and the free values used. -/
def readRegs (rs : List Reg) (g view : Group) (free : Nat) : Group × Nat :=
  match rs with
  | [] => (view, free)
  | r :: rs =>
    match g.isEarly r with
    | none => readRegs rs g view free
    | some e =>
      if rs.contains r then readRegs rs g view free
      else
        let old := (Config.free free).getLsbD 0
        readRegs rs g (if old then view.asOld e else view) (free + 1)

/-- Lanes of a register that an outstanding result has not yet written. -/
def Group.pending (g : Group) (r : Reg) : BitVec 32 :=
  g.pend.foldl (fun m e => if e.reg == r then m ||| e.lanes else m) 0

/-- The split that restricts the group's words now: the pass's lanes, or the region's mask before the splitting
access (R192, R193). -/
def Group.passMask (g : Group) : Option (BitVec 32) :=
  if g.handler then none
  else match g.split with
    | none => none
    | some r => match r.pass with
      | .whole => r.mask
      | .hit => some r.hit
      | .miss => some r.miss

/-- Whether a group is in the hit pass or the miss pass of a region (R193). -/
def Group.inPass (g : Group) (p : Pass) : Bool :=
  !g.handler && (match g.split with | some r => r.pass == p | none => false)

/-- Whether the accesses of the word that a group issues are performed later (R194): in a hit pass whose accesses are late, and
behind others that are. -/
def Group.postpones (g : Group) : Bool :=
  g.inPass .hit && (!g.posted.isEmpty || (g.split.map Split.late).getD false)

/-- What an instruction's meaning works with: its block, group as read, word, subfields, type, register numbers of
its fields, execution mask and immediate, and whether a register that it consumes is poisoned. -/
structure Ctx where
  blk   : Nat
  gid   : Nat
  k     : Block
  h     : Header
  g     : Group
  word  : Word
  m     : Mod
  ty    : Nat
  n1    : Nat
  n2    : Nat
  n3    : Nat
  mask  : BitVec 32
  imm   : U64
  bad   : Bool
deriving DecidableEq, Repr

/-- What a precise trap leaves beside itself: the fault records of denied accesses (R330: virtual address,
intermediate address, kind) with their source (R346), and the deferred conditions that were observed, with CMIXCNT (R243). -/
structure Note where
  records : List (Nat × Nat × Nat) := []
  src     : Nat := 4
  seen   : Option (List Deferred × BitVec 32) := none
deriving DecidableEq, Repr

/-- What a meaning ends in: a precise trap, a stall at issue (R201), a stall that leaves something begun (a gather,
R261; the verdicts of a lane copy, R242), or its effect with the address of the next word if it is not the next in sequence. -/
inductive Res where
  | trap (cause : BitVec 8) (info : U64) (note : Note := {})
  | stall
  | hold (f : State → State)
  | done (s : State) (jump : Option U64)

/-- ILLEGAL by the content of a register or descriptor: TRAPINFO holds the instruction word (R26). -/
def Ctx.illegal (c : Ctx) : Res := .trap cILLEGAL (c.word.setWidth 64)

/-- The active lanes, in increasing order. -/
def Ctx.lanes (c : Ctx) : List Nat := lanesOf c.mask

/-- The active live lanes (R52). -/
def Ctx.liveLanes (c : Ctx) : List Nat := lanesOf (c.mask &&& c.g.live)

/-- Lane `l` of the third operand: a vector register, or a scalar under bcast (R111). -/
def Ctx.vb (c : Ctx) (l : Nat) : U64 := if c.m.bcast then c.g.getS c.n3 else c.g.getV c.n3 l

/-- The effective contract (R215). -/
def Ctx.eff (c : Ctx) : Nat := c.h.eff

/-! ## Faults of the bundle (R26) -/

/-- Position and word of each prefix of the bundle. -/
def Bundle.ranked (b : Bundle) : List (Nat × Word) := (List.range b.words.length).zip b.words

/-- A PFX.IMX without PFX.IMM or PFX.PATCH (R28); one of these that is malformed itself still stands with it. -/
def Bundle.orphan (b : Bundle) : Option (Nat × Word) :=
  if b.imx.isSome && !(b.words.any fun w => [1, 4].contains (w.toNat / 2 ^ 24 % 128)) then
    b.ranked.find? fun p => p.2.toNat / 2 ^ 24 % 128 == 2
  else none

/-- The prefix words that the instruction cannot use (R29). -/
def unusable (b : Bundle) (sh : Shape) (ty : Nat) : List (Nat × Word) :=
  b.ranked.filter fun p =>
    match (p.2.toNat / 2 ^ 24) % 128 with
    | 1 | 2 | 4 => sh.imm.isNone
    | 3 => sh.noMod || !modUsable sh b.mods ty
    | 6 => !sh.region
    | _ => false

/-- Whether the kernel's header allows the instruction's family (R25). -/
def famOk (sh : Shape) (h : Header) : Bool :=
  match sh.fam with
  | .none => true
  | .mat => h.flags.getLsbD 3
  | .spl => h.flags.getLsbD 4

/-- A VSWZ whose k names no element of the type that its own bundle gives: the bits of the bundle decide, so the word is
malformed (R25, R26, R123). Where the mode register gives the type, the ILLEGAL is the instruction's own fault. -/
def swzOut (i : Instr) (b : Bundle) : Bool :=
  match i with
  | .vswzXor _ _ k | .vswzBcst _ _ k | .vswzRot _ _ k =>
    b.mods.type != 0x1F && k.toNat ≥ typeElems b.mods.type.toNat
  | _ => false

/-- The first of a list of words by position. -/
def earliest (c : List (Nat × Word)) : Option (Nat × Word) :=
  c.foldl (fun m p => match m with
    | none => some p
    | some q => if p.1 < q.1 then some p else some q) none

/-- The earliest malformed word of a bundle whose every word has been fetched (R26). R26 does not say how the ILLEGAL of a
matrix or spline word ranks whose kernel's header lacks the family's flag (R25): it is ranked as a malformation of the
instruction word (DESIGN CHOICE, log entry 42). -/
def malformed (b : Bundle) (i : Instr) (w : Word) (sh : Shape) (ty : Nat) (h : Header) : Option Word :=
  (earliest (b.bad.toList ++ b.orphan.toList ++ unusable b sh ty
    ++ (if i.wellFormed && famOk sh h && !swzOut i b then [] else [(b.words.length, w)]))).map Prod.snd

/-- The position of the first offending word of the region that a PFX.SPLIT opens (R190, R191), words `k` to
`len - 1` still to be examined. `start` is the first word of the bundle being read; a word that cannot be fetched
offends nothing. A PFX.SPLIT in the region offends, unless its bundle runs past the region's end and begins before it: then
that bundle's first word does. R191 does not speak of malformed words: a word that no row of the opcode table matches is none of the
words that a region may hold and offends, a malformed prefix or a malformed word of a row that may stand there does not, and
raises its ILLEGAL when it issues (DESIGN CHOICE, log entry 46). -/
def offending (s : State) (kb : Block) (g : Group) (base : Nat) (checked : Bool) (len : Nat) :
    Nat → Nat → Option Nat → Option Nat
  | 0, _, start => start
  | n + 1, k, start =>
    let first := some (start.getD k)
    match s.fetchWord kb g (base + 4 * k) true with
    | .word w =>
      let major := bits w 24 7
      if 1 ≤ major && major ≤ 5 then offending s kb g base checked len n (k + 1) first
      else if major = 6 then
        if offending s kb g base checked len n (k + 1) first == first then first else some k
      else match decodeWord w with
      | .ok d =>
        if !(shapeOf d.instr 0).region || (d.mark && !checked) then some k
        else offending s kb g base checked len n (k + 1) none
      | .error _ => some k
    | _ => offending s kb g base checked len n (k + 1) none

/-- SPLIT_ILLEGAL's TRAPINFO, if the opening bundle raises it. -/
def splitFault (s : State) (kb : Block) (g : Group) (h : Header) : Option U64 :=
  match g.bundle.split with
  | none => none
  | some n =>
    if g.handler then some 0
    else (offending s kb g g.pc.toNat h.checked n.toNat n.toNat 0 none).map (BitVec.ofNat 64)

/-- PRIV's TRAPINFO for a special-register index (R57). -/
def privFault (i : Instr) (priv : Bool) : Option U64 :=
  match i with
  | .srd _ x | .swr _ x => if !priv && x.getLsbD 11 then some (x.setWidth 64) else none
  | _ => none

/-- The virtual address of the patch table (R359). -/
def State.patchBase (s : State) (k : Block) : Nat :=
  ((s.gridOf k).map fun g => leNat ((g.record.drop 0x10).take 8)).getD 0

/-- The patch entry that a bundle names: its content, or the fault or wait that reading it meets (R30). -/
inductive PatchRes where
  | none
  | entry (v : Nat)
  | range (k : Nat)
  | fault (cause : BitVec 8) (va : Nat) (rec : Option (Nat × Nat × Nat))
  | wait (kind va ia : Nat)
deriving DecidableEq, Repr

/-- Read the patch entry through the instruction fetch stream (R30). -/
def State.patch (s : State) (kb : Block) (g : Group) (h : Header) : PatchRes :=
  match g.bundle.patch with
  | none => .none
  | some k =>
    if k.toNat ≥ h.patches then .range k.toNat
    else
      let va := s.patchBase kb + 4 * k.toNat
      match s.fetchWord kb g va false with
      | .word w => .entry w.toNat
      | .fault c r => .fault c va r
      | .wait n ia => .wait n va ia

/-- Everything that is fetched for a group's next word is heard of: the word, the patch entry of its bundle and the words of
the region that the bundle opens (R30, R190, R437). -/
def State.hearWords (s : State) (k : Block) (g : Group) : State :=
  let s := s.hearFetch k g g.pc.toNat true
  let s := match g.bundle.patch with
    | some n => s.hearFetch k g (s.patchBase k + 4 * n.toNat) false
    | none => s
  match g.bundle.split with
  | some n => (List.range n.toNat).foldl (fun s i => s.hearFetch k g (g.pc.toNat + 4 * i) true) s
  | none => s

/-! ## Observation (R243, R436) -/

/-- Observing a list of deferred conditions, oldest first: with mode.cmixm set each CMIX only counts; otherwise the
oldest raises and each other CMIX counts (R243). COLL_MISMATCH is never masked (R436). Answers what is raised and
the group with those conditions observed. -/
def observe (g : Group) (seen : Deferred → Bool) : Option (BitVec 8 × U64) × Group :=
  let hit := g.deferred.filter seen
  let rest := g.deferred.filter fun d => !seen d
  let masked := g.mode.getLsbD 8
  let loud := hit.filter fun d => !(masked && d.cause == cCMIX)
  let first := loud.foldl (fun (m : Option Deferred) d =>
    match m with
    | none => some d
    | some e => if d.order < e.order then some d else some e) none
  let counted := (hit.filter fun d => d.cause == cCMIX && first != some d).length
  let cnt := min (g.cmixcnt.toNat + counted) 0xFFFFFFFF
  (first.map fun d => (d.cause, d.info), { g with deferred := rest, cmixcnt := BitVec.ofNat 32 cnt })

/-! ## The issue of one word -/

/-- A poisoned register that a list of operands consumes: a scalar, predicate or index register, or a vector
register in one of some lanes (R114, R223). -/
def Group.poisoned (g : Group) (rs : List Reg) (lanes : BitVec 32) : Bool :=
  g.poison.any fun p => rs.contains p.1 && (match p.1 with | .v _ => lanes.getLsbD p.2 | _ => true)

/-- What admission decides. -/
inductive Adm where
  | trap (cause : BitVec 8) (info : U64) (g : Group) (note : Note := {})
  | stall
  | park (p : Park)
  | wait (kind va ia : Nat)
  | go (c : Ctx) (g : Group) (regs : List Reg) (free : Nat)

/-- The register number of the operand in a field. -/
def fieldNumber (ops : List Opnd) (m : Mod) (x pos : Nat) : Nat :=
  ((ops.find? fun o => o.pos == pos).map fun o => o.number m x).getD 0

/-- The registers that a list of operands stands for. -/
def opRegs (ops : List Opnd) (m : Mod) (x : Nat) (sel : Opnd → Bool) : List Reg :=
  (ops.filter sel).flatMap fun o => o.regs (o.number m x)

/-- CSYNC and YIELD take no notice of the switch marker (R85, R297). -/
def Instr.heedsMark (i : Instr) : Bool :=
  match i with
  | .csync => false
  | .yieldNow _ => false
  | .yieldReg _ _ => false
  | .yieldOc _ _ _ => false
  | .yieldSleep _ _ => false
  | _ => true

/-- The replay record that a word parks on (R196): it reads the destination of a CPG with unfinished lanes, or has S
set, or is a WAITC that counts the instruction. -/
def replayPark (i : Instr) (mark checked : Bool) (reads : List Reg) (pass : BitVec 32) (g : Group) : Option Park :=
  let blocks (r : Nat × Replay) : Bool :=
    g.pend.any (fun e => e.op == r.2.op && reads.contains e.reg && (e.lanes &&& r.2.lanes &&& pass) != 0)
    || (mark && !checked && Instr.heedsMark i)
    || (match i with
        | .waitc c n => c == 1 && g.issued.gt ≥ r.2.seq + n.toNat
        | _ => false)
  (g.replay.find? blocks).map fun r => .replay r.1

/-- The faults of an instruction word that need none of its register operands, in the order of R26, and the wait for its
patch entry. A patch entry that cannot be read raises the causes of R83 with the entry's virtual address, at the rank of
PATCH_RANGE: the spec names neither (DESIGN CHOICE, log entry 42). -/
def wordFault (i : Instr) (s : State) (kb : Block) (g : Group) : Option Adm :=
  let h := s.hdr kb
  let ty := typeInForce g.bundle g.mode
  let sh := shapeOf i ty
  match malformed g.bundle i ((encode ⟨s.mark, i⟩).getD 0) sh ty h with
  | some bad => some (.trap cILLEGAL (bad.setWidth 64) g)
  | none =>
  match splitFault s kb g h with
  | some p => some (.trap cSPLIT p g)
  | none =>
  match s.patch kb g h with
  | .range k => some (.trap cPATCH (BitVec.ofNat 64 (k % 65536)) g)
  | .fault c va r => some (.trap c (BitVec.ofNat 64 va) g { records := r.toList, src := fetchSource r })
  | .wait n va ia => some (.wait n va ia)
  | _ =>
  if (sh.types.map fun l => l.contains ty && (!sh.byContract || contractAllows h.eff ty)) = some false then
    some (.trap cTYPE (BitVec.ofNat 64 ty) g)
  else (privFault i (s.privileged kb)).map fun x => .trap cPRIV x g

/-- The operands of a word as read: the index register's value, the operand fields with the scalar of bcast, the
registers read, the registers that only select others, the execution mask, and the group as the operands see it. -/
structure Operands where
  x     : Nat
  ops   : List Opnd
  sel   : List Reg
  reads : List Reg
  pass  : BitVec 32
  mask  : BitVec 32
  view  : Group
  free  : Nat
deriving DecidableEq, Repr

/-- Read the operands of a word (R16, R31, R47, R192). An index register that an ind bit reads and that is an operand too
has one choice for both, and a word that is held to be issued again has the choices of its first issue (R16). -/
def readOperands (i : Instr) (s : State) (g : Group) : Operands :=
  let m := g.bundle.mods
  let sh := shapeOf i (typeInForce g.bundle g.mode)
  let ops := sh.ops.map (Opnd.bc m)
  let sel := if m.ind = 0 then [] else [Reg.x m.sel.toNat]
  let r0 := readRegs sel g g (g.held.getD s.free)
  let x := (r0.1.getX m.sel.toNat).toNat
  let pnum := m.mask.toNat
  let reads := opRegs ops m x Opnd.rd ++ (if sh.mask || g.bundle.split.isSome then [Reg.p pnum] else [])
  let r1 := readRegs (reads.filter fun r => !sel.contains r) g r0.1 r0.2
  let pass := (g.passMask).getD 0xFFFFFFFF
  ⟨x, ops, sel, reads, pass, r1.1.getP pnum &&& pass, r1.1, max s.free r1.2⟩

/-- The TRAPINFO of the first register of a word that is out of bounds (R31, R46). -/
def regFault (h : Header) (m : Mod) (r : Operands) : Option U64 :=
  (r.ops.filterMap fun o => boundFault h.allot o (o.number m r.x)).head?

/-- The number of operations that may wait in the queue (R256). -/
def queueMax : Nat := 8

/-- Whether an operation holds the operand latch until it starts (R261). -/
def MxOp.gathered (o : MxOp) : Bool :=
  match o.kind with
  | .mma .. => true
  | .eval .. => true
  | _ => false

/-- Whether an operation has started: an SPGRAD that has updated some entries (R284). -/
def MxOp.started (o : MxOp) : Bool :=
  match o.kind with
  | .grads .. => true
  | _ => false

/-- The operations of a queue that wait without having started (R256). -/
def waitingOps (queue : List MxOp) : Nat := (queue.filter fun o => !o.started).length

/-- Whether another resident block of the cluster holds a channel. R240 refuses a channel of another block of the cluster; the
spec does not say what stands where that block is pre-empted: the model lets the channel be taken, so that both blocks hold it
once the other resumes (DESIGN CHOICE, log entry 59). -/
def State.channelTaken (s : State) (cluster ch : Nat) (blk : Nat) : Bool :=
  s.blocks.any fun b => b.1 != blk && b.2.st == .resident && (b.2.cores.any fun c => clusterOf c == cluster)
    && (b.2.channels.find ch).isSome

/-- Accepted grids of a partition with no block placed (R363). -/
def State.unplacedGrids (s : State) (part : Nat) : Nat :=
  (s.grids.filter fun g => g.2.part == part && g.2.next == 0 && g.2.failed.isNone).length

/-- The free-slot counters that a CPM must find above 0 (R240): those that its channel has for the cores of its mask. A CPM on
another block's channel takes no slot. -/
def State.slotless (s : State) (kb : Block) (g : Group) (ctl : Nat) : Bool :=
  let ch := bitsOf ctl 44 4
  !s.channelTaken (clusterOf g.core) ch ((s.cur.map Prod.fst).getD 0)
    && ((List.range 8).filter fun k => ctl.testBit (32 + k)).any fun k =>
      ((kb.channels.find ch).bind fun t => t.find k).map Prod.fst == some 0

/-- What an engine still lacks for an instruction (R201): a replay record for a CPG or CPS (R199), a slot for a CPM (R240), a
place in the abacus queue for an MX or SP instruction that enters it (R256; MXACQ does not, and never waits, R253; that an MXRD
takes a place and stalls while 8 wait is the model's reading, log entry 60), for an
MXMMA or SPEVAL the operand latch and the end of its gather (R261, R279; the gather begins at the word's issue, with the latch
free), and for a SPAWN a place among the partition's grids with no block placed (R363). -/
def engineBusy (i : Instr) (sh : Shape) (s : State) (kb : Block) (g : Group) (r : Operands) : Bool :=
  let queue := (kb.abacus (kb.member g.core)).queue
  match i with
  | .cpg _ _ => decide (g.replay.length ≥ 4)
  | .cps _ _ => decide (g.replay.length ≥ 4)
  | .cpm _ _ => s.slotless kb g (r.view.getS (fieldNumber r.ops g.bundle.mods r.x 3 + 2)).toNat
  | .spawn _ _ => decide (s.unplacedGrids kb.part ≥ 1024)
  | .mxacq _ => false
  | .mxmma _ _ _ _ _ => decide (waitingOps queue ≥ queueMax) || queue.any MxOp.gathered || g.gather.any fun x => !x.done
  | .speval _ _ _ => decide (waitingOps queue ≥ queueMax) || queue.any MxOp.gathered || g.gather.any fun x => !x.done
  | _ => sh.fam != .none && decide (waitingOps queue ≥ queueMax)

/-- A word stalls at issue (R201): a register that it reads is outstanding in a lane of the pass, the pace of the group
does not allow it yet, its class counts 63 operations (R210), or its engine is not ready for it. -/
def mustStall (i : Instr) (s : State) (kb : Block) (g : Group) (r : Operands) : Bool :=
  let sh := shapeOf i (typeInForce g.bundle g.mode)
  r.reads.any (fun x => (g.pending x &&& r.pass) != 0) || g.nextAt.toNat > s.cycle.toNat
    || (sh.cls.map fun c => decide (g.oc.get c ≥ 63)) = some true || engineBusy i sh s kb g r

/-- The deferred conditions that a word observes: those due, and those of the registers that it reads (R243). -/
def Operands.sees (r : Operands) (d : Deferred) : Bool :=
  d.due || (match d.reg with | some x => r.reads.contains x | none => false)

/-- A poisoned register that the word consumes, in the content that it reads: an instruction that reads lanes in its own
way consumes its vector registers itself (R114, R150, R223). -/
def consumesPoison (sh : Shape) (r : Operands) : Bool :=
  r.view.poisoned (r.sel ++ (if sh.xlane then r.reads.filter (fun x => match x with | .v _ => false | _ => true) else r.reads))
    (r.mask &&& r.view.live)

/-- The immediate of a word (R30). -/
def wordImmediate (sh : Shape) (b : Bundle) (pe : PatchRes) : U64 :=
  match sh.imm with
  | none => 0
  | some (f, own) => immediate f own (b.imm.map BitVec.toNat)
      (match pe with | .entry e => some e | _ => none) (b.imx.map BitVec.toNat)

/-- What the meaning of a word works with; `seen` is the group with what the word observes observed. -/
def wordContext (i : Instr) (s : State) (kb : Block) (g seen : Group) (blk gid : Nat) : Ctx :=
  let h := s.hdr kb
  let m := g.bundle.mods
  let ty := typeInForce g.bundle g.mode
  let sh := shapeOf i ty
  let r := readOperands i s g
  ⟨blk, gid, kb, h, { r.view with deferred := seen.deferred, cmixcnt := seen.cmixcnt }, (encode ⟨s.mark, i⟩).getD 0, m, ty,
    fieldNumber r.ops m r.x 1, fieldNumber r.ops m r.x 2, fieldNumber r.ops m r.x 3, r.mask,
    wordImmediate sh g.bundle (s.patch kb g h), consumesPoison sh r⟩

/-- Admission of an instruction word: it parks or stalls while it is not ready (R196, R201), then come the faults of R26 in
their order, then what it observes and consumes. A trap leaves the group as it stood before the bundle (R88, R90), but for the
conditions whose observation raises it (R243). An instruction that needs the abacus raises MX_NOT_HELD before it consumes
anything (R255, R276). -/
def admission (i : Instr) (s : State) (kb : Block) (g : Group) (blk gid : Nat) : Adm :=
  let h := s.hdr kb
  let m := g.bundle.mods
  let sh := shapeOf i (typeInForce g.bundle g.mode)
  let r := readOperands i s g
  match replayPark i s.mark h.checked r.reads r.pass g with
  | some p => .park p
  | none =>
  if mustStall i s kb g r then .stall
  else
  match wordFault i s kb g with
  | some a => a
  | none =>
  match regFault h m r with
  | some info => .trap cREG info g
  | none =>
  match observe g r.sees with
  | (some (c, info), seen) => .trap c info seen
  | (none, seen) =>
  if sh.fam == .none && consumesPoison sh r then .trap cUNC allOnes g
  else .go (wordContext i s kb g seen blk gid) seen (opRegs r.ops m r.x Opnd.wr) r.free

/-- The bookkeeping of a word's destinations before its effect: an older result that has not been written no longer
writes what this word writes (R17), and the content before the write is kept while the result is early (R16), with the
older results that still belong to it. -/
def Group.claim (g : Group) (sh : Shape) (dst : List Reg) (mask : BitVec 32) (checked : Bool) : Group :=
  let dst := dst.filter fun r => r != .s 0
  let pend := g.pend.map fun e =>
    if dst.contains e.reg then { e with ovr := e.ovr ||| (match e.reg with | .v _ => mask | _ => 0xFFFFFFFF) } else e
  let kept := g.early.filter fun e => !dst.contains e.reg && g.slotNo < e.slot + e.dist
  let d := sh.lat.dist
  let new := if d = 0 || checked then [] else dst.map fun r => ⟨r, g.content r, g.slotNo, d,
    (g.poison.filter fun p => p.1 == r).map Prod.snd,
    ((g.pend.filter fun e => e.reg == r && e.op != 0).map fun e => (e.id, e.lanes &&& ~~~e.ovr))⟩
  { g with pend := pend, early := kept ++ new }

/-- The lanes of its vector destination that a word writes: its active lanes, but for one that names a lane (R105), one
that writes nothing where no lane contributes (R153), and an atomic, which leaves helper lanes unchanged (R52). -/
def Ctx.writeLanes (c : Ctx) (i : Instr) : BitVec 32 :=
  match i with
  | .vmovsLane _ _ l => c.mask &&& (1#32 <<< l.toNat)
  | .vbcstFirst _ _ => if (if c.m.scope.getLsbD 0 then c.mask else c.mask &&& c.g.live) = 0 then 0 else c.mask
  | .atom _ _ _ _ _ _ => c.mask &&& c.g.live
  | _ => c.mask

/-- A group takes a slot and goes on at an address (R34); its bundle ends. -/
def Group.advance (g : Group) (pc : U64) : Group :=
  { g with slotNo := g.slotNo + 1, pc := pc, bundle := Bundle.empty pc, stood := 0, promoted := false, gather := none, held := none }

/-- The parks after which no park of R35 follows: those of YIELD and EXIT. -/
def Park.last (p : Park) : Bool :=
  match p with
  | .yieldNow => true
  | .yieldReg _ => true
  | .yieldOc _ _ => true
  | .yieldSleep _ => true
  | .exiting => true
  | _ => false

/-- The S park (R35): the group parks until every outstanding result is written; after another park of the word, once
that has ended. -/
def Group.sPark (g : Group) : Group :=
  if g.park = .run then { g with park := .sMark, early := [] }
  else if g.park.last then g else { g with parkS := true }

/-- A park ends; a park under R35 follows when the word carried the switch marker. -/
def Group.wake (g : Group) : Group :=
  if g.parkS then { g with park := .sMark, parkS := false } else { g with park := .run }

/-- The class that PFX.SCHED selects (R202). -/
def Group.reclass (g : Group) (b : Bundle) : Group :=
  match b.sched with
  | some (_, c) => if c = 1 then { g with high := false } else if c = 2 then { g with high := true } else g
  | none => g

/-- The cycle before which the group issues nothing more: after a slow F64 word (R115), and in a checked kernel (R203). -/
def Group.paced (g : Group) (slow checked : Bool) (cycle : U64) : Group :=
  if slow then { g with nextAt := cycle + 4 } else if checked then { g with nextAt := cycle + 2 } else g

/-- A word that has parked its group is remembered, and the fixed-latency results are written (R36). -/
def Group.parkedAt (g : Group) (entry at_ : U64) : Group :=
  match g.park with
  | .run => g
  | _ => { g with parkPc := entry, parkAt := at_, early := [] }

/-- The end of a word's issue: the slot, the next address, the class of PFX.SCHED, the pace of R115 and R203, the S
park and the end of a region. -/
def Group.retire (g : Group) (b : Bundle) (at_ : U64) (jump : Option U64) (mark : Bool) (checked : Bool) (slow : Bool)
    (cycle : U64) : Group :=
  let g := ((((g.advance (jump.getD (at_ + 4))).reclass b).paced slow checked cycle).parkedAt b.entry at_)
  (if mark && !checked then g.sPark else g).regionEnd

/-- What is left of the groups that have yielded in a gang once a slot has issued: each has one group less before it. -/
def served (slot : Nat) (l : List Yielded) : List Yielded :=
  ((l.filter fun e => e.slot != slot).map fun e => { e with first := e.first.filter (· != slot) }).filter fun e =>
    !e.first.isEmpty

/-- The quarter has issued a word of a group; after a prefix it is held for the rest of the bundle (R202). -/
def State.issuedBy (s : State) (core quarter slot : Nat) (lock : Bool) : State :=
  s.modCore core fun c =>
    let q := ⟨slot, if lock then some slot else none, served slot (c.quarter quarter).yielded⟩
    { c with quarters := c.quarters.put quarter q }

/-- Whether a word is F64 of class B or C (R115, R204). -/
def f64Word (sh : Shape) (ty : Nat) : Bool := ty == 0x10 && sh.types.isSome && (sh.lat == .B || sh.lat == .C)

/-- An F64 word of class B or C occupies its quarter for 4 cycles (R115), but for one that only moves elements (R150). -/
def slowWord (sh : Shape) (ty : Nat) : Bool := f64Word sh ty && !sh.moves

/-- The group stalls before a word on a page (R83): a fault record is sent once. -/
def State.fetchStall (s : State) (kb : Block) (g : Group) (blk gid : Nat) (va kind ia : Nat) : State :=
  if g.fetchIa = some ia then s
  else (s.fault kb.part g.core va ia 0 kind 4 0xFF g.slot).modGroup blk gid fun g => { g with fetchIa := some ia }

/-- Whether a group stood still: it neither issued, nor parked, nor trapped (R201). -/
def Group.stalled (old : Group) (new : Option Group) : Bool :=
  match new with
  | none => false
  | some g => g.slotNo == old.slotNo && g.pc == old.pc && g.handler == old.handler && g.park == .run

/-- The group with the conditions of a note observed. -/
def Note.settle (n : Note) (g : Group) : Group :=
  match n.seen with
  | some (d, cnt) => { g with deferred := d, cmixcnt := cnt }
  | none => g

/-- The records of a note are sent (R330, R346). -/
def Note.apply (n : Note) (kb : Block) (g : Group) (s : State) : State :=
  n.records.foldl (fun s r => s.fault kb.part g.core r.1 r.2.1 0 r.2.2 n.src 0xFF g.slot) s

/-- The group parks before the word that it is about to issue (R196); the quarter goes on with other groups. -/
def State.parkBefore (s : State) (blk gid : Nat) (g : Group) (p : Park) : State :=
  (s.unlock g.core g.slot).modGroup blk gid fun r =>
    { r with park := p, parkPc := g.bundle.entry, parkAt := g.pc, early := [] }

/-- The region that a PFX.SPLIT opens with its bundle (R190). -/
def Group.opened (g : Group) (b : Bundle) (pc : U64) (mask : BitVec 32) : Group :=
  match b.split with
  | some n => { g with split := some ⟨pc, n.toNat, some mask, 0, 0, 0, 0, .whole, false⟩ }
  | none => g

/-- The state with a group replaced and the counter of free values moved on. -/
def State.withGroup (s : State) (blk gid : Nat) (g : Group) (free : Nat) : State :=
  { s.modGroup blk gid (fun _ => g) with free := free }

/-- The state after a word's effect: the issue ends for its group `g`, which issued at `s`. -/
def State.finish (s2 s : State) (i : Instr) (c : Ctx) (g : Group) (jump : Option U64) : State :=
  (s2.modGroup c.blk c.gid fun r => r.retire g.bundle g.pc jump (s.mark && Instr.heedsMark i) c.h.checked (slowWord (shapeOf i c.ty) c.ty) s.cycle).issuedBy
    g.core g.quarter g.slot false

/-- The issue of an instruction word with its own effect `body`: admission, effect, end of the issue. A trap of the effect, and
a word that is held to be issued again, leave the group as it stood before it (R88, R90). -/
def issueWord (i : Instr) (body : Ctx → State → Res) (s : State) (kb : Block) (g : Group) (blk gid : Nat) : State :=
  match admission i s kb g blk gid with
  | .trap c info g' note => (note.apply kb g (s.modGroup blk gid fun _ => g')).trap blk gid c info
  | .stall => s
  | .park p => s.parkBefore blk gid g p
  | .wait n va ia => s.fetchStall kb g blk gid va n ia
  | .go c g' dst free =>
    match body c (s.withGroup blk gid ((g'.claim (shapeOf i c.ty) dst (c.writeLanes i) c.h.checked).opened g.bundle g.pc c.mask) free) with
    | .trap cause info note =>
      (note.apply kb g (s.withGroup blk gid (note.settle g) free)).trap blk gid cause info
    | .stall => s
    | .hold f => f (s.withGroup blk gid { g with held := some (g.held.getD s.free) } free)
    | .done s2 jump => s2.finish s i c g jump

/-- The meaning of an instruction word: the group that issues it, its effect, and the only fault of the model. -/
def issue (i : Instr) (body : Ctx → State → Res) (s : State) : Outcome State Fault Refusal :=
  match s.cur, s.curGroup with
  | some (blk, gid), some (kb, g) => .next (issueWord i body s kb g blk gid)
  | _, _ => .fault .noGroup

end Sys2Proof.Machine
end

