-- ==== Sys2Proof/Machine/Scalar.lean ====
section
/-! DEFINITION. Scalar arithmetic (R97 to R101). -/

namespace Sys2Proof.Machine

open Host (Outcome)

/-- Change the issuing group and go on at the next word. -/
def Ctx.upd (c : Ctx) (s : State) (f : Group → Group) : Res := .done (s.modGroup c.blk c.gid f) none

/-- Write the scalar register of field F1 and go on. -/
def Ctx.putS1 (c : Ctx) (s : State) (v : U64) : Res := c.upd s fun g => g.setS c.n1 v

/-- sd = f(sa, sb) in the SS format (R97). -/
def ssBody (f : U64 → U64 → U64) (c : Ctx) (s : State) : Res := c.putS1 s (f (c.g.getS c.n2) (c.g.getS c.n3))

/-- sd = f(sd, sa) in the SF format. -/
def sfBody (f : U64 → U64 → U64) (c : Ctx) (s : State) : Res := c.putS1 s (f (c.g.getS c.n1) (c.g.getS c.n2))

/-- sd = f(sa) in the SF format. -/
def sunBody (f : U64 → U64) (c : Ctx) (s : State) : Res := c.putS1 s (f (c.g.getS c.n2))

/-! ## R97 -/

/-- The high 64 bits of a signed product. -/
def mulHiS (a b : U64) : U64 := ofInt64 (a.toInt * b.toInt / 2 ^ 64)

/-- The high 64 bits of an unsigned product. -/
def mulHiU (a b : U64) : U64 := BitVec.ofNat 64 (a.toNat * b.toNat / 2 ^ 64)

/-- The signed quotient of R97; −2^63 by −1 wraps to −2^63. -/
def divS (a b : U64) : U64 := if b = 0 then allOnes else ofInt64 (a.toInt.tdiv b.toInt)

/-- The unsigned quotient of R97. -/
def divU (a b : U64) : U64 := if b = 0 then allOnes else BitVec.ofNat 64 (a.toNat / b.toNat)

/-- The signed remainder of R97, with the sign of a. -/
def remS (a b : U64) : U64 := if b = 0 then a else ofInt64 (a.toInt.tmod b.toInt)

/-- The unsigned remainder of R97. -/
def remU (a b : U64) : U64 := if b = 0 then a else BitVec.ofNat 64 (a.toNat % b.toNat)

/-- The shift count b[5:0]. -/
def shCount (b : U64) : Nat := b.toNat % 64

/-- SADD (R97). -/
def execSadd (d a b : BitVec 8) (s : State) : Outcome State Fault Refusal :=
  issue (.sadd d a b) (ssBody fun x y => x + y) s

/-- SSUB (R97). -/
def execSsub (d a b : BitVec 8) (s : State) : Outcome State Fault Refusal :=
  issue (.ssub d a b) (ssBody fun x y => x - y) s

/-- SMUL (R97). -/
def execSmul (d a b : BitVec 8) (s : State) : Outcome State Fault Refusal :=
  issue (.smul d a b) (ssBody fun x y => x * y) s

/-- SMULH (R97). -/
def execSmulh (d a b : BitVec 8) (s : State) : Outcome State Fault Refusal :=
  issue (.smulh d a b) (ssBody mulHiS) s

/-- SMULHN (R97). -/
def execSmulhn (d a b : BitVec 8) (s : State) : Outcome State Fault Refusal :=
  issue (.smulhn d a b) (ssBody mulHiU) s

/-- SDIV (R97). -/
def execSdiv (d a b : BitVec 8) (s : State) : Outcome State Fault Refusal :=
  issue (.sdiv d a b) (ssBody divS) s

/-- SDIVN (R97). -/
def execSdivn (d a b : BitVec 8) (s : State) : Outcome State Fault Refusal :=
  issue (.sdivn d a b) (ssBody divU) s

/-- SREM (R97). -/
def execSrem (d a b : BitVec 8) (s : State) : Outcome State Fault Refusal :=
  issue (.srem d a b) (ssBody remS) s

/-- SREMN (R97). -/
def execSremn (d a b : BitVec 8) (s : State) : Outcome State Fault Refusal :=
  issue (.sremn d a b) (ssBody remU) s

/-- SAND (R97). -/
def execSand (d a b : BitVec 8) (s : State) : Outcome State Fault Refusal :=
  issue (.sand d a b) (ssBody fun x y => x &&& y) s

/-- SOR (R97). -/
def execSor (d a b : BitVec 8) (s : State) : Outcome State Fault Refusal :=
  issue (.sor d a b) (ssBody fun x y => x ||| y) s

/-- SXOR (R97). -/
def execSxor (d a b : BitVec 8) (s : State) : Outcome State Fault Refusal :=
  issue (.sxor d a b) (ssBody fun x y => x ^^^ y) s

/-- SSHL (R97). -/
def execSshl (d a b : BitVec 8) (s : State) : Outcome State Fault Refusal :=
  issue (.sshl d a b) (ssBody fun x y => x <<< shCount y) s

/-- SSHR (R97). -/
def execSshr (d a b : BitVec 8) (s : State) : Outcome State Fault Refusal :=
  issue (.sshr d a b) (ssBody fun x y => x >>> shCount y) s

/-- SSAR (R97). -/
def execSsar (d a b : BitVec 8) (s : State) : Outcome State Fault Refusal :=
  issue (.ssar d a b) (ssBody fun x y => BitVec.sshiftRight x (shCount y)) s

/-- SSEL reads sd as its condition (R97). -/
def execSsel (d a b : BitVec 8) (s : State) : Outcome State Fault Refusal :=
  issue (.ssel d a b) (fun c s =>
    c.putS1 s (if c.g.getS c.n1 ≠ 0 then c.g.getS c.n2 else c.g.getS c.n3)) s

/-- SMIN (R97). -/
def execSmin (d a b : BitVec 8) (s : State) : Outcome State Fault Refusal :=
  issue (.smin d a b) (ssBody fun x y => if y.slt x then y else x) s

/-- SMAX (R97). -/
def execSmax (d a b : BitVec 8) (s : State) : Outcome State Fault Refusal :=
  issue (.smax d a b) (ssBody fun x y => if x.slt y then y else x) s

/-- SMINN (R97). -/
def execSminn (d a b : BitVec 8) (s : State) : Outcome State Fault Refusal :=
  issue (.sminn d a b) (ssBody fun x y => if y.ult x then y else x) s

/-- SMAXN (R97). -/
def execSmaxn (d a b : BitVec 8) (s : State) : Outcome State Fault Refusal :=
  issue (.smaxn d a b) (ssBody fun x y => if x.ult y then y else x) s

/-! ## R98 -/

/-- SADDI (R98). -/
def execSaddi (d a : BitVec 8) (i : BitVec 8) (s : State) : Outcome State Fault Refusal :=
  issue (.saddi d a i) (fun c s => c.putS1 s (c.g.getS c.n2 + c.imm)) s

/-- SLI (R98). -/
def execSli (d : BitVec 8) (i : BitVec 16) (s : State) : Outcome State Fault Refusal :=
  issue (.sli d i) (fun c s => c.putS1 s c.imm) s

/-- SLIH: the high half from the immediate, the low half kept (R98). -/
def execSlih (d : BitVec 8) (i : BitVec 16) (s : State) : Outcome State Fault Refusal :=
  issue (.slih d i) (fun c s =>
    c.putS1 s (BitVec.ofNat 64 (c.imm.toNat % 2 ^ 32 * 2 ^ 32 + (c.g.getS c.n1).toNat % 2 ^ 32))) s

/-! ## R99, R100 -/

/-- A relation of SCMP by its fn byte, given equality and less-than (R99, R120). -/
def relation (fn : Nat) (eq lt : Bool) : Bool :=
  match fn with
  | 0 => eq
  | 1 => !eq
  | 2 => lt
  | 3 => lt || eq
  | 4 => !lt && !eq
  | _ => !lt

/-- A truth value as a 64-bit integer. -/
def bool64 (b : Bool) : U64 := if b then 1 else 0

/-- SCMP (R99). -/
def execScmp (d a : BitVec 8) (f : BitVec 8) (s : State) : Outcome State Fault Refusal :=
  issue (.scmp d a f) (sfBody fun x y => bool64 (relation f.toNat (x == y) (x.slt y))) s

/-- SCMPN (R99). -/
def execScmpn (d a : BitVec 8) (f : BitVec 8) (s : State) : Outcome State Fault Refusal :=
  issue (.scmpn d a f) (sfBody fun x y => bool64 (relation f.toNat (x == y) (x.ult y))) s

/-- The number of set bits among the low `w` bits. -/
def popCount (w v : Nat) : Nat := ((List.range w).filter fun i => v.testBit i).length

/-- Leading zero bits of the low `w` bits; `w` for 0. -/
def leadZeros (w v : Nat) : Nat := let u := v % 2 ^ w; if u = 0 then w else w - 1 - Nat.log2 u

/-- Trailing zero bits of the low `w` bits; `w` for 0. -/
def trailZeros (w v : Nat) : Nat := ((List.range w).find? fun i => v.testBit i).getD w

/-- Bit i moved to bit w − 1 − i. -/
def bitRev (w v : Nat) : Nat :=
  (List.range w).foldl (fun r i => 2 * r + (if v.testBit i then 1 else 0)) 0

/-- SUN.popc (R100). -/
def execSunPopc (d a : BitVec 8) (s : State) : Outcome State Fault Refusal :=
  issue (.sunPopc d a) (sunBody fun x => BitVec.ofNat 64 (popCount 64 x.toNat)) s

/-- SUN.clz (R100). -/
def execSunClz (d a : BitVec 8) (s : State) : Outcome State Fault Refusal :=
  issue (.sunClz d a) (sunBody fun x => BitVec.ofNat 64 (leadZeros 64 x.toNat)) s

/-- SUN.ctz (R100). -/
def execSunCtz (d a : BitVec 8) (s : State) : Outcome State Fault Refusal :=
  issue (.sunCtz d a) (sunBody fun x => BitVec.ofNat 64 (trailZeros 64 x.toNat)) s

/-- SUN.brev (R100). -/
def execSunBrev (d a : BitVec 8) (s : State) : Outcome State Fault Refusal :=
  issue (.sunBrev d a) (sunBody fun x => BitVec.ofNat 64 (bitRev 64 x.toNat)) s

/-- SUN.bswap (R100). -/
def execSunBswap (d a : BitVec 8) (s : State) : Outcome State Fault Refusal :=
  issue (.sunBswap d a) (sunBody fun x => BitVec.ofNat 64 (leNat (leBytes 8 x.toNat).reverse)) s

/-- SUN.not (R100). -/
def execSunNot (d a : BitVec 8) (s : State) : Outcome State Fault Refusal :=
  issue (.sunNot d a) (sunBody fun x => ~~~x) s

/-- SUN.neg (R100). -/
def execSunNeg (d a : BitVec 8) (s : State) : Outcome State Fault Refusal :=
  issue (.sunNeg d a) (sunBody fun x => 0 - x) s

/-- SUN.abs (R100). -/
def execSunAbs (d a : BitVec 8) (s : State) : Outcome State Fault Refusal :=
  issue (.sunAbs d a) (sunBody fun x => if x.slt 0 then 0 - x else x) s

/-! ## SFP (R101) -/

/-- The element type of an SFP type field. -/
def sfpType (t : BitVec 2) : Nat := 0x10 + t.toNat

/-- The low bits of a register that hold an operand of a type. -/
def lowCode (t : Nat) (x : U64) : Nat := x.toNat % 2 ^ typeWidth t

/-- sd = f(sd, sa) on codes of a type, given the subnormal policy and the rounding mode; zero-extended. -/
def sfpBody (t : BitVec 2) (f : Bool → Nat → Nat → Nat → Nat → Nat) (c : Ctx) (s : State) : Res :=
  let ty := sfpType t
  c.putS1 s (BitVec.ofNat 64 (f (ctFlush c.eff) ty c.g.rm (lowCode ty (c.g.getS c.n1)) (lowCode ty (c.g.getS c.n2))))

/-- SFP.add (R101). -/
def execSfpAdd (d a : BitVec 8) (t : BitVec 2) (s : State) : Outcome State Fault Refusal :=
  issue (.sfpAdd d a t) (sfpBody t fun fl ty rm x y => fpAdd fl ty rm false x y) s

/-- SFP.sub (R101). -/
def execSfpSub (d a : BitVec 8) (t : BitVec 2) (s : State) : Outcome State Fault Refusal :=
  issue (.sfpSub d a t) (sfpBody t fun fl ty rm x y => fpSub fl ty rm false x y) s

/-- SFP.mul (R101). -/
def execSfpMul (d a : BitVec 8) (t : BitVec 2) (s : State) : Outcome State Fault Refusal :=
  issue (.sfpMul d a t) (sfpBody t fun fl ty rm x y => fpMul fl ty rm false x y) s

/-- SFP.div (R101). -/
def execSfpDiv (d a : BitVec 8) (t : BitVec 2) (s : State) : Outcome State Fault Refusal :=
  issue (.sfpDiv d a t) (sfpBody t fun fl ty rm x y => fpDiv fl ty rm false x y) s

/-- SFP.sqrt (R101). -/
def execSfpSqrt (d a : BitVec 8) (t : BitVec 2) (s : State) : Outcome State Fault Refusal :=
  issue (.sfpSqrt d a t) (sfpBody t fun fl ty rm _ y => fpSqrt fl ty rm y) s

/-- SFP.min (R101, R129). -/
def execSfpMin (d a : BitVec 8) (t : BitVec 2) (s : State) : Outcome State Fault Refusal :=
  issue (.sfpMin d a t) (sfpBody t fun _ ty _ x y => fMinMax (fmtOf ty) false x y) s

/-- SFP.max (R101, R129). -/
def execSfpMax (d a : BitVec 8) (t : BitVec 2) (s : State) : Outcome State Fault Refusal :=
  issue (.sfpMax d a t) (sfpBody t fun _ ty _ x y => fMinMax (fmtOf ty) true x y) s

/-- SFP.eq (R101). -/
def execSfpEq (d a : BitVec 8) (t : BitVec 2) (s : State) : Outcome State Fault Refusal :=
  issue (.sfpEq d a t) (sfpBody t fun _ ty _ x y => if fpCmp ty (fun o => o == .eq) x y then 1 else 0) s

/-- SFP.lt (R101). -/
def execSfpLt (d a : BitVec 8) (t : BitVec 2) (s : State) : Outcome State Fault Refusal :=
  issue (.sfpLt d a t) (sfpBody t fun _ ty _ x y => if fpCmp ty (fun o => o == .lt) x y then 1 else 0) s

/-- SFP.le (R101). -/
def execSfpLe (d a : BitVec 8) (t : BitVec 2) (s : State) : Outcome State Fault Refusal :=
  issue (.sfpLe d a t) (sfpBody t fun _ ty _ x y => if fpCmp ty (fun o => o != .gt) x y then 1 else 0) s

/-- SFP.cvti (R72, R101). A NaN sets nothing in AMAXNAN: a scalar has no live lane (DESIGN CHOICE, log entry 54). -/
def execSfpCvti (d a : BitVec 8) (t : BitVec 2) (s : State) : Outcome State Fault Refusal :=
  issue (.sfpCvti d a t) (sfpBody t fun _ ty rm _ y => convert ty 3 rm false y) s

/-- SFP.cvtf (R101). -/
def execSfpCvtf (d a : BitVec 8) (t : BitVec 2) (s : State) : Outcome State Fault Refusal :=
  issue (.sfpCvtf d a t) (fun c s =>
    c.putS1 s (BitVec.ofNat 64 (convert 3 (sfpType t) c.g.rm false (c.g.getS c.n2).toNat))) s

end Sys2Proof.Machine
end

