-- ==== Sys2Proof/Machine/Control.lean ====
section
/-! DEFINITION. The steering of a group: NOP, branches, calls, EXIT, YIELD, traps, trap returns and IFENCE (R32, R81 to
R95). -/

namespace Sys2Proof.Machine

open Host (Outcome)

/-- The address at a signed word offset from the word that issues (R21). -/
def Ctx.target (c : Ctx) (n off : Nat) : U64 := c.g.pc + ofInt64 (4 * sext n off)

/-- NOP (R32). -/
def execNop (s : State) : Outcome State Fault Refusal := issue .nop (fun _ s => .done s none) s

/-- BRA (R81). -/
def execBra (o : BitVec 24) (s : State) : Outcome State Fault Refusal :=
  issue (.bra o) (fun c s => .done s (some (c.target 24 o.toNat))) s

/-- BRS (R81). -/
def execBrs (a : BitVec 8) (o : BitVec 16) (s : State) : Outcome State Fault Refusal :=
  issue (.brs a o) (fun c s => .done s (if c.g.getS c.n1 ≠ 0 then some (c.target 16 o.toNat) else none)) s

/-- The condition of BRM on a predicate restricted to the live lanes (R82). -/
def brmHolds (cond : Nat) (p live : BitVec 32) : Bool :=
  let l := p &&& live
  match cond with
  | 0 => l != 0
  | 1 => l == live
  | 2 => l == 0
  | _ => l != live

/-- BRM (R82). -/
def execBrm (p : BitVec 4) (c : BitVec 4) (o : BitVec 16) (s : State) : Outcome State Fault Refusal :=
  issue (.brm p c o) (fun k s =>
    .done s (if brmHolds c.toNat (k.g.getP p.toNat) k.g.live then some (k.target 16 o.toNat) else none)) s

/-- CALL (R81): the link is the address of the next word. -/
def execCall (d : BitVec 8) (o : BitVec 16) (s : State) : Outcome State Fault Refusal :=
  issue (.call d o) (fun c s =>
    .done (s.modGroup c.blk c.gid fun g => g.setS c.n1 (c.g.pc + 4)) (some (c.target 16 o.toNat))) s

/-- A transfer to the address in a register, which is a multiple of 4 (R83). -/
def jumpBody (c : Ctx) (s : State) : Res :=
  let a := c.g.getS c.n2
  if a.toNat % 4 ≠ 0 then .trap cALIGN a else .done s (some a)

/-- JMPI (R83). -/
def execJmpi (a : BitVec 8) (s : State) : Outcome State Fault Refusal := issue (.jmpi a) jumpBody s

/-- RET (R83): as JMPI; the return predictor is not architectural. -/
def execRet (a : BitVec 8) (s : State) : Outcome State Fault Refusal := issue (.ret a) jumpBody s

/-- EXIT (R84): the group issues nothing further and drains; its end is the step GROUP_EXIT_COMPLETE. -/
def execExit (s : State) : Outcome State Fault Refusal :=
  issue .exit (fun c s => c.upd s fun g => { g with park := .exiting }) s

/-- YIELD parks the group with its continuation (R85). -/
def yieldBody (off : BitVec 12) (f : Ctx → State → Park) (c : Ctx) (s : State) : Res :=
  .done (s.modGroup c.blk c.gid fun g => { g with park := f c s }) (some (c.target 12 off.toNat))

/-- YIELD.now (R85, R87). Its group has issued last, so it is the last in its quarter's round-robin order. -/
def execYieldNow (o : BitVec 12) (s : State) : Outcome State Fault Refusal :=
  issue (.yieldNow o) (yieldBody o fun _ _ => .yieldNow) s

/-- YIELD.reg (R85). -/
def execYieldReg (a : BitVec 8) (o : BitVec 12) (s : State) : Outcome State Fault Refusal :=
  issue (.yieldReg a o) (yieldBody o fun _ _ => .yieldReg a.toNat) s

/-- YIELD.oc (R85). -/
def execYieldOc (c : BitVec 3) (n : BitVec 5) (o : BitVec 12) (s : State) : Outcome State Fault Refusal :=
  issue (.yieldOc c n o) (yieldBody o fun _ _ => .yieldOc ((EngClass.ofCode c.toNat).getD .cp) n.toNat) s

/-- YIELD.sleep (R85): till CYCLE has reached its value at issue plus 64 × k. -/
def execYieldSleep (k : BitVec 8) (o : BitVec 12) (s : State) : Outcome State Fault Refusal :=
  issue (.yieldSleep k o) (yieldBody o fun _ s => .yieldSleep (s.cycle + BitVec.ofNat 64 (64 * k.toNat))) s

/-- TRAP (R91). -/
def execTrap (c : BitVec 8) (s : State) : Outcome State Fault Refusal :=
  issue (.trap c) (fun _ _ => .trap cTRAP (c.setWidth 64)) s

/-- BKPT (R91). -/
def execBkpt (c : BitVec 8) (s : State) : Outcome State Fault Refusal :=
  issue (.bkpt c) (fun _ _ => .trap cBKPT (c.setWidth 64)) s

/-- A trap return (R91): handler state ends and fetching goes on at an address. -/
def retBody (dest : Group → U64) (c : Ctx) (s : State) : Res :=
  if !c.g.handler then c.illegal
  else .done (s.modGroup c.blk c.gid fun g => { g with handler := false, early := [] }) (some (dest c.g))

/-- trap.ret retry (R91). -/
def execTrapRetRetry (s : State) : Outcome State Fault Refusal := issue .trapRetRetry (retBody Group.trapPc) s

/-- trap.ret next (R91). -/
def execTrapRetNext (s : State) : Outcome State Fault Refusal := issue .trapRetNext (retBody Group.resume) s

/-- trap.ret abort (R89, R91). -/
def execTrapRetAbort (s : State) : Outcome State Fault Refusal :=
  issue .trapRetAbort (fun c s =>
    if !c.g.handler then c.illegal
    else .done (s.abortBlock c.blk 1 c.g.cause c.g.trapInfo c.g.core) none) s

/-- IFENCE (R95): every word fetched ahead is discarded. -/
def execIfence (s : State) : Outcome State Fault Refusal :=
  issue .ifence (fun c s => c.upd s fun g => { g with ahead := [] }) s

end Sys2Proof.Machine
end

