-- ==== Sys2Proof/Machine/Moves.lean ====
section
/-! DEFINITION. Predicates, the mode register, index registers and moves into the lanes (R102 to R105). -/

namespace Sys2Proof.Machine

open Host (Outcome)

/-- Write a predicate register and go on. -/
def Ctx.putP (c : Ctx) (s : State) (n : Nat) (v : BitVec 32) : Res := c.upd s fun g => g.setP n v

/-- Write the vector register of field F1 in the active lanes and go on (R109). -/
def Ctx.putV1 (c : Ctx) (s : State) (f : Nat → U64) : Res := c.upd s fun g => g.setVs c.n1 c.lanes f

/-- PSET (R103). -/
def execPset (d a : BitVec 8) (s : State) : Outcome State Fault Refusal :=
  issue (.pset d a) (fun c s => c.putP s d.toNat ((c.g.getS c.n2).setWidth 32)) s

/-- PSET.live (R103). -/
def execPsetLive (d a : BitVec 8) (s : State) : Outcome State Fault Refusal :=
  issue (.psetLive d a) (fun c s => c.putP s d.toNat ((c.g.getS c.n2).setWidth 32 &&& c.g.live)) s

/-- PGET (R103). -/
def execPget (d a : BitVec 8) (s : State) : Outcome State Fault Refusal :=
  issue (.pget d a) (fun c s => c.putS1 s ((c.g.getP a.toNat).setWidth 64)) s

/-- The operations of PLOG (R103). -/
def plogOp (op : Nat) (a b : BitVec 32) : BitVec 32 :=
  match op with
  | 0 => a &&& b
  | 1 => a ||| b
  | 2 => a ^^^ b
  | 3 => a &&& ~~~b
  | 4 => a ||| ~~~b
  | 5 => ~~~(a &&& b)
  | 6 => ~~~(a ||| b)
  | _ => ~~~(a ^^^ b)

/-- PLOG (R103). -/
def execPlog (d a : BitVec 8) (b o : BitVec 4) (s : State) : Outcome State Fault Refusal :=
  issue (.plog d a b o) (fun c s =>
    c.putP s d.toNat (plogOp o.toNat (c.g.getP a.toNat) (c.g.getP b.toNat))) s

/-- PFIRST (R103). -/
def execPfirst (d a : BitVec 8) (s : State) : Outcome State Fault Refusal :=
  issue (.pfirst d a) (fun c s => c.putS1 s (BitVec.ofNat 64 (trailZeros 32 (c.g.getP a.toNat).toNat))) s

/-- PLAST (R103). -/
def execPlast (d a : BitVec 8) (s : State) : Outcome State Fault Refusal :=
  issue (.plast d a) (fun c s =>
    let p := (c.g.getP a.toNat).toNat
    c.putS1 s (BitVec.ofNat 64 (if p = 0 then 32 else Nat.log2 p))) s

/-- PCNT (R103). -/
def execPcnt (d a : BitVec 8) (s : State) : Outcome State Fault Refusal :=
  issue (.pcnt d a) (fun c s => c.putS1 s (BitVec.ofNat 64 (popCount 32 (c.g.getP a.toNat).toNat))) s

/-- MODE (R104): a forbidden vt or rm raises ILLEGAL and changes nothing. -/
def execMode (d a : BitVec 8) (f : BitVec 3) (s : State) : Outcome State Fault Refusal :=
  issue (.mode d a f) (fun c s =>
    match modeNew c.g.mode f.toNat (c.g.getS c.n2) with
    | none => c.illegal
    | some m => c.upd s fun g => { g with mode := m }.setS c.n1 (c.g.mode.setWidth 64)) s

/-- XSET (R102). -/
def execXset (d a : BitVec 8) (s : State) : Outcome State Fault Refusal :=
  issue (.xset d a) (fun c s => c.upd s fun g => g.setX d.toNat ((c.g.getS c.n2).setWidth 8)) s

/-- XADD (R102). -/
def execXadd (d a : BitVec 8) (s : State) : Outcome State Fault Refusal :=
  issue (.xadd d a) (fun c s =>
    c.upd s fun g => g.setX d.toNat (c.g.getX d.toNat + (c.g.getS c.n2).setWidth 8)) s

/-- XGET (R102). -/
def execXget (d a : BitVec 8) (s : State) : Outcome State Fault Refusal :=
  issue (.xget d a) (fun c s => c.putS1 s ((c.g.getX a.toNat).setWidth 64)) s

/-- SMOVV (R102): one lane, whatever the mask and the live mask. It consumes the lane that it reads (R223). -/
def execSmovv (d a : BitVec 8) (l : BitVec 8) (s : State) : Outcome State Fault Refusal :=
  issue (.smovv d a l) (fun c s =>
    if c.g.poisoned [.v c.n2] (1#32 <<< l.toNat) then .trap cUNC allOnes
    else c.putS1 s (c.g.getV c.n2 l.toNat)) s

/-- VLANE (R105). -/
def execVlane (d : BitVec 8) (s : State) : Outcome State Fault Refusal :=
  issue (.vlane d) (fun c s => c.putV1 s fun l => BitVec.ofNat 64 l) s

/-- VLANE.blk (R105). -/
def execVlaneBlk (d : BitVec 8) (s : State) : Outcome State Fault Refusal :=
  issue (.vlaneBlk d) (fun c s => c.putV1 s fun l => BitVec.ofNat 64 (32 * c.gid + l)) s

/-- VLANE.quad (R105). -/
def execVlaneQuad (d : BitVec 8) (s : State) : Outcome State Fault Refusal :=
  issue (.vlaneQuad d) (fun c s => c.putV1 s fun l => BitVec.ofNat 64 (l % 4)) s

/-- VMOVS (R105). -/
def execVmovs (d a : BitVec 8) (s : State) : Outcome State Fault Refusal :=
  issue (.vmovs d a) (fun c s => c.putV1 s fun _ => c.g.getS c.n2) s

/-- VMOVS to one lane (R105), when that lane is active. -/
def execVmovsLane (d a : BitVec 8) (l : BitVec 5) (s : State) : Outcome State Fault Refusal :=
  issue (.vmovsLane d a l) (fun c s =>
    c.upd s fun g => g.setVs c.n1 (c.lanes.filter fun k => k == l.toNat) fun _ => c.g.getS c.n2) s

/-- VMOV (R105). -/
def execVmov (d a : BitVec 8) (s : State) : Outcome State Fault Refusal :=
  issue (.vmov d a) (fun c s => c.putV1 s fun l => c.g.getV c.n2 l) s

/-- VSETI (R105). -/
def execVseti (d : BitVec 8) (i : BitVec 16) (s : State) : Outcome State Fault Refusal :=
  issue (.vseti d i) (fun c s => c.putV1 s fun _ => c.imm) s

end Sys2Proof.Machine
end

