-- ==== Sys2Proof/Machine/VectorInt.lean ====
section
/-! DEFINITION. Vector integer arithmetic, comparisons, selection and rearrangement within a lane (R109 to R125). -/

namespace Sys2Proof.Machine

open Host (Outcome)

/-- Element by element on va and vb, codes in and codes out (R109). -/
def vvBody (f : Nat → Nat → Nat → Nat) (c : Ctx) (s : State) : Res :=
  let w := typeWidth c.ty
  c.putV1 s fun l =>
    let a := c.g.getV c.n2 l
    let b := c.vb l
    mapElems c.ty fun e => f c.ty (elem w e a) (elem w e b)

/-- Element by element on vd, va and vb (R109). -/
def vvvBody (f : Nat → Nat → Nat → Nat → Nat) (c : Ctx) (s : State) : Res :=
  let w := typeWidth c.ty
  c.putV1 s fun l =>
    let d := c.g.getV c.n1 l
    let a := c.g.getV c.n2 l
    let b := c.vb l
    mapElems c.ty fun e => f c.ty (elem w e d) (elem w e a) (elem w e b)

/-- Element by element on va. -/
def vfBody (f : Nat → Nat → Nat) (c : Ctx) (s : State) : Res :=
  let w := typeWidth c.ty
  c.putV1 s fun l =>
    let a := c.g.getV c.n2 l
    mapElems c.ty fun e => f c.ty (elem w e a)

/-- An exact integer result, wrapped or saturated (R116). -/
def intOut (sat : Bool) (t : Nat) (x : Int) : Nat := wrapInt (typeWidth t) (if sat then satInt t x else x)

/-- An integer operation on the values of elements, with the sat bit of the bundle. -/
def viBody (f : Int → Int → Int) (c : Ctx) (s : State) : Res :=
  vvBody (fun t a b => intOut c.m.sat t (f (intVal t a) (intVal t b))) c s

/-- VADD (R116). -/
def execVadd (d a b : BitVec 8) (s : State) : Outcome State Fault Refusal :=
  issue (.vadd d a b) (viBody fun x y => x + y) s

/-- VSUB (R116). -/
def execVsub (d a b : BitVec 8) (s : State) : Outcome State Fault Refusal :=
  issue (.vsub d a b) (viBody fun x y => x - y) s

/-- VADDS (R116): always saturating. -/
def execVadds (d a b : BitVec 8) (s : State) : Outcome State Fault Refusal :=
  issue (.vadds d a b) (vvBody fun t x y => intOut true t (intVal t x + intVal t y)) s

/-- VSUBS (R116): always saturating. -/
def execVsubs (d a b : BitVec 8) (s : State) : Outcome State Fault Refusal :=
  issue (.vsubs d a b) (vvBody fun t x y => intOut true t (intVal t x - intVal t y)) s

/-- VMUL (R116). -/
def execVmul (d a b : BitVec 8) (s : State) : Outcome State Fault Refusal :=
  issue (.vmul d a b) (viBody fun x y => x * y) s

/-- VMULH (R116): bits [2w − 1:w] of the exact product. -/
def execVmulh (d a b : BitVec 8) (s : State) : Outcome State Fault Refusal :=
  issue (.vmulh d a b) (vvBody fun t x y =>
    wrapInt (typeWidth t) (intVal t x * intVal t y / 2 ^ typeWidth t)) s

/-- VMAD (R116). -/
def execVmad (d a b : BitVec 8) (s : State) : Outcome State Fault Refusal :=
  issue (.vmad d a b) (fun c s =>
    vvvBody (fun t z x y => intOut c.m.sat t (intVal t z + intVal t x * intVal t y)) c s) s

/-- A bitwise operation on all 64 bits of the active lanes (R116). -/
def bitsBody (f : U64 → U64 → U64) (c : Ctx) (s : State) : Res :=
  c.putV1 s fun l => f (c.g.getV c.n2 l) (c.vb l)

/-- VAND (R116). -/
def execVand (d a b : BitVec 8) (s : State) : Outcome State Fault Refusal :=
  issue (.vand d a b) (bitsBody fun x y => x &&& y) s

/-- VOR (R116). -/
def execVor (d a b : BitVec 8) (s : State) : Outcome State Fault Refusal :=
  issue (.vor d a b) (bitsBody fun x y => x ||| y) s

/-- VXOR (R116). -/
def execVxor (d a b : BitVec 8) (s : State) : Outcome State Fault Refusal :=
  issue (.vxor d a b) (bitsBody fun x y => x ^^^ y) s

/-- VMIN (R116). -/
def execVmin (d a b : BitVec 8) (s : State) : Outcome State Fault Refusal :=
  issue (.vmin d a b) (viBody fun x y => min x y) s

/-- VMAX (R116). -/
def execVmax (d a b : BitVec 8) (s : State) : Outcome State Fault Refusal :=
  issue (.vmax d a b) (viBody fun x y => max x y) s

/-- VABSD (R116): the exact distance as an unsigned value. -/
def execVabsd (d a b : BitVec 8) (s : State) : Outcome State Fault Refusal :=
  issue (.vabsd d a b) (vvBody fun t x y => (intVal t x - intVal t y).natAbs) s

/-! ## Shifts (R117) -/

/-- Shift left by n: wrapped or saturated. -/
def shlElem (sat : Bool) (t a n : Nat) : Nat := intOut sat t (intVal t a * 2 ^ n)

/-- Shift right with zeros. -/
def shrElem (t a n : Nat) : Nat := a % 2 ^ typeWidth t / 2 ^ n

/-- Shift right with copies of bit w − 1. -/
def sarElem (t a n : Nat) : Nat := wrapInt (typeWidth t) (sext (typeWidth t) a / 2 ^ n)

/-- VSHL (R117). -/
def execVshl (d a b : BitVec 8) (s : State) : Outcome State Fault Refusal :=
  issue (.vshl d a b) (fun c s => vvBody (fun t x y => shlElem c.m.sat t x (y % typeWidth t)) c s) s

/-- VSHR (R117). -/
def execVshr (d a b : BitVec 8) (s : State) : Outcome State Fault Refusal :=
  issue (.vshr d a b) (vvBody fun t x y => shrElem t x (y % typeWidth t)) s

/-- VSAR (R117). -/
def execVsar (d a b : BitVec 8) (s : State) : Outcome State Fault Refusal :=
  issue (.vsar d a b) (vvBody fun t x y => sarElem t x (y % typeWidth t)) s

/-! ## Immediate forms (R118) -/

/-- A shift count from an immediate: imm mod w. -/
def Ctx.shImm (c : Ctx) : Nat := c.imm.toNat % typeWidth c.ty

/-- VADDI (R118). -/
def execVaddi (d a : BitVec 8) (i : BitVec 8) (s : State) : Outcome State Fault Refusal :=
  issue (.vaddi d a i) (fun c s => vfBody (fun t x => intOut c.m.sat t (intVal t x + c.imm.toInt)) c s) s

/-- VMULI (R118). -/
def execVmuli (d a : BitVec 8) (i : BitVec 8) (s : State) : Outcome State Fault Refusal :=
  issue (.vmuli d a i) (fun c s => vfBody (fun t x => intOut c.m.sat t (intVal t x * c.imm.toInt)) c s) s

/-- VSHLI (R118). -/
def execVshli (d a : BitVec 8) (i : BitVec 8) (s : State) : Outcome State Fault Refusal :=
  issue (.vshli d a i) (fun c s => vfBody (fun t x => shlElem c.m.sat t x c.shImm) c s) s

/-- VSHRI (R118). -/
def execVshri (d a : BitVec 8) (i : BitVec 8) (s : State) : Outcome State Fault Refusal :=
  issue (.vshri d a i) (fun c s => vfBody (fun t x => shrElem t x c.shImm) c s) s

/-- VSARI (R118). -/
def execVsari (d a : BitVec 8) (i : BitVec 8) (s : State) : Outcome State Fault Refusal :=
  issue (.vsari d a i) (fun c s => vfBody (fun t x => sarElem t x c.shImm) c s) s

/-! ## VBIT (R119) -/

/-- VBIT.popc (R119). -/
def execVbitPopc (d a : BitVec 8) (s : State) : Outcome State Fault Refusal :=
  issue (.vbitPopc d a) (vfBody fun t x => popCount (typeWidth t) x) s

/-- VBIT.clz (R119). -/
def execVbitClz (d a : BitVec 8) (s : State) : Outcome State Fault Refusal :=
  issue (.vbitClz d a) (vfBody fun t x => leadZeros (typeWidth t) x) s

/-- VBIT.ctz (R119). -/
def execVbitCtz (d a : BitVec 8) (s : State) : Outcome State Fault Refusal :=
  issue (.vbitCtz d a) (vfBody fun t x => trailZeros (typeWidth t) x) s

/-- VBIT.brev (R119). -/
def execVbitBrev (d a : BitVec 8) (s : State) : Outcome State Fault Refusal :=
  issue (.vbitBrev d a) (vfBody fun t x => bitRev (typeWidth t) x) s

/-- VBIT.not (R119). -/
def execVbitNot (d a : BitVec 8) (s : State) : Outcome State Fault Refusal :=
  issue (.vbitNot d a) (vfBody fun t x => 2 ^ typeWidth t - 1 - x) s

/-- VBIT.neg (R119). -/
def execVbitNeg (d a : BitVec 8) (s : State) : Outcome State Fault Refusal :=
  issue (.vbitNeg d a) (fun c s => vfBody (fun t x => intOut c.m.sat t (-(intVal t x))) c s) s

/-- VBIT.abs (R119). -/
def execVbitAbs (d a : BitVec 8) (s : State) : Outcome State Fault Refusal :=
  issue (.vbitAbs d a) (fun c s => vfBody (fun t x => intOut c.m.sat t (intVal t x).natAbs) c s) s

/-! ## Comparisons and selection (R120 to R122) -/

/-- A relation of R120 between two elements of a type. -/
def relElem (t cond a b : Nat) : Bool :=
  if typeInt t then
    (match cond with
     | 6 => false
     | 7 => true
     | k => relation k (intVal t a == intVal t b) (intVal t a < intVal t b))
  else
    let x := (fmtOf t).val (typeCode t a)
    let y := (fmtOf t).val (typeCode t b)
    let un := x.isNan || y.isNan
    match cond with
    | 6 => un
    | 7 => !un
    | 1 => un || x.cmp y != .eq
    | k => !un && relation k (x.cmp y == .eq) (x.cmp y == .lt)

/-- One predicate bit of VCMPP for a lane (R120). -/
def cmpLane (t cond : Nat) (a b : U64) : Bool :=
  let w := typeWidth t
  let r := (List.range (typeElems t)).map fun e => relElem t (cond % 8) (elem w e a) (elem w e b)
  if cond ≥ 8 then r.any id else r.all id

/-- VCMPP (R120): the bits of active lanes are written, those of the other lanes stay as they are. -/
def execVcmpp (p c : BitVec 4) (a b : BitVec 8) (s : State) : Outcome State Fault Refusal :=
  issue (.vcmpp p c a b) (fun k s =>
    let r := maskOf (k.lanes.filter fun l => cmpLane k.ty c.toNat (k.g.getV k.n2 l) (k.vb l))
    k.upd s fun g => g.setPBits p.toNat k.mask r) s

/-- A mask element: all ones when a relation holds (R121). -/
def maskElem (t : Nat) (b : Bool) : Nat := if b then 2 ^ typeWidth t - 1 else 0

/-- VLTM (R121). -/
def execVltm (d a b : BitVec 8) (s : State) : Outcome State Fault Refusal :=
  issue (.vltm d a b) (vvBody fun t x y => maskElem t (relElem t 2 x y)) s

/-- VEQM (R121). -/
def execVeqm (d a b : BitVec 8) (s : State) : Outcome State Fault Refusal :=
  issue (.veqm d a b) (vvBody fun t x y => maskElem t (relElem t 0 x y)) s

/-- VSEL (R122): bit w − 1 of each element of vd selects. -/
def execVsel (d a b : BitVec 8) (s : State) : Outcome State Fault Refusal :=
  issue (.vsel d a b) (vvvBody fun t z x y => if z.testBit (typeWidth t - 1) then x else y) s

/-! ## Rearrangement (R123 to R125) -/

/-- VSWZ: element e of vd is the element of va that `src` names, given the number of elements. A k at or above the number
that mode.vt gives raises ILLEGAL here (DEDUCED, log entry 24); under a type of the bundle the word is malformed (`swzOut`). -/
def swzBody (k : Nat) (src : Nat → Nat → Nat) (c : Ctx) (s : State) : Res :=
  let n := typeElems c.ty
  let w := typeWidth c.ty
  if k ≥ n then c.illegal
  else c.putV1 s fun l => mapElems c.ty fun e => elem w (src n e) (c.g.getV c.n2 l)

/-- VSWZ.xor (R123). -/
def execVswzXor (d a : BitVec 8) (k : BitVec 4) (s : State) : Outcome State Fault Refusal :=
  issue (.vswzXor d a k) (swzBody k.toNat fun _ e => e ^^^ k.toNat) s

/-- VSWZ.bcst (R123). -/
def execVswzBcst (d a : BitVec 8) (k : BitVec 4) (s : State) : Outcome State Fault Refusal :=
  issue (.vswzBcst d a k) (swzBody k.toNat fun _ _ => k.toNat) s

/-- VSWZ.rot (R123). -/
def execVswzRot (d a : BitVec 8) (k : BitVec 4) (s : State) : Outcome State Fault Refusal :=
  issue (.vswzRot d a k) (swzBody k.toNat fun n e => (e + k.toNat) % n) s

/-- VSWZ.rev (R123). -/
def execVswzRev (d a : BitVec 8) (s : State) : Outcome State Fault Refusal :=
  issue (.vswzRev d a) (swzBody 0 fun n e => n - 1 - e) s

/-- The type of half the width and the same signedness (R124). -/
def halfType (t : Nat) : Nat :=
  match t with
  | 0 => 8 | 4 => 9 | 1 => 0 | 5 => 4 | 2 => 1 | 6 => 5 | 3 => 2 | 7 => 6 | _ => t

/-- VPACK (R124): the elements of va, then those of vb, narrowed. -/
def execVpack (d a b : BitVec 8) (s : State) : Outcome State Fault Refusal :=
  issue (.vpack d a b) (fun c s =>
    let w := typeWidth c.ty
    let t' := halfType c.ty
    let es (x : U64) := (List.range (typeElems c.ty)).map fun e => intOut c.m.sat t' (intVal c.ty (elem w e x))
    c.putV1 s fun l => packElems (w / 2) (es (c.g.getV c.n2 l) ++ es (c.vb l))) s

/-- VUNPK: half of the elements, widened (R125). -/
def unpkBody (hi : Nat) (c : Ctx) (s : State) : Res :=
  let w := typeWidth c.ty
  let n := typeElems c.ty / 2
  c.putV1 s fun l =>
    let x := c.g.getV c.n2 l
    packElems (2 * w) ((List.range n).map fun j => wrapInt (2 * w) (intVal c.ty (elem w (n * hi + j) x)))

/-- VUNPK.lo (R125). -/
def execVunpkLo (d a : BitVec 8) (s : State) : Outcome State Fault Refusal :=
  issue (.vunpkLo d a) (unpkBody 0) s

/-- VUNPK.hi (R125). -/
def execVunpkHi (d a : BitVec 8) (s : State) : Outcome State Fault Refusal :=
  issue (.vunpkHi d a) (unpkBody 1) s

end Sys2Proof.Machine
end

