-- ==== Sys2Proof/Machine/VectorFp.lean ====
section
/-! DEFINITION. Elementwise floating point, dot products, order keys, conversions and FP6 planes (R126 to R132, R138
to R145). -/

namespace Sys2Proof.Machine

open Host (Outcome)

/-- The subnormal policy of the effective contract (R74). -/
def Ctx.flush (c : Ctx) : Bool := ctFlush c.eff

/-- Elementwise arithmetic on va and vb, given policy, type, rounding mode and sat (R127). -/
def fpBody (f : Bool → Nat → Nat → Bool → Nat → Nat → Nat) (c : Ctx) (s : State) : Res :=
  vvBody (fun t a b => f c.flush t c.g.rm c.m.sat a b) c s

/-- VFADD (R127). -/
def execVfadd (d a b : BitVec 8) (s : State) : Outcome State Fault Refusal := issue (.vfadd d a b) (fpBody fpAdd) s

/-- VFSUB (R127). -/
def execVfsub (d a b : BitVec 8) (s : State) : Outcome State Fault Refusal := issue (.vfsub d a b) (fpBody fpSub) s

/-- VFMUL (R127). -/
def execVfmul (d a b : BitVec 8) (s : State) : Outcome State Fault Refusal := issue (.vfmul d a b) (fpBody fpMul) s

/-- VFDIV (R131). -/
def execVfdiv (d a b : BitVec 8) (s : State) : Outcome State Fault Refusal := issue (.vfdiv d a b) (fpBody fpDiv) s

/-- The product that a multiply-add adds: exact under a fused contract, rounded as a result under a split one
(R74, R128). -/
def maProduct (fused flush : Bool) (t rm : Nat) (sat : Bool) (a b : Nat) : Val :=
  let p := Val.mul (fpIn flush t a) (fpIn flush t b)
  if fused then p else (fmtOf t).val (fpOut flush t rm sat p)

/-- A multiply-add on vd, va and vb: `sum` combines the product and the addend (R128). -/
def maBody (sum : Val → Val → Val × Val) (c : Ctx) (s : State) : Res :=
  vvvBody (fun t z a b =>
    let p := maProduct (ctFused c.eff) c.flush t c.g.rm c.m.sat a b
    let r := sum p (fpIn c.flush t z)
    fpOut c.flush t c.g.rm c.m.sat (Val.add (c.g.rm == 2) r.1 r.2)) c s

/-- VFMA (R128). -/
def execVfma (d a b : BitVec 8) (s : State) : Outcome State Fault Refusal :=
  issue (.vfma d a b) (maBody fun p z => (p, z)) s

/-- VFMS (R128). -/
def execVfms (d a b : BitVec 8) (s : State) : Outcome State Fault Refusal :=
  issue (.vfms d a b) (maBody fun p z => (p, z.neg)) s

/-- VFNMA (R128). -/
def execVfnma (d a b : BitVec 8) (s : State) : Outcome State Fault Refusal :=
  issue (.vfnma d a b) (maBody fun p z => (z, p.neg)) s

/-- VFMIN (R129). -/
def execVfmin (d a b : BitVec 8) (s : State) : Outcome State Fault Refusal :=
  issue (.vfmin d a b) (vvBody fun t x y => fMinMax (fmtOf t) false x y) s

/-- VFMAX (R129). -/
def execVfmax (d a b : BitVec 8) (s : State) : Outcome State Fault Refusal :=
  issue (.vfmax d a b) (vvBody fun t x y => fMinMax (fmtOf t) true x y) s

/-- VFMINM and VFMAXM: a NaN on either side gives the canonical NaN (R129). -/
def fMinMaxNan (f : Fmt) (isMax : Bool) (a b : Nat) : Nat :=
  if (f.val a).isNan || (f.val b).isNan then f.nanCode else fMinMax f isMax a b

/-- VFMINM (R129). -/
def execVfminm (d a b : BitVec 8) (s : State) : Outcome State Fault Refusal :=
  issue (.vfminm d a b) (vvBody fun t x y => fMinMaxNan (fmtOf t) false x y) s

/-- VFMAXM (R129). -/
def execVfmaxm (d a b : BitVec 8) (s : State) : Outcome State Fault Refusal :=
  issue (.vfmaxm d a b) (vvBody fun t x y => fMinMaxNan (fmtOf t) true x y) s

/-! ## VFUN (R130) -/

/-- A finite value rounded to an integral value, keeping the sign of zero. -/
def Val.integral (mode : Nat) (v : Val) : Val :=
  match v with
  | .fin s m e => .fin s (roundUnits mode s m e 0) 0
  | v => v

/-- VFUN on each element: a function of the rounding mode and the value; the result is rounded once. -/
def funBody (f : Nat → Val → Val) (c : Ctx) (s : State) : Res :=
  vfBody (fun t a => fpOut c.flush t c.g.rm false (f c.g.rm (fpIn c.flush t a))) c s

/-- VFUN.neg (R130). -/
def execVfunNeg (d a : BitVec 8) (s : State) : Outcome State Fault Refusal :=
  issue (.vfunNeg d a) (funBody fun _ x => x.neg) s

/-- VFUN.abs (R130). -/
def execVfunAbs (d a : BitVec 8) (s : State) : Outcome State Fault Refusal :=
  issue (.vfunAbs d a) (funBody fun _ x => x.abs) s

/-- VFUN.rint (R130). -/
def execVfunRint (d a : BitVec 8) (s : State) : Outcome State Fault Refusal :=
  issue (.vfunRint d a) (funBody fun rm x => x.integral rm) s

/-- VFUN.floor (R130). -/
def execVfunFloor (d a : BitVec 8) (s : State) : Outcome State Fault Refusal :=
  issue (.vfunFloor d a) (funBody fun _ x => x.integral 2) s

/-- VFUN.ceil (R130). -/
def execVfunCeil (d a : BitVec 8) (s : State) : Outcome State Fault Refusal :=
  issue (.vfunCeil d a) (funBody fun _ x => x.integral 3) s

/-- VFUN.trunc (R130). -/
def execVfunTrunc (d a : BitVec 8) (s : State) : Outcome State Fault Refusal :=
  issue (.vfunTrunc d a) (funBody fun _ x => x.integral 1) s

/-- VFUN.fract (R130): ±∞ give NaN. -/
def execVfunFract (d a : BitVec 8) (s : State) : Outcome State Fault Refusal :=
  issue (.vfunFract d a) (funBody fun rm x => Val.add (rm == 2) x (x.integral 2).neg) s

/-- VFUN.relu (R130). -/
def execVfunRelu (d a : BitVec 8) (s : State) : Outcome State Fault Refusal :=
  issue (.vfunRelu d a) (funBody fun _ x =>
    if x.isNan then .nan else if x.isNeg || x.isZero then Val.zero else x) s

/-- VFUN.sign (R130). -/
def execVfunSign (d a : BitVec 8) (s : State) : Outcome State Fault Refusal :=
  issue (.vfunSign d a) (funBody fun _ x =>
    if x.isNan then .nan else if x.isZero then x else .fin x.isNeg 1 0) s

/-- VFSCL (R132): exempt from FLUSH; an infinity keeps its value. -/
def execVfscl (d a b : BitVec 8) (s : State) : Outcome State Fault Refusal :=
  issue (.vfscl d a b) (fun c s =>
    vvBody (fun t x y =>
      let f := fmtOf t
      match f.val x with
      | .inf _ => x
      | v => f.round c.g.rm c.m.sat (v.scale (sext (typeWidth t) y))) c s) s

/-! ## VDOT (R138 to R140) -/

/-- The elements `from` to `from + n - 1` of a lane. -/
def elems (w lo n : Nat) (x : U64) : List Nat := (List.range n).map fun e => elem w (lo + e) x

/-- One sum of products into a 32-bit accumulator: DOT for a floating-point type, exact for an integer one. -/
def dotSum (ct t : Nat) (sat : Bool) (acc : Nat) (a b : List Nat) : Nat :=
  if typeInt t then
    let x := intVal (if typeSigned t then 2 else 6) acc
      + ((a.zip b).map fun p => intVal t p.1 * intVal t p.2).foldl (fun s y => s + y) 0
    intOut sat (if typeSigned t then 2 else 6) x
  else dotOut ct (dot ct (dotIn ct acc) ((a.zip b).map fun p => Val.mul (factor ct t p.1) (factor ct t p.2)))

/-- VDOT (R138). -/
def execVdot (d a b : BitVec 8) (s : State) : Outcome State Fault Refusal :=
  issue (.vdot d a b) (fun c s =>
    let w := typeWidth c.ty
    let h := typeElems c.ty / 2
    c.putV1 s fun l =>
      let z := c.g.getV c.n1 l
      let x := c.g.getV c.n2 l
      let y := c.vb l
      packElems 32 ((List.range 2).map fun k =>
        dotSum c.eff c.ty c.m.sat (elem 32 k z) (elems w (h * k) h x) (elems w (h * k) h y))) s

/-- VDOTS (R139). -/
def execVdots (d a b : BitVec 8) (s : State) : Outcome State Fault Refusal :=
  issue (.vdots d a b) (fun c s =>
    let w := typeWidth c.ty
    let n := typeElems c.ty
    c.putV1 s fun l =>
      packElems 32 [dotSum c.eff c.ty c.m.sat (elem 32 0 (c.g.getV c.n1 l)) (elems w 0 n (c.g.getV c.n2 l))
        (elems w 0 n (c.vb l))]) s

/-! ## VFKEY (R141) -/

/-- The order key of an element, with the key of a NaN. -/
def keyOf (nanKey : Nat → Nat) (t x : Nat) : Nat :=
  let f := fmtOf t
  if (f.val x).isNan then nanKey (typeWidth t) else orderKey f x

/-- The inverse map; a NaN code becomes the canonical NaN. -/
def keyInv (t k : Nat) : Nat :=
  let f := fmtOf t
  let w := typeWidth t
  let x := if k ≥ 2 ^ (w - 1) then k - 2 ^ (w - 1) else 2 ^ w - 1 - k
  if (f.val x).isNan then f.nanCode else x

/-- VFKEY.max (R141). -/
def execVfkeyMax (d a : BitVec 8) (s : State) : Outcome State Fault Refusal :=
  issue (.vfkeyMax d a) (vfBody (keyOf fun _ => 0)) s

/-- VFKEY.min (R141). -/
def execVfkeyMin (d a : BitVec 8) (s : State) : Outcome State Fault Refusal :=
  issue (.vfkeyMin d a) (vfBody (keyOf fun w => 2 ^ w - 1)) s

/-- VFKEY.inv (R141). -/
def execVfkeyInv (d a : BitVec 8) (s : State) : Outcome State Fault Refusal := issue (.vfkeyInv d a) (vfBody keyInv) s

/-! ## Conversions (R142 to R144) -/

/-- An element of VCVT: with equal types each element stays, a NaN becoming canonical (R143). -/
def cvtElem (t d rnd : Nat) (sat : Bool) (x : Nat) : Nat :=
  if t = d then (if (typeVal t x).isNan then (fmtOf t).nanCode else typeCode t x) else convert t d rnd sat x

/-- VCVT: the elements of va in the destination run, in the active lanes; a NaN that a format without NaN takes sets
AMAXNAN in a live lane (R71, R142). -/
def cvtGroup (c : Ctx) (dst rnd : Nat) (g : Group) : Group :=
  let ws := typeWidth c.ty
  let wd := typeWidth dst
  let es (l : Nat) := elems ws 0 (typeElems c.ty) (c.g.getV c.n2 l)
  let ed := typeElems dst
  let g := (List.range (cvtRun c.ty dst)).foldl (fun g k =>
    g.setVs (c.n1 + k) c.lanes fun l =>
      packElems wd ((((es l).map (cvtElem c.ty dst rnd c.m.sat)).drop (ed * k)).take ed)) g
  g.setNan (c.liveLanes.any fun l => (es l).any (nanLost c.ty dst))

/-- VCVT (R142, R143). -/
def execVcvt (d a : BitVec 8) (r : BitVec 3) (t : BitVec 5) (s : State) : Outcome State Fault Refusal :=
  issue (.vcvt d a r t) (fun c s => c.upd s (cvtGroup c t.toNat r.toNat)) s

/-- VCVTA (R144): VCVT, and the fold of every source element of the active live lanes. -/
def execVcvta (d a : BitVec 8) (r : BitVec 3) (t : BitVec 5) (s : State) : Outcome State Fault Refusal :=
  issue (.vcvta d a r t) (fun c s => c.upd s fun g =>
    (cvtGroup c t.toNat r.toNat g).fold (c.liveLanes.flatMap fun l =>
      (elems (typeWidth c.ty) 0 (typeElems c.ty) (c.g.getV c.n2 l)).map (typeVal c.ty))) s

/-! ## VF6 (R145) -/

/-- The planes of eight containers: bits [5:2] in nibbles, bits [1:0] above them. -/
def f6Split (x : U64) : U64 :=
  let cs := elems 8 0 8 x
  BitVec.ofNat 64 ((packElems 4 (cs.map fun c => c / 4 % 16)).toNat
    + (packElems 2 (cs.map fun c => c % 4)).toNat * 2 ^ 32)

/-- The containers of two planes. -/
def f6Join (x : U64) : U64 :=
  packElems 8 ((List.range 8).map fun i => elem 4 i x * 4 + elem 2 (16 + i) x)

/-- VF6.split (R145). -/
def execVf6Split (d a : BitVec 8) (s : State) : Outcome State Fault Refusal :=
  issue (.vf6Split d a) (fun c s => c.putV1 s fun l => f6Split (c.g.getV c.n2 l)) s

/-- VF6.join (R145). -/
def execVf6Join (d a : BitVec 8) (s : State) : Outcome State Fault Refusal :=
  issue (.vf6Join d a) (fun c s => c.putV1 s fun l => f6Join (c.g.getV c.n2 l)) s

end Sys2Proof.Machine
end

