-- ==== Sys2Proof/Machine/Special.lean ====
section
/-! DEFINITION. VFSPEC (R133 to R137). FT4 is the correctly rounded function: its value is computed to far more bits
than any format holds, with a sticky last bit, and rounded once (log entry 14). FT1 to FT3 evaluate the segments of
the almanac image that the core holds (R218). -/

namespace Sys2Proof.Machine

open Host (Outcome)

/-! ## Fixed-point evaluation

A fixed-point number is an integer in units of 2^-`fxBits`. -/

/-- Fraction bits of the fixed-point numbers. -/
def fxBits : Nat := 256

/-- One. -/
def fxOne : Int := 2 ^ fxBits

/-- The product of two fixed-point numbers. -/
def fxMul (a b : Int) : Int := a * b / fxOne

/-- The quotient of two fixed-point numbers. -/
def fxDiv (a b : Int) : Int := a * fxOne / b

/-- The fixed-point number nearest below m × 2^e. -/
def fxOf (m : Int) (e : Int) : Int :=
  let k := e + fxBits
  if k ≥ 0 then m * 2 ^ k.toNat else m / 2 ^ (-k).toNat

/-- t0 + t1 + … over `n` terms, where `next k t` gives term k + 1 from term k. -/
def fxSeries (next : Nat → Int → Int) : Nat → Nat → Int → Int → Int
  | 0, _, _, acc => acc
  | n + 1, k, t, acc => fxSeries next n (k + 1) (next k t) (acc + t)

/-- e^y for 0 ≤ y < 1. -/
def fxExp (y : Int) : Int := fxSeries (fun k t => fxMul t y / (k + 1)) 80 0 fxOne 0

/-- 2 × artanh t, for |t| ≤ 1/3: the sum of 2 t^(2k+1) / (2k+1). -/
def fxLnRatio (t : Int) : Int :=
  let t2 := fxMul t t
  2 * ((List.range 90).foldl (fun (a : Int × Int) (k : Nat) => (a.1 + a.2 / (2 * k + 1), fxMul a.2 t2)) (0, t)).1

/-- ln 2. -/
def fxLn2 : Int := fxLnRatio (fxOne / 3)

/-- arctan(1/n). -/
def fxAtanInv (n : Nat) : Int :=
  ((List.range 130).foldl (fun (a : Int × Int) (k : Nat) =>
    (a.1 + (if k % 2 = 0 then a.2 / (2 * k + 1) else -(a.2 / (2 * k + 1))), a.2 / (n * n))) (0, fxOne / n)).1

/-- π. -/
def fxPi : Int := 16 * fxAtanInv 5 - 4 * fxAtanInv 239

/-- sin y / y for 0 ≤ y ≤ 1, from y². -/
def fxSinc (y2 : Int) : Int := fxSeries (fun k t => -(fxMul t y2 / ((2 * k + 2) * (2 * k + 3)))) 40 0 fxOne 0

/-- cos y for 0 ≤ y ≤ 1, from y². -/
def fxCos (y2 : Int) : Int := fxSeries (fun k t => -(fxMul t y2 / ((2 * k + 1) * (2 * k + 2)))) 40 0 fxOne 0

/-- sinh y / y, from y². -/
def fxSinhc (y2 : Int) : Int := fxSeries (fun k t => fxMul t y2 / ((2 * k + 2) * (2 * k + 3))) 120 0 fxOne 0

/-- cosh y, from y². -/
def fxCosh (y2 : Int) : Int := fxSeries (fun k t => fxMul t y2 / ((2 * k + 1) * (2 * k + 2))) 120 0 fxOne 0

/-- The irrational value (−1)^neg × f × 2^e for a fixed-point f > 0: more bits than any format holds, and a sticky
last bit. -/
def fxVal (neg : Bool) (f : Int) (e : Int) : Val := .fin neg (2 * f.natAbs + 1) (e - fxBits - 1)

/-! ## The functions on a nonzero finite magnitude m × 2^e with a sign -/

/-- Closer to 1 from below than any format resolves. -/
def nearOne (neg : Bool) : Val := .fin neg (2 ^ 200 - 1) (-200)

/-- The sign, the integer part (rounded down) and the fraction in fixed point of ±m × 2^e. -/
def fxSplit (neg : Bool) (m : Nat) (e : Int) : Int × Int :=
  let x := fxOf (if neg then -(m : Int) else m) e
  (x / fxOne, x % fxOne)

/-- The bits of the integer part: |x| < 2^top. -/
def topBit (m : Nat) (e : Int) : Int := (Nat.log2 m : Int) + 1 + e

/-- 1/√x, exact or sticky. -/
def rsqrtVal (m : Nat) (e : Int) : Val :=
  let (m, e) := if e % 2 = 0 then (m, e) else (2 * m, e - 1)
  let k := 2 * (extraBits + Nat.log2 m)
  let r := isqrt (2 ^ k / m)
  .fin false (2 * r + (if r * r * m = 2 ^ k then 0 else 1)) (-(k : Int) / 2 - e / 2 - 1)

/-- 2^x. -/
def exp2Val (neg : Bool) (m : Nat) (e : Int) : Val :=
  if topBit m e > 12 then .fin false 1 (if neg then -5000 else 5000)
  else
    let (n, z) := fxSplit neg m e
    if z = 0 then .fin false 1 n else fxVal false (fxExp (fxMul z fxLn2)) n

/-- log2 x for x > 0: exact for a power of two. -/
def log2Val (m : Nat) (e : Int) : Val :=
  let k := Nat.log2 m
  let n := (k : Int) + e
  if m = 2 ^ k then Val.ofInt n
  else
    let x := fxOf m (-(k : Int))
    let y := n * fxOne + fxDiv (fxLnRatio (fxDiv (x - fxOne) (x + fxOne))) fxLn2
    fxVal (y < 0) y 0

/-- sin(πr) for r = u / one in [0, 1/2], with `one` a power of two 2^k. -/
def sinQuarter (neg : Bool) (u : Nat) (k : Nat) : Val :=
  if u = 0 then .fin neg 0 0
  else if 2 * u = 2 ^ k then .fin neg 1 0
  else if 4 * u ≤ 2 ^ k then
    let y := fxMul (fxOf u (-(k : Int))) fxPi
    let f := fxMul fxPi (fxSinc (fxMul y y))
    .fin neg (2 * (u * f.natAbs) + 1) (-(k : Int) - fxBits - 1)
  else
    let y := fxMul (fxOf (2 ^ k - 2 * u : Nat) (-(k : Int) - 1)) fxPi
    fxVal neg (fxCos (fxMul y y)) 0

/-- sin(πr) for r = u / 2^k in [0, 2). -/
def sinTurn (neg : Bool) (u k : Nat) : Val :=
  let (neg, u) := if u ≥ 2 ^ k then (!neg, u - 2 ^ k) else (neg, u)
  sinQuarter neg (if 2 * u > 2 ^ k then 2 ^ k - u else u) k

/-- sin(πx). A zero result takes the sign of x (R134). -/
def sinpiVal (neg : Bool) (m : Nat) (e : Int) : Val :=
  if e ≥ 0 then .fin neg 0 0
  else
    let k := (-e).toNat
    match sinTurn neg (m % 2 ^ (k + 1)) k with
    | .fin _ 0 _ => .fin neg 0 0
    | v => v

/-- cos(πx). A zero result is +0 (R134). -/
def cospiVal (m : Nat) (e : Int) : Val :=
  if e > 0 then .fin false 1 0
  else
    let k := (-e).toNat + 1
    match sinTurn false ((2 * m + 2 ^ (k - 1)) % 2 ^ (k + 1)) k with
    | .fin _ 0 _ => .fin false 0 0
    | v => v

/-- tanh x. -/
def tanhVal (neg : Bool) (m : Nat) (e : Int) : Val :=
  if topBit m e > 5 then nearOne neg
  else
    let x := fxOf m e
    let y2 := fxMul x x
    let f := fxDiv (fxSinhc y2) (fxCosh y2)
    .fin neg (2 * (m * f.natAbs) + 1) (e - fxBits - 1)

/-- erf x. -/
def erfVal (neg : Bool) (m : Nat) (e : Int) : Val :=
  if topBit m e > 3 then nearOne neg
  else
    let x := fxOf m e
    let y2 := fxMul x x
    let sum := ((List.range 330).foldl (fun (a : Int × Int) (k : Nat) =>
      (a.1 + a.2 / (2 * k + 1), -(fxMul a.2 y2 / (k + 1)))) (0, fxOne)).1
    let f := fxDiv (2 * sum) (isqrt (fxPi * fxOne).natAbs)
    .fin neg (2 * (m * f.natAbs) + 1) (e - fxBits - 1)

/-- e^|x| as a fixed-point number and a power of two. -/
def expAbs (m : Nat) (e : Int) : Int × Nat :=
  let q := fxDiv (fxOf m e) fxLn2
  (fxExp (fxMul (q % fxOne) fxLn2), (q / fxOne).toNat)

/-- 1/(1 + e^−x) as numerator and denominator, with |x| < 2^12. -/
def sigmoid (neg : Bool) (m : Nat) (e : Int) : Nat × Nat :=
  let (f, n) := expAbs m e
  let big := f.natAbs * 2 ^ n
  ((if neg then 2 ^ fxBits else big), big + 2 ^ fxBits)

/-- A positive quotient with a sticky last bit. -/
def ratioVal (neg : Bool) (n d : Nat) (e : Int) : Val :=
  let k := fxBits + Nat.log2 d
  .fin neg (2 * (n * 2 ^ k / d) + 1) (e - k - 1)

/-- silu x = x / (1 + e^−x). -/
def siluVal (neg : Bool) (m : Nat) (e : Int) : Val :=
  if topBit m e > 12 then (if neg then .fin true 1 (-5000) else .fin false m e)
  else
    let q := sigmoid neg m e
    ratioVal neg (m * q.1) q.2 e

/-- The derivative of silu: q + x q (1 − q), with q = 1/(1 + e^−x) (R285). -/
def siluSlope (neg : Bool) (m : Nat) (e : Int) : Val :=
  if topBit m e > 12 then (if neg then .fin true 1 (-5000) else .fin false (2 ^ 200 + 1) (-200))
  else
    let q := sigmoid neg m e
    let num : Int := q.1 * q.2 * fxOne + (if neg then -1 else 1) * fxOf (m * q.1 * (q.2 - q.1)) e
    if num = 0 then Val.zero else ratioVal (num < 0) num.natAbs (q.2 * q.2 * 2 ^ fxBits) 0

/-! ## FT1 to FT3 (R136, R137) -/

/-- The F32 coefficient at a byte offset of a core's almanac image. -/
def CoreSt.coef (k : CoreSt) (off : Nat) : Val :=
  fF32.val ((k.almImage.get (off / 8)).toNat / 2 ^ (8 * (off % 8)) % 2 ^ 32)

/-- Segments of a revision. -/
def ftSegs (ft : Nat) : Nat := if ft = 1 then 32 else if ft = 2 then 64 else 128

/-- Image offset of a revision's tables (R218). -/
def ftBase (ft : Nat) : Nat := if ft = 1 then 0x80 else if ft = 2 then 0xE00 else 0x2900

/-- An F32 rounding that keeps or flushes a subnormal. -/
def r32 (flush : Bool) (v : Val) : Val := fF32.val (flushOut flush fF32 (rne32 v))

/-- The segment and the fraction of q: `top` marks an argument at the end of the interval, taken in the last
segment with fraction 1 (R137). -/
def segOf (segs : Nat) (m : Nat) (e : Int) : Nat × Val :=
  let i := if e ≥ 0 then m * 2 ^ e.toNat else m / 2 ^ (-e).toNat
  let i := min i (segs - 1)
  (i, Val.add false (.fin false m e) (.fin true i 0))

/-- The table value y at z − z0 = m × 2^e of an interval of width 2^lg (R136). -/
def ftEval (k : CoreSt) (ft table lg : Nat) (m : Nat) (e : Int) : Val :=
  let n := ftSegs ft
  let (i, d) := segOf n m (e + Nat.log2 n - lg)
  let f := r32 false d
  let off := ftBase ft + 12 * (table * n + i)
  let c0 := k.coef off
  let c1 := k.coef (off + 4)
  let c2 := k.coef (off + 8)
  if ft = 1 then
    let u := r32 false (Val.add false c1 (r32 false (Val.mul f c2)))
    r32 true (Val.add false c0 (r32 false (Val.mul f u)))
  else
    let u := r32 false (Val.add false c1 (Val.mul f c2))
    r32 false (Val.add false c0 (Val.mul f u))

/-- `ftEval` over an interval that spans half a unit. -/
def ftEvalHalf (k : CoreSt) (ft table : Nat) (m : Nat) (e : Int) : Val := ftEval k ft table 0 m (e + 1)

/-- The sign applied to a value. -/
def Val.signed (neg : Bool) (v : Val) : Val := if neg then v.neg else v

/-- The reconstructed value of a function under FT1 to FT3 for a finite input that R134 does not list (R137); cospi of a
zero stands at z = 0.5. -/
def ftVal (k : CoreSt) (ft fn : Nat) (neg : Bool) (m : Nat) (e : Int) : Val :=
  let b := Nat.log2 m
  let ex := (b : Int) + e
  let mz := m - 2 ^ b
  match fn with
  | 0 => ((ftEval k ft 0 0 mz (-(b : Int))).scale (-ex)).signed neg
  | 1 => (ftEval k ft (1 + (ex % 2).toNat) 0 mz (-(b : Int))).scale (-(ex / 2))
  | 3 =>
    if topBit m e > 12 then .fin false 1 (if neg then -5000 else 5000)
    else
      let u : Int := if neg then -(m : Int) else m
      let j := (-e).toNat
      let n := if e ≥ 0 then u * 2 ^ e.toNat else u / 2 ^ j
      let z := if e ≥ 0 then 0 else (u % 2 ^ j).toNat
      (ftEval k ft 3 0 z (-(j : Int))).scale n
  | 4 => Val.add false (Val.ofInt ex) (ftEval k ft 4 0 mz (-(b : Int)))
  | 5 =>
    let j := (-e).toNat
    let one := 2 ^ j
    let u := if e ≥ 0 then 0 else m % (2 * one)
    let u' := if u ≤ one then u else 2 * one - u           -- |r|, with r's sign flipped past 1
    let a := if 2 * u' > one then one - u' else u'
    if a = 0 then .fin neg 0 0
    else (ftEvalHalf k ft 5 a (-(j : Int))).signed (neg != decide (u > one))
  | 6 =>
    let j := (-e).toNat
    let one := 2 ^ j
    let u := if e > 0 then 0 else m % (2 * one)
    let a := if u ≤ one then u else 2 * one - u
    let z := if one ≥ 2 * a then one - 2 * a else 2 * a - one   -- |0.5 − a| in units of 2^-(j+1)
    if z = 0 then Val.zero
    else (ftEvalHalf k ft 5 z (-(j : Int) - 1)).signed (2 * a > one)
  | 7 => if topBit m e > 3 then .fin neg 1 0 else (ftEval k ft 6 3 m e).signed neg
  | 8 =>
    let x := fxOf (if neg then -(m : Int) else m) e
    if neg && (topBit m e > 5 || x < -16 * fxOne) then .fin true 0 0
    else if !neg && topBit m e > 4 then .fin false m e
    else
      let z := if e ≥ 0 then (16 + (if neg then -(m : Int) else m) * 2 ^ e.toNat)
        else (16 * 2 ^ (-e).toNat + (if neg then -(m : Int) else m))
      ftEval k ft 7 5 z.toNat (if e ≥ 0 then 0 else e)
  | _ => if topBit m e > 2 then .fin neg 1 0 else (ftEval k ft 8 2 m e).signed neg

/-! ## VFSPEC -/

/-- The results that hold under every revision (R134), for an input that is not NaN; the flag says that x is 1. -/
def specTable (fn : Nat) (x : Val) : Option Val :=
  let zero := x.isZero
  let neg := x.isNeg
  let isInf := match x with | .inf _ => true | _ => false
  match fn with
  | 0 => if zero then some (.inf neg) else if isInf then some (.fin neg 0 0) else none
  | 1 => if zero then some (.inf neg) else if neg then some .nan else if isInf then some Val.zero else none
  | 2 => some x.sqrt
  | 3 => if zero then some (.fin false 1 0) else if isInf then some (if neg then Val.zero else .inf false) else none
  | 4 =>
    if zero then some (.inf true) else if neg then some .nan else if isInf then some (.inf false)
    else if x.cmp (.fin false 1 0) == .eq then some Val.zero else none
  | 5 => if isInf then some .nan else if zero then some x else none
  | 6 => if isInf then some .nan else none
  | 8 => if zero then some x else if isInf then some (if neg then .fin true 0 0 else .inf false) else none
  | _ => if zero then some x else if isInf then some (.fin neg 1 0) else none

/-- The correctly rounded functions of FT4 before their rounding (R135). -/
def ft4Val (fn : Nat) (neg : Bool) (m : Nat) (e : Int) : Val :=
  match fn with
  | 0 => Val.div (.fin false 1 0) (.fin neg m e)
  | 1 => rsqrtVal m e
  | 3 => exp2Val neg m e
  | 4 => log2Val m e
  | 5 => sinpiVal neg m e
  | 6 => cospiVal m e
  | 7 => tanhVal neg m e
  | 8 => siluVal neg m e
  | _ => erfVal neg m e

/-- A function value for a value of any kind, before the last rounding. -/
def specVal (k : CoreSt) (ct fn : Nat) (x : Val) : Val :=
  match x with
  | .nan => .nan
  | x =>
    match specTable fn x with
    | some v => v
    | none =>
      match x with
      | .fin s m e =>
        if ctFt ct = 4 then (if m = 0 then .fin false 1 0 else ft4Val fn s m e)   -- of the zeros only cospi's comes here
        else
          match ftVal k (ctFt ct) fn s m e with
          | .fin r 0 _ => .fin (if fn = 5 then s else if fn = 6 then false else r) 0 0
          | v => v
      | v => v

/-- VFSPEC on each element: RNE whatever rm holds (R133). -/
def specBody (fn : Nat) (c : Ctx) (s : State) : Res :=
  let k := s.core c.g.core
  vfBody (fun t x => fpOut c.flush t 0 false (specVal k c.eff fn (fpIn c.flush t x))) c s

/-- VFSPEC.rcp (R133). -/
def execVfspecRcp (d a : BitVec 8) (s : State) : Outcome State Fault Refusal := issue (.vfspecRcp d a) (specBody 0) s

/-- VFSPEC.rsqrt (R133). -/
def execVfspecRsqrt (d a : BitVec 8) (s : State) : Outcome State Fault Refusal :=
  issue (.vfspecRsqrt d a) (specBody 1) s

/-- VFSPEC.sqrt (R135). -/
def execVfspecSqrt (d a : BitVec 8) (s : State) : Outcome State Fault Refusal := issue (.vfspecSqrt d a) (specBody 2) s

/-- VFSPEC.exp2 (R133). -/
def execVfspecExp2 (d a : BitVec 8) (s : State) : Outcome State Fault Refusal := issue (.vfspecExp2 d a) (specBody 3) s

/-- VFSPEC.log2 (R133). -/
def execVfspecLog2 (d a : BitVec 8) (s : State) : Outcome State Fault Refusal := issue (.vfspecLog2 d a) (specBody 4) s

/-- VFSPEC.sinpi (R133). -/
def execVfspecSinpi (d a : BitVec 8) (s : State) : Outcome State Fault Refusal :=
  issue (.vfspecSinpi d a) (specBody 5) s

/-- VFSPEC.cospi (R133). -/
def execVfspecCospi (d a : BitVec 8) (s : State) : Outcome State Fault Refusal :=
  issue (.vfspecCospi d a) (specBody 6) s

/-- VFSPEC.tanh (R133). -/
def execVfspecTanh (d a : BitVec 8) (s : State) : Outcome State Fault Refusal := issue (.vfspecTanh d a) (specBody 7) s

/-- VFSPEC.silu (R133). -/
def execVfspecSilu (d a : BitVec 8) (s : State) : Outcome State Fault Refusal := issue (.vfspecSilu d a) (specBody 8) s

/-- VFSPEC.erf (R133). -/
def execVfspecErf (d a : BitVec 8) (s : State) : Outcome State Fault Refusal := issue (.vfspecErf d a) (specBody 9) s

end Sys2Proof.Machine
end

