-- ==== Sys2Proof/Machine/CrossLane.lean ====
section
/-! DEFINITION. Cross-lane and quad instructions (R146 to R162). -/

namespace Sys2Proof.Machine

open Host (Outcome)

/-- The contributing set C (R146). -/
def Ctx.contrib (c : Ctx) : BitVec 32 := if c.m.scope.getLsbD 0 then c.mask else c.mask &&& c.g.live

/-- The lanes of C in increasing order. -/
def Ctx.clanes (c : Ctx) : List Nat := lanesOf c.contrib

/-- The effect, or UNCORRECTABLE when a source lane that is read is poisoned (R150). -/
def Ctx.unpoisoned (c : Ctx) (lanes : BitVec 32) (r : Res) : Res :=
  if c.g.poisoned [.v c.n2] lanes then .trap cUNC allOnes else r

/-- Element number n of va (R53). -/
def Ctx.vaElem (c : Ctx) (n : Nat) : Nat :=
  elem (typeWidth c.ty) (n % typeElems c.ty) (c.g.getV c.n2 (n / typeElems c.ty))

/-! ## Moving elements -/

/-- A moving instruction: element e of lane l of vd is element `src l e` of va, or zero (R146, R152, R154). A poisoned element
that is moved into an active lane, a helper lane too, is read (R150). An FP6 element moves with all 8 bits of its container: R53
and R149 count it as 8 bits, and R67 does not say whether a move produces it (DESIGN CHOICE, log entry 54). -/
def moveBody (src : Nat → Nat → Option Nat) (c : Ctx) (s : State) : Res :=
  let n := typeElems c.ty
  let srcs (l : Nat) := (List.range n).map (src l)
  let read := maskOf (c.lanes.flatMap fun l => (srcs l).filterMap fun o => o.map fun i => i / n)
  c.unpoisoned read (c.putV1 s fun l =>
    packElems (typeWidth c.ty) ((srcs l).map fun o => (o.map c.vaElem).getD 0))

/-- VSHFL (R152). Its control vb is an operand that each lane reads of its own register, which a helper lane's read does not
consume (R114, R223, log entry 22). -/
def execVshfl (d a b : BitVec 8) (s : State) : Outcome State Fault Refusal :=
  issue (.vshfl d a b) (fun c s =>
    let w := typeWidth c.ty
    if !c.m.bcast && c.g.poisoned [.v c.n3] (c.mask &&& c.g.live) then .trap cUNC allOnes
    else moveBody (fun l e =>
      let i := elem w e (c.vb l)
      if i < 32 * typeElems c.ty then some i else none) c s) s

/-- VROT (R154). -/
def execVrot (d a : BitVec 8) (i : BitVec 8) (s : State) : Outcome State Fault Refusal :=
  issue (.vrot d a i) (fun c s =>
    let n := typeElems c.ty
    let k := c.imm.toNat % (32 * n)
    moveBody (fun l e => some ((l * n + e + k) % (32 * n))) c s) s

/-- Move whole lanes: lane l of vd is lane `src l` of va (R153, R160), read for every active lane l (R150). -/
def laneBody (src : Nat → Nat) (c : Ctx) (s : State) : Res :=
  c.unpoisoned (maskOf (c.lanes.map src)) (c.putV1 s fun l => c.g.getV c.n2 (src l))

/-- VBCST of a fixed lane (R153). -/
def execVbcst (d a : BitVec 8) (k : BitVec 5) (s : State) : Outcome State Fault Refusal :=
  issue (.vbcst d a k) (laneBody fun _ => k.toNat) s

/-- VBCST.first: the lowest lane of C; with an empty C nothing is written (R153). It combines, so every lane of C counts as
read (R146, R150). -/
def execVbcstFirst (d a : BitVec 8) (s : State) : Outcome State Fault Refusal :=
  issue (.vbcstFirst d a) (fun c s =>
    match c.clanes.head? with
    | none => .done s none
    | some k => c.unpoisoned c.contrib (c.putV1 s fun _ => c.g.getV c.n2 k)) s

/-- VQX.swap (R160). -/
def execVqxSwap (d a : BitVec 8) (n : BitVec 2) (s : State) : Outcome State Fault Refusal :=
  issue (.vqxSwap d a n) (laneBody fun l => l ^^^ n.toNat) s

/-- VQX.bcst (R160). -/
def execVqxBcst (d a : BitVec 8) (n : BitVec 2) (s : State) : Outcome State Fault Refusal :=
  issue (.vqxBcst d a n) (laneBody fun l => l / 4 * 4 + n.toNat) s

/-! ## Combining (R155 to R160) -/

/-- A combining operation. -/
inductive Comb where
  | add | min | max | and | or | xor | fadd | fmin | fmax
deriving DecidableEq, Repr

/-- A NaN becomes canonical. -/
def canonNan (t x : Nat) : Nat := if (typeVal t x).isNan then (fmtOf t).nanCode else x

/-- A subnormal under FLUSH becomes a zero of its sign. -/
def flushElem (flush : Bool) (t x : Nat) : Nat :=
  let f := fmtOf t
  if flush && f.subnormal x then f.signed (x.testBit f.low) 0 else x

/-- One step of a running combination; nothing combined with x is x (R159). Under FLUSH the running value, too, counts as an
input of fadd, so that a subnormal one is a zero of its sign: R159 does not say whether it is one (DESIGN CHOICE, log entry
54). -/
def combine (flush : Bool) (t : Nat) (op : Comb) (acc : Option Nat) (x : Nat) : Nat :=
  match acc with
  | none =>
    (match op with
     | .fadd => canonNan t (flushElem flush t x)
     | .fmin | .fmax => canonNan t x
     | _ => x)
  | some a =>
    (match op with
     | .add => wrapInt (typeWidth t) (intVal t a + intVal t x)
     | .min => if intVal t x < intVal t a then x else a
     | .max => if intVal t a < intVal t x then x else a
     | .and => a &&& x
     | .or => a ||| x
     | .xor => a ^^^ x
     | .fadd => fpAdd flush t 0 false a x
     | .fmin => fMinMax (fmtOf t) false a x
     | .fmax => fMinMax (fmtOf t) true a x)

/-- The identity of an operation (R155, R159). -/
def combId (t : Nat) (op : Comb) : Nat :=
  match op with
  | .and => 2 ^ typeWidth t - 1
  | .min => wrapInt (typeWidth t) (intMax t)
  | .max => wrapInt (typeWidth t) (intMin t)
  | .fmin => (fmtOf t).infCode
  | .fmax => (fmtOf t).signed true (fmtOf t).infCode
  | _ => 0

/-- The value of a running combination. -/
def combValue (t : Nat) (op : Comb) (acc : Option Nat) : Nat := acc.getD (combId t op)

/-- The elements of the lanes of C with their numbers, in increasing order. -/
def Ctx.celems (c : Ctx) : List (Nat × Nat) :=
  let n := typeElems c.ty
  c.clanes.flatMap fun l => (List.range n).map fun e => (l * n + e, c.vaElem (l * n + e))

/-- An element's code extended to 64 bits: sign-extended for I types, otherwise zero-extended (R155). -/
def extElem (t x : Nat) : U64 := if typeInt t then ofInt64 (intVal t x) else BitVec.ofNat 64 x

/-- A reduction of C to a scalar. -/
def redBody (f : Ctx → List Nat → U64) (c : Ctx) (s : State) : Res :=
  c.unpoisoned c.contrib (c.putS1 s (f c (c.celems.map Prod.snd)))

/-- A reduction by a combining operation. -/
def redComb (op : Comb) (c : Ctx) (es : List Nat) : U64 :=
  extElem c.ty (combValue c.ty op (es.foldl (fun acc x => some (combine false c.ty op acc x)) none))

/-- The exact sum of integer elements. -/
def intSum (t : Nat) (es : List Nat) : Int := es.foldl (fun a x => a + intVal t x) 0

/-- VRED.add (R155). -/
def execVredAdd (d a : BitVec 8) (s : State) : Outcome State Fault Refusal :=
  issue (.vredAdd d a) (redBody (redComb .add)) s

/-- VRED.adds (R155): saturated once. -/
def execVredAdds (d a : BitVec 8) (s : State) : Outcome State Fault Refusal :=
  issue (.vredAdds d a) (redBody fun c es => ofInt64 (satInt c.ty (intSum c.ty es))) s

/-- VRED.addw (R155). -/
def execVredAddw (d a : BitVec 8) (s : State) : Outcome State Fault Refusal :=
  issue (.vredAddw d a) (redBody fun c es => ofInt64 (intSum c.ty es)) s

/-- VRED.min (R155). -/
def execVredMin (d a : BitVec 8) (s : State) : Outcome State Fault Refusal :=
  issue (.vredMin d a) (redBody (redComb .min)) s

/-- VRED.max (R155). -/
def execVredMax (d a : BitVec 8) (s : State) : Outcome State Fault Refusal :=
  issue (.vredMax d a) (redBody (redComb .max)) s

/-- VRED.and (R155). -/
def execVredAnd (d a : BitVec 8) (s : State) : Outcome State Fault Refusal :=
  issue (.vredAnd d a) (redBody (redComb .and)) s

/-- VRED.or (R155). -/
def execVredOr (d a : BitVec 8) (s : State) : Outcome State Fault Refusal :=
  issue (.vredOr d a) (redBody (redComb .or)) s

/-- VRED.xor (R155). -/
def execVredXor (d a : BitVec 8) (s : State) : Outcome State Fault Refusal :=
  issue (.vredXor d a) (redBody (redComb .xor)) s

/-- VRED.fadd (R156): DOT from +0 over the elements of C. -/
def execVredFadd (d a : BitVec 8) (s : State) : Outcome State Fault Refusal :=
  issue (.vredFadd d a) (redBody fun c es =>
    BitVec.ofNat 64 (dotOut c.eff (dot c.eff 0 (es.map (factor c.eff c.ty))))) s

/-- VRED.fmin (R156). -/
def execVredFmin (d a : BitVec 8) (s : State) : Outcome State Fault Refusal :=
  issue (.vredFmin d a) (redBody (redComb .fmin)) s

/-- VRED.fmax (R156). -/
def execVredFmax (d a : BitVec 8) (s : State) : Outcome State Fault Refusal :=
  issue (.vredFmax d a) (redBody (redComb .fmax)) s

/-! ## VREDI (R157) -/

/-- Whether x comes before y as an extreme. -/
def better (t : Nat) (isMax : Bool) (x y : Nat) : Bool :=
  if typeInt t then (if isMax then intVal t x > intVal t y else intVal t x < intVal t y)
  else (if isMax then orderKey (fmtOf t) x > orderKey (fmtOf t) y else orderKey (fmtOf t) x < orderKey (fmtOf t) y)

/-- The extreme of numbered elements: the first in order among equals. -/
def extreme (t : Nat) (isMax : Bool) (es : List (Nat × Nat)) : Option (Nat × Nat) :=
  es.foldl (fun m p => match m with
    | none => some p
    | some q => if better t isMax p.2 q.2 then some p else some q) none

/-- The value and the element number of VREDI. -/
def rediValue (t : Nat) (isMax : Bool) (es : List (Nat × Nat)) : Nat × Nat :=
  let vs := es.filter fun p => !(typeVal t p.2).isNan
  match extreme t isMax vs, es with
  | some (n, x), _ => (x, n)
  | none, (n, _) :: _ => ((fmtOf t).nanCode, n)
  | none, [] =>
    (combId t (if typeInt t then (if isMax then .max else .min) else (if isMax then .fmax else .fmin)), 0xFFFFFFFF)

/-- VREDI writes sd and sd + 1 (R157). -/
def rediBody (isMax : Bool) (c : Ctx) (s : State) : Res :=
  let r := rediValue c.ty isMax c.celems
  c.unpoisoned c.contrib (c.upd s fun g =>
    (g.setS c.n1 (extElem c.ty r.1)).setS (c.n1 + 1) (BitVec.ofNat 64 r.2))

/-- VREDI.min (R157). -/
def execVrediMin (d a : BitVec 8) (s : State) : Outcome State Fault Refusal := issue (.vrediMin d a) (rediBody false) s

/-- VREDI.max (R157). -/
def execVrediMax (d a : BitVec 8) (s : State) : Outcome State Fault Refusal := issue (.vrediMax d a) (rediBody true) s

/-! ## VSCAN (R159) -/

/-- The combining operation of a VSCAN op. -/
def scanOp (o : Nat) : Comb :=
  match o with
  | 0 => .add | 1 => .min | 2 => .max | 3 => .and | 4 => .or | 5 => .xor | 6 => .fadd | 7 => .fmin | _ => .fmax

/-- The running values over numbered elements: `inC n` tells which contribute. -/
def scanOut (flush excl : Bool) (t : Nat) (op : Comb) (inC : Nat → Bool) : List (Nat × Nat) → Option Nat → List Nat
  | [], _ => []
  | (n, x) :: r, acc =>
    let acc' := if inC n then some (combine flush t op acc x) else acc
    combValue t op (if excl then acc else acc') :: scanOut flush excl t op inC r acc'

/-- VSCAN (R159). -/
def execVscan (d a : BitVec 8) (e : BitVec 1) (o : BitVec 4) (s : State) : Outcome State Fault Refusal :=
  issue (.vscan d a e o) (fun c s =>
    let n := typeElems c.ty
    let all := (List.range (32 * n)).map fun i => (i, c.vaElem i)
    let out := scanOut c.flush (e == 1) c.ty (scanOp o.toNat) (fun i => c.contrib.getLsbD (i / n)) all none
    c.unpoisoned c.contrib (c.putV1 s fun l => packElems (typeWidth c.ty) ((out.drop (n * l)).take n))) s

/-! ## VQX arithmetic (R160) -/

/-- A quad combination: for element e of a lane, the elements e of the quad's lanes in C. -/
def quadBody (f : Ctx → List Nat → Nat) (c : Ctx) (s : State) : Res :=
  let w := typeWidth c.ty
  c.unpoisoned c.contrib (c.putV1 s fun l =>
    let ms := c.clanes.filter fun m => m / 4 == l / 4
    mapElems c.ty fun e => f c (ms.map fun m => elem w e (c.g.getV c.n2 m)))

/-- The exact floating-point sum of R160, rounded once. -/
def quadSum (flush : Bool) (t rm : Nat) (xs : List Nat) : Nat :=
  match xs.map (fpIn flush t) with
  | [] => 0
  | v :: r => fpOut flush t rm false (r.foldl (Val.add (rm == 2)) v)

/-- VQX.add (R160). -/
def execVqxAdd (d a : BitVec 8) (s : State) : Outcome State Fault Refusal :=
  issue (.vqxAdd d a) (quadBody fun c xs =>
    if typeInt c.ty then wrapInt (typeWidth c.ty) (intSum c.ty xs) else quadSum c.flush c.ty c.g.rm xs) s

/-- The least or greatest of a quad. -/
def quadExt (isMax : Bool) (c : Ctx) (xs : List Nat) : Nat :=
  let op : Comb := if typeInt c.ty then (if isMax then .max else .min) else (if isMax then .fmax else .fmin)
  combValue c.ty op (xs.foldl (fun acc x => some (combine false c.ty op acc x)) none)

/-- VQX.min (R160). -/
def execVqxMin (d a : BitVec 8) (s : State) : Outcome State Fault Refusal :=
  issue (.vqxMin d a) (quadBody (quadExt false)) s

/-- VQX.max (R160). -/
def execVqxMax (d a : BitVec 8) (s : State) : Outcome State Fault Refusal :=
  issue (.vqxMax d a) (quadBody (quadExt true)) s

/-! ## Votes (R161, R162) -/

/-- The ballot: lanes of C whose value is nonzero. -/
def Ctx.ballot (c : Ctx) : BitVec 32 := maskOf (c.clanes.filter fun l => c.g.getV c.n2 l != 0)

/-- A vote writes a value of the ballot and C. -/
def voteBody (f : BitVec 32 → BitVec 32 → U64) (c : Ctx) (s : State) : Res :=
  c.unpoisoned c.contrib (c.putS1 s (f c.ballot c.contrib))

/-- VVOTE.any (R161). -/
def execVvoteAny (d a : BitVec 8) (s : State) : Outcome State Fault Refusal :=
  issue (.vvoteAny d a) (voteBody fun b _ => bool64 (b != 0)) s

/-- VVOTE.all (R161). -/
def execVvoteAll (d a : BitVec 8) (s : State) : Outcome State Fault Refusal :=
  issue (.vvoteAll d a) (voteBody fun b m => bool64 (b == m)) s

/-- VVOTE.ballot (R161). -/
def execVvoteBallot (d a : BitVec 8) (s : State) : Outcome State Fault Refusal :=
  issue (.vvoteBallot d a) (voteBody fun b _ => b.setWidth 64) s

/-- VVOTE.uniform (R161). -/
def execVvoteUniform (d a : BitVec 8) (s : State) : Outcome State Fault Refusal :=
  issue (.vvoteUniform d a) (voteBody fun b m => bool64 (b == 0 || b == m)) s

/-- The lanes of C whose membership masks disagree (R162). -/
def badMembers (cm : BitVec 32) (mem : Nat → BitVec 32) : BitVec 32 :=
  maskOf ((lanesOf cm).filter fun l =>
    !(mem l).getLsbD l || (lanesOf (mem l)).any fun m => !cm.getLsbD m || mem m != mem l)

/-- A vote of VVOTEM within a membership mask. -/
def votemValue (op : Nat) (b m : BitVec 32) : U64 :=
  match op with
  | 0 => bool64 (b != 0)
  | 1 => bool64 (b == m)
  | 2 => b.setWidth 64
  | _ => bool64 (b == 0 || b == m)

/-- VVOTEM (R162). A poisoned mask of a contributing lane comes before MEMBER_MISMATCH, which is computed from it: R162
does not rank the two (DESIGN CHOICE, log entry 42). -/
def execVvotem (d a : BitVec 8) (p : BitVec 4) (o : BitVec 2) (s : State) : Outcome State Fault Refusal :=
  issue (.vvotem d a p o) (fun c s =>
    let mem (l : Nat) : BitVec 32 := (c.g.getV c.n2 l).setWidth 32
    let bad := badMembers c.contrib mem
    c.unpoisoned c.contrib (
      if bad ≠ 0 then .trap cMEMBER (bad.setWidth 64)
      else c.putV1 s fun l =>
        if c.contrib.getLsbD l then votemValue o.toNat (c.g.getP p.toNat &&& mem l) (mem l) else 0)) s

end Sys2Proof.Machine
end

