-- ==== Sys2Proof/Machine/Memory.lean ====
section
/-! DEFINITION. The group's own accesses: loads, stores, atomics, the spill stack, split passes, fences and ICINV (R94,
R96, R106, R107, R163 to R177, R190 to R195). The accesses of one instruction are performed at its issue, in one order
of steps; those of a hit pass may be performed later (R194, log entry 3). -/

namespace Sys2Proof.Machine

open Host (Outcome)

/-! ## Checking an access (R164 to R166, R170) -/

/-- A fault of one lane: its rank in R170, its cause, its address, and the records of partition denials (R330) with their
source: 4 a group access, 3 the abacus (R346). -/
structure AccFault where
  rank    : Nat
  cause   : BitVec 8
  addr    : Nat
  records : List (Nat × Nat × Nat) := []
  src     : Nat := 4
deriving DecidableEq, Repr

/-- The bound of a block's shared memory (R163). -/
def Header.sharedBound (h : Header) : Nat := 4096 * ceilDiv h.shared 4096

/-- The first of `n` bytes from `a` for which a test holds. -/
def firstBad (n a : Nat) (bad : Nat → Bool) : Option Nat :=
  ((List.range n).find? fun i => bad (a + i)).map fun i => a + i

/-- The checks of an access of `n` bytes, in the order of R170. -/
def State.checkAcc (s : State) (k : Block) (h : Header) (space n va : Nat) (r w : Bool) : Except AccFault Spot :=
  if va % n ≠ 0 then .error ⟨1, cALIGN, va, [], 4⟩
  else if space = 0 then
    if va + n > h.sharedBound then .error ⟨2, cSPAD, va, [], 4⟩
    else match firstBad n va fun a => r && k.sharedBad.contains (a / 8) with
      | some a => .error ⟨6, cUNC, a, [], 4⟩
      | none => .ok (.shared va)
  else if space = 2 then
    if va + n > h.constSize then .error ⟨2, cSPAD, va, [], 4⟩ else .ok (.const va)
  else
    match s.mapVa k.part k.ctx va with
    | none => .error ⟨2, cMISS, va, [], 4⟩
    | some (win, ia) =>
      if win.kind != 2 || (r && !win.canR) || (w && !win.canW) || !win.kindOk ia then .error ⟨3, cPERM, va, [], 4⟩
      else if !s.padNames ia n then .error ⟨4, cSPAD, va, [], 4⟩
      else match s.padSide k.part ia r w with
        | .ok key _ _ =>
          (match firstBad n key fun a => r && s.bad a with
           | some a => .error ⟨6, cUNC, va + (a - key), [], 4⟩
           | none => .ok (.pad ia key))
        | .deny kind => .error ⟨5, cPAGE, va, if kind = 5 then [(va, ia, 5)] else [], 4⟩
        | .wait _ => .error ⟨5, cPAGE, va, [], 4⟩

/-- One record for each page: that of its first access. -/
def pageRecords (l : List (Nat × Nat × Nat)) : List (Nat × Nat × Nat) :=
  l.foldl (fun m r => if m.any fun q => q.2.1 / 2 ^ 16 == r.2.1 / 2 ^ 16 then m else m ++ [r]) []

/-- The fault of the first kind that any lane has, of its lowest-numbered lane (R170); where that kind is a denial at the
memory side, with a record for each page that the partition filter denied to some lane (R330). -/
def firstFault {α : Type} (l : List (Except AccFault α)) : Option AccFault :=
  let worst := l.foldl (fun (m : Option AccFault) r => match r, m with
    | .ok _, m => m
    | .error f, none => some f
    | .error f, some g => if f.rank < g.rank then some f else some g) none
  worst.map fun f =>
    if f.rank = 5 then { f with records := pageRecords (l.flatMap fun r => match r with
      | .ok _ => []
      | .error g => g.records) } else f

/-- The trap of an access fault. -/
def AccFault.trap (f : AccFault) : Res := .trap f.cause (BitVec.ofNat 64 f.addr) { records := f.records, src := f.src }

/-! ## Outstanding results and SC operations -/

/-- A scoreboarded result (R18): its registers wait for the response with the number answered. -/
def Ctx.await (c : Ctx) (s : State) (rs : List Reg) (lanes : BitVec 32) : Nat × State :=
  let rs := rs.filter fun r => r != .s 0
  if lanes = 0 || rs.isEmpty then (0, s)
  else
    (s.nextId, { s.modGroup c.blk c.gid (fun g =>
      { g with pend := g.pend ++ rs.map fun r => ⟨s.nextId, r, lanes, 0, 0⟩ }) with nextId := s.nextId + 1 })

/-- A scalar result that the die has still to give (R18, R24): its register waits under a number of its own. -/
def Ctx.owe (c : Ctx) (s : State) (n : Nat) : Nat × State :=
  let id := s.nextId
  (id, { s.modGroup c.blk c.gid (fun g =>
    { g with pend := if n = 0 then g.pend else g.pend ++ [⟨id, .s n, 0xFFFFFFFF, id, 0⟩] }) with nextId := id + 1 })

/-- An SC operation takes its core's next timestamp (R318); other operations take none. A response raises the core's clock
before: which responses carry a timestamp is open, and in the model the newest one reaches every core that issues an SC
operation, so that the timestamps' order is that of the steps, and S agrees with happens-before (R319, log entry 23). -/
def Ctx.sc (c : Ctx) (s : State) : State :=
  if c.m.order ≠ 3 then s else s.stampSc c.g.core c.blk c.gid

/-! ## Split regions (R192, R193) -/

/-- Where a lane's data can come from (R192, R332): the issuing core's own slice, a 128-byte line of the quadrant's L2
slice, or only from farther away. -/
inductive HitBy where
  | own
  | line (n : Nat)
  | far
deriving DecidableEq, Repr

/-- Draw for each lane whether it hits (R332): a lane of the own core does; a lane of a line that the quadrant's L2 slice
may hold does when the line is there, one free value for each line (log entry 2); any other lane misses. `known` holds
the lines drawn so far. -/
def drawHits (known : Table Bool) : List (Nat × HitBy) → State → List Nat × State
  | [], s => ([], s)
  | (l, .own) :: r, s => let q := drawHits known r s; (l :: q.1, q.2)
  | (_, .far) :: r, s => drawHits known r s
  | (l, .line n) :: r, s =>
    match Table.find known n with
    | some hit => let q := drawHits known r s; (if hit then l :: q.1 else q.1, q.2)
    | none =>
      let q := drawHits (known.put n s.flip.1) r s.flip.2
      (if s.flip.1 then l :: q.1 else q.1, q.2)

/-- Where the data of an intermediate address can come from for a core (R332): a quadrant's slice holds the pad lines of its
own cores and the memory lines of its own addresses; a line that the state lists is there. -/
def hitBy (core ia : Nat) : HitBy :=
  if ia.testBit 51 then
    if ia / 2 ^ 19 % 512 == core then .own
    else if quadOf (ia / 2 ^ 19 % 512) == quadOf core then .line (ia / 128) else .far
  else if ia / 2 ^ 47 % 16 == quadOf core then .line (ia / 128) else .far

/-- The end of a splitting access at `pc`: in the part of a region before its split, the lanes with data divide (R192).
`acc` is the access's outstanding result, `lanes` its lanes with where their data can come from. Answers the state and
the next address if it is not the next word. -/
def State.splitAt (s : State) (b gid : Nat) (pc : U64) (acc : Nat) (lanes : List (Nat × HitBy)) : State × Option U64 :=
  match (s.group b gid).bind fun g => if g.handler then none else g.split with
  | none => (s, none)
  | some r =>
    if r.pass != .whole then (s, none)
    else
      let (hits, s) := drawHits (s.l2.map fun x => (x.1, true)) lanes s
      let hit := maskOf hits
      let miss := r.mask.getD 0 &&& ~~~hit
      let s := s.modGroup b gid fun g =>
        { g with
          split := some { r with hit := hit, miss := miss, after := pc + 4, acc := acc, pass := .hit }
          park := if hit = 0 && miss != 0 then .splitMiss else g.park }
      (s, if hit = 0 && miss = 0 then some (r.base + BitVec.ofNat 64 (4 * r.len)) else none)

/-- After an access to pad in a region, the split; after one to another space, nothing. -/
def Ctx.padSplit (c : Ctx) (s : State) (space acc : Nat) (l : List (Nat × Except AccFault Spot)) : Res :=
  if space ≠ 1 then .done s none
  else
    let (s, jump) := s.splitAt c.blk c.gid c.g.pc acc (l.filterMap fun p => match p.2 with
      | .ok (.pad ia _) => some (p.1, hitBy c.g.core ia)
      | _ => none)
    .done s jump

/-! ## Lane accesses -/

/-- The address of lane l: va.l + imm (R168). -/
def Ctx.laneAddr (c : Ctx) (l : Nat) : Nat := (c.g.getV c.n2 l + c.imm).toNat

/-- The checks of the given lanes. -/
def Ctx.laneChecks (c : Ctx) (s : State) (ls : List Nat) (space n : Nat) (r w : Bool) :
    List (Nat × Except AccFault Spot) :=
  ls.map fun l => (l, s.checkAcc c.k c.h space n (c.laneAddr l) r w)

/-- An access of a hit pass is performed after its issue (R194); its registers wait for it. -/
def Ctx.postpone (c : Ctx) (s : State) (kind : LateKind) (n : Nat) (rs : List Reg) (mask : BitVec 32)
    (lanes : List (Nat × Option Spot × U64 × U64)) : Res :=
  let id := s.nextId
  .done { s.modGroup c.blk c.gid (fun g =>
    { g with
      posted := g.posted ++ [⟨id, kind, n, c.n1, c.m.order == 3, lanes⟩]
      pend := g.pend ++ (if mask = 0 then [] else rs.map fun r => ⟨id, r, mask, id, 0⟩) }) with nextId := id + 1 } none

/-- LD (R168 to R170): an active helper lane receives its data too, and zero where its access would fault (R52). -/
def execLd (d a : BitVec 8) (x : BitVec 1) (p : BitVec 2) (z : BitVec 3) (s : State) : Outcome State Fault Refusal :=
  issue (.ld d a x p z) (fun c s =>
    let n := 2 ^ z.toNat
    match firstFault ((c.laneChecks s c.liveLanes p.toNat n true false).map Prod.snd) with
    | some f => f.trap
    | none =>
      let ch := c.laneChecks s c.lanes p.toNat n true false
      if c.g.postpones then
        c.postpone s (.ld (x == 1)) n ((List.range (if z = 4 then 2 else 1)).map fun k => .v (c.n1 + k)) c.mask
          (ch.map fun q => (q.1, q.2.toOption, 0, 0))
      else
      let data := ch.map fun q => (q.1, match q.2 with
        | .ok sp => s.spotRead c.blk sp n
        | .error _ => [])
      let s := data.foldl (fun s q =>
        s.modGroup c.blk c.gid fun g =>
          if z = 4 then (g.setV c.n1 q.1 (loadVal false (q.2.take 8))).setV (c.n1 + 1) q.1 (loadVal false (q.2.drop 8))
          else g.setV c.n1 q.1 (loadVal (x == 1) q.2)) s
      let (acc, s) := c.await (c.sc s) ((List.range (if z = 4 then 2 else 1)).map fun k => .v (c.n1 + k)) c.mask
      c.padSplit s p.toNat acc ch) s

/-- The lanes whose checks passed, with a payload. -/
def okLanes {α : Type} (l : List (Nat × Except AccFault Spot)) (f : Nat → α) : List (Nat × Spot × α) :=
  l.filterMap fun q => match q.2 with
    | .ok sp => some (q.1, sp, f q.1)
    | .error _ => none

/-- ST (R168 to R171). -/
def execSt (d a : BitVec 8) (p : BitVec 2) (z : BitVec 3) (s : State) : Outcome State Fault Refusal :=
  issue (.st d a p z) (fun c s =>
    let n := 2 ^ z.toNat
    let ch := c.laneChecks s c.liveLanes p.toNat n false true
    match firstFault (ch.map Prod.snd) with
    | some f => f.trap
    | none =>
      if c.g.postpones then
        c.postpone s .st n [] 0 ((okLanes ch fun l => (c.g.getV c.n1 l, c.g.getV (c.n1 + 1) l)).map fun q =>
          (q.1, some q.2.1, q.2.2))
      else
      let val (l : Nat) : List Byte :=
        if z = 4 then leBytes 8 (c.g.getV c.n1 l).toNat ++ leBytes 8 (c.g.getV (c.n1 + 1) l).toNat
        else leBytes n (c.g.getV c.n1 l).toNat
      let (ws, s0) := s.laneOrder c.blk n (okLanes ch val)
      let s := (ws.foldl (fun s q => s.spotWrite c.blk q.2.1 q.2.2) s0).spotsWritten s0 c.blk n (ws.map fun q => q.2.1)
      c.padSplit (c.sc s) p.toNat 0 ch) s

/-! ## Atomics (R172 to R176) -/

/-- ATOM (R172 to R176): lanes that meet are performed one at a time, in some order; an object that was armed before the first
of them ends in error whatever they write (R183). -/
def execAtom (d a : BitVec 8) (p r w : BitVec 1) (o : BitVec 4) (s : State) : Outcome State Fault Refusal :=
  issue (.atom d a p r w o) (fun c s =>
    let bits := if w = 1 then 64 else 32
    let ch := c.laneChecks s c.liveLanes p.toNat (bits / 8) true true
    match firstFault (ch.map Prod.snd) with
    | some f => f.trap
    | none =>
      if c.g.postpones then
        c.postpone s (.atom o.toNat (r == 1) c.flush) (bits / 8) (if r = 1 then [.v c.n1] else []) (c.mask &&& c.g.live)
          ((okLanes ch fun l => (c.g.getV c.n1 l, c.g.getV (c.n1 + 1) l)).map fun q => (q.1, some q.2.1, q.2.2))
      else
      let val (l : Nat) : Nat × Nat := ((c.g.getV c.n1 l).toNat, (c.g.getV (c.n1 + 1) l).toNat)
      let (ws, s0) := s.laneOrder c.blk (bits / 8) (okLanes ch val)
      let (s, wrote) := ws.foldl (fun a q =>
        let u := a.1.atom c.blk c.flush o.toNat bits q.2.1 q.2.2.1 q.2.2.2
        (if r = 1 then u.2.modGroup c.blk c.gid fun g => g.setV c.n1 q.1 (BitVec.ofNat 64 u.1) else u.2,
          if atomWrites o.toNat bits u.1 q.2.2.1 then q.2.1 :: a.2 else a.2)) (s0, ([] : List Spot))
      let (acc, s) := c.await (c.sc (s.atomsWritten s0 c.blk (bits / 8) wrote)) (if r = 1 then [.v c.n1] else []) (c.mask &&& c.g.live)
      c.padSplit s p.toNat acc ch) s

/-! ## Scalar accesses (R106 to R108) -/

/-- The address of a scalar access: sa + imm. -/
def Ctx.scalarAddr (c : Ctx) : Nat := (c.g.getS c.n2 + c.imm).toNat

/-- SLD (R106). -/
def execSld (d a : BitVec 8) (x : BitVec 1) (p : BitVec 2) (z : BitVec 3) (s : State) : Outcome State Fault Refusal :=
  issue (.sld d a x p z) (fun c s =>
    let n := 2 ^ z.toNat
    match s.checkAcc c.k c.h p.toNat n c.scalarAddr true false with
    | .error f => f.trap
    | .ok sp =>
      let bs := s.spotRead c.blk sp n
      let s := s.modGroup c.blk c.gid fun g =>
        if z = 4 then (g.setS c.n1 (loadVal false (bs.take 8))).setS (c.n1 + 1) (loadVal false (bs.drop 8))
        else g.setS c.n1 (loadVal (x == 1) bs)
      .done (c.await (c.sc s) ((List.range (if z = 4 then 2 else 1)).map fun k => .s (c.n1 + k)) 0xFFFFFFFF).2 none) s

/-- SST (R106). -/
def execSst (d a : BitVec 8) (p : BitVec 2) (z : BitVec 3) (s : State) : Outcome State Fault Refusal :=
  issue (.sst d a p z) (fun c s =>
    let n := 2 ^ z.toNat
    match s.checkAcc c.k c.h p.toNat n c.scalarAddr false true with
    | .error f => f.trap
    | .ok sp =>
      let bs := if z = 4 then leBytes 8 (c.g.getS c.n1).toNat ++ leBytes 8 (c.g.getS (c.n1 + 1)).toNat
        else leBytes n (c.g.getS c.n1).toNat
      .done (c.sc (s.spotWrite c.blk sp bs)) none) s

/-- SATOM (R107). -/
def execSatom (d a : BitVec 8) (p r w : BitVec 1) (o : BitVec 4) (s : State) : Outcome State Fault Refusal :=
  issue (.satom d a p r w o) (fun c s =>
    let bits := if w = 1 then 64 else 32
    match s.checkAcc c.k c.h p.toNat (bits / 8) c.scalarAddr true true with
    | .error f => f.trap
    | .ok sp =>
      let u := s.atom c.blk c.flush o.toNat bits sp (c.g.getS c.n1).toNat (c.g.getS (c.n1 + 1)).toNat
      let s := c.sc u.2
      if r = 1 then
        .done (c.await (s.modGroup c.blk c.gid fun g => g.setS c.n1 (BitVec.ofNat 64 u.1)) [.s c.n1] 0xFFFFFFFF).2 none
      else .done s none) s

/-! ## The spill stack (R177) -/

/-- LDK (R177). Poisoned stack state raises UNCORRECTABLE (R223). -/
def execLdk (d : BitVec 8) (k : BitVec 16) (s : State) : Outcome State Fault Refusal :=
  issue (.ldk d k) (fun c s =>
    if k.toNat ≥ c.h.stack then .trap cSTACK (k.setWidth 64)
    else if c.liveLanes.any fun l => c.k.stackBad.contains (c.gid, 32 * k.toNat + l) then .trap cUNC allOnes
    else
      let s := s.modGroup c.blk c.gid fun g => g.setVs c.n1 c.lanes fun l => c.g.stack.get (32 * k.toNat + l)
      .done (c.await s [.v c.n1] c.mask).2 none) s

/-- STK (R177): not performed in a helper lane (R52). -/
def execStk (d : BitVec 8) (k : BitVec 16) (s : State) : Outcome State Fault Refusal :=
  issue (.stk d k) (fun c s =>
    if k.toNat ≥ c.h.stack then .trap cSTACK (k.setWidth 64)
    else
      let keys := c.liveLanes.map fun l => 32 * k.toNat + l
      let s := s.modGroup c.blk c.gid fun g =>
        { g with stack := SMap.setMany g.stack (c.liveLanes.map fun l => (32 * k.toNat + l, c.g.getV c.n1 l)) }
      .done (s.modBlock c.blk fun b =>
        { b with stackBad := b.stackBad.filter fun e => !(e.1 == c.gid && keys.contains e.2) }) none) s

/-! ## FENCE and ICINV -/

/-- FENCE (R94): its orderings hold in every execution of the model (log entry 3); an SC fence takes a timestamp. -/
def execFence (s : State) : Outcome State Fault Refusal := issue .fence (fun c s => .done (c.sc s) none) s

/-- The pieces of a range of virtual addresses, each within the window that maps it: intermediate address and
length; or the first byte that no window maps (R96). A lower-numbered window that begins inside a piece ends it. -/
def State.pieces (s : State) (part ctx : Nat) : Nat → Nat → Nat → Except Nat (List (Nat × Nat))
  | 0, va, len => if len = 0 then .ok [] else .error va
  | n + 1, va, len =>
    if len = 0 then .ok []
    else match s.mapVa part ctx va with
      | none => .error va
      | some (w, ia) =>
        let stops := (List.range 16).filterMap fun j =>
          let v := s.window part ctx j
          if v.kind != 0 && va < v.base.toNat then some (v.base.toNat - va) else none
        let k := (w.base.toNat + w.limit.toNat - va) :: stops |>.foldl min len
        match s.pieces part ctx n (va + k) (len - k) with
        | .ok r => .ok ((ia, k) :: r)
        | .error a => .error a

/-- The pieces of a range; at most 64 boundaries lie within it. -/
def State.vaPieces (s : State) (part ctx va len : Nat) : Except Nat (List (Nat × Nat)) :=
  s.pieces part ctx 64 va len

/-- ICINV (R96): the group parks until every instruction cache of the partition has invalidated the lines. -/
def execIcinv (a b : BitVec 8) (s : State) : Outcome State Fault Refusal :=
  issue (.icinv a b) (fun c s =>
    match s.vaPieces c.k.part c.k.ctx (c.g.getS c.n1).toNat (c.g.getS c.n2).toNat with
    | .error va => .trap cMISS (BitVec.ofNat 64 va)
    | .ok [] => .done s none
    | .ok r => c.upd s fun g => { g with park := .icinv r }) s

/-- Whether an intermediate address lies in a 128-byte line that a range touches. -/
def lineHit (ia : Nat) (r : Nat × Nat) : Bool := r.1 / 128 ≤ ia / 128 && ia / 128 ≤ (r.1 + r.2 - 1) / 128

/-- Invalidate the lines of ranges in every instruction cache of a partition. -/
def State.dropLines (s : State) (part : Nat) (rs : List (Nat × Nat)) : State :=
  { s with cores := s.cores.mapVal fun c k =>
      if s.owns part (quadOf c) then { k with icache := k.icache.filter fun e => !rs.any (lineHit e.1) } else k }

/-- ICINV_ACKNOWLEDGED (R96). Arguments: block, group. -/
def execIcinvAcknowledged (s : State) : Outcome State Fault Refusal :=
  .next (match s.block (s.arg 0), s.resident (s.arg 0) (s.arg 1) with
    | some k, some g =>
      (match g.park with
       | .icinv r => (s.dropLines k.part r).modGroup (s.arg 0) (s.arg 1) Group.wake
       | _ => s)
    | _, _ => s)

/-! ## Responses and passes -/

/-- Part of an outstanding result arrives. -/
def Group.respond (g : Group) (id : Nat) (lanes : BitVec 32) : Group :=
  { g.settlePend ((g.pend.map fun e => if e.id = id && e.op = 0 then { e with lanes := e.lanes &&& ~~~lanes } else e).filter
      fun e => e.lanes != 0) with
    gather := g.gather.map fun r => if r.id = id then { r with done := true } else r }

/-- MEMORY_RESPONSE (R17, R18): data of an access arrive for some lanes. Arguments: block, group, number, lanes. -/
def execMemoryResponse (s : State) : Outcome State Fault Refusal :=
  .next (s.modGroup (s.arg 0) (s.arg 1) fun g => g.respond (s.arg 2) (BitVec.ofNat 32 (s.arg 3)))

/-- FIXED_LATENCY_RESULT_WRITE (R16, R33): the oldest fixed-latency result of a group that is still open is written;
every later read is of the new value. A word that is held to be issued again keeps its choices (R16). Arguments: block, group. -/
def execFixedLatencyResultWrite (s : State) : Outcome State Fault Refusal :=
  .next (s.modGroup (s.arg 0) (s.arg 1) fun g => if g.held.isSome then g else { g with early := g.early.drop 1 })

/-- The miss pass of a region begins once the data of its lanes have arrived (R193). -/
def Group.missPass (g : Group) : Group :=
  match g.park, g.split with
  | .splitMiss, some r =>
    if g.pend.any fun e => e.id == r.acc && (e.lanes &&& r.miss) != 0 then g
    else
      { g with
        park := .run
        pc := r.after
        bundle := Bundle.empty r.after
        early := []
        split := if r.after = r.base + BitVec.ofNat 64 (4 * r.len) then none else some { r with pass := .miss } }
  | _, _ => g

/-- SPLIT_MISS_PASS (R193). Arguments: block, group. -/
def execSplitMissPass (s : State) : Outcome State Fault Refusal :=
  .next (s.modGroup (s.arg 0) (s.arg 1) Group.missPass)

end Sys2Proof.Machine
end

