-- ==== Sys2Proof/Machine/Wait.lean ====
section
/-! DEFINITION. Barrier instructions, CSYNC, WAITC, and the ends of parks (R35, R85, R86, R178 to R189, R297 to R299). -/

namespace Sys2Proof.Machine

open Host (Outcome)

/-! ## Handles (R178) -/

/-- The place of a barrier object, or the first fault of its handle. -/
def State.handle (s : State) (k : Block) (h : Header) (v : U64) : Except AccFault BarLoc :=
  let top := v.toNat / 2 ^ 57
  let a := v.toNat % 2 ^ 57
  if top ≠ 0x40 && top ≠ 0x60 then .error ⟨0, cSPAD, v.toNat, [], 4⟩
  else match s.checkAcc k h (if top = 0x40 then 0 else 1) 16 a true true with
    | .error f => .error f
    | .ok (.shared off) => .ok (.shared 0 off)
    | .ok (.pad ia _) => .ok (.pad ia)
    | .ok (.const off) => .ok (.shared 0 off)

/-- The place, with its block. -/
def BarLoc.inBlock (l : BarLoc) (b : Nat) : BarLoc :=
  match l with
  | .shared _ o => .shared b o
  | l => l

/-- A barrier instruction's handle in field F3: its fault, or its effect on the object. -/
def Ctx.withBar (c : Ctx) (s : State) (reg : Nat) (f : BarLoc → Res) : Res :=
  match s.handle c.k c.h (c.g.getS reg) with
  | .error e => e.trap
  | .ok l => f (l.inBlock c.blk)

/-! ## Barrier instructions (R185, R186) -/

/-- BARINIT (R185): the handle stands in field F2. Bits [63:16] of sb are zero (R184). -/
def execBarinit (a b : BitVec 8) (s : State) : Outcome State Fault Refusal :=
  issue (.barinit a b) (fun c s =>
    let n := (c.g.getS c.n3).toNat
    if n ≥ 2 ^ 16 then c.illegal
    else c.withBar s c.n2 fun l => .done (s.barInit l n) none) s

/-- The result word of BARARR and of a test (R186). -/
def barWord (phase : Nat) (error done : Bool) : U64 :=
  BitVec.ofNat 64 (phase + (if error then 2 ^ 32 else 0) + (if done then 2 ^ 33 else 0))

/-- BARARR (R181, R186): the error after the arrival and the phase before it. -/
def execBararr (a b : BitVec 8) (s : State) : Outcome State Fault Refusal :=
  issue (.bararr a b) (fun c s => c.withBar s c.n3 fun l =>
    let (o, n, s) := s.arrive l true (sext 32 (c.g.getS c.n2).toNat)
    let s := s.modGroup c.blk c.gid fun g => g.setS c.n2 (barWord o.phase n.error false)
    .done (c.await s [.s c.n2] 0xFFFFFFFF).2 none) s

/-- The test of an object against a phase: whether it is done, and the result word (R186). -/
def BarObj.test (o : BarObj) (p : Nat) (reinit : Bool) : Bool × U64 :=
  let done := o.phase != p || o.error || reinit
  (done, barWord o.phase (o.error || reinit) done)

/-- The test found done: the failures of collectives that arrived on the object are observed (R436), and the result
is written. -/
def Ctx.barDone (c : Ctx) (s : State) (l : BarLoc) (v : U64) : Res :=
  match s.group c.blk c.gid with
  | none => .done s none
  | some g =>
    match observe g fun d => d.bar == some l with
    | (some (cause, info), g') => .trap cause info { seen := some (g'.deferred, g'.cmixcnt) }
    | (none, g') =>
      let s := s.modGroup c.blk c.gid fun _ => g'.setS c.n2 v
      .done (c.await s [.s c.n2] 0xFFFFFFFF).2 none

/-- BARWAIT (R186): parks unless the test finds done. -/
def execBarwait (a b : BitVec 8) (s : State) : Outcome State Fault Refusal :=
  issue (.barwait a b) (fun c s => c.withBar s c.n3 fun l =>
    let s := s.barTouch l
    let p := (c.g.getS c.n2).toNat % 2 ^ 32
    let (done, v) := (BarObj.of (s.barGet l)).test p false
    if done then c.barDone s l v
    else c.upd s fun g => { g with park := .barwait c.n2 l (BitVec.ofNat 32 p) false }) s

/-- BARTRY (R186): tests once. -/
def execBartry (a b : BitVec 8) (s : State) : Outcome State Fault Refusal :=
  issue (.bartry a b) (fun c s => c.withBar s c.n3 fun l =>
    let s := s.barTouch l
    let (done, v) := (BarObj.of (s.barGet l)).test ((c.g.getS c.n2).toNat % 2 ^ 32) false
    if done then c.barDone s l v
    else .done (c.await (s.modGroup c.blk c.gid fun g => g.setS c.n2 v) [.s c.n2] 0xFFFFFFFF).2 none) s

/-! ## The block's generation (R188, R298, R299) -/

/-- Whether a group stands at the block's current generation. -/
def Group.atGen (gen : Nat) (g : Group) : Bool :=
  match g.park with
  | .bsync n => n == gen
  | _ => false

/-- The last missing arrival advances the generation and wakes every parked group; a group that has exited has left
the block's table and counts as arrived. -/
def Block.genAdvance (k : Block) : Block :=
  if k.groups.all fun g => g.2.atGen k.gen then
    { k with gen := k.gen + 1, groups := k.groups.mapVal fun _ g => g.wake }
  else k

/-- A group arrives at the generation and parks. -/
def genBody (c : Ctx) (s : State) : Res :=
  .done ((s.modGroup c.blk c.gid fun g => { g with park := .bsync c.k.gen, early := [] }).modBlock c.blk
    Block.genAdvance) none

/-- BSYNC (R188): a block that spans cores raises ILLEGAL. -/
def execBsync (s : State) : Outcome State Fault Refusal :=
  issue .bsync (fun c s => if c.k.cores.length > 1 then c.illegal else genBody c s) s

/-- CSYNC (R297, R298). -/
def execCsync (s : State) : Outcome State Fault Refusal := issue .csync genBody s

/-! ## WAITC (R189) -/

/-- WAITC parks until the class's counter is at most n; it observes at its wake. -/
def execWaitc (c n : BitVec 8) (s : State) : Outcome State Fault Refusal :=
  issue (.waitc c n) (fun k s =>
    k.upd s fun g => { g with park := .waitc ((EngClass.ofCode c.toNat).getD .cp) n.toNat }) s

/-! ## Ends of parks -/

/-- A trap at the observing instruction, which has parked: TRAPPC names its bundle, and the resume register the word
after it (R88, R243). -/
def State.trapParked (s : State) (b gid : Nat) (g : Group) (cause : BitVec 8) (info : U64) : State :=
  (s.modGroup b gid fun _ =>
    { g with pc := g.parkAt, bundle := Bundle.empty g.parkPc, parkS := false }).trap b gid cause info

/-- A park ends with an observation of some deferred conditions (R243, R324). -/
def State.wakeSeeing (s : State) (b gid : Nat) (g : Group) (seen : Deferred → Bool) (f : Group → Group) : State :=
  match observe g seen with
  | (some (cause, info), g') => s.trapParked b gid g' cause info
  | (none, g') => s.modGroup b gid fun _ => f g'

/-- Deferred conditions of a class older than the n most recent operations (R211). -/
def Group.olderThan (g : Group) (c : EngClass) (n : Nat) (d : Deferred) : Bool :=
  d.cls == c && d.seq + n ≤ g.issued.get c

/-- SWITCH_PARK_WAKE (R35): every outstanding register result has been written. Arguments: block, group. -/
def execSwitchParkWake (s : State) : Outcome State Fault Refusal :=
  .next (match s.resident (s.arg 0) (s.arg 1) with
    | some g =>
      if g.park = .sMark && g.pend.isEmpty then
        s.modGroup (s.arg 0) (s.arg 1) fun g => { g with park := .run }
      else s
    | none => s)

/-- Whether the condition of a YIELD holds (R85). -/
def Group.yieldReady (g : Group) (cycle : U64) : Bool :=
  match g.park with
  | .yieldNow => true
  | .yieldReg r => g.pending (.s r) == 0
  | .yieldOc c n => g.oc.get c ≤ n
  | .yieldSleep t => t.toNat ≤ cycle.toNat
  | _ => false

/-- What the wake of a YIELD observes: the operations that a counter covers, or the operation of a register (R324). -/
def Group.yieldSees (g : Group) (d : Deferred) : Bool :=
  match g.park with
  | .yieldReg r => d.reg == some (.s r)
  | .yieldOc c n => g.olderThan c n d
  | _ => false

/-- YIELD_WAKE (R85, R86). Arguments: block, group. -/
def execYieldWake (s : State) : Outcome State Fault Refusal :=
  .next (match s.resident (s.arg 0) (s.arg 1) with
    | some g =>
      if g.yieldReady s.cycle then
        s.wakeSeeing (s.arg 0) (s.arg 1) g g.yieldSees fun g => { g with park := .run }
      else s
    | none => s)

/-- WAITC_WAKE (R189). Arguments: block, group. -/
def execWaitcWake (s : State) : Outcome State Fault Refusal :=
  .next (match s.resident (s.arg 0) (s.arg 1) with
    | some g =>
      (match g.park with
       | .waitc c n =>
         if g.oc.get c ≤ n then s.wakeSeeing (s.arg 0) (s.arg 1) g (g.olderThan c n) Group.wake else s
       | _ => s)
    | none => s)

/-- BARWAIT_WAKE (R186): the object is tested; done ends the park and writes sd. Arguments: block, group. -/
def execBarwaitWake (s : State) : Outcome State Fault Refusal :=
  .next (match s.resident (s.arg 0) (s.arg 1) with
    | some g =>
      (match g.park with
       | .barwait sd l p re =>
         let (done, v) := (BarObj.of (s.barGet l)).test p.toNat re
         if done then
           s.wakeSeeing (s.arg 0) (s.arg 1) g (fun d => d.bar == some l) fun g => (g.setS sd v).wake
         else s
       | _ => s)
    | none => s)

end Sys2Proof.Machine
end

