-- ==== Sys2Proof/Machine/Collect.lean ====
section
/-! DEFINITION. What the copy engine and the fabric share: fields and element sizes, the descriptors of collectives (R427,
R428), the messages between members, and the failure of a collective (R423, R435, R436). -/

namespace Sys2Proof.Machine

open Host (Outcome)

/-- A 4-bit type. -/
def four (t : Nat) : Bool := typeWidth t == 4

/-- The bytes that an element of a type occupies or shares. -/
def elemSize (t : Nat) : Nat := max 1 (typeWidth t / 8)

/-! ## Descriptors (R427, R428) -/

/-- A COLL descriptor. -/
structure CollDesc where
  handle : Nat
  op     : Nat
  red    : Nat
  root   : Nat
  ty     : Nat
  n      : Nat
  src    : Nat
  dst    : Nat
  base   : Nat
  queue  : Nat
deriving DecidableEq, Repr

/-- The fields of a run of 8 registers. -/
def CollDesc.of (d : List U64) : CollDesc :=
  let f (k lo n : Nat) : Nat := bitsOf (d.getD k 0).toNat lo n
  ⟨f 0 0 3, f 1 0 3, f 1 4 2, f 1 8 8, f 2 0 5, f 3 0 32, f 4 0 64, f 5 0 64, f 6 0 32, f 7 0 7⟩

/-- A nonzero field marked zero, or a reserved value (R427). -/
def collReserved (d : List U64) : Bool :=
  let y := CollDesc.of d
  let v (k lo : Nat) : Bool := (d.getD k 0).toNat / 2 ^ lo != 0
  v 0 3 || v 1 16 || bitsOf (d.getD 1 0).toNat 6 2 != 0 || bitsOf (d.getD 1 0).toNat 3 1 != 0 || v 2 5 || v 3 32
    || v 6 32 || v 7 7 || y.op > 4 || y.red = 3 || (y.red != 0 && y.op != 0 && y.op != 2) || (y.root != 0 && y.op != 3)
    || y.queue > 64 || !tALL.contains y.ty

/-- Whether the op reduces. -/
def CollDesc.reduces (y : CollDesc) : Bool := y.op == 0 || y.op == 2

/-- Bytes of one block of elements. -/
def CollDesc.blockBytes (y : CollDesc) : Nat := y.n * elemSize y.ty

/-- Bytes of the source, with `p` members. -/
def CollDesc.srcBytes (y : CollDesc) (p : Nat) : Nat := (if y.op = 2 || y.op = 4 then p else 1) * y.blockBytes

/-- Bytes of the destination. -/
def CollDesc.dstBytes (y : CollDesc) (p : Nat) : Nat := (if y.op = 1 || y.op = 4 then p else 1) * y.blockBytes

/-- Whether the op accepts the type; without an open communicator the contract excludes nothing (R428, R429). -/
def CollDesc.typeOk (y : CollDesc) (contract : Option Nat) : Bool :=
  if !y.reduces then typeWidth y.ty ≥ 8
  else if y.red ≠ 0 then typeWidth y.ty ≠ 4
  else ([0x11, 0x12, 0x13, 2, 6] : List Nat).contains y.ty
    || (([0x14, 0x15] : List Nat).contains y.ty && (contract.map fun c => contractAllows c y.ty).getD true)

/-- The footprints overlap, and are not the identical ones of an all-reduce or a broadcast (R429). -/
def CollDesc.overlaps (y : CollDesc) (p : Nat) : Bool :=
  y.src < y.dst + y.dstBytes p && y.dst < y.src + y.srcBytes p && !(y.src == y.dst && (y.op == 0 || y.op == 3))

/-- The key of a communicator. -/
def commKey (part handle : Nat) : Nat := part * 8 + handle

/-- A communicator in state 2. -/
def State.openComm (s : State) (key : Nat) : Option Comm := (s.comms.find key).filter fun c => c.state == 2

/-- The destination bytes of a collective. -/
def State.collBytes (s : State) (k : Collective) : Nat :=
  (CollDesc.of k.desc).dstBytes (((s.comms.find k.comm).map Comm.count).getD 1)

/-! ## Messages between members (R423, R435, R436) -/

/-- A message to another member of a communicator: its rank, its entry in the member table, and the message. -/
def State.tell (s : State) (k : Comm) (bytes : List Byte) : State :=
  { s with outbox := s.outbox ++ (((List.range k.members.length).zip k.members).filter fun m => m.1 != k.rank).map fun m =>
      ⟨6, m.1, m.2.toNat, bytes⟩ }

/-- The message that describes a collective, or tells its failure: sequence number, kind (0 description, 1 failure), then
op, reduction, type, n and root, or the reason. -/
def collMsg (seq : BitVec 32) (kind : Nat) (rest : List Nat) : List Byte :=
  leBytes 4 seq.toNat ++ leBytes 1 kind ++ rest.flatMap fun x => leBytes 4 x

/-- The description of a collective that members compare (R435). -/
def CollDesc.compared (y : CollDesc) : List Nat := [y.op, y.red, y.ty, y.n, y.root]

/-- This member detects a failure of a collective: it fails with the reason, the communicator enters state 3, its other
running collectives fail with reason 2, and the members are told (R436). -/
def State.collDetect (s : State) (id reason : Nat) (tell : Bool) : State :=
  match s.colls.find id with
  | none => s
  | some k =>
    let s := (s.collFail id reason).commFail k.comm 2
    match s.comms.find k.comm with
    | some c => if tell then s.tell c (collMsg k.seq 1 [reason]) else s
    | none => s

/-- The source bytes of a collective. -/
def State.collSource (s : State) (k : Collective) : Nat :=
  (CollDesc.of k.desc).srcBytes (((s.comms.find k.comm).map Comm.count).getD 1)

/-- A page of this member's source or destination is denied while its collective runs: reason 4 (R436). -/
def State.collDenied (s : State) (part ia : Nat) : State :=
  (s.colls.filter fun x =>
    let k := x.2
    k.part == part && k.begun && k.failed.isNone
      && ((k.src ≤ ia && ia < k.src + s.collSource k) || (k.dst ≤ ia && ia < k.dst + s.collBytes k))).foldl
    (fun s x => s.collDetect x.1 4 true) s

end Sys2Proof.Machine
end

