-- ==== Sys2Proof/Machine/Copy.lean ====
section
/-! DEFINITION. The copy engine: tensor copies with their segments (R225 to R241), lane copies with their verdicts and
replay (R196 to R199, R242), signalling (R211), cancellation (R244). The peer copies of R433 are the same operations. -/

namespace Sys2Proof.Machine

open Host (Outcome)

/-! ## Descriptors (R226 to R228) -/

/-- Rounding mode. -/
def Copy.rnd (c : Copy) : Nat := bitsOf c.ctl.toNat 13 3
/-- Saturating conversion. -/
def Copy.sat (c : Copy) : Bool := c.ctl.getLsbD 16
/-- Whether source elements are folded into AMAX. -/
def Copy.amax (c : Copy) : Bool := c.ctl.getLsbD 17
/-- Whether faulting segments are fixed up. -/
def Copy.fixup (c : Copy) : Bool := c.ctl.getLsbD 19
/-- CPRED's op, or the receiving cores of a CPM. -/
def Copy.op (c : Copy) : Nat := bitsOf c.ctl.toNat 32 4
/-- The receiving cores of a CPM, as positions in the cluster. -/
def Copy.cores (c : Copy) : List Nat := (List.range 8).filter fun k => c.ctl.getLsbD (32 + k)

/-- Every index tuple, dimension 0 innermost. -/
def tuples (ext : List Nat) : List (List Nat) :=
  match ext with
  | [] => [[]]
  | e :: r => (tuples r).flatMap fun t => (List.range e).map fun i => i :: t

/-- The offset of an element from its side's base; on a 4-bit side dimension 0 is packed (R65, R229). -/
def sideOff (packed : Bool) (idx : List Nat) (str : List Int) : Int :=
  match idx, str with
  | i :: is, s :: ss =>
    (if packed then ((i / 2 : Nat) : Int) else i * s) + ((is.zip ss).map fun p => (p.1 : Int) * p.2).foldl (· + ·) 0
  | _, _ => 0

/-- The lowest and the highest offset of a footprint's elements. -/
def sideSpan (packed : Bool) (ext : List Nat) (str : List Int) : Int × Int :=
  let d := ((List.range ext.length).zip (ext.zip str)).map fun p =>
    if packed && p.1 == 0 then (((p.2.1 - 1) / 2 : Nat) : Int) else ((p.2.1 - 1 : Nat) : Int) * p.2.2
  (d.foldl (fun a x => a + min x 0) 0, d.foldl (fun a x => a + max x 0) 0)

/-- The planned bytes of a copy (R232). -/
def plannedBytes (ext : List Nat) (t dests : Nat) : Nat := ext.foldl (· * ·) 1 * typeWidth t / 8 * dests

/-! ## Checks at issue (R229) -/

/-- MISALIGN of a side (R229, step 4). -/
def sideAlign (addr : U64) (t : Nat) (str : List Int) : Option U64 :=
  let n : Int := elemSize t
  if (addr.toNat : Int) % n ≠ 0 then some addr
  else
    (((List.range str.length).zip str).find? fun p => !(four t && p.1 == 0) && p.2 % n != 0).map fun p =>
      addr + ofInt64 p.2

/-- Where a side's base lies and the faults of its footprint, each with TRAPINFO (R229, steps 5 to 7). `empty` copies
have no footprint. -/
structure SideRes where
  bound : Option U64 := none
  miss  : Option U64 := none
  perm  : Option U64 := none
  loc   : Loc := .shared 0 0

/-- The footprint checks of one side: `kinds` are the window kinds it accepts, none of them meaning that shared memory
is refused too. -/
def State.sideCheck (s : State) (k : Block) (h : Header) (blk : Nat) (addr : U64) (span : Int × Int) (size : Nat)
    (empty w : Bool) (kinds : List Nat) (shared : Bool) : SideRes :=
  let top := addr.toNat / 2 ^ 57
  let a : Int := addr.toNat % 2 ^ 57
  let lo := a + span.1
  let hi := a + span.2 + size
  if top = 0x40 then
    if !shared then { perm := some addr }
    else if !empty && (lo < 0 || hi > h.sharedBound) then { bound := some addr }
    else { loc := .shared blk a.toNat }
  else if top ≠ 0 then { bound := some addr }
  else if empty then {}
  else if lo < 0 then { miss := some (ofInt64 lo) }
  else match s.mapVa k.part k.ctx lo.toNat with
    | none => { miss := some (ofInt64 lo) }
    | some (win, ia) =>
      match win.beyond lo.toNat (hi - lo).toNat with
      | some e => { miss := some (BitVec.ofNat 64 e) }
      | none =>
        if !kinds.contains win.kind || !(if w then win.canW else win.canR) || !win.kindOk ia then
          { perm := some (ofInt64 lo) }
        else { loc := .ia ((ia + (a - lo).toNat) % 2 ^ 52) }

/-- Fields that must hold zero, reserved values and the other grounds of step 2. -/
def ctlBad (kind : CopyKind) (v : Nat) (handle : U64) (e0 : Nat) (fresh : Bool) : Bool :=
  let st := bitsOf v 0 5
  let dt := bitsOf v 8 5
  let td := if dt = 0x1F then st else dt
  bitsOf v 20 12 != 0
  || (kind != .rred && (bitsOf v 40 4 != 0 || bitsOf v 56 8 != 0))
  || (kind != .rred && kind != .cpm && bitsOf v 44 12 != 0)
  || (match kind with
      | .rred => false
      | .cpm => bitsOf v 32 8 == 0 || bitsOf v 48 8 > 63 || (fresh && bitsOf v 48 8 == 0)
      | .cpred => bitsOf v 36 4 != 0 || bitsOf v 32 4 ≥ 8 || four td
      | _ => bitsOf v 32 8 != 0)
  || bitsOf v 13 3 ≥ 5
  || !tALL.contains st
  || (dt != 0x1F && !tALL.contains dt)
  || (v.testBit 18 && handle == 0)
  || ((four st || four td) && e0 % 2 == 1)

/-- The types of CPRED's ops (R235). -/
def redTypes (op : Nat) : List Nat :=
  if op ≤ 3 then tINT else if op ≤ 6 then tFA else [6, 7]

/-- The type that step 3 refuses. -/
def typeBad (kind : CopyKind) (v : Nat) : Option Nat :=
  let st := bitsOf v 0 5
  let dt := bitsOf v 8 5
  if st = 0x16 || st = 0x17 then some st
  else if dt = 0x16 || dt = 0x17 then some dt
  else
    let t := if dt = 0x1F then st else dt
    if kind = .cpred && !(redTypes (bitsOf v 32 4)).contains t then some t else none

/-- The window kinds of source and destination (R229, R433). -/
def sideKinds (kind : CopyKind) : List Nat × List Nat :=
  match kind with
  | .cpm => ([1, 2, 3], [2])
  | .rld => ([4], [1, 2, 3])
  | .rst | .rred => ([1, 2, 3], [4])
  | _ => ([1, 2, 3], [1, 2, 3])

/-- The counter class of a tensor copy (R210). -/
def CopyKind.cls (k : CopyKind) : EngClass :=
  match k with
  | .rld | .rst | .rred => .cl
  | _ => .cp

/-! ## Launching an engine operation (R210, R211) -/

/-- An operation begins: it takes the next number of its class, the class counter rises, and its status register waits
for it. -/
def Ctx.launch (c : Ctx) (s : State) (cls : EngClass) (status : Option Nat) (bar : Option BarLoc) (planned : Nat)
    (kind : OpKind) (todo : List Nat) (code : Nat) (fin : Bool) : State :=
  let id := s.nextId
  let seq := c.g.issued.get cls + 1
  let o : EngOp := ⟨c.blk, c.gid, cls, seq, status, kind, bar, planned, todo, [], 0, [], 0, code, 0, false, fin, none, []⟩
  let s := s.modGroup c.blk c.gid fun g =>
    { g with
      oc := g.oc.set cls (g.oc.get cls + 1)
      issued := g.issued.set cls seq
      pend := match status with
        | some r => g.pend ++ [⟨id, .s r, 0xFFFFFFFF, id, 0⟩]
        | none => g.pend }
  { s with ops := s.ops.put id o, nextId := id + 1 }

/-- The status register that a field names; s0 names none (R225). -/
def statusReg (n : Nat) : Option Nat := if n = 0 then none else some n

/-- The producer's right (R208). -/
def Ctx.producer (c : Ctx) : Bool := c.gid == c.h.producer

/-! ## Multicast channels (R240) -/

/-- The counters of a channel, those of the cores in a mask set to `slots` where it is new. -/
def Block.channel (k : Block) (ch slots : Nat) (cores : List Nat) : Table (Nat × Nat) :=
  (k.channels.find ch).getD (cores.map fun c => (c, (slots, slots)))

/-- A CPM takes a slot from each core of its mask. -/
def takeSlots (t : Table (Nat × Nat)) (cores : List Nat) : Table (Nat × Nat) :=
  t.mapVal fun c v => if cores.contains c then (v.1 - 1, v.2) else v

/-! ## Issue of tensor copies -/

/-- Distinct members of a list, in order of first appearance. -/
def distinct (l : List Nat) : List Nat := l.foldl (fun r x => if r.contains x then r else r ++ [x]) []

/-- The 4 KiB block of the destination address in which an element starts (R233). -/
def Copy.blockOf (c : Copy) (idx : List Nat) : Nat :=
  (((c.dstVa.toNat % 2 ^ 57 : Nat) : Int) + sideOff (four c.dt) idx c.dstr).toNat / 4096

/-- The segments of a copy. -/
def Copy.segments (c : Copy) : List Nat := distinct ((tuples c.ext).map c.blockOf)

/-- The operation of a checked descriptor. A CPM finds a free slot in each core of its mask: without one it has not been
admitted (R201, R240). -/
def Ctx.startCopy (c : Ctx) (s : State) (y : Copy) (bar : Option BarLoc) : Res :=
  let dests := if y.kind = .cpm then y.cores.length else 1
  let planned := plannedBytes y.ext y.dt dests
  let empty := y.ext.contains 0
  let huge := planned ≥ 2 ^ 40
  let ch := bitsOf y.ctl.toNat 44 4
  let go (s : State) (refused : Bool) : Res :=
    .done (c.launch s y.kind.cls (statusReg c.n2) bar planned (.copy y)
      (if empty || huge || refused then [] else y.segments)
      (if refused || (huge && !empty) then 3 else 0) (empty || huge || refused)) none
  if y.kind ≠ .cpm then go s false
  else if s.channelTaken y.cluster ch c.blk then go s true
  else
    let t := c.k.channel ch (bitsOf y.ctl.toNat 48 8) y.cores
    go (s.modBlock c.blk fun b => { b with channels := b.channels.put ch (takeSlots t y.cores) }) false

/-- The issue of a tensor copy: the checks of R229 in order, then the operation. -/
def copyBody (kind : CopyKind) (c : Ctx) (s : State) : Res :=
  let d (k : Nat) : U64 := c.g.getS (c.n3 + k)
  let v := (d 2).toNat
  let n := bitsOf v 5 3 + 1
  let ext := (List.range n).map fun k => bitsOf (d (4 + k / 2)).toNat (32 * (k % 2)) 32
  let strides (b : Nat) : List Int := (List.range n).map fun k => (d (b + k)).toInt
  let fresh := (c.k.channels.find (bitsOf v 44 4)).isNone
    && !s.channelTaken (clusterOf c.g.core) (bitsOf v 44 4) c.blk
  if !c.producer then .trap cROLE 0
  else if ctlBad kind v (d 3) (ext.headD 0) fresh then c.illegal
  else match typeBad kind v with
  | some t => .trap cTYPE (BitVec.ofNat 64 t)
  | none =>
  let st := bitsOf v 0 5
  let td := if bitsOf v 8 5 = 0x1F then st else bitsOf v 8 5
  match sideAlign (d 0) st (strides 8) with
  | some a => .trap cALIGN a
  | none =>
  match sideAlign (d 1) td (strides 16) with
  | some a => .trap cALIGN a
  | none =>
  let empty := ext.contains 0
  let kinds := sideKinds kind
  let a := s.sideCheck c.k c.h c.blk (d 0) (sideSpan (four st) ext (strides 8)) (elemSize st) empty false kinds.1
    (kind != .rld)
  let b := s.sideCheck c.k c.h c.blk (d 1) (sideSpan (four td) ext (strides 16)) (elemSize td) empty true kinds.2
    (kind != .cpm && kind != .rst && kind != .rred)
  match a.bound <|> b.bound with
  | some x => .trap cSPAD x
  | none =>
  match a.miss <|> b.miss with
  | some x => .trap cMISS x
  | none =>
  match a.perm <|> b.perm with
  | some x => .trap cPERM x
  | none =>
  let y : Copy := ⟨kind, d 2, ext, d 0, a.loc, strides 8, d 1, b.loc, strides 16, clusterOf c.g.core⟩
  if (d 2).getLsbD 18 then
    match s.handle c.k c.h (d 3) with
    | .error e => e.trap
    | .ok l => c.startCopy s y (some (l.inBlock c.blk))
  else c.startCopy s y none

/-- CPT (R225 to R234). -/
def execCpt (a b : BitVec 8) (s : State) : Outcome State Fault Refusal := issue (.cpt a b) (copyBody .cpt) s

/-- CPM (R240). -/
def execCpm (a b : BitVec 8) (s : State) : Outcome State Fault Refusal := issue (.cpm a b) (copyBody .cpm) s

/-- CPRED (R235). -/
def execCpred (a b : BitVec 8) (s : State) : Outcome State Fault Refusal := issue (.cpred a b) (copyBody .cpred) s

/-- RLD (R433). -/
def execRld (d b : BitVec 8) (s : State) : Outcome State Fault Refusal := issue (.rld d b) (copyBody .rld) s

/-- RST (R433). -/
def execRst (d b : BitVec 8) (s : State) : Outcome State Fault Refusal := issue (.rst d b) (copyBody .rst) s

/-- RRED (R433). -/
def execRred (d b : BitVec 8) (s : State) : Outcome State Fault Refusal := issue (.rred d b) (copyBody .rred) s

/-- SLOTRET (R241). It reaches the counters of resident blocks alone: slots that it returns to a channel whose block is pre-empted
are lost, where the spec does not say what becomes of them (DESIGN CHOICE, log entry 59). -/
def execSlotret (a b : BitVec 8) (s : State) : Outcome State Fault Refusal :=
  issue (.slotret a b) (fun c s =>
    let ch := (c.g.getS c.n2).toNat
    let n := (c.g.getS c.n3).toNat
    if ch ≥ 16 || n ≥ 64 then c.illegal
    else
      let mine (b : Block) : Bool := b.st == .resident && b.cores.any fun k => clusterOf k == clusterOf c.g.core
      let give (b : Block) : Block :=
        { b with channels := b.channels.adj ch fun t => t.adj (c.g.core % 8) fun v => (min v.2 (v.1 + n), v.2) }
      .done { s with blocks := s.blocks.mapVal fun _ b => if mine b then give b else b } none) s

/-- CPCAN (R244): the group's copies that have written no segment end with code 3. -/
def execCpcan (s : State) : Outcome State Fault Refusal :=
  issue .cpcan (fun c s =>
    if !c.producer then .trap cROLE 0
    else
      .done { s with ops := s.ops.mapVal fun _ o =>
        if o.blk = c.blk && o.gid = c.gid && o.cls = .cp && !o.started && !o.finished then
          { o with todo := [], fixups := [], waiting := [], finished := true, code := 3 }
        else o } none) s

/-! ## One element -/

/-- Bytes that an engine reads, and whether they are poisoned (R239). -/
def State.tgtRead (s : State) (t : Tgt) (n : Nat) : List Byte × Bool × State :=
  match t with
  | .shared b off =>
    (match s.block b with
     | some k => (k.bytes off n, (List.range n).any fun i => k.sharedBad.contains ((off + i) / 8), s)
     | none => ([], false, s))
  | .key k _ _ => s.load k n
  | _ => ([], false, s)

/-- Poison a unit of a block's shared memory. -/
def State.spoilShared (s : State) (b u : Nat) : State :=
  s.modBlock b fun k => if k.sharedBad.contains u then k else { k with sharedBad := u :: k.sharedBad }

/-- An engine writes bytes; the first write of a page sets DIRTY wherever its home is (R183, R341, R420), and an L2 line that
holds them is dirty (R333). -/
def State.tgtWrite (s : State) (part : Nat) (t : Tgt) (bs : List Byte) : State :=
  match t with
  | .shared b off => s.ordShared b ((List.range bs.length).zip bs |>.map fun q => (off + q.1, q.2))
  | .key k _ d =>
    if k ≥ peerBase then (s.toPeer 1 0 part (k - peerBase) bs).setDirty d
    else ((s.ordCells ((List.range bs.length).zip bs |>.map fun q => (k + q.1, q.2))).setDirty d).touch k bs.length
  | _ => s

/-- An engine writes a poisoned word (R239); it is an ordinary write of its bytes too (R183). -/
def State.tgtSpoil (s : State) (part : Nat) (t : Tgt) (n : Nat) : State :=
  match t with
  | .shared b off =>
    ((List.range n).foldl (fun s i => s.spoilShared b ((off + i) / 8)) s).sharedErrors s b
      ((List.range n).map fun i => off + i)
  | .key k _ d =>
    if k ≥ peerBase then (s.toPeer 2 n part (k - peerBase) []).setDirty d
    else (((s.spoil k).padErrors s ((List.range n).map fun i => k + i)).setDirty d).touch k n
  | _ => s

/-- The half bytes that an element of `n` bytes at a byte takes; one of a 4-bit type takes one half. -/
def halvesOf (n at_ : Nat) (half : Option Nat) : List Nat :=
  match half with
  | some h => [2 * at_ + h]
  | none => (List.range (2 * n)).map fun i => 2 * at_ + i

/-- The writes of one engine operation count together (R412): a granule or a word that its good elements cover whole, and
that takes no poisoned one, is clean. Each element comes with its place, its half of a byte if it has 4 bits, and whether
it is poisoned. -/
def State.mend (s : State) (n : Nat) (ms : List (Tgt × Option Nat × Bool)) : State :=
  let keys (bad : Bool) : List Nat := (ms.filter fun m => m.2.2 == bad).flatMap fun m =>
    match m.1 with
    | .key k _ _ => halvesOf n k m.2.1
    | _ => []
  let offs (b : Nat) (bad : Bool) : List Nat := (ms.filter fun m => m.2.2 == bad).flatMap fun m =>
    match m.1 with
    | .shared x o => if x = b then halvesOf n o m.2.1 else []
    | _ => []
  let whole (good bad : List Nat) (at_ len : Nat) : Bool :=
    (List.range (2 * len)).all fun i => good.contains (2 * at_ + i) && !bad.contains (2 * at_ + i)
  { s with
    memBad := s.memBad.filter fun g => !whole (keys false) (keys true) g (granule g).2
    blocks := s.blocks.mapVal fun b k =>
      { k with sharedBad := k.sharedBad.filter fun u => !whole (offs b false) (offs b true) (8 * u) 8 } }

/-- CPRED's combination of a converted element with its destination (R235). -/
def redElem (flush : Bool) (op t o v : Nat) : Nat :=
  let w := typeWidth t
  match op with
  | 0 => wrapInt w (intVal t o + intVal t v)
  | 1 => wrapInt w (satInt t (intVal t o + intVal t v))
  | 2 => if intVal t v < intVal t o then v else o
  | 3 => if intVal t o < intVal t v then v else o
  | 4 => fpAdd flush t 0 false o v
  | 5 => fMinMax (fmtOf t) false o v
  | 6 => fMinMax (fmtOf t) true o v
  | _ => max o v

/-- One element of a segment: its index, its source and its destinations with the core's position. -/
structure Elem where
  idx : List Nat
  src : Tgt
  sVa : U64
  sIa : Nat
  dst : List (Nat × Tgt × Nat)       -- destination, verdict, intermediate address
  dVa : U64

/-- A location further on. -/
def Loc.plus (l : Loc) (d : Int) : Loc :=
  match l with
  | .shared b o => .shared b (o + d).toNat
  | .ia a => .ia (((a : Int) + d) % 2 ^ 52).toNat

/-- The intermediate address of a location; 0 for shared memory. -/
def Loc.addr (l : Loc) : Nat :=
  match l with
  | .shared _ _ => 0
  | .ia a => a

/-- The offset in the die-visible region of a CPM's receiving core that has the slice offset of a pad offset in the lowest
core of the mask (R207, R240). -/
def State.padShift (s : State) (c : Copy) (k off : Nat) : Int :=
  off + 4096 * (s.core (8 * c.cluster + k)).dvsize - 4096 * (s.core (8 * c.cluster + c.cores.headD 0)).dvsize

/-- The destinations of an element: one, or the same slice offset in every core of a CPM's mask (R240). -/
def State.dests (s : State) (c : Copy) (l : Loc) : List (Nat × Loc) :=
  if c.kind ≠ .cpm then [(0, l)]
  else c.cores.map fun k =>
    (k, .ia (2 ^ 51 + (8 * c.cluster + k) * 2 ^ 19 + (s.padShift c k (l.addr % 2 ^ 19) % 2 ^ 19).toNat))

/-- Whether the die-visible region of a CPM's receiving core covers the whole footprint (R300). -/
def State.covered (s : State) (c : Copy) (k : Nat) : Bool :=
  let span := sideSpan (four c.dt) c.ext c.dstr
  let o := s.padShift c k (c.dst.addr % 2 ^ 19)
  c.kind != .cpm || (decide (0 ≤ o + span.1)
    && decide (o + span.2 + elemSize c.dt ≤ 4096 * (s.core (8 * c.cluster + k)).dvsize))

/-- The verdicts of one element on both sides (R233). -/
def State.probe (s : State) (part : Nat) (c : Copy) (idx : List Nat) : Elem × State :=
  let so := sideOff (four c.st) idx c.sst
  let dof := sideOff (four c.dt) idx c.dstr
  let (t, s) := s.target part (c.src.plus so) (elemSize c.st) true false
  let (ds, s) := (s.dests c (c.dst.plus dof)).foldl (fun r k =>
    let q := if r.2.covered c k.1 then r.2.target part k.2 (elemSize c.dt) (c.kind == .cpred) true
      else (.deny 4 false, r.2)
    (r.1 ++ [(k.1, q.1, k.2.addr)], q.2)) (([] : List (Nat × Tgt × Nat)), s)
  (⟨idx, t, c.srcVa + ofInt64 so, (c.src.plus so).addr, ds, c.dstVa + ofInt64 dof⟩, s)

/-- The intermediate addresses of memory, 64 KiB apart, that a segment's elements touch. -/
def State.segPages (s : State) (c : Copy) (idxs : List (List Nat)) : List Nat :=
  ((idxs.flatMap fun i => (c.src.plus (sideOff (four c.st) i c.sst))
      :: (s.dests c (c.dst.plus (sideOff (four c.dt) i c.dstr))).map Prod.snd).filterMap fun l =>
    match l with
    | .shared _ _ => none
    | .ia a => if a.testBit 51 then none else some (a / 2 ^ 16 * 2 ^ 16)).eraseDups

/-- Whether the MTU holds an entry of a page that is no longer what stands in memory. -/
def State.pageOld (s : State) (ia : Nat) : Bool :=
  [false, true].any fun leaf =>
    match (s.quad (ia / 2 ^ 47 % 16)).cached.find (mtuKey ia leaf) with
    | some e => Memory.num s.mem e.1 8 != e.2.toNat
    | none => false

/-- A segment uses the old or the new entry for all of its pages (R343): where the MTU holds a changed entry for some of them
only, the model lets it read the entries of all of them anew (DESIGN CHOICE, log entry 32). -/
def State.oneEntry (s : State) (pages : List Nat) : State :=
  if pages.any s.pageOld && !pages.all s.pageOld then
    { s with quads := s.quads.mapVal fun _ q =>
        { q with cached := q.cached.filter fun e => !pages.any fun ia => e.1 == mtuKey ia false || e.1 == mtuKey ia true } }
  else s

/-- The verdicts of a segment's elements. -/
def State.probes (s : State) (part : Nat) (c : Copy) : List (List Nat) → List Elem × State
  | [] => ([], s)
  | i :: r =>
    let (e, s) := s.probe part c i
    let (es, s) := s.probes part c r
    (e :: es, s)

/-- A segment is translated once (R233, R343). -/
def State.segment (s : State) (part : Nat) (c : Copy) (seg : Nat) : List Elem × State :=
  let idxs := (tuples c.ext).filter fun i => c.blockOf i == seg
  (s.oneEntry (s.segPages c idxs)).probes part c idxs

/-- The record of a verdict: kind and source (R236, R346, R420). -/
def Tgt.record (t : Tgt) : Option (Nat × Nat) :=
  match t with
  | .wait k => some (k, 1)
  | .deny k far => some (k, if far then 5 else 1)
  | _ => none

/-- The faults of a segment: its page with the kind, and the virtual and intermediate address, kind and source; one for
each page and kind (R236). -/
def State.faultsOf (s : State) (part : Nat) (es : List Elem) : List ((Nat × Nat) × (U64 × Nat × Nat × Nat)) :=
  let all := es.flatMap fun e =>
    (match e.src.record with
     | some (k, src) => [((s.faultPage part e.sIa, k), (e.sVa, e.sIa, k, src))]
     | none => [])
    ++ e.dst.filterMap fun d => d.2.1.record.map fun r => ((s.faultPage part d.2.2, r.1), (e.dVa, d.2.2, r.1, r.2))
  all.foldl (fun (r : List ((Nat × Nat) × (U64 × Nat × Nat × Nat))) x =>
    if r.any fun y => y.1 == x.1 then r else r ++ [x]) []

/-- Whether a verdict denies, or waits. -/
def Tgt.denied (t : Tgt) : Bool :=
  match t with
  | .deny _ _ => true
  | _ => false

/-- Whether a verdict waits on a page. -/
def Tgt.waits (t : Tgt) : Bool :=
  match t with
  | .wait _ => true
  | _ => false

/-- The intermediate addresses of the pages that a segment waits on. -/
def waitsOn (es : List Elem) : List Nat :=
  es.flatMap fun e => (if e.src.waits then [e.sIa] else []) ++ (e.dst.filter fun d => d.2.1.waits).map fun d => d.2.2

/-- The stamp of a verdict. -/
def Tgt.stamp (t : Tgt) : Nat :=
  match t with
  | .key _ st _ => st
  | _ => 0

/-! ## Segments (R233 to R239) -/

/-- A code joins an operation's code: the higher in the order 5, 3, 2, 4, 1, 0 (R234). -/
def codeJoin (a b : Nat) : Nat :=
  let rank (n : Nat) : Nat := match n with | 5 => 5 | 3 => 4 | 2 => 3 | 4 => 2 | 1 => 1 | _ => 0
  if rank a ≥ rank b then a else b

/-- The first byte with a stamp other than the effective contract, in a list of elements (R243, R341). -/
def stampOf (eff : Nat) (es : List Elem) : Option U64 :=
  let odd (t : Tgt) : Bool := t.stamp != 0 && t.stamp != eff
  (es.flatMap fun e => (if odd e.src then [e.sVa] else [])
    ++ (if e.dst.any (fun d => odd d.2.1) then [e.dVa] else [])).head?

/-- An element's code from its bytes; the upper or lower half of a byte on a 4-bit side. -/
def elemOf (t : Nat) (idx : List Nat) (bs : List Byte) : Nat :=
  let v := leNat bs
  if four t then v / 16 ^ (idx.headD 0 % 2) % 16 else v

/-- The bytes of an element; on a 4-bit side the other half of the byte stays. -/
def elemBytes (t : Nat) (idx : List Nat) (old : List Byte) (v : Nat) : List Byte :=
  if four t then
    let o := leNat old
    leBytes 1 (if idx.headD 0 % 2 = 0 then o / 16 * 16 + v % 16 else v % 16 * 16 + o % 16)
  else leBytes (elemSize t) v

/-- The source codes of a segment's elements, with their poison. -/
def State.sources (s : State) (c : Copy) : List Elem → List (Elem × Nat × Bool) × State
  | [] => ([], s)
  | e :: r =>
    let (bs, bad, s) := s.tgtRead e.src (elemSize c.st)
    let (es, s) := s.sources c r
    ((e, elemOf c.st e.idx bs, bad) :: es, s)

/-- Contributions of an operation to elements of a step are sent (R433). -/
def State.stepSent (s : State) (id op : Nat) (vas : List U64) : State :=
  { s with steps := s.steps.adj id fun t =>
      { t with sent := t.sent ++ vas.map fun (v : U64) => (op, (v.toNat - t.dst.toNat) / elemSize t.ety) } }

/-- The unit has taken some of the contributions that an operation has sent, and no more of them come. -/
def Step.take (t : Step) (op : Nat) (keep : List Nat → List Nat) : Step :=
  { t with
    taken := (t.taken ++ keep ((t.sent.filter fun x => x.1 == op).map Prod.snd)).eraseDups
    sent := t.sent.filter fun x => x.1 != op }

/-- The unit has accepted an RRED of a step: once it has every element of a refused step, the step counts as served, and ends
if its STEPDONE was issued (R433). -/
def State.stepServed (s : State) (id op : Nat) : State :=
  let s := { s with steps := s.steps.adj id fun t =>
    let t := t.take op fun l => l
    { t with refused := t.refused && t.taken.length < t.bytes / elemSize t.ety } }
  match s.steps.find id with
  | some t => if t.asked && !t.refused then { s with steps := s.steps.del id } else s
  | none => s

/-- The unit refuses a contribution: the step of that number, if it is one of the partition's, stays unended. Which of the
operation's contributions were taken before is a free value (R433, log entry 2). -/
def State.stepRefused (s : State) (part id op : Nat) : State :=
  let n := ((s.steps.find id).map fun t => (t.sent.filter fun x => x.1 == op).length).getD 0
  { s with
    free := s.free + n
    steps := s.steps.adj id fun t =>
      if t.comm / 8 = part then
        { t.take op fun l => (((List.range l.length).zip l).filter fun x => (Config.free (s.free + x.1)).getLsbD 0).map Prod.snd
          with refused := true }
      else t }

/-- Whether an element's address lies within the step's destination. -/
def Step.covers (t : Step) (va : U64) (n : Nat) : Bool :=
  t.dst.toNat ≤ va.toNat && va.toNat + n ≤ t.dst.toNat + t.bytes

/-- Write one element to one destination. -/
def State.putElem (s : State) (part : Nat) (flush : Bool) (c : Copy) (e : Elem) (x : Nat) (bad : Bool) (t : Tgt) :
    State × Bool :=
  let n := elemSize c.dt
  match c.kind with
  | .rred =>
    (match t with
     | .key k _ _ =>
       if k ≥ peerBase then s.toPeer 3 (bitsOf c.ctl.toNat 32 32) part (k - peerBase) (if bad then [] else leBytes n x)
       else s
     | _ => s, bad)
  | _ =>
    if bad then (s.tgtSpoil part t n, true)
    else if c.kind = .cpred then
      let (old, obad, s) := s.tgtRead t n
      if obad then (s.tgtSpoil part t n, true)
      else (s.tgtWrite part t (leBytes n (redElem flush c.op c.dt (leNat old) x)), false)
    else if four c.dt then
      let (old, _, s) := s.tgtRead t 1
      (s.tgtWrite part t (elemBytes c.dt e.idx old x), false)
    else (s.tgtWrite part t (leBytes n x), false)

/-- The offsets of a block's shared memory that some writes of `n` bytes touch. -/
def markOffs (b n : Nat) (ms : List (Tgt × Option Nat × Bool)) : List Nat :=
  ms.flatMap fun m => match m.1 with
    | .shared x off => if x = b then (List.range n).map fun i => off + i else []
    | _ => []

/-- The keys of memory that they touch. -/
def markKeys (n : Nat) (ms : List (Tgt × Option Nat × Bool)) : List Nat :=
  ms.flatMap fun m => match m.1 with
    | .key k _ _ => (List.range n).map fun i => k + i
    | _ => []

/-- What writing a segment adds up to. -/
structure SegAcc where
  s     : State
  half  : Nat := 0         -- half bytes written
  bad   : Bool := false
  marks : List (Tgt × Option Nat × Bool) := []

/-- Write a segment's elements to their destinations; AMAX and AMAXNAN follow (R55, R71, R230). -/
def State.writeSeg (s : State) (part blk gid : Nat) (flush : Bool) (c : Copy) (es : List (Elem × Nat × Bool)) :
    SegAcc :=
  es.foldl (fun a q =>
    let (e, x, bad) := q
    let v := if c.same then x else convert c.st c.dt c.rnd c.sat x
    let s := if bad then a.s else a.s.modGroup blk gid fun g =>
      let g := if c.amax then g.fold [typeVal c.st x] else g
      g.setNan (!c.same && nanLost c.st c.dt x)
    e.dst.foldl (fun a d =>
      let (s, p) := a.s.putElem part flush c e v bad d.2.1
      { s := s, half := a.half + typeWidth c.dt / 4, bad := a.bad || p,
        marks := (d.2.1, if four c.dt then some (e.idx.headD 0 % 2) else none, p) :: a.marks }) { a with s := s }) { s := s }

/-- No segment of an operation is left. -/
def EngOp.sent (o : EngOp) : Bool := o.todo.isEmpty && o.fixups.isEmpty && o.waiting.isEmpty

/-- Whether an operation is an RRED, which the reduction unit ends (R433). -/
def EngOp.reduces (o : EngOp) : Bool :=
  match o.kind with
  | .copy c => c.kind == .rred
  | _ => false

/-- An operation that no segment is left of has finished (R211); an RRED whose contributions are sent still waits for the
unit to have written its results (R433). -/
def EngOp.settle (o : EngOp) : EngOp := if o.sent && !o.reduces then { o with finished := true } else o

/-- The engine stops: no further segment starts (R238). -/
def EngOp.stop (o : EngOp) (code : Nat) : EngOp :=
  { o with todo := [], fixups := [], waiting := [], code := codeJoin o.code code, finished := true }

/-- The engine carries out a segment of an operation from which it has been taken; `fix` marks a retry (R237). A page of
which the copy has sent a record sends no further one of that kind. A segment with a denied destination does not wait: it
is written to the destinations whose pages all permit it (R238). Every source element of the segment is read before any element
is written: which value an element has that its own copy overwrites, R231 leaves open (DESIGN CHOICE, log entry 57). An object
that was armed before the segment ends in error whatever its elements write there (R183). -/
def State.runSegment (s : State) (op seg : Nat) (fix : Bool) (o : EngOp) (c : Copy) (k : Block) (h : Header) (core : Nat)
    (slot : Nat) : State :=
  let (es, s) := s.segment k.part c seg
  let new := (s.faultsOf k.part es).filter fun f => !o.told.contains f.1
  let s := new.foldl (fun s f => s.fault k.part core f.2.1.toNat f.2.2.1 0 f.2.2.2.1 f.2.2.2.2 0xFF slot op) s
  let o := { o with told := o.told ++ new.map Prod.fst }
  let put (s : State) (o : EngOp) : State := { s with ops := s.ops.put op o }
  let s := if c.kind.cls ≠ .cl then s else
    (distinct (es.flatMap fun e => (if e.src.denied && c.kind != .rld then [e.sIa] else [])
      ++ (e.dst.filter fun d => d.2.1.denied && c.kind == .rld).map fun d => d.2.2)).foldl (fun s ia => s.collDenied k.part ia) s
  let denied := distinct ((es.flatMap fun e => e.dst.filter fun d => d.2.1.denied).map Prod.fst)
  let waits := waitsOn es
  let o1 := if denied.isEmpty then o else
    { o with denied := denied.foldl (fun m d => m ||| (1#8 <<< d)) o.denied, code := codeJoin o.code 2 }
  if es.any (fun e => e.src.denied) then put s (o1.stop 3)
  else
    let stuck := distinct ((es.flatMap fun e => e.dst.filter fun d => d.2.1.waits).map Prod.fst)
    let late := es.any fun e => e.src.waits
    let es := es.map fun e => { e with dst := e.dst.filter fun d => !denied.contains d.1 && !stuck.contains d.1 }
    if !waits.isEmpty && denied.isEmpty then
      if c.fixup && !fix then put s { o with fixups := o.fixups ++ [seg] }
      else put s { o with waiting := o.waiting ++ [(seg, waits.headD 0)] }
    else if !denied.isEmpty && (late || es.all fun e => e.dst.isEmpty) then put s o1.settle
    else if c.kind = .rred && !((s.redStep k.part c).map fun t => es.all fun e => t.covers e.dVa (elemSize c.dt)).getD false then
      put (s.stepRefused k.part (bitsOf c.ctl.toNat 32 32) op) (o.stop 3)
    else
      let (xs, s) := s.sources c es
      let s := if c.kind = .rred && denied.isEmpty then s.stepSent (bitsOf c.ctl.toNat 32 32) op (es.map Elem.dVa) else s
      let meet := !decide ((es.map fun e => (sideOff (four c.dt) e.idx c.dstr, four c.dt && e.idx.headD 0 % 2 == 1)).Nodup)
      let xs := if meet then shuffle s.free xs.length xs else xs
      let s := if meet then { s with free := s.free + xs.length } else s
      let a := s.writeSeg k.part o.blk o.gid (ctFlush h.eff) c xs
      let st := stampOf h.eff es
      let n := elemSize c.dt
      put ((a.s.mend n a.marks).wroteAll s o.blk (markOffs o.blk n a.marks) (markKeys n a.marks)) { o1 with
        started := true
        fixed := if fix && denied.isEmpty then o1.fixed + 1 else o1.fixed
        written := o1.written + a.half
        stamp := o1.stamp <|> st
        code := [if fix && denied.isEmpty then 1 else 0, if st.isSome then 4 else 0, if a.bad then 5 else 0].foldl
          codeJoin o1.code }.settle

/-- COPY_SEGMENT (R233, R237): the copy engine takes a segment: one not yet carried out or, once there is none, the
head of the fix-up list. Arguments: operation, segment. -/
def execCopySegment (s : State) : Outcome State Fault Refusal :=
  let op := s.arg 0
  let seg := s.arg 1
  .next (match s.ops.find op with
    | none => s
    | some o =>
      match o.kind, s.block o.blk, s.group o.blk o.gid with
      | .copy c, some k, some g =>
        if o.finished || s.held op || k.st != .resident then s
        else if o.todo.contains seg then
          s.runSegment op seg false { o with todo := o.todo.erase seg } c k (s.hdr k) g.core g.slot
        else if o.todo.isEmpty && o.fixups.head? == some seg then
          s.runSegment op seg true { o with fixups := o.fixups.drop 1 } c k (s.hdr k) g.core g.slot
        else s
      | _, _, _ => s)

/-- The collectives that run hear the reduction unit to which a copy has sent its contributions (R437). -/
def State.unitHeard (s : State) (part : Nat) (c : Copy) : State :=
  match s.memSide part c.dst.addr false true with
  | .ok key _ _ =>
    if key < peerBase then s
    else match s.fabricAddr part (key - peerBase) with
      | some a => if s.linked (a / 2 ^ 56) then s.heard part (a / 2 ^ 52) else s
      | none => s
  | _ => s

/-- The reduction unit answers an RRED whose contributions are sent (R433): it has written their results, or it refuses one,
and the copy ends with code 3. It refuses when the step is gone or its communicator has left state 2; what else may have
happened at the far member is a free value (log entry 2). -/
def State.unitDone (s : State) (op : Nat) : State :=
  match s.ops.find op with
  | none => s
  | some o =>
    match o.kind, s.block o.blk with
    | .copy c, some k =>
      if !o.reduces || !o.sent || o.finished then s
      else
        let s := s.unitHeard k.part c
        let (ok, s) := if (s.redStep k.part c).isSome then s.flip else (false, s)
        if ok then { s.stepServed (bitsOf c.ctl.toNat 32 32) op with ops := s.ops.put op { o with finished := true } }
        else { s.stepRefused k.part (bitsOf c.ctl.toNat 32 32) op with ops := s.ops.put op (o.stop 3) }
    | _, _ => s

/-! ## Signalling (R211, R234) -/

/-- The status word (R234). -/
def EngOp.statusWord (o : EngOp) : U64 :=
  BitVec.ofNat 64 (2 ^ 63 + o.code % 128 * 2 ^ 56 + min o.fixed 255 * 2 ^ 48 + o.denied.toNat * 2 ^ 40 + o.written / 2 % 2 ^ 40)

/-- A deferred condition of an operation (R243). -/
def Group.defer (g : Group) (d : Deferred) : Group := { g with deferred := g.deferred ++ [d] }

/-- A scalar register takes the result of an operation unless a later instruction has written it (R17); to a later early
result it is part of the content before. -/
def Group.landOne (g : Group) (id reg : Nat) (w : U64) : Group :=
  (if g.pend.all fun e => !(e.id == id && e.reg == .s reg) || e.ovr == 0 then g.setS reg w else g).landOld
    id (.s reg) 0 w false

/-- The status register takes its word, and no longer waits. -/
def Group.land (g : Group) (id : Nat) (reg : Option Nat) (w : U64) : Group :=
  let g := match reg with
    | some r => g.landOne id r w
    | none => g
  g.settlePend (g.pend.filter fun e => e.id != id)

/-- The register by which an operation is observed. -/
def EngOp.reg (o : EngOp) : Option Reg :=
  match o.kind with
  | .lane l => if l.put then none else some (.v l.vd)
  | _ => o.status.map .s

/-- The abacus is free once an MXREL is signalled (R254). -/
def EngOp.releases (o : EngOp) : Bool :=
  match o.kind with
  | .abacus rel => rel
  | _ => false

/-- An operation is signalled: status word, barrier arrival, class counter (R211). -/
def State.signal (s : State) (id : Nat) (o : EngOp) : State :=
  let s := s.modGroup o.blk o.gid fun g =>
    let g := match o.stamp, o.kind with
      | some va, .copy _ => g.defer ⟨cCMIX, va, o.cls, o.seq, id, o.reg, none, false⟩
      | some info, .coll _ _ bar => g.defer ⟨cCOLL, info, .cl, o.seq, id, none, bar, false⟩
      | _, _ => g
    let g := g.land id o.status o.statusWord
    { g with oc := g.oc.set o.cls (g.oc.get o.cls - 1) }
  let s := match o.barrier with
    | some l =>
      let s := (s.arrive l false (-(o.planned : Int))).2.2
      (match o.stamp, o.kind with
       | some _, .coll _ _ _ => s.barError l
       | _, _ => s)
    | none => s
  let s := if !o.releases then s else
    match s.group o.blk o.gid with
    | some g => s.modBlock o.blk fun k =>
        { k with abaci := k.abaci.adj (k.member g.core) fun a => { a with relPend := false } }
    | none => s
  { s with ops := s.ops.del id }

/-- Whether an older operation of the same class and group is outstanding. -/
def State.olderOp (s : State) (o : EngOp) : Bool :=
  s.ops.any fun p => p.2.blk == o.blk && p.2.gid == o.gid && p.2.cls == o.cls && p.2.seq < o.seq

/-! ## Lane copies (R242) -/

/-- The checks of a lane copy at issue (R242): then its group waits, at the word, for the verdicts. The conditions that the word
observes are kept with it: a trap of its verdicts leaves them as they were (R88, R243). -/
def laneBody2 (put : Bool) (c : Ctx) (s : State) : Res :=
  let n := typeWidth c.ty / 8
  let ls := c.liveLanes
  let va (l : Nat) : U64 := c.g.getV c.n3 l
  let maps := ls.map fun l => (l, s.mapVa c.k.part c.k.ctx (va l).toNat)
  let bad (m : Window × Nat) : Bool :=
    !([1, 2, 3] : List Nat).contains m.1.kind || !(if put then m.1.canW else m.1.canR) || !m.1.kindOk m.2
  if !c.producer then .trap cROLE 0
  else match ls.find? fun l => (va l).toNat % n != 0 with
  | some l => .trap cALIGN (va l)
  | none =>
  match maps.find? fun m => m.2.isNone with
  | some m => .trap cMISS (va m.1)
  | none =>
  match maps.find? fun m => (m.2.map bad).getD false with
  | some m => .trap cPERM (va m.1)
  | none =>
    let lanes := maps.filterMap fun m => m.2.map fun w => (m.1, w.2, va m.1, c.g.getV c.n2 m.1)
    .hold fun s =>
      let id := s.nextId
      let seen := (((s.group c.blk c.gid).map Group.deferred).getD []).filter fun d => !c.g.deferred.contains d
      let o : EngOp := ⟨c.blk, c.gid, .gt, c.g.issued.gt + 1, none,
        .lane ⟨put, c.word, c.n2, n, lanes, maskOf ls, true, c.mask, seen.map Deferred.order, false, [], [], [],
          if c.g.inPass .miss then [] else c.g.posted.map Late.id⟩, none, 0, [], [], 0, [], 0, 0, 0, false, false, none, []⟩
      ({ s.modGroup c.blk c.gid (fun g => { g with park := .verdict id, parkPc := g.bundle.entry, parkAt := g.pc }) with
          ops := s.ops.put id o, nextId := id + 1 }).issuedBy c.g.core c.g.quarter c.g.slot false

/-- CPG (R242). -/
def execCpg (a b : BitVec 8) (s : State) : Outcome State Fault Refusal := issue (.cpg a b) (laneBody2 false) s

/-- CPS (R242). -/
def execCps (a b : BitVec 8) (s : State) : Outcome State Fault Refusal := issue (.cps a b) (laneBody2 true) s

/-- The verdicts of lanes. -/
def State.verdicts (s : State) (part : Nat) (l : LaneCopy) : List (Nat × Nat × U64 × U64) → List LaneTgt × State
  | [] => ([], s)
  | (n, ia, va, d) :: r =>
    let (t, s) := s.target part (.ia ia) l.size (!l.put) l.put
    let (ts, s) := s.verdicts part l r
    (⟨n, ia, va, d, t, ia.testBit 51 && !s.padNames ia l.size⟩ :: ts, s)

/-- The records of lanes: for each page and kind, the lanes that reached it (R197). -/
def State.laneRecords (s : State) (part : Nat) (ts : List LaneTgt) : List (U64 × Nat × Nat × Nat × List Nat) :=
  ts.foldl (fun (r : List (U64 × Nat × Nat × Nat × List Nat)) t =>
    match t.tgt.record with
    | none => r
    | some (kind, src) =>
      let source := if src = 1 then 0 else src
      let same (x : U64 × Nat × Nat × Nat × List Nat) : Bool :=
        s.faultPage part x.2.1 == s.faultPage part t.ia && x.2.2.1 == kind && x.2.2.2.1 == source
      if r.any same then
        r.map fun x => if same x then (x.1, x.2.1, x.2.2.1, x.2.2.2.1, x.2.2.2.2 ++ [t.lane]) else x
      else r ++ [(t.va, t.ia, kind, source, [t.lane])]) []

/-- The records are sent, in some order (R197, log entry 2). -/
def State.sendLanes (s : State) (k : Block) (core slot record op : Nat) (ts : List LaneTgt) : State :=
  let rs := s.laneRecords k.part ts
  let rs' := shuffle s.free rs.length rs
  rs'.foldl (fun s r => s.fault k.part core r.1.toNat r.2.1 (maskOf r.2.2.2.2).toNat r.2.2.1 r.2.2.2.1 record slot op)
    { s with free := s.free + rs.length }

/-- Lanes in the order in which they are performed: lanes of a CPS that meet stand in any order (R171, R242). -/
def State.copyOrder (s : State) (l : LaneCopy) (ts : List LaneTgt) : List LaneTgt × State :=
  if l.put && !decide ((ts.map LaneTgt.ia).Nodup) then
    (shuffle s.free ts.length ts, { s with free := s.free + ts.length })
  else (ts, s)

/-- The armed barrier objects that lanes write, with those that earlier lanes of the same CPS have found armed (R183). -/
def State.laneHits (s : State) (l : LaneCopy) (ts : List LaneTgt) : List Nat :=
  armedHits s.padBars (markKeys l.size (ts.map fun t => (t.tgt, none, false))) fun a => (s.barAt a).armed || l.hits.contains a

/-- What the issue of a lane copy has released is performed: the accesses of its group before it (R194, R323). -/
def State.landBefore (s : State) (blk gid : Nat) (l : LaneCopy) : State :=
  if l.after.isEmpty then s else s.landThrough blk gid fun a => l.after.contains a.id

/-- Permitted lanes are performed. The lanes of a CPS write together (R183, R412). -/
def State.performLanes (s : State) (part blk gid id : Nat) (l : LaneCopy) (ts : List LaneTgt) : State :=
  let s := s.landBefore blk gid l
  if l.put then
    ((ts.foldl (fun s t => s.tgtWrite part t.tgt (leBytes l.size t.data.toNat)) s).mend l.size
      ((l.landed ++ ts).map fun t => (t.tgt, none, false))).keyErrors (s.laneHits l ts)
  else ts.foldl (fun s t =>
      let (bs, bad, s) := s.tgtRead t.tgt l.size
      s.modGroup blk gid fun g => g.takeLane id l.vd t.lane (BitVec.ofNat 64 (leNat bs)) bad) s

/-- The CMIX of the lanes that met another stamp (R243): recorded once for an operation. -/
def State.laneStamp (s : State) (id : Nat) (o : EngOp) (l : LaneCopy) (eff : Nat) (ts : List LaneTgt) : State × EngOp :=
  match o.stamp, ts.find? fun t => t.tgt.stamp != 0 && t.tgt.stamp != eff with
  | none, some t =>
    (s.modGroup o.blk o.gid fun g =>
      g.defer ⟨cCMIX, t.va, .gt, o.seq, id, if l.put then none else some (.v l.vd), none, false⟩,
      { o with stamp := some t.va })
  | _, _ => (s, o)

/-- The lowest free replay record. -/
def Group.freeRecord (g : Group) : Nat := ((List.range 4).find? fun n => (g.replay.find n).isNone).getD 0

/-- A lane copy that a page denies has sent its records and waits at them (R345); then it traps. -/
def State.laneDenied (s : State) (id : Nat) (o : EngOp) (va : U64) : State :=
  { s with ops := s.ops.put id { o with stamp := some va, code := 3 } }

/-- The conditions that a word has observed are counted and dropped (R243). Each adds 1 to CMIXCNT, also after an SWR to it that
was issued while one was outstanding, where R59 lets it add 0 or 1 (DESIGN CHOICE, log entry 44). -/
def Group.observed (g : Group) (seen : List Nat) : Group :=
  let hit := g.deferred.filter fun d => seen.contains d.order
  { g with
    deferred := g.deferred.filter fun d => !seen.contains d.order
    cmixcnt := BitVec.ofNat 32 (min (g.cmixcnt.toNat + hit.length) 0xFFFFFFFF) }

/-- The verdicts of a lane copy have returned (R242): a trap at the word, or its permitted lanes are performed and the
word's issue ends. Records of denied lanes come before the trap (R242, R330), and the trap waits at them (R345). Where the
schedule asks for it, the permitted lanes are performed later, one by one, in any order with other operations (R322). -/
def State.laneVerdict (s : State) (id : Nat) (o : EngOp) (l : LaneCopy) (k : Block) (g : Group) (i : Instr) : State :=
  let (ts, s) := s.verdicts k.part l l.lanes
  let drop (s : State) : State := { s with ops := s.ops.del id }
  match ts.find? fun t => t.out, ts.find? fun t => t.tgt.denied with
  | some t, _ => (drop s).trap o.blk o.gid cSPAD t.va
  | none, some t =>
    let told := ts.filter fun t => match t.tgt with
      | .deny kind far => kind == 5 || far
      | _ => false
    if told.isEmpty then (drop s).trap o.blk o.gid cPAGE t.va
    else (s.sendLanes k g.core g.slot 0xFF id told).laneDenied id o t.va
  | none, none =>
    let h := s.hdr k
    let ok := ts.filter fun t => !t.tgt.waits
    let left := ts.filter fun t => t.tgt.waits
    let okM := maskOf (ok.map LaneTgt.lane)
    let leftM := maskOf (left.map LaneTgt.lane)
    let rec_ := g.freeRecord
    let sh := shapeOf i (typeInForce g.bundle g.mode)
    let open_ (g : Group) : Group :=
      match g.bundle.split with
      | some n => { g with split := some ⟨g.pc, n.toNat, some l.mask, 0, 0, 0, 0, .whole, false⟩ }
      | none => g
    let s := s.modGroup o.blk o.gid fun g =>
      let g := open_ ((g.observed l.seen).claim sh (if l.put then [] else [.v l.vd]) l.todo h.checked)
      { g with
        park := .run
        oc := { g.oc with gt := g.oc.gt + 1 }
        issued := { g.issued with gt := o.seq }
        replay := if left.isEmpty then g.replay
          else g.replay.put rec_ ⟨id, o.seq, g.parkPc, leftM, false⟩ }
    let (ok', s) := s.copyOrder l ok
    let s := if l.late then s else s.performLanes k.part o.blk o.gid id l ok'
    let (s, o) := s.laneStamp id o l h.eff ok
    let out := if l.late then okM ||| leftM else leftM
    let s := if left.isEmpty then s else s.sendLanes k g.core g.slot rec_ id left
    let s := if l.put then s else s.modGroup o.blk o.gid fun g =>
      { g with pend := g.pend
          ++ (if l.late || okM = 0 then [] else [⟨id, .v l.vd, okM, 0, 0⟩])
          ++ (if out = 0 then [] else [⟨id, .v l.vd, out, id, 0⟩]) }
    let l' := { l with todo := leftM, asked := false, ready := if l.late then ok else [] }
    let o' := { o with kind := .lane l', finished := left.isEmpty && l'.ready.isEmpty }
    let s := { s with ops := s.ops.put id o' }
    let (s, jump) := if l.put then (s, none)
      else s.splitAt o.blk o.gid g.pc id (ok.map fun t => (t.lane, hitBy g.core t.ia))
    s.modGroup o.blk o.gid fun r =>
      r.retire g.bundle g.pc jump (l.word.getLsbD 31) h.checked (slowWord sh (typeInForce g.bundle g.mode)) s.cycle

/-- LANE_COPY_VERDICT (R242). Argument: operation. -/
def execLaneCopyVerdict (s : State) : Outcome State Fault Refusal :=
  let id := s.arg 0
  .next (match s.ops.find id with
    | none => s
    | some o =>
      match o.kind, s.block o.blk, s.group o.blk o.gid with
      | .lane l, some k, some g =>
        if s.held id then s
        else if g.park = .verdict id && l.asked && k.st = .resident then
          if o.code = 3 then { s with ops := s.ops.del id }.trap o.blk o.gid cPAGE (o.stamp.getD 0)
          else match decodeWord l.word with
          | .ok d => s.laneVerdict id o l k g d.instr
          | .error _ => s
        else s
      | _, _, _ => s)

/-- A parked group wakes when its replay record is freed (R198). -/
def Group.freeReplay (g : Group) (n : Nat) : Group :=
  let g := { g with replay := g.replay.del n }
  if g.park = .replay n then { g with park := .run } else g

/-- Lanes of a lane copy's result have arrived. -/
def Group.laneDone (g : Group) (op : Nat) (m : BitVec 32) : Group :=
  g.settlePend ((g.pend.map fun e =>
    if e.id = op && e.op = op then { e with lanes := e.lanes &&& ~~~m } else e).filter fun e => e.lanes != 0)

/-- From now on the permitted lanes of a lane copy are performed one by one (R322): before its verdicts return. -/
def State.laneLate (s : State) (op : Nat) : State :=
  { s with ops := s.ops.adj op fun o => match o.kind with
      | .lane l => { o with kind := .lane { l with late := l.late || l.asked } }
      | _ => o }

/-- A permitted lane is performed (R322). -/
def State.laneLand (s : State) (op lane : Nat) : State :=
  match s.ops.find op with
  | none => s
  | some o =>
    match o.kind, s.block o.blk with
    | .lane l, some k =>
      let ts := l.ready.filter fun t => t.lane == lane
      if ts.isEmpty then s
      else
        let s := s.landBefore o.blk o.gid l
        let s1 := s.performLanes k.part o.blk o.gid op l ts
        let l' := { l with
          ready := l.ready.filter fun t => t.lane != lane
          landed := l.landed ++ ts
          hits := l.hits ++ s.laneHits l ts }
        { s1.modGroup o.blk o.gid (fun g => if l.put then g else g.laneDone op (maskOf (ts.map LaneTgt.lane))) with
          ops := s1.ops.put op { o with kind := .lane l', finished := l'.todo == 0 && l'.ready.isEmpty } }
    | _, _ => s

/-- The permitted lanes of the operations of a list are performed. -/
def State.landLanes (s : State) (ops : List (Nat × EngOp)) : State :=
  ops.foldl (fun s o => match o.2.kind with
    | .lane l => l.ready.foldl (fun s t => s.laneLand o.1 t.lane) s
    | _ => s) s

/-- Everything that has been issued and may be performed is performed: late accesses of groups, and lanes of lane copies. -/
def State.landEverything (s : State) : State :=
  (s.blocks.foldl (fun s b => s.landBlock b.1) s).landLanes s.ops

/-- The replay of a record (R198): the unfinished lanes are tried again with the recorded operands. Answers the lanes
that stay unfinished. -/
def State.replayRecord (s : State) (blk gid n : Nat) : BitVec 32 × State :=
  match s.block blk, s.group blk gid with
  | some k, some g =>
    (match g.replay.find n with
     | none => (0, s)
     | some r =>
       match s.ops.find r.op with
       | none => (0, s)
       | some o =>
         match o.kind with
         | .lane l =>
           let (ts, s) := s.verdicts k.part l (l.lanes.filter fun x => l.todo.getLsbD x.1)
           let ok := ts.filter fun t => !t.tgt.waits && !t.tgt.denied
           let left := ts.filter fun t => t.tgt.waits || t.tgt.denied
           let okM := maskOf (ok.map LaneTgt.lane)
           let leftM := maskOf (left.map LaneTgt.lane)
           let (ok', s) := s.copyOrder l ok
           let s := if l.late then s else s.performLanes k.part blk gid r.op l ok'
           let (s, o) := s.laneStamp r.op o l (s.hdr k).eff ok
           let s := if left.isEmpty then s else s.sendLanes k g.core g.slot n r.op left
           let l' := { l with todo := leftM, ready := if l.late then l.ready ++ ok else l.ready }
           let o' := { o with kind := .lane l', finished := left.isEmpty && l'.ready.isEmpty }
           let s := { s with ops := s.ops.put r.op o' }
           (leftM, s.modGroup blk gid fun g =>
             let g := if l.late then g else g.laneDone r.op okM
             if left.isEmpty then g.freeReplay n
             else { g with replay := g.replay.adj n fun r => { r with lanes := leftM, asked := false } })
         | _ => (0, s))
  | _, _ => (0, s)

/-- The replays that an operation's records have held back: they follow once the last of those is taken; those of a block that is saved
then follow when it resumes (R345). -/
def State.releaseHeld (s : State) (op : Nat) : State :=
  s.blocks.foldl (fun s b => b.2.groups.foldl (fun s g => g.2.replay.foldl (fun s r =>
    if r.2.op == op && r.2.asked && b.2.st == .resident then
      let v : U64 := BitVec.ofNat 64 (g.2.core * 2 ^ 7 + g.2.slot * 4 + r.1)
      let (left, s) := s.replayRecord b.1 g.1 r.1
      { s with preempt := s.preempt.mapVal fun k p =>
          if k % 16 == b.2.part && p.rplrel == v then { p with rplmask := left } else p }
    else s) s) s) s

/-- A block has resumed: replays that have waited for a record which has been taken meanwhile follow (R345). -/
def State.releaseAsked (s : State) (blk : Nat) : State :=
  match s.block blk with
  | none => s
  | some k => k.groups.foldl (fun s g => g.2.replay.foldl (fun s r =>
      if r.2.asked && !s.held r.2.op then s.releaseHeld r.2.op else s) s) s

/-- ENGINE_SIGNAL (R211): a finished operation of a resident block is signalled once every older operation of its
class and group has been. Argument: operation. -/
def execEngineSignal (s : State) : Outcome State Fault Refusal :=
  let id := s.arg 0
  .next (match s.ops.find id with
    | none => s
    | some o =>
      if o.finished && !s.held id && !s.olderOp o && ((s.block o.blk).map Block.st) == some .resident then
        s.signal id o
      else s)

end Sys2Proof.Machine
end

