-- ==== Sys2Proof/Machine/Abacus.lean ====
section
/-! DEFINITION. The abacus: its state and queue (R247 to R257, R265), the matrix instructions (R253 to R264). The
effect of a queued operation is carried out by ABACUS_OPERATION. -/

namespace Sys2Proof.Machine

open Host (Outcome)

/-! ## The state of an abacus -/

/-- Change the abacus of a member. -/
def State.modAbacus (s : State) (b m : Nat) (f : Abacus → Abacus) : State :=
  s.modBlock b fun k => { k with abaci := k.abaci.put m (f (k.abacus m)) }

/-- The first `n` values of a sparse register file, in order of their keys. -/
def SMap.dense {w : Nat} (m : SMap w) : Nat → Nat → List (BitVec w)
  | 0, _ => []
  | n + 1, i =>
    match m with
    | [] => 0 :: SMap.dense [] n (i + 1)
    | (a, v) :: r => if a = i then v :: SMap.dense r n (i + 1) else 0 :: SMap.dense ((a, v) :: r) n (i + 1)

/-- A sparse register file from its values in order, from a key up. -/
def SMap.ofList {w : Nat} (i : Nat) (l : List (BitVec w)) : SMap w :=
  match l with
  | [] => []
  | v :: r => if v = 0 then SMap.ofList (i + 1) r else (i, v) :: SMap.ofList (i + 1) r

/-- The cells in order. -/
def Abacus.cellList (a : Abacus) : List (BitVec 256) := SMap.dense a.cells 9216 0

/-- Slot `j` of a cell (R247). -/
def slotOf (cell : BitVec 256) (j : Nat) : Nat := cell.toNat / 2 ^ (16 * j) % 2 ^ 16

/-- A cell with slot `j` replaced. -/
def withSlot (cell : BitVec 256) (j v : Nat) : BitVec 256 :=
  BitVec.ofNat 256 (cell.toNat - slotOf cell j * 2 ^ (16 * j) + v % 2 ^ 16 * 2 ^ (16 * j))

/-- A tile entry's key (R250). -/
def tileKey (t row col : Nat) : Nat := 4096 * t + 64 * row + col

/-- A tile entry. -/
def Abacus.entry (a : Abacus) (t row col : Nat) : BitVec 40 := a.tiles.get (tileKey t row col)

/-- Write a tile entry, poisoned or not; the tile is live. -/
def Abacus.putEntry (a : Abacus) (t row col : Nat) (v : BitVec 40) (bad : Bool) : Abacus :=
  let k := tileKey t row col
  { a with
    tiles := a.tiles.set k v
    tileBad := if bad then (if a.tileBad.contains k then a.tileBad else k :: a.tileBad) else a.tileBad.filter (· != k) }

/-- A tile becomes live (R251). -/
def Abacus.liven (a : Abacus) (t : Nat) : Abacus := { a with liveT := a.liveT ||| (1#16 <<< t) }

/-- The value of an entry under the F32 accumulator type (R250). -/
def entryVal (e : BitVec 40) : Val := (fACC 32).val e.toNat

/-- The F32 code that an entry leaves as (R79). -/
def entryOut (e : BitVec 40) : Nat := rne32 (entryVal e)

/-- The entry that holds an F32 code; a NaN becomes canonical (R250). -/
def entryIn (c : Nat) : BitVec 40 := BitVec.ofNat 40 (rne32 (fF32.val c) * 256)

/-- The entry that holds a result of DOT: a code of ACC(ACCW) (R79, R250). -/
def accEntry (ct code : Nat) : BitVec 40 := BitVec.ofNat 40 (if ctAccw ct = 32 then code else code * 256)

/-- An entry as the accumulator of a DOT: under FLUSH a subnormal counts as a zero of its sign (R262). -/
def entryAcc (ct : Nat) (e : BitVec 40) : Val := flushIn (ctFlush ct) (fACC 32) e.toNat

/-- The factor r of a contract's rate (R217). -/
def rateOf (ct : Nat) : Nat :=
  match ctRate ct with
  | 2 => 2
  | 3 => 4
  | _ => 1

/-! ## Places in shared memory and pad -/

/-- Bytes of an image or row from a place on. -/
def State.engRead (s : State) (l : BarLoc) (off n : Nat) : List Byte :=
  match l with
  | .shared b o => ((s.block b).map fun k => k.bytes (o + off) n).getD []
  | .pad ia => Memory.read s.mem (s.padKeyOf ia + off) n

/-- Whether a byte of a place is poisoned. -/
def State.engBad (s : State) (l : BarLoc) (off : Nat) : Bool :=
  match l with
  | .shared b o => ((s.block b).map fun k => k.sharedBad.contains ((o + off) / 8)).getD false
  | .pad ia => s.bad (s.padKeyOf ia + off)

/-- An engine's write. -/
def State.engWrite (s : State) (l : BarLoc) (off : Nat) (bs : List Byte) : State :=
  match l with
  | .shared b o => s.ordShared b ((List.range bs.length).zip bs |>.map fun q => (o + off + q.1, q.2))
  | .pad ia => s.ordCells ((List.range bs.length).zip bs |>.map fun q => (s.padKeyOf ia + off + q.1, q.2))

/-- An engine poisons the word at a place. -/
def State.engSpoil (s : State) (l : BarLoc) (off : Nat) : State :=
  match l with
  | .shared b o => s.spoilShared b ((o + off) / 8)
  | .pad ia => s.spoil (s.padKeyOf ia + off)

/-- The first byte of a pad range whose page denies the access, with the denial's kind. -/
def State.padDenied (s : State) (part ia n : Nat) (r w : Bool) : Option (Nat × Nat) :=
  ((List.range (n / 2 ^ 16 + 2)).map fun i => if i = 0 then 0 else i * 2 ^ 16 - ia % 2 ^ 16).findSome? fun d =>
    if d < n then
      match s.padSide part (ia + d) r w with
      | .deny kind => some (d, kind)
      | _ => none
    else none

/-- The checks of a range as R164, R165 and R441 give them: the place of its first byte, or its fault with the first
faulting byte. Space 0 is shared memory, 1 pad. -/
def State.checkRange (s : State) (k : Block) (h : Header) (blk space va n : Nat) (r w : Bool) : Except AccFault BarLoc :=
  if space = 0 then
    if va + n > h.sharedBound then .error ⟨2, cSPAD, max va h.sharedBound, [], 3⟩ else .ok (.shared blk va)
  else
    match s.mapVa k.part k.ctx va with
    | none => .error ⟨2, cMISS, va, [], 3⟩
    | some (win, ia) =>
      match win.beyond va n with
      | some e => .error ⟨2, cMISS, e, [], 3⟩
      | none =>
        if win.kind != 2 || (r && !win.canR) || (w && !win.canW) || !win.kindOk ia then .error ⟨3, cPERM, va, [], 3⟩
        else if !s.padNames ia n then
          .error ⟨4, cSPAD, if s.padNames ia 1 then
            va + (4096 * (s.core (ia / 2 ^ 19 % 512)).dvsize - ia % 2 ^ 19) else va, [], 3⟩
        else match s.padDenied k.part ia n r w with
          | some (d, kind) => .error ⟨5, cPAGE, va + d, if kind = 5 then [(va + d, ia + d, 5)] else [], 3⟩
          | none => .ok (.pad ia)

/-- The checks of a range named by a descriptor address (R227). -/
def State.checkDesc (s : State) (k : Block) (h : Header) (blk : Nat) (a : U64) (n : Nat) (r w : Bool) :
    Except AccFault BarLoc :=
  match a.toNat / 2 ^ 57 with
  | 0x40 => s.checkRange k h blk 0 (a.toNat % 2 ^ 57) n r w
  | 0 => s.checkRange k h blk 1 a.toNat n r w
  | _ => .error ⟨2, cSPAD, a.toNat, [], 3⟩

/-! ## Issue -/

/-- An instruction of the abacus: MX_NOT_HELD first (R255, R276), then its own rules on the member and its abacus. -/
def Ctx.held (c : Ctx) (f : Nat → Abacus → Res) : Res :=
  let m := c.k.member c.g.core
  let a := c.k.abacus m
  if a.holder = some c.gid then f m a else .trap cHELD 0

/-- A poisoned register that the word consumes raises UNCORRECTABLE (R114, R223). -/
def Ctx.sound (c : Ctx) (r : Res) : Res := if c.bad then .trap cUNC allOnes else r

/-- An instruction of the abacus whose own checks all read registers: the holder, the registers' poison, its own rules. -/
def Ctx.mx (c : Ctx) (f : Nat → Abacus → Res) : Res := c.held fun m a => c.sound (f m a)

/-- An operation enters the queue, which has a place for it (R201, R256); `view` is what its issue changes in the abacus. -/
def Ctx.enqueue (c : Ctx) (s : State) (m : Nat) (cls : EngClass) (kind : MxKind)
    (view : Abacus → Abacus := id) (rel : Bool := false) : Res :=
  let id := s.nextId
  let s := c.launch s cls none none 0 (.abacus rel) [] 0 false
  .done (s.modAbacus c.blk m fun a => view { a with queue := a.queue ++ [⟨id, c.gid, kind⟩] }) none

/-- Rows 2i and 2i+1 of the gathering lanes with their addresses (R261). -/
def Ctx.rowAddrs (c : Ctx) (pad : Bool) (base : U64) : List (Nat × Nat) :=
  c.liveLanes.flatMap fun i => [0, 1].map fun h =>
    let a := elem 32 h (c.g.getV c.n2 i)
    (2 * i + h, if pad then base.toNat + a else a)

/-- The checks of one gathered row: MISALIGN, the space checks, UNCORRECTABLE (R261). -/
def State.rowCheck (s : State) (k : Block) (h : Header) (blk : Nat) (pad : Bool) (n va : Nat) : Except AccFault BarLoc :=
  if va % 32 ≠ 0 then .error ⟨1, cALIGN, va, [], 3⟩
  else match s.checkRange k h blk (if pad then 1 else 0) va n true false with
    | .error f => .error f
    | .ok l =>
      match (List.range n).find? fun i => s.engBad l i with
      | some i => .error ⟨6, cUNC, va + i, [], 3⟩
      | none => .ok l

/-- The gather of MXMMA and SPEVAL: checks and reads at its beginning; the group stalls until the data have arrived (R201, R261,
R279). -/
def Ctx.gather (c : Ctx) (s : State) (n : Nat) (pad : Bool) (base : U64) (go : List (Nat × List Byte) → Res) : Res :=
  match c.g.gather with
  | some r => go r.rows
  | none =>
    let rows := c.rowAddrs pad base
    let ch := rows.map fun r => (r.1, s.rowCheck c.k c.h c.blk pad n r.2)
    match firstFault (ch.map Prod.snd) with
    | some f => f.trap
    | none =>
      let data := ch.filterMap fun r => match r.2 with
        | .ok l => some (r.1, s.engRead l 0 n)
        | .error _ => none
      if data.isEmpty then go []
      else .hold fun s =>
        { s.modGroup c.blk c.gid (fun g => { g with gather := some ⟨s.nextId, c.word, c.g.pc, false, data⟩ }) with
          nextId := s.nextId + 1 }

/-! ## The matrix instructions -/

/-- MXACQ (R253). -/
def execMxacq (a : BitVec 8) (s : State) : Outcome State Fault Refusal :=
  issue (.mxacq a) (fun c s =>
    let m := c.k.member c.g.core
    let x := c.k.abacus m
    let got := x.holder = some c.gid || (x.holder = none && !x.relPend)
    let s := if got then s.modAbacus c.blk m fun x => { x with holder := some c.gid } else s
    let s := s.modGroup c.blk c.gid fun g => g.setP a.toNat (if got then 0xFFFFFFFF else 0)
    .done (c.await s [.p a.toNat] 0xFFFFFFFF).2 none) s

/-- MXREL (R254). -/
def execMxrel (s : State) : Outcome State Fault Refusal :=
  issue .mxrel (fun c s => c.mx fun m _ =>
    c.enqueue s m .mx .rel (fun a => { a with holder := none, relPend := true }) true) s

/-- The factor types of MXFMT (R258). -/
def mxTypes : List Nat := [0x12, 0x13, 0x14, 0x15, 0x16, 0x17, 0x18, 0, 4, 8, 9]

/-- MXFMT (R258). Within its step 2 the spec gives no order: of two types that fail there the model reports atype, and then btype
(DESIGN CHOICE, log entry 61). -/
def execMxfmt (a : BitVec 8) (s : State) : Outcome State Fault Refusal :=
  issue (.mxfmt a) (fun c s => c.mx fun m _ =>
    let v := (c.g.getS c.n2).toNat
    let pb := c.g.getS (c.n2 + 1)
    let n := bitsOf v 20 4
    let at_ := bitsOf v 0 5
    let bt := bitsOf v 8 5
    let acc := v.testBit 16
    if bitsOf v 24 40 != 0 || bitsOf v 17 3 != 0 || bitsOf v 13 3 != 0 || bitsOf v 5 3 != 0 || pb.toNat ≥ 2 ^ 57
        || !([0, 3, 4, 6] : List Nat).contains n || !tALL.contains at_ || !tALL.contains bt then c.illegal
    else
      let bad : Option Nat :=
        if !mxTypes.contains at_ then some at_
        else if !mxTypes.contains bt then some bt
        else if typeWidth at_ != typeWidth bt || typeInt at_ != typeInt bt || acc != typeInt bt then some bt
        else if !contractAllows c.eff at_ then some at_
        else if !contractAllows c.eff bt then some bt
        else if n != 0 && !ctSparse c.eff then some (0x100 + n)
        else none
      match bad with
      | some t => .trap cTYPE (BitVec.ofNat 64 t)
      | none =>
        let f : MxFmt := ⟨n, acc, bt, at_, pb⟩
        c.enqueue s m .mx (.fmt f) fun x => { x with fmtView := f }) s

/-- A plane image of R247. -/
def planeBytes : Nat := 18432

/-- The image of a load or store: aligned to 32 and checked whole (R259, R277). -/
def Ctx.image (c : Ctx) (s : State) (n : Nat) (r w : Bool) (f : BarLoc → Res) : Res :=
  let a := c.g.getS c.n2
  if a.toNat % 32 ≠ 0 then .trap cALIGN (BitVec.ofNat 64 (a.toNat % 2 ^ 57))
  else match s.checkDesc c.k c.h c.blk a n r w with
    | .error e => e.trap
    | .ok l => f l

/-- MXLDW (R259). -/
def execMxldw (a : BitVec 8) (n : BitVec 4) (s : State) : Outcome State Fault Refusal :=
  issue (.mxldw a n) (fun c s => c.mx fun m _ => c.image s planeBytes true false fun l =>
    c.enqueue s m .mx (.ldw l n.toNat 1)) s

/-- MXLDWS (R259). -/
def execMxldws (a : BitVec 8) (n : BitVec 4) (s : State) : Outcome State Fault Refusal :=
  issue (.mxldws a n) (fun c s => c.mx fun m _ => c.image s (2 * planeBytes) true false fun l =>
    c.enqueue s m .mx (.ldw l n.toNat 2)) s

/-- MXZERO (R260). -/
def execMxzero (a : BitVec 8) (s : State) : Outcome State Fault Refusal :=
  issue (.mxzero a) (fun c s => c.mx fun m _ =>
    let v := (c.g.getS c.n2).toNat
    if v ≥ 2 ^ 32 then c.illegal
    else c.enqueue s m .mx (.zero (BitVec.ofNat 16 v) (BitVec.ofNat 16 (v / 2 ^ 16)))) s

/-- MXMMA (R261). -/
def execMxmma (t n : BitVec 4) (i : BitVec 8) (h y : BitVec 1) (s : State) : Outcome State Fault Refusal :=
  issue (.mxmma t n i h y) (fun c s => c.held fun m x =>
    let sp := y == 1
    if sp && x.fmtView.n == 0 then c.illegal
    else c.sound (c.gather s (if sp then 288 * 12 / x.fmtView.n else 288) (h == 1) x.fmtView.padbase fun rows =>
      c.enqueue s m .mx (.mma t.toNat n.toNat sp rows))) s

/-- What an entry leaves a tile as (R263). -/
def outEntry (i32 : Bool) (e : BitVec 40) : Nat := if i32 then e.toNat % 2 ^ 32 else entryOut e

/-- The two entries that MXRD gives a lane (R263). -/
def Abacus.column (a : Abacus) (tile col lane : Nat) : U64 :=
  packElems 32 ([0, 1].map fun h => outEntry a.fmt.accI32 (a.entry tile (2 * lane + h) col))

/-- Whether one of them is poisoned. -/
def Abacus.columnBad (a : Abacus) (tile col lane : Nat) : Bool :=
  [0, 1].any fun h => a.tileBad.contains (tileKey tile (2 * lane + h) col)

/-- A queued MXRD runs: every lane that still waits takes its entries. A poisoned entry of a live lane writes nothing (R265): the
lane keeps its content, and is poisoned, since the word can trap no more (log entry 15). -/
def Group.takeColumn (g : Group) (id vd : Nat) (lanes live : BitVec 32) (a : Abacus) (tile col : Nat) : Group :=
  let g := (lanesOf lanes).foldl (fun g i =>
    if live.getLsbD i && a.columnBad tile col i then g.takeLane id vd i (g.getV vd i) true
    else g.takeLane id vd i (a.column tile col i) false) g
  g.settlePend (g.pend.filter fun e => e.id != id)

/-- MXWR (R263). -/
def execMxwr (a t k : BitVec 8) (s : State) : Outcome State Fault Refusal :=
  issue (.mxwr a t k) (fun c s => c.mx fun m _ =>
    c.enqueue s m .mx (.wr t.toNat k.toNat (c.liveLanes.flatMap fun i => [0, 1].map fun h =>
      (2 * i + h, BitVec.ofNat 32 (elem 32 h (c.g.getV c.n1 i)))))) s

/-- The destination type of an MXST control word (R264). -/
def stType (v : Nat) (i32 : Bool) : Nat := if bitsOf v 8 5 = 0x1F then (if i32 then 2 else 0x11) else bitsOf v 8 5

/-- MXST (R264). -/
def execMxst (a : BitVec 8) (s : State) : Outcome State Fault Refusal :=
  issue (.mxst a) (fun c s => c.mx fun m x =>
    let dst := c.g.getS c.n2
    let ctl := c.g.getS (c.n2 + 1)
    let v := ctl.toNat
    let d := bitsOf v 8 5
    if bitsOf v 48 16 != 0 || bitsOf v 18 14 != 0 || bitsOf v 4 4 != 0 || bitsOf v 13 3 ≥ 5
        || (d != 0x1F && !tALL.contains d) then c.illegal
    else if d = 0x16 || d = 0x17 then .trap cTYPE (BitVec.ofNat 64 d)
    else
      let t := stType v x.fmtView.accI32
      let stride := bitsOf v 32 16
      let rows := c.liveLanes.flatMap fun i => [2 * i, 2 * i + 1]
      let go (l : BarLoc) : Res := c.enqueue s m .mx (.st l ctl rows)
      if dst.toNat % 2 ^ 57 % elemSize t ≠ 0 || stride % elemSize t ≠ 0 then
        .trap cALIGN (BitVec.ofNat 64 (dst.toNat % 2 ^ 57))
      else match rows.head?, rows.getLast? with
        | some lo, some hi =>
          (match s.checkDesc c.k c.h c.blk (dst + BitVec.ofNat 64 (lo * stride))
              ((hi - lo) * stride + 64 * typeWidth t / 8) false true with
           | .error e => e.trap
           | .ok l => go l)
        | _, _ => go (.shared c.blk 0)) s

/-! ## The effects of queued operations -/

/-- Elements of a row (R65): `n` codes of a type from its bytes. -/
def rowCodes (t n : Nat) (bs : List Byte) : List Nat :=
  match typeWidth t with
  | 4 => (bs.flatMap fun b => [b.toNat % 16, b.toNat / 16]).take n
  | 16 => (List.range n).map fun i => leNat ((bs.drop (2 * i)).take 2)
  | 32 => (List.range n).map fun i => leNat ((bs.drop (4 * i)).take 4)
  | _ => (bs.map fun b => b.toNat).take n

/-- The bytes of a row of codes of `w` bits (R65). -/
def rowBytes (w : Nat) : List Nat → List Byte
  | [] => []
  | [x] => leBytes (max 1 (w / 8)) x
  | x :: y :: r =>
    if w = 4 then BitVec.ofNat 8 (x % 16 + y % 16 * 16) :: rowBytes w r
    else leBytes (w / 8) x ++ leBytes (w / 8) y ++ rowBytes w r

/-- The depth of a plane (R248). -/
def depthOf (t : Nat) : Nat := 144 * (16 / typeWidth t)

/-- Column `c` of a weight plane with its metadata (R248, R249): for each physical position the code and the position. -/
def planeColumn (cells : Array (BitVec 256)) (t slot c : Nat) : List (Nat × Nat) :=
  (List.range 144).flatMap fun r =>
    let cell := (cells[64 * r + c]?).getD 0
    (List.range (16 / typeWidth t)).map fun j =>
      (slotOf cell slot / 2 ^ (typeWidth t * j) % 2 ^ typeWidth t, slotOf cell (slot + 1) / 16 ^ j % 16)

/-- The pairs of factors that meet in one entry; `none` where a position is 12 or more (R249, R262). -/
def mmaPairs (n : Nat) (row : Array Nat) (col : List (Nat × Nat)) : List (Option (Nat × Nat)) :=
  ((List.range col.length).zip col).map fun q =>
    if n = 0 then some ((row[q.1]?).getD 0, q.2.1)
    else if q.2.2 ≥ 12 then none
    else some ((row[12 * (q.1 / n) + q.2.2]?).getD 0, q.2.1)

/-- One entry of a multiply-accumulate (R262). -/
def mmaEntry (ct : Nat) (f : MxFmt) (old : BitVec 40) (ps : List (Option (Nat × Nat))) : BitVec 40 :=
  if f.accI32 then
    let sum := ps.foldl (fun (a : Int) p => match p with
      | some (x, y) => a + intVal f.atype x * intVal f.btype y
      | none => a) 0
    BitVec.ofNat 40 (wrapInt 32 ((old.toNat % 2 ^ 32 : Nat) + sum))
  else
    accEntry ct (dotVal ct (entryAcc ct old) (ps.map fun p => match p with
      | some (x, y) => Val.mul (factor ct f.atype x) (factor ct f.btype y)
      | none => Val.zero))

/-- MXMMA runs (R262, R265). -/
def Abacus.mma (a : Abacus) (ct tile slot : Nat) (sparse : Bool) (rows : List (Nat × List Byte)) : Abacus :=
  let cells := a.cellList.toArray
  let n := if sparse then a.fmt.n else 0
  let depth := if sparse then depthOf a.fmt.btype * 12 / a.fmt.n else depthOf a.fmt.btype
  let data := rows.map fun r => (r.1, (rowCodes a.fmt.atype depth r.2).toArray)
  ((List.range 64).foldl (fun a c =>
    let col := planeColumn cells a.fmt.btype slot c
    let bad := a.cellBad.any fun x => x % 64 == c
    data.foldl (fun a r =>
      a.putEntry tile r.1 c (mmaEntry ct a.fmt (a.entry tile r.1 c) (mmaPairs n r.2 col))
        (bad || a.tileBad.contains (tileKey tile r.1 c))) a) a).liven tile

/-- Slots of cells have been overwritten: a poisoned cell is clean again once all 16 have been (R265). -/
def Abacus.overwrote (a : Abacus) (slots : BitVec 16) (cells : List Nat) : Abacus :=
  let seen := a.cellBad.filterMap fun x =>
    let m := (a.cellOver.find x).getD 0 ||| (if cells.contains x then slots else 0)
    if m = 0 then none else some (x, m)
  let clean := (seen.filter fun o => o.2 == 0xFFFF).map Prod.fst
  { a with
    cellBad := a.cellBad.filter fun x => !clean.contains x
    cellOver := seen.foldl (fun t o => if o.2 = 0xFFFF then t else t.put o.1 o.2) [] }

/-- A poisoned image byte poisons its cell (R259). -/
def Abacus.spoilCells (a : Abacus) (bad : List Nat) : Abacus :=
  bad.foldl Abacus.spoilCell a

/-- MXLDW and MXLDWS run: `planes` planes from an image (R247, R259). -/
def State.mxLoad (s : State) (l : BarLoc) (slot planes : Nat) (a : Abacus) : Abacus :=
  (List.range planes).foldl (fun a p =>
    let codes := rowCodes 0x12 9216 (s.engRead l (planeBytes * p) planeBytes)
    let bad := (List.range 9216).filter fun i => s.engBad l (planeBytes * p + 2 * i)
    let cells := SMap.ofList 0 ((a.cellList.zip codes).map fun q => withSlot q.1 (slot + p) q.2)
    let a := { a with cells := cells, liveS := a.liveS ||| (1#16 <<< (slot + p)) }
    (a.overwrote (1#16 <<< (slot + p)) (List.range 9216)).spoilCells bad) a

/-- MXZERO runs (R260). -/
def Abacus.zero (a : Abacus) (tiles slots : BitVec 16) : Abacus :=
  let keep (k : Nat) : Bool := !tiles.getLsbD (k / 4096)
  let wipe (c : BitVec 256) : BitVec 256 :=
    (List.range 16).foldl (fun c j => if slots.getLsbD j then withSlot c j 0 else c) c
  ({ a with
      tiles := a.tiles.filter fun e => keep e.1
      tileBad := a.tileBad.filter keep
      liveT := a.liveT &&& ~~~tiles
      cells := SMap.ofList 0 (a.cellList.map wipe)
      liveS := a.liveS &&& ~~~slots }).overwrote slots (List.range 9216)

/-- MXWR runs (R263). -/
def Abacus.wr (a : Abacus) (tile col : Nat) (vals : List (Nat × BitVec 32)) : Abacus :=
  (vals.foldl (fun a v =>
    a.putEntry tile v.1 col (if a.fmt.accI32 then v.2.setWidth 40 else entryIn v.2.toNat) false) a).liven tile

/-- One stored element of an MXST: its source value and its code (R264). -/
def stElem (v : Nat) (i32 : Bool) (e : BitVec 40) : Val × Nat × Bool :=
  let st := if i32 then 2 else 0x11
  let x := outEntry i32 e
  let same := bitsOf v 8 5 = 0x1F
  (typeVal st x, if same then x else convert st (stType v i32) (bitsOf v 13 3) (v.testBit 16) x,
    !same && nanLost st (stType v i32) x)

/-- Words at a place that the bytes of a write cover whole are clean (R222, R412). -/
def State.engMend (s : State) (l : BarLoc) (offs : List Nat) : State :=
  match l with
  | .shared b o => s.cleanBytes b (offs.map fun i => o + i) []
  | .pad ia => s.cleanBytes 0 [] (offs.map fun i => s.padKeyOf ia + i)

/-- The objects that bytes at a place touch and that are armed, or that an operation has found armed before. -/
def State.engMet (s : State) (l : BarLoc) (offs met : List Nat) : List Nat :=
  match l with
  | .shared b o => armedHits (((s.block b).map Block.bars).getD []) (offs.map fun i => o + i) fun x =>
      (BarObj.of (s.barGet (.shared b x))).armed || met.contains x
  | .pad ia => armedHits s.padBars (offs.map fun i => s.padKeyOf ia + i) fun a => (s.barAt a).armed || met.contains a

/-- Objects of a place are in error. -/
def State.engFail (s : State) (l : BarLoc) (objs : List Nat) : State :=
  match l with
  | .shared b _ => objs.foldl (fun s o => s.barError (.shared b o)) s
  | .pad _ => s.keyErrors objs

/-- The objects at a place that were armed before an operation wrote bytes there are in error (R183). -/
def State.engErrors (s old : State) (l : BarLoc) (offs : List Nat) : State := s.engFail l (old.engMet l offs [])

/-- The offsets of the bytes of units. -/
def unitOffs (us : List (Nat × List Byte × Bool)) : List Nat :=
  us.flatMap fun u => (List.range u.2.1.length).map fun i => u.1 + i

/-- An engine's writes: units of bytes at offsets from a place, each good or poisoned. They are unordered among themselves
(R231, R264), so any order may hold where two of them `meet`; a word that good units cover whole is clean, and one that takes
a poisoned unit is poisoned (R239, R412). -/
def State.engUnits (s : State) (l : BarLoc) (meet : Bool) (us : List (Nat × List Byte × Bool)) : State :=
  let us' := if meet then shuffle s.free us.length us else us
  let s0 := if meet then { s with free := s.free + us.length } else s
  let s := us'.foldl (fun s u => s.engWrite l u.1 u.2.1) s0
  let s := s.engMend l (unitOffs (us.filter fun u => !u.2.2))
  ((us.filter fun u => u.2.2).foldl (fun s u => s.engSpoil l u.1) s).engErrors s0 l (unitOffs us)

/-- The units of a stored row of 64 codes of `w` bits at an offset: an element, or a pair of 4-bit ones (R65). -/
def rowUnits (w off : Nat) (es : List (Nat × Bool)) : List (Nat × List Byte × Bool) :=
  if w = 4 then
    (List.range 32).map fun j =>
      (off + j, rowBytes 4 [(es[2 * j]?.getD (0, false)).1, (es[2 * j + 1]?.getD (0, false)).1],
        (es[2 * j]?.getD (0, false)).2 || (es[2 * j + 1]?.getD (0, false)).2)
  else (List.range 64).map fun j => (off + j * w / 8, leBytes (w / 8) (es[j]?.getD (0, false)).1, (es[j]?.getD (0, false)).2)

/-- MXST runs: the elements of its rows are written in any order, poisoned entries as poisoned words (R231, R264, R265). -/
def State.mxStore (s : State) (b gid : Nat) (a : Abacus) (l : BarLoc) (ctl : U64) (rows : List Nat) : State :=
  let v := ctl.toNat
  let w := typeWidth (stType v a.fmt.accI32)
  let stride := bitsOf v 32 16
  let tile := bitsOf v 0 4
  let lo := rows.headD 0
  let es (m : Nat) := (List.range 64).map fun c =>
    (stElem v a.fmt.accI32 (a.entry tile m c), a.tileBad.contains (tileKey tile m c))
  let s := s.engUnits l (stride < 8 * w)
    (rows.flatMap fun m => rowUnits w ((m - lo) * stride) ((es m).map fun e => (e.1.2.1, e.2)))
  let good := (rows.flatMap es).filter fun e => !e.2
  s.modGroup b gid fun g =>
    (if v.testBit 17 then g.fold (good.map fun e => e.1.1) else g).setNan (good.any fun e => e.1.2.2)

end Sys2Proof.Machine
end

