-- ==== Sys2Proof/Machine/Spline.lean ====
section
/-! DEFINITION. Spline mode: the basis (R272 to R275), the spline instructions (R276 to R289), and the step by which the
abacus carries out the next queued operation (R256, R217). -/

namespace Sys2Proof.Machine

open Host (Outcome)

/-! ## F32 arithmetic, one rounding an operation (R272, R273) -/

/-- A sum. -/
def sAdd (a b : Val) : Val := r32 false (Val.add false a b)
/-- A difference. -/
def sSub (a b : Val) : Val := sAdd a b.neg
/-- A product. -/
def sMul (a b : Val) : Val := r32 false (Val.mul a b)
/-- A product and a sum, rounded once. -/
def sFma (a b c : Val) : Val := r32 false (Val.add false (Val.mul a b) c)
/-- A quotient by a small integer. -/
def sDiv (a : Val) (n : Int) : Val := r32 false (Val.div a (Val.ofInt n))
/-- A small integer. -/
def sInt (n : Int) : Val := Val.ofInt n

/-- The basis values and their derivatives at t (R273). -/
def basis (cubic : Bool) (t : Val) : List Val × List Val :=
  let s := sSub (sInt 1) t
  if cubic then
    let t2 := sMul t t
    let s2 := sMul s s
    let mid (x x2 : Val) : Val := sDiv (sAdd (sMul x2 (sFma (sInt 3) x (sInt (-6)))) (sInt 4)) 6
    let slope (x : Val) : Val := sDiv (sMul x (sFma (sInt 3) x (sInt (-4)))) 2
    ([sDiv (sMul s2 s) 6, mid t t2, mid s s2, sDiv (sMul t2 t) 6],
     [(sDiv s2 2).neg, slope t, (slope s).neg, sDiv t2 2])
  else ([s, t], [sInt (-1), sInt 1])

/-- Where an input lies (R272, R275). -/
inductive GridSide where
  | inside | below | above | nan
deriving DecidableEq, Repr

/-- One input of a cell row: u, its place, m (none where ZERO sends it out of grid), e and db (R272 to R275). -/
structure Input where
  u  : Val
  at_ : GridSide
  m  : Option Nat
  e  : List Val
  db : List Val

/-- The value of an F32 code. -/
def val32 (c : BitVec 32) : Val := fF32.val c.toNat

/-- The analysis of a recorded xp under the knot registers (R272 to R275). -/
def Knot.input (k : Knot) (xp : Val) : Input :=
  let u := sMul (sSub xp (val32 k.klo)) (val32 k.kinv)
  let g := sInt k.g
  let n := if k.cubic then 4 else 2
  if u.isNan then ⟨u, .nan, some 0, List.replicate n .nan, List.replicate n .nan⟩
  else
    let below := u.cmp Val.zero == .lt
    let above := u.cmp g != .lt
    if !below && !above then
      match u.integral 2 with
      | .fin _ q _ =>
        let (b, db) := basis k.cubic (Val.add false u (sInt q).neg)
        ⟨u, .inside, some q, b, db⟩
      | _ => ⟨u, .inside, some 0, [], []⟩
    else
      let (b, db) := basis k.cubic (if below then Val.zero else sInt 1)
      let m := if below then 0 else k.g - 1
      let at_ := if below then GridSide.below else GridSide.above
      match k.clamp with
      | 0 => ⟨u, at_, some m, b, db⟩
      | 1 => ⟨u, at_, none, [], db⟩
      | _ =>
        let d := if below then u else sSub u g
        ⟨u, at_, some m, (b.zip db).map fun p => sFma d p.2 p.1, db⟩

/-- The base function of an input (R274). -/
def baseVal (core : CoreSt) (ct : Nat) (k : Knot) (xp : Val) : Val :=
  match k.base with
  | 0 => Val.zero
  | 1 => xp
  | _ => r32 false (specVal core ct 8 xp)

/-- The derivative of the base function, rounded (R285). At an infinity it is taken as the limit (log entry 16). -/
def baseSlope (k : Knot) (xp : Val) : Val :=
  match k.base with
  | 0 => Val.zero
  | 1 => sInt 1
  | _ =>
    match xp with
    | .nan => .nan
    | .inf neg => if neg then Val.zero else sInt 1
    | .fin s m e => r32 false (if m = 0 then .fin false 1 (-1) else siluSlope s m e)

/-- The coefficient type of the knot registers. -/
def Knot.ctype (k : Knot) : Nat := if k.bf16 then 0x13 else 0x12

/-- The activation type of the knot registers. -/
def Knot.atype (k : Knot) : Nat := match k.xtype with | 0 => 0x11 | 1 => 0x12 | _ => 0x13

/-- A sum of products that leaves a cell as F32 (R274, R284, R285). -/
def cellSum (ct : Nat) (ts : List Val) : Val := r32 false ((fACC (ctAccw ct)).val (dotVal ct Val.zero ts))

/-- The value of a cell for weights e from coefficient m on, and a base factor (R274, R285). -/
def cellVal (ct : Nat) (k : Knot) (cell : BitVec 256) (m : Option Nat) (e : List Val) (base : Val) : Val :=
  let f := fmtOf k.ctype
  let cs := match m with
    | none => []
    | some m => ((List.range e.length).zip e).map fun q => Val.mul (f.val (slotOf cell (m + q.1))) q.2
  cellSum ct (cs ++ [Val.mul (f.val (slotOf cell 15)) base])

/-! ## Issue -/

/-- SPKNOT's fields, or nothing where one of them is refused (R269). -/
def knotOf (a b c : Nat) : Option Knot :=
  let k : Knot := ⟨BitVec.ofNat 32 a, BitVec.ofNat 32 (a / 2 ^ 32), bitsOf b 0 4, b.testBit 4, bitsOf b 8 2, bitsOf b 12 2,
    b.testBit 16, bitsOf b 20 2, BitVec.ofNat 64 c⟩
  let kinv := a / 2 ^ 32
  if bitsOf b 22 42 != 0 || bitsOf b 17 3 != 0 || bitsOf b 14 2 != 0 || bitsOf b 10 2 != 0 || bitsOf b 5 3 != 0
      || c ≥ 2 ^ 57 || k.xtype == 3 || k.base == 3 || k.clamp == 3 || k.g == 0 || k.g > (if k.cubic then 12 else 14)
      || bitsOf a 23 8 == 255 || kinv.testBit 31 || bitsOf kinv 23 8 == 0 || bitsOf kinv 23 8 == 255 then none
  else some k

/-- SPKNOT (R269, R270). -/
def execSpknot (a : BitVec 8) (s : State) : Outcome State Fault Refusal :=
  issue (.spknot a) (fun c s => c.mx fun m _ =>
    let r (i : Nat) : Nat := (c.g.getS (c.n2 + i)).toNat
    match knotOf (r 0) (r 1) (r 2) with
    | none => c.illegal
    | some k => c.enqueue s m .sp (.knot k) fun x => { x with knotView := k }) s

/-- SPAFF (R271, R277). -/
def execSpaff (a : BitVec 8) (s : State) : Outcome State Fault Refusal :=
  issue (.spaff a) (fun c s => c.mx fun m _ => c.image s 1152 true false fun l => c.enqueue s m .sp (.aff l)) s

/-- A spline image (R267). -/
def splineBytes : Nat := 294912

/-- SPLDC (R277). -/
def execSpldc (a : BitVec 8) (s : State) : Outcome State Fault Refusal :=
  issue (.spldc a) (fun c s => c.mx fun m _ => c.image s splineBytes true false fun l => c.enqueue s m .sp (.ldc l)) s

/-- SPSTC (R277). -/
def execSpstc (a : BitVec 8) (s : State) : Outcome State Fault Refusal :=
  issue (.spstc a) (fun c s => c.mx fun m _ => c.image s splineBytes false true fun l => c.enqueue s m .sp (.stc l)) s

/-- SPEVAL (R279). -/
def execSpeval (i : BitVec 8) (p : BitVec 1) (t : BitVec 4) (s : State) : Outcome State Fault Refusal :=
  issue (.speval i p t) (fun c s => c.mx fun m x =>
    c.gather s (if x.knotView.xtype = 0 then 576 else 288) (p == 1) x.knotView.padbase fun rows =>
      c.enqueue s m .sp (.eval t.toNat rows)) s

/-- A buffer of SPGRAD or SPDX: 4-byte alignment of its address and strides, then the space checks. -/
def Ctx.buffer (c : Ctx) (s : State) (a : U64) (strides : List Nat) (n : Nat) (r : Bool) (f : BarLoc → Res) : Res :=
  if a.toNat % 4 ≠ 0 || strides.any (fun x => x % 4 != 0) then .trap cALIGN (BitVec.ofNat 64 (a.toNat % 2 ^ 57))
  else match s.checkDesc c.k c.h c.blk a n r true with
    | .error e => e.trap
    | .ok l => f l

/-- SPGRAD (R283). -/
def execSpgrad (a : BitVec 8) (s : State) : Outcome State Fault Refusal :=
  issue (.spgrad a) (fun c s => c.mx fun m _ =>
    let d1 := c.g.getS (c.n2 + 1)
    let d2 := c.g.getS (c.n2 + 2)
    let v := d1.toNat
    let j := bitsOf v 16 7
    let j0 := bitsOf v 8 6
    if bitsOf v 23 41 != 0 || bitsOf v 14 2 != 0 || bitsOf v 4 4 != 0 || j = 0 || j > 64 || j0 + j > 64 then c.illegal
    else
      let cs := d2.toNat / 2 ^ 32
      let rs := d2.toNat % 2 ^ 32
      c.buffer s (c.g.getS c.n2) [cs, rs] ((j - 1) * cs + 143 * rs + 64) true fun l =>
        c.enqueue s m .sp (.grad l d1 d2)) s

/-- SPDX (R285). -/
def execSpdx (a : BitVec 8) (s : State) : Outcome State Fault Refusal :=
  issue (.spdx a) (fun c s => c.mx fun m _ =>
    let d1 := c.g.getS (c.n2 + 1)
    let v := d1.toNat
    if bitsOf v 48 16 != 0 || bitsOf v 4 28 != 0 then c.illegal
    else
      let st := bitsOf v 32 16
      c.buffer s (c.g.getS c.n2) [st] (63 * st + 576) false fun l => c.enqueue s m .sp (.dx l d1)) s

/-- The knot registers after a refinement (R286). -/
def Knot.refined (k : Knot) : Knot := { k with g := 2 * k.g, kinv := k.kinv + 0x800000 }

/-- SPREF (R286). -/
def execSpref (s : State) : Outcome State Fault Refusal :=
  issue .spref (fun c s => c.mx fun m x =>
    let k := x.knotView
    if 2 * k.g + (if k.cubic then 3 else 1) > 15 || bitsOf k.kinv.toNat 23 8 ≥ 253 then c.illegal
    else c.enqueue s m .sp .refine fun x => { x with knotView := x.knotView.refined }) s

/-- SPCNT (R287). -/
def execSpcnt (d a : BitVec 8) (s : State) : Outcome State Fault Refusal :=
  issue (.spcnt d a) (fun c s => c.mx fun m _ =>
    let v := (c.g.getS c.n3).toNat
    if v % 256 > 143 || v ≥ 512 then c.illegal
    else
      let id := s.nextId
      match c.enqueue s m .sp (.cnt (v % 256) (v.testBit 8) c.n2) with
      | .done s j => .done (s.modGroup c.blk c.gid fun g =>
          { g with pend := g.pend ++ (([c.n2, c.n2 + 1].filter (· != 0)).map fun r => ⟨id, .s r, 0xFFFFFFFF, id, 0⟩) }) j
      | r => r) s

/-! ## The effects of queued operations -/

/-- SPEVAL on one row: the recorded xp and the inputs (R272, R281). -/
def Abacus.rowInputs (a : Abacus) (bs : List Byte) : List (Nat × BitVec 32 × Input) :=
  let codes := rowCodes a.knot.atype 144 bs
  ((List.range 144).zip codes).map fun q =>
    let xp := rne32 (Val.add false
      (Val.mul ((fmtOf a.knot.atype).val q.2) (val32 (a.scale.get q.1 ^^^ 0x3F800000))) (val32 (a.bias.get q.1)))
    (q.1, BitVec.ofNat 32 xp, a.knot.input (fF32.val xp))

/-- An out-of-grid input joins its row's counters, once (R282). -/
def Abacus.count1 (a : Abacus) (r : Nat) (i : Input) : Abacus :=
  if i.at_ = .inside then a
  else
    let u := rne32 i.u
    { a with
      count := if a.count.get r = 0xFFFFFFFF then a.count else a.count.set r (a.count.get r + 1)
      least := a.least.put r (BitVec.ofNat 32 (fMinMax fF32 false ((a.least.find r).getD 0x7F800000).toNat u))
      greatest := a.greatest.put r (BitVec.ofNat 32 (fMinMax fF32 true ((a.greatest.find r).getD 0xFF800000).toNat u)) }

/-- SPEVAL runs (R280 to R282, R289). -/
def Abacus.eval (a : Abacus) (core : CoreSt) (ct tile : Nat) (rows : List (Nat × List Byte)) : Abacus :=
  let cells := a.cellList.toArray
  let a := { a with latch := [] }
  (rows.foldl (fun a r =>
    let ins := a.rowInputs r.2
    let bases := ins.map fun i => (i, baseVal core ct a.knot (val32 i.2.1))
    let a := { a with latch := a.latch.put r.1 (SMap.setMany [] (ins.map fun i => (i.1, i.2.1))) }
    let a := (List.range 64).foldl (fun a c =>
      let ts := bases.map fun b => cellVal ct a.knot ((cells[64 * b.1.1 + c]?).getD 0) b.1.2.2.m b.1.2.2.e b.2
      let bad := a.tileBad.contains (tileKey tile r.1 c) || a.cellBad.any fun x => x % 64 == c
      a.putEntry tile r.1 c (accEntry ct (dotVal ct (entryAcc ct (a.entry tile r.1 c)) ts)) bad) a
    ins.foldl (fun a i => a.count1 i.1 i.2.2) a) a).liven tile

/-- The inputs of the valid rows for one abacus row, from the latch (R281). -/
def Abacus.latched (a : Abacus) (r : Nat) : List (Nat × Val × Input) :=
  a.latch.map fun l => let xp := val32 (l.2.get r); (l.1, xp, a.knot.input xp)

/-- dY of a valid row (R284). -/
def Abacus.dY (a : Abacus) (tile n c : Nat) : Val := fF32.val (entryOut (a.entry tile n c))

/-- The gradients that an SPGRAD adds (R284, R289): offset, F32 code, and whether a poisoned cell or a poisoned dY that feeds the
entry poisons it. -/
def Abacus.gradients (a : Abacus) (core : CoreSt) (ct : Nat) (d1 d2 : U64) : List (Nat × Nat × Bool) :=
  let v := d1.toNat
  let dy := bitsOf v 0 4
  let j0 := bitsOf v 8 6
  let cs := d2.toNat / 2 ^ 32
  let rs := d2.toNat % 2 ^ 32
  (List.range (bitsOf v 16 7)).flatMap fun ci =>
    let c := j0 + ci
    let dys := a.latch.map fun r => (r.1, a.dY dy r.1 c)
    (List.range 144).flatMap fun r =>
      let ins := (a.latched r).zip dys
      (List.range 16).map fun q =>
        let feeds (i : Input) : Bool := q == 15 || (i.m.map fun m => m ≤ q && q - m < i.e.length) == some true
        let bad := a.cellBad.contains (64 * r + c)
          || (a.latched r).any fun i => feeds i.2.2 && a.tileBad.contains (tileKey dy i.1 c)
        let z (n : Nat) : Val :=
          match ins.find? fun i => i.2.1 == n with
          | none => Val.zero
          | some ((_, xp, i), (_, y)) =>
            if q = 15 then Val.mul y (baseVal core ct a.knot xp)
            else match i.m with
              | none => Val.zero
              | some m => if m ≤ q then ((i.e[q - m]?).map (Val.mul y)).getD Val.zero else Val.zero
        (ci * cs + r * rs + 4 * q, rne32 (cellSum ct ((List.range 64).map z)), bad)

/-- SPGRAD starts (R284): the entries that it updates, in any order where two name one entry. -/
def State.gradStart (s : State) (core : CoreSt) (ct : Nat) (a : Abacus) (d1 d2 : U64) : List (Nat × Nat × Bool) × State :=
  let j := bitsOf d1.toNat 16 7
  let cs := d2.toNat / 2 ^ 32
  let rs := d2.toNat % 2 ^ 32
  let es := a.gradients core ct d1 d2
  if (rs ≥ 64 && cs ≥ 143 * rs + 64) || (cs ≥ 64 && rs ≥ (j - 1) * cs + 64) then (es, s)
  else (shuffle s.free es.length es, { s with free := s.free + es.length })

/-- Entries of an SPGRAD are updated, one read-modify-write after another (R284, R289); `met` are the armed barrier objects that
it has met before, and those that it has met now come with the state (R183). -/
def State.gradAdd (s : State) (l : BarLoc) (es : List (Nat × Nat × Bool)) (met : List Nat) : State × List Nat :=
  let hit := s.engMet l (es.flatMap fun e => (List.range 4).map fun i => e.1 + i) met
  ((es.foldl (fun s e =>
    if e.2.2 then s.engSpoil l e.1
    else s.engWrite l e.1 (leBytes 4 (rne32 (Val.add false (fF32.val (leNat (s.engRead l e.1 4))) (fF32.val e.2.1))))) s).engFail l
    hit, met ++ hit)

/-- SPGRAD runs. -/
def State.spGrad (s : State) (core : CoreSt) (ct : Nat) (a : Abacus) (l : BarLoc) (d1 d2 : U64) : State :=
  let (es, s) := s.gradStart core ct a d1 d2
  (s.gradAdd l es []).1

/-- The values that an SPDX writes (R285, R289), as units: offset, bytes, poison. -/
def Abacus.inputGrads (a : Abacus) (ct : Nat) (d1 : U64) : List (Nat × List Byte × Bool) :=
  let dy := bitsOf d1.toNat 0 4
  let stride := bitsOf d1.toNat 32 16
  let cells := a.cellList.toArray
  let k := a.knot
  a.latch.flatMap fun row =>
    let n := row.1
    let ys := (List.range 64).map fun c => a.dY dy n c
    let fed := (List.range 64).any fun c => a.tileBad.contains (tileKey dy n c)
    (List.range 144).map fun r =>
      let xp := val32 (row.2.get r)
      let i := k.input xp
      let sent := (i.at_ == .below || i.at_ == .above) && k.clamp != 2
      let de := if sent then i.db.map fun _ => Val.zero else i.db.map fun x => sMul x (val32 k.kinv)
      let slope := baseSlope k xp
      let ts := ((List.range 64).zip ys).map fun q =>
        Val.mul q.2 (cellVal ct k ((cells[64 * r + q.1]?).getD 0) i.m (if i.m.isNone then [] else de) slope)
      let dx := sMul (cellSum ct ts) (val32 (a.scale.get r ^^^ 0x3F800000))
      (n * stride + 4 * r, leBytes 4 (rne32 dx), fed || a.cellBad.any fun x => x / 64 == r)

/-- SPDX runs: its writes are an engine's, in any order where rows meet (R231, R285). -/
def State.spDx (s : State) (ct : Nat) (a : Abacus) (l : BarLoc) (d1 : U64) : State :=
  s.engUnits l (bitsOf d1.toNat 32 16 < 576) (a.inputGrads ct d1)

/-- The refined coefficients of one cell (R286). -/
def refineCell (k : Knot) (cell : BitVec 256) : BitVec 256 :=
  let f := fmtOf k.ctype
  let c (j : Nat) : Val := f.val (slotOf cell j)
  let new (p : Nat) : Nat :=
    let q := p / 2
    if p > 2 * k.g + (if k.cubic then 2 else 0) then 0
    else
      let v : Val :=
        if k.cubic then
          if p % 2 = 0 then (Val.add false (c q) (c (q + 1))).scale (-1)
          else (Val.add false (Val.add false (c q) (Val.mul (sInt 6) (c (q + 1)))) (c (q + 2))).scale (-3)
        else if p % 2 = 0 then c q
        else (Val.add false (c q) (c (q + 1))).scale (-1)
      f.round 0 false v
  (List.range 15).foldl (fun x p => withSlot x p (new p)) cell

/-- SPREF runs (R286). -/
def Abacus.refine (a : Abacus) : Abacus :=
  { a with
    cells := SMap.ofList 0 (a.cellList.map (refineCell a.knot))
    liveS := 0xFFFF
    knot := a.knot.refined }

/-- SPAFF runs (R271). -/
def State.spAff (s : State) (l : BarLoc) (a : Abacus) : Abacus :=
  let codes := rowCodes 0x11 288 (s.engRead l 0 1152)
  let pick (h : Nat) : List (BitVec 32) := (List.range 144).map fun r => BitVec.ofNat 32 (codes.getD (2 * r + h) 0)
  { a with scale := SMap.ofList 0 ((pick 0).map fun v => v ^^^ 0x3F800000), bias := SMap.ofList 0 (pick 1) }

/-- SPLDC runs: every slot of every cell is overwritten (R267, R277). -/
def State.spLoad (s : State) (l : BarLoc) (a : Abacus) : Abacus :=
  let bs := (s.engRead l 0 splineBytes).toArray
  let cell (i : Nat) : BitVec 256 := BitVec.ofNat 256 (leNat ((List.range 32).map fun j => (bs[32 * i + j]?).getD 0))
  let bad := (List.range 9216).filter fun i => (List.range 4).any fun j => s.engBad l (32 * i + 8 * j)
  { a with cells := SMap.ofList 0 ((List.range 9216).map cell), liveS := 0xFFFF, cellBad := bad, cellOver := [] }

/-- SPSTC runs (R277, R289). -/
def State.spStore (s : State) (l : BarLoc) (a : Abacus) : State :=
  let s := s.engWrite l 0 (a.cellList.flatMap fun c => leBytes 32 c.toNat)
  a.cellBad.foldl (fun s i => (List.range 4).foldl (fun s j => s.engSpoil l (32 * i + 8 * j)) s) s

/-- A row's counters return to their placement values (R287). -/
def Abacus.clearCount (a : Abacus) (r : Nat) : Abacus :=
  { a with count := a.count.set r 0, least := a.least.del r, greatest := a.greatest.del r }

/-- SPCNT runs (R287). -/
def Group.takeCount (g : Group) (id sd : Nat) (lo hi : U64) : Group :=
  let g := (g.landOne id sd lo).landOne id (sd + 1) hi
  g.settlePend (g.pend.filter fun e => e.id != id)

/-- The cycles that an operation occupies the array (R257, R276); those that only move data count 0. -/
def MxKind.busy (k : MxKind) : Nat :=
  match k with
  | .mma .. => 64
  | .eval .. => 256
  | .grad .. => 512
  | .grads .. => 512
  | .dx .. => 512
  | .refine => 48
  | _ => 0

/-- A queued operation runs to its results. -/
def State.runMx (s : State) (b m : Nat) (k : Block) (o : MxOp) (core : Nat) : State :=
  let ct := (s.hdr k).eff
  let a := k.abacus m
  let put (f : Abacus → Abacus) : State := s.modAbacus b m f
  match o.kind with
  | .fmt f => put fun a => { a with fmt := f }
  | .ldw l slot planes => put (s.mxLoad l slot planes)
  | .zero t sl => put fun a => a.zero t sl
  | .st l ctl rows => s.mxStore b o.gid a l ctl rows
  | .mma t sl sp rows => put fun a => a.mma ct t sl sp rows
  | .wr t c vs => put fun a => a.wr t c vs
  | .rel => s
  | .knot kn => put fun a => { a with knot := kn }
  | .aff l =>
    if (List.range 1152).any fun i => s.engBad l i then s.coreFault core      -- R224, R289
    else put (s.spAff l)
  | .ldc l => put (s.spLoad l)
  | .eval t rows => put fun a => a.eval (s.core core) ct t rows
  | .grad l d1 d2 => s.spGrad (s.core core) ct a l d1 d2
  | .grads l es met => (s.gradAdd l es met).1
  | .dx l d1 => s.spDx ct a l d1
  | .refine => put Abacus.refine
  | .stc l => s.spStore l a
  | .cnt r clear sd =>
    let lo : U64 := (a.count.get r).setWidth 64
    let hi : U64 := BitVec.ofNat 64 (((a.greatest.find r).getD 0xFF800000).toNat * 2 ^ 32
      + ((a.least.find r).getD 0x7F800000).toNat)
    (if clear then put fun a => a.clearCount r else s).modGroup b o.gid fun g => g.takeCount o.id sd lo hi
  | .rd t c vd lanes live => s.modGroup b o.gid fun g => g.takeColumn o.id vd lanes live a t c

/-- The head of a member's queue runs to its end, and the next one becomes the head; at a reduced rate the idle interval of
the core follows (R217). -/
def State.abacusStep (s : State) (b m : Nat) (k : Block) (o : MxOp) (rest : List MxOp) : State :=
  let core := k.cores.getD m 0
  let s := s.runMx b m k o core
  let idle := (rateOf (s.hdr k).eff - 1) * o.kind.busy
  let s := { s with ops := s.ops.adj o.id fun p => { p with finished := true } }
  if (s.block b).isNone then s
  else
    let s := s.modAbacus b m fun a => { a with queue := rest }
    if idle = 0 then s else s.modCore core fun c => { c with idle := some (s.cycle.toNat + idle) }

/-- A running SPGRAD updates its next entries, so that updates of other agents fall between them (R284); it starts if it stands at
the head of its queue. -/
def State.gradEntries (s : State) (b m n : Nat) : State :=
  match s.block b with
  | none => s
  | some k =>
    let a := k.abacus m
    let core := k.cores.getD m 0
    match a.queue with
    | [] => s
    | o :: rest =>
      let go (s : State) (l : BarLoc) (es : List (Nat × Nat × Bool)) (met : List Nat) : State :=
        let r := s.gradAdd l (es.take n) met
        r.1.modAbacus b m fun a => { a with queue := { o with kind := .grads l (es.drop n) r.2 } :: rest }
      if (s.core core).idle.isSome || k.st != .resident then s
      else match o.kind with
        | .grad l d1 d2 =>
          let (es, s) := s.gradStart (s.core core) (s.hdr k).eff a d1 d2
          go s l es []
        | .grads l es met => go s l es met
        | _ => s

/-- Some poison stands where an operation of the queue could carry it into a tile, or take it away. -/
def State.mayPoison (s : State) (k : Block) (a : Abacus) : Bool :=
  !a.tileBad.isEmpty || !a.cellBad.isEmpty || !s.memBad.isEmpty || !k.sharedBad.isEmpty

/-- What the operations that wait in the queue of a member will leave, each alone and in order (R256). -/
def State.runQueue (s : State) (b m core : Nat) (ops : List MxOp) : State :=
  ops.foldl (fun s o => match s.block b with
    | some k => s.runMx b m k o core
    | none => s) s

/-- Whether a live lane of an MXRD will read a poisoned entry: as its tile stands once the earlier operations of the queue have
run (R256, R265). -/
def Ctx.columnPoisoned (c : Ctx) (s : State) (m : Nat) (a : Abacus) (tile col : Nat) : Bool :=
  s.mayPoison c.k a &&
    (match (s.runQueue c.blk m c.g.core a.queue).block c.blk with
     | some k => c.liveLanes.any ((k.abacus m).columnBad tile col)
     | none => false)

/-- An MXRD does not occupy the array, and no idle interval holds it (R217). -/
def MxKind.reads (k : MxKind) : Bool :=
  match k with
  | .rd .. => true
  | _ => false

/-- Whether an MXRD among the operations of a member's queue will read a poisoned entry in a live lane. -/
def State.readsPoison (b m core : Nat) : List MxOp → State → Bool
  | [], _ => false
  | o :: r, s => match s.block b with
    | none => false
    | some k =>
      (match o.kind with
       | .rd t c _ lanes live => (lanesOf (lanes &&& live)).any ((k.abacus m).columnBad t c)
       | _ => false) || State.readsPoison b m core r (s.runMx b m k o core)

/-- Whether some MXRD that waits in a queue will read a poisoned entry: its word has issued without a trap, so poison that would
have trapped it has not arisen (R265; log entry 15). -/
def State.unreadable (s : State) : Bool :=
  s.blocks.any fun b => b.2.abaci.any fun a =>
    a.2.queue.any (fun o => o.kind.reads) && State.readsPoison b.1 a.1 (b.2.cores.getD a.1 0) a.2.queue s

/-- MXRD (R263, R265): with an empty queue it reads the tile; otherwise it takes its place in the queue (R217, R256) and its
result stays outstanding. A poisoned entry traps precisely at the word, whether the tile holds it now or an earlier operation
of the queue will leave it there. -/
def execMxrd (d t k : BitVec 8) (s : State) : Outcome State Fault Refusal :=
  issue (.mxrd d t k) (fun c s => c.mx fun m x =>
    if c.columnPoisoned s m x t.toNat k.toNat then .trap cUNC allOnes
    else if x.queue.isEmpty then
      .done (c.await (s.modGroup c.blk c.gid fun g => g.setVs c.n1 c.lanes (x.column t.toNat k.toNat)) [.v c.n1] c.mask).2
        none
    else
      let id := s.nextId
      let s := { s.modGroup c.blk c.gid (fun g =>
        { g with pend := g.pend ++ (if c.mask = 0 then [] else [⟨id, .v c.n1, c.mask, id, 0⟩]) }) with nextId := id + 1 }
      .done (s.modAbacus c.blk m fun a =>
        { a with queue := a.queue ++ [⟨id, c.gid, .rd t.toNat k.toNat c.n1 c.mask c.g.live⟩] }) none) s

/-- ABACUS_OPERATION (R256): the head of a member's queue runs, unless the core's idle interval lasts. Arguments: block,
member. -/
def execAbacusOperation (s : State) : Outcome State Fault Refusal :=
  let b := s.arg 0
  let m := s.arg 1
  .next (match s.block b with
    | none => s
    | some k =>
      let a := k.abacus m
      match a.queue with
      | [] => s
      | o :: rest =>
        if ((s.core (k.cores.getD m 0)).idle.isSome && !o.kind.reads) || k.st != .resident then s
        else s.abacusStep b m k o rest)

/-- RATE_IDLE_INTERVAL_END (R217): the cycles of the interval have passed. Argument: core. -/
def execRateIdleIntervalEnd (s : State) : Outcome State Fault Refusal :=
  .next (s.modCore (s.arg 0) fun c =>
    if (c.idle.map fun t => decide (t ≤ s.cycle.toNat)) = some true then { c with idle := none } else c)

end Sys2Proof.Machine
end

