-- ==== Sys2Proof/Machine/Launch.lean ====
section
/-! DEFINITION. Launches: the front end's own accesses (R239, R350, R442), launch records and kernel headers (R42, R43,
R359, R362), trees and grids and their completion (R357 to R362, R442), the resources of cores (R206, R293 to R295). -/

namespace Sys2Proof.Machine

open Host (Outcome)

/-! ## Accesses of the command processor, the dispenser and firmware -/

/-- The parts of a range of `n` bytes that lie in one aligned unit of `u` bytes each. -/
def unitParts (u : Nat) : Nat → Nat → Nat → List (Nat × Nat)
  | 0, _, _ => []
  | f + 1, a, n =>
    if n = 0 then []
    else
      let k := min n (u - a % u)
      (a, k) :: unitParts u f (a + k) (n - k)

/-- The parts of a range in one 128-byte line each: HBM ends at a line's end (R340), and a line may be held (R333). -/
def lineParts (a n : Nat) : List (Nat × Nat) := unitParts 128 (n / 128 + 2) a n

/-- The parts of a range in one 64 KiB page each. -/
def pageParts (a n : Nat) : List (Nat × Nat) := unitParts (2 ^ 16) (n / 2 ^ 16 + 2) a n

/-- The sources that wait at a record of their own (R345), as tags: a command-processor lane, a grid's front end, a grid's
dispenser, a mailbox channel, a completion. Engine operations are their own numbers. -/
def laneTag (n : Nat) : Nat := 2 ^ 40 + n
/-- The front end at a grid. -/
def gridTag (gh : Nat) : Nat := 2 ^ 41 + gh
/-- A grid's dispenser. -/
def mapTag (gh : Nat) : Nat := 2 ^ 42 + gh
/-- The channel of a mailbox. -/
def boxTag (fn : Nat) : Nat := 2 ^ 43 + fn
/-- A completion. -/
def compTag (key : Nat) : Nat := 2 ^ 44 + key
/-- A page copy. -/
def chanTag (id : Nat) : Nat := 2 ^ 45 + id

/-- The outcome of such an access: its bytes, a page that it waits on (kind and intermediate address), a denial, or no
window with the permission. -/
inductive SysRes where
  | ok (bs : List Byte)
  | wait (kind ia : Nat)
  | deny (kind ia : Nat) (far : Bool)
  | none
deriving DecidableEq, Repr

/-- The intermediate address of a range that lies in one window with the permissions (R334, R441). -/
def State.sysMap (s : State) (part ctx va n : Nat) (r w x : Bool) : Option Nat :=
  match s.mapVa part ctx va with
  | none => none
  | some (win, ia) =>
    if (win.beyond va n).isSome || (r && !win.canR) || (w && !win.canW) || (x && !win.canX) || !win.kindOk ia then none
    else some ia

/-- The verdicts of a range, page by page. -/
def State.sysTargets (s : State) (part : Nat) (r w : Bool) : List (Nat × Nat) → List (Tgt × Nat × Nat) × State
  | [] => ([], s)
  | (a, n) :: l =>
    let (t, s) := s.target part (.ia a) n r w
    let (ts, s) := s.sysTargets part r w l
    ((t, a, n) :: ts, s)

/-- The first verdict that waits or denies. -/
def sysStop (ts : List (Tgt × Nat × Nat)) : Option SysRes :=
  (ts.find? fun t => t.1.waits || t.1.denied).map fun t =>
    match t.1 with
    | .wait k => .wait k t.2.1
    | .deny k far => .deny k t.2.1 far
    | _ => .none

/-- Read the bytes behind verdicts that permit it. -/
def State.sysLoad (s : State) : List (Tgt × Nat × Nat) → List Byte × State
  | [] => ([], s)
  | (t, _, n) :: l =>
    let (bs, _, s) := s.tgtRead t n
    let (cs, s) := s.sysLoad l
    (bs ++ cs, s)

/-- Write bytes behind verdicts that permit it. -/
def State.sysStore (s : State) (part : Nat) : List (Tgt × Nat × Nat) → List Byte → State
  | [], _ => s
  | (t, _, n) :: l, bs => (s.tgtWrite part t (bs.take n)).sysStore part l (bs.drop n)

/-- Read `n` bytes at an intermediate address. -/
def State.iaRead (s : State) (part ia n : Nat) : SysRes × State :=
  let (ts, s) := s.sysTargets part true false (lineParts ia n)
  match sysStop ts with
  | some e => (e, s)
  | none => let (bs, s) := s.sysLoad ts; (.ok bs, s)

/-- The verdicts of a list before the first that waits or denies. -/
def sysRun (ts : List (Tgt × Nat × Nat)) : List (Tgt × Nat × Nat) := ts.takeWhile fun t => !(t.1.waits || t.1.denied)

/-- The bytes of a list of parts. -/
def partBytes (ts : List (Tgt × Nat × Nat)) : Nat := ts.foldl (fun n t => n + t.2.2) 0

/-- A channel reads on at an intermediate address: `have_` holds the bytes read before; it stalls at the byte offset of a page
that it waits on (R239). Answers the outcome and the bytes read so far. -/
def State.chanRead (s : State) (part ia n : Nat) (have_ : List Byte) : SysRes × List Byte × State :=
  let (ts, s) := s.sysTargets part true false (lineParts (ia + have_.length) (n - have_.length))
  let (bs, s) := s.sysLoad (sysRun ts)
  ((sysStop ts).getD (.ok (have_ ++ bs)), have_ ++ bs, s)

/-- A channel writes on at an intermediate address, and stalls at the byte offset of a page that it waits on (R239). Answers
the outcome and the bytes written. -/
def State.chanWrite (s : State) (part ia : Nat) (bs : List Byte) : SysRes × Nat × State :=
  let (ts, s) := s.sysTargets part false true (lineParts ia bs.length)
  ((sysStop ts).getD (.ok []), partBytes (sysRun ts), s.sysStore part (sysRun ts) bs)

/-- Read `n` bytes at a virtual address of a context. -/
def State.sysRead (s : State) (part ctx va n : Nat) (x : Bool := false) : SysRes × State :=
  match s.sysMap part ctx va n true false x with
  | none => (.none, s)
  | some ia => s.iaRead part ia n

/-- Write 8 bytes at a virtual address of a context, or add a value to them atomically (R354, R442). -/
def State.sysWord (s : State) (part ctx va : Nat) (v : U64) (add : Bool) : SysRes × State :=
  match s.sysMap part ctx va 8 add true false with
  | none => (.none, s)
  | some ia =>
    let (ts, s) := s.sysTargets part add true [(ia, 8)]
    match sysStop ts with
    | some e => (e, s)
    | none =>
      let (old, s) := if add then s.sysLoad ts else ([], s)
      (.ok [], s.sysStore part ts (leBytes 8 (leNat old + v.toNat)))

/-- A fault record of a system channel, the command processor or the dispenser (R346: source 2, va 0). -/
def State.sysFault (s : State) (die part ia kind : Nat) (far : Bool := false) (tag : Nat := 0) : State :=
  s.post die part 0 (faultBytes 0 ia 0 kind (if far then 5 else 2) 0xFF 0 0) tag

/-- The first 28 bytes of an event record (R356). -/
def eventBytes (w0 w1 : Nat) (info : U64) (w2 kind b21 b22 core : Nat) : List Byte :=
  leBytes 4 w0 ++ leBytes 4 w1 ++ leBytes 8 info.toNat ++ leBytes 4 w2 ++ leBytes 1 kind ++ leBytes 1 b21
    ++ leBytes 1 b22 ++ leBytes 1 0 ++ leBytes 2 core ++ leBytes 2 0

/-- An MSI-X interrupt of a function (R347, R406). -/
def State.raise (s : State) (fn vec : Nat) : State := { s with msix := s.msix ++ [(fn, vec)] }

/-! ## Partitions and cores -/

/-- The quadrants of a partition. -/
def State.quadsOf (s : State) (part : Nat) : List Nat := (List.range 16).filter fun q => s.owns part q

/-- The cores of a partition. -/
def State.coresOf (s : State) (part : Nat) : List Nat :=
  (s.quadsOf part).flatMap fun q => (List.range 32).map fun c => 32 * q + c

/-- The mask of a list of cores. -/
def coreMask (l : List Nat) : BitVec 512 := l.foldl (fun m c => m ||| (1#512 <<< c)) 0

/-- The groups of a member (R293). -/
def shareOf (groups k j : Nat) : Nat := (j + 1) * groups / k - j * groups / k

/-- The largest share of a member. -/
def Header.maxShare (h : Header) : Nat := ceilDiv h.groups h.cores

/-- The member that holds a group (R293). -/
def Header.memberOf (h : Header) (i : Nat) : Nat :=
  ((List.range h.cores).find? fun j => i < (j + 1) * h.groups / h.cores).getD 0

/-- KiB of a member's portion of shared memory (R206, R295). -/
def Header.portion (h : Header) : Nat := 4 * ceilDiv h.shared (4096 * h.cores)

/-- KiB of a group's stack (R206). -/
def Header.stackKib (h : Header) : Nat := 4 * ceilDiv (h.stack * 256) 4096

/-- Accumulator tiles that a block takes of each member (R206). -/
def Header.tiles (h : Header) : Nat := if h.flags.getLsbD 3 || h.flags.getLsbD 4 then 16 else 0

/-- Amounts of the resources of R206. -/
structure Load where
  groups   : Nat
  blocks   : Nat
  granules : Nat
  kib      : Nat
  tiles    : Nat
deriving DecidableEq, Repr

/-- What `n` groups of a block take of a core. -/
def Header.takes (h : Header) (n : Nat) : Load := ⟨n, 1, n * (h.allot / 8), h.portion + n * h.stackKib, h.tiles⟩

/-- The sum of two amounts. -/
def Load.plus (a b : Load) : Load :=
  ⟨a.groups + b.groups, a.blocks + b.blocks, a.granules + b.granules, a.kib + b.kib, a.tiles + b.tiles⟩

/-- What is taken of a core now; a group that has exited takes nothing (R84). -/
def State.usage (s : State) (core : Nat) : Load :=
  s.blocks.foldl (fun u b =>
    if b.2.st == .resident && b.2.cores.contains core then
      u.plus ((s.hdr b.2).takes (b.2.groups.filter fun g => g.2.core == core).length)
    else u) ⟨0, 0, 0, 0, 0⟩

/-- No count of R206 is negative. -/
def State.within (s : State) (core : Nat) (u : Load) : Bool :=
  u.groups ≤ 32 && u.blocks ≤ 16 && u.granules ≤ 256 && u.kib + 4 * (s.core core).dvsize ≤ 512 && u.tiles ≤ 16

/-- Whether a core has room for `n` groups of a block. -/
def State.roomFor (s : State) (core : Nat) (h : Header) (n : Nat) : Bool :=
  s.within core ((s.usage core).plus (h.takes n))

/-- The lowest-numbered cores of a list that can hold the shares of `k` members, in the members' order (R293, R365). -/
def pickCores (fits : Nat → Nat → Bool) (share : Nat → Nat) (k : Nat) : Nat → List Nat → Option (List Nat)
  | 0, _ => some []
  | n + 1, cs =>
    match cs with
    | [] => none
    | c :: r =>
      if fits c (share (k - (n + 1))) then (pickCores fits share k n r).map fun l => c :: l
      else pickCores fits share k (n + 1) r

/-- The groups of each member of a block that has not been placed yet (R293). -/
def Header.share (h : Header) (j : Nat) : Nat := shareOf h.groups h.cores j

/-! ## Handles, trees, grids -/

/-- A number that no live object of a table has, of 32 bits and not zero (R357). -/
def State.freshKey {α : Type} (s : State) (t : Table α) : Nat :=
  (((List.range (t.length + 2)).map fun k => (s.nextId + k) % 2 ^ 32).find? fun n => n != 0 && (t.find n).isNone).getD 1

/-- A tree is created (R357). -/
def State.newTree (s : State) (part die lane ctx word : Nat) (value : U64) (flags : BitVec 8) (vec : BitVec 16) :
    Nat × State :=
  let id := s.freshKey s.trees
  (id, { s with
    trees := s.trees.put id ⟨part, die, lane, 0, 0, none, word, value, flags, vec, ctx⟩
    nextId := s.nextId + 1 })

/-- A number in a launch record. -/
def recNum (r : List Byte) (off n : Nat) : Nat := leNat ((r.drop off).take n)

/-- Atoms along each dimension. -/
def atomsOf (ext atom : List Nat) : List Nat := (ext.zip atom).map fun p => ceilDiv p.1 p.2

/-- The number of atoms. -/
def atomCount (ext atom : List Nat) : Nat := (atomsOf ext atom).foldl (· * ·) 1

/-- The fewest atoms that a launch record leaves its iteration space, whatever the defaults of the header: a dimension whose
extent the record leaves open may have one atom, and one whose atom it leaves open atoms of the largest extent (R374). -/
def leastAtoms (r : List Byte) : Nat :=
  let ext := (List.range 4).map fun k => recNum r (0x40 + 4 * k) 4
  let atom := (List.range 4).map fun k => recNum r (0x50 + 2 * k) 2
  atomCount (ext.map fun e => max 1 e) (atom.map fun a => if a = 0 then 65535 else a)

/-- Whether the coverage map of `n` atoms is refused (R383): aligned to 64 bytes, in a window of kind pad or HBM with R and W. -/
def State.mapBad (s : State) (part ctx map n : Nat) : Bool :=
  map % 64 != 0 || match s.mapVa part ctx map with
    | some (w, _) => !([1, 2] : List Nat).contains w.kind || (s.sysMap part ctx map (ceilDiv n 4) true true false).isNone
    | none => true

/-- The first field of a launch record that fails what can be checked without the header, as TRAPINFO (R359, R362): the number
of atoms and the coverage map, as far as the record alone decides them. -/
def State.recordBad (s : State) (part ctx : Nat) (r : List Byte) : Option Nat :=
  let hva := recNum r 0 8
  let dims := (List.range 3).map fun k => recNum r (0x18 + 4 * k) 4
  let word := recNum r 0x30 8
  let mask := recNum r 0x60 8
  let map := recNum r 0x58 8
  if r.length < 128 then some 0x180
  else if hva % 64 ≠ 0 || (s.sysMap part ctx hva 64 true false true).isNone then some 0x100
  else match (List.range 3).find? fun k => dims.getD k 0 == 0 || dims.getD k 0 > 2 ^ 21 with
  | some k => some (0x118 + 4 * k)
  | none =>
    if recNum r 0x28 4 ≥ 4 then some 0x128
    else if word ≠ 0 && (word % 8 != 0 || (s.sysMap part ctx word 8 false true false).isNone) then some 0x130
    else if (recNum r 0x28 4).testBit 1 && leastAtoms r > 2 ^ 24 then some 0x140
    else if (recNum r 0x28 4).testBit 1 && s.mapBad part ctx map (leastAtoms r) then some 0x158
    else if mask ≠ 0 && (mask % 64 != 0 || (s.sysMap part ctx mask 64 true false false).isNone) then some 0x160
    else none

/-- The launch of a grid fails (R362: error 2). -/
def State.reject (s : State) (gh info : Nat) : State := s.failGrid gh 2 0 (BitVec.ofNat 64 info) 0xFFFF

/-- A grid's placement mask is read; the grid waits on a page that is not present, and is rejected when the mask cannot
be read or names no core of the partition (R359), or when the field after it is not zero. -/
def State.readMask (s : State) (gh : Nat) (g : Grid) : State :=
  let va := recNum g.record 0x60 8
  let put (s : State) (f : Grid → Grid) : State :=
    if recNum g.record 0x68 24 ≠ 0 then s.reject gh 0x168 else { s with grids := s.grids.adj gh f }
  if va = 0 then put s fun g => { g with mask := some 0 }
  else
    let (r, s) := s.sysRead g.part g.ctx va 64
    match r with
    | .ok bs =>
      let m := BitVec.ofNat 512 (leNat bs)
      if m &&& coreMask (s.coresOf g.part) = 0 then s.reject gh 0x160 else put s fun g => { g with mask := some m }
    | .wait k ia =>
      { s.sysFault g.die g.part ia k false (gridTag gh) with grids := s.grids.adj gh fun g => { g with wait := some ia } }
    | _ => s.reject gh 0x160

/-- A grid is accepted: it exists, and fails at once when its record fails (R361, R362). -/
def State.accept (s : State) (tree depth part ctx die prio : Nat) (privOk seed : Bool) (record : Option (List Byte))
    (carry : Option Nat) : Nat × State :=
  let gh := s.freshKey s.grids
  let r := record.getD []
  let g : Grid := ⟨tree, depth, part, ctx, die, prio, privOk, seed, r, none, false, [], 0, none, s.nextId, none, none,
    carry, allOnes, false, none⟩
  let s := { s with
    grids := s.grids.put gh g
    trees := if seed then s.trees.adj tree fun t => { t with seed := gh } else s.trees
    nextId := s.nextId + 1 }
  (gh, match s.recordBad part ctx r with
    | some info => s.reject gh info
    | none => s.readMask gh g)

/-- The blocks of a grid. -/
def Grid.dims (g : Grid) : Nat × Nat × Nat := (recNum g.record 0x18 4, recNum g.record 0x1C 4, recNum g.record 0x20 4)

/-- The number of blocks of a launch record. -/
def Grid.total (g : Grid) : Nat := g.dims.1 * g.dims.2.1 * g.dims.2.2

/-- Whether a tile dispenser serves the grid (R374). -/
def Grid.dispensed (g : Grid) : Bool := (recNum g.record 0x28 4).testBit 1

/-! ## Kernel headers (R42, R43) -/

/-- The header in 64 bytes. -/
def Header.parse (b : List Byte) : Header where
  contract := recNum b 0x04 2
  allot := 8 * recNum b 0x06 1
  groups := recNum b 0x07 1
  cores := recNum b 0x08 1
  producer := recNum b 0x09 1
  tuner := recNum b 0x0A 1
  flags := BitVec.ofNat 8 (recNum b 0x0B 1)
  shared := recNum b 0x0C 4
  stack := recNum b 0x10 4
  code := recNum b 0x14 4
  trap := recNum b 0x18 4
  entry := recNum b 0x1C 4
  patches := recNum b 0x20 2
  constSize := 16 * recNum b 0x22 2
  ext := (List.range 4).map fun k => recNum b (0x24 + 4 * k) 4
  atom := (List.range 4).map fun k => recNum b (0x34 + 2 * k) 2

/-- A word inside the code (R42). -/
def Header.inCode (h : Header) (o : Nat) : Bool := o % 4 == 0 && 0x40 ≤ o && o < 0x40 + h.code

/-- The first field of a header that breaks a limit of R42, R44, R216 or R293. -/
def headerBad (b : List Byte) (privOk : Bool) : Option Nat :=
  let h := Header.parse b
  let carried := h.contract ≤ 4
  let tests : List (Nat × Bool) := [
    (0x00, recNum b 0 4 != 0x4B505359),
    (0x04, !carried),
    (0x06, h.allot == 0 || h.allot > 256),
    (0x07, h.groups == 0 || h.groups > 128 || h.groups > 32 * h.cores
      || (([2, 4] : List Nat).contains h.cores && h.groups < h.cores)),
    (0x08, !([1, 2, 4] : List Nat).contains h.cores),
    (0x09, h.producer != 0xFF && h.producer ≥ h.groups),
    (0x0A, h.tuner != 0xFF && h.tuner ≥ h.groups),
    (0x0B, h.flags.getLsbD 6 || h.flags.getLsbD 7 || (h.flags.getLsbD 5 && !privOk)
      || (h.flags.getLsbD 4 && !(almEntry h.eff).testBit 33)),
    (0x10, h.stack > 65536),
    (0x14, h.code % 4 != 0),
    (0x18, h.trap != 0 && !h.inCode h.trap),
    (0x1C, !h.inCode h.entry),
    (0x3C, recNum b 0x3C 4 != 0)]
  (tests.find? fun t => t.2).map fun t => t.1

/-! ## Iteration spaces (R374) -/

/-- The extents of a dispenser grid: the record's, else the header's, else 1. -/
def spaceOf (r : List Byte) (h : Header) : List Nat × List Nat :=
  let pick (a b : Nat) : Nat := if a ≠ 0 then a else if b ≠ 0 then b else 1
  ((List.range 4).map fun k => pick (recNum r (0x40 + 4 * k) 4) (h.ext.getD k 0),
   (List.range 4).map fun k => pick (recNum r (0x50 + 2 * k) 2) (h.atom.getD k 0))

/-- The first field of a launch record that fails what the header decides (R359, R374, R383). -/
def State.recordBad2 (s : State) (g : Grid) (h : Header) : Option Nat :=
  let r := g.record
  let cva := recNum r 0x08 8
  let pva := recNum r 0x10 8
  let lanes := recNum r 0x24 4
  let (ext, atom) := spaceOf r h
  let n := atomCount ext atom
  if (s.sysMap g.part g.ctx (recNum r 0 8) (0x40 + h.code) true false true).isNone then some 0x100
  else if h.constSize ≠ 0 && (cva % 16 != 0 || (s.sysMap g.part g.ctx cva h.constSize true false false).isNone) then
    some 0x108
  else if h.patches ≠ 0 && (pva % 4 != 0 || (s.sysMap g.part g.ctx pva (4 * h.patches) true false false).isNone) then
    some 0x110
  else if lanes < 32 * (h.groups - 1) + 1 || lanes > 32 * h.groups then some 0x124
  else if g.dispensed && n > 2 ^ 24 then some 0x140
  else if g.dispensed && s.mapBad g.part g.ctx (recNum r 0x58 8) n then some 0x158
  else none

/-- The cores that the placement names, a faulted core left out: it can hold nothing before a reset (R224). -/
def State.everCores (s : State) (g : Grid) : List Nat :=
  let m := g.mask.getD 0
  (s.coresOf g.part).filter fun c => (m == 0 || m.getLsbD c) && !(s.core c).faulted

/-- The field that asks for a resource that no empty core or cluster of the placement could hold (R362, R364). -/
def State.neverFits (s : State) (g : Grid) (h : Header) : Option Nat :=
  let cs := s.everCores g
  let fits (c n : Nat) : Bool := s.within c (h.takes n)
  let inCluster (k : Nat) : List Nat := cs.filter fun c => clusterOf c == k
  let n := h.maxShare
  if (List.range 64).any fun k => (pickCores fits h.share h.cores h.cores (inCluster k)).isSome then none
  else if n * (h.allot / 8) > 256 then some 0x06
  else if n > 32 then some 0x07
  else if (List.range 64).all fun k => (inCluster k).length < h.cores then some 0x08
  else if cs.all fun c => h.portion + 4 * (s.core c).dvsize > 512 then some 0x0C
  else if cs.all fun c => n * h.stackKib + 4 * (s.core c).dvsize > 512 then some 0x10
  else some 0x0C

/-- A dispenser's state at the start (R376, R383); PLACE drops cores outside the partition. -/
def State.newDisp (s : State) (g : Grid) (h : Header) : Disp :=
  let (ext, atom) := spaceOf g.record h
  let m := g.mask.getD 0
  let own := coreMask (s.coresOf g.part)
  ⟨g.die, false, 0xE4, 0x0001000100010001, if m = 0 then own else m &&& own, 0, ext, atom, false, 0, 1, [], [],
    (s.sysMap g.part g.ctx (recNum g.record 0x58 8) (ceilDiv (atomCount ext atom) 4) true true false).getD 0, 0,
    [], [], []⟩

/-- The slots of a partition on a die's dispenser, and those taken (R375). -/
def State.slotFree (s : State) (part die : Nat) : Bool :=
  let own := (List.range 4).filter fun q => s.owns part (4 * die + q)
  let used := s.grids.filter fun g => g.2.part == part &&
    (match g.2.disp with | some d => d.die == die && d.slotOk | none => false)
  used.length < 16 * own.length

/-- The page that a grid waits on. -/
def State.gridWait (s : State) (gh : Nat) (g : Grid) (kind ia : Nat) : State :=
  { s.sysFault g.die g.part ia kind false (gridTag gh) with grids := s.grids.adj gh fun g => { g with wait := some ia } }

/-- The pieces of memory that hold a kernel image: header and code, and the patch table. -/
def State.imageRanges (s : State) (g : Grid) (h : Header) : List (Nat × Nat) :=
  let ia (va n : Nat) : List (Nat × Nat) :=
    if n = 0 then [] else ((s.mapVa g.part g.ctx va).map fun x => (x.2, n)).toList
  ia (recNum g.record 0 8) (0x40 + h.code) ++ ia (recNum g.record 0x10 8) (4 * h.patches)

/-- An instruction cache holds the word that memory, or the peer that is the page's home, holds now (R326, R340); a line with
an uncorrectable error it discards (R224). -/
def State.icacheFill (s : State) (core ia : Nat) : State :=
  if ((s.core core).icache.find ia).isSome then s
  else match s.target (s.quad (quadOf core)).part (.ia ia) 4 true false with
  | (.key k _ _, s) =>
    let (bs, bad, s) := s.load k 4
    if bad then s else s.modCore core fun c => { c with icache := c.icache.put ia (BitVec.ofNat 32 (leNat bs)) }
  | (_, s) => s

/-- An instruction cache discards a line that it holds with an error: the words are fetched again from memory (R224, R303). -/
def State.icacheDrop (s : State) (core ia : Nat) : State :=
  s.modCore core fun c => { c with icache := c.icache.filter fun e => e.1 / 128 != ia / 128 }

/-- The first placement attempt of a grid, as far as it comes: placement mask, header, checks, dispenser slot, constant
block, coverage map (R42, R166, R362, R375, R383). The grid is `started` when its blocks may be placed. No instruction cache
holds a word of the image from before it was loaded (R326): such words are gone once the header has been read. -/
def State.attempt (s : State) (gh : Nat) : State :=
  match s.grids.find gh with
  | none => s
  | some g =>
    if g.started || g.wait.isSome || g.failed.isSome || s.held (gridTag gh) then s
    else if g.mask.isNone then s.readMask gh g
    else match g.hdr with
    | none =>
      let (r, s) := s.sysRead g.part g.ctx (recNum g.record 0 8) 64 true
      (match r with
       | .ok bs =>
         let h := Header.parse bs
         (match headerBad bs g.privOk <|> s.recordBad2 g h <|> s.neverFits g h with
          | some info => s.reject gh info
          | none => { s.dropLines g.part (s.imageRanges g h) with grids := s.grids.adj gh fun g =>
              { g with hdr := some h, disp := if g.dispensed then some (s.newDisp g h) else none } })
       | .wait k ia => s.gridWait gh g k ia
       | _ => s.reject gh 0x100)
    | some h =>
      let put (s : State) (f : Grid → Grid) : State := { s with grids := s.grids.adj gh f }
      if (g.disp.map fun d => d.slotOk) = some false then
        (if s.slotFree g.part g.die then put s fun g => { g with disp := g.disp.map fun d => { d with slotOk := true } }
         else s)
      else if h.constSize ≠ 0 && g.consts.isEmpty then
        let (r, s) := s.sysRead g.part g.ctx (recNum g.record 8 8) h.constSize
        match r with
        | .ok bs => put s fun g => { g with consts := bs }
        | .wait k ia => s.gridWait gh g k ia
        | _ => s.reject gh 0x108
      else match g.disp with
      | none => put s fun g => { g with started := true }
      | some d =>
        let (r, n, s) := s.chanWrite g.part (d.mapLoc + d.zeroed)
          (List.replicate (ceilDiv (atomCount d.ext d.atom) 4 - d.zeroed) 0)
        let s := put s fun g => { g with disp := g.disp.map fun d => { d with zeroed := d.zeroed + n } }
        match r with
        | .ok _ => put s fun g => { g with started := true }
        | .wait k ia => s.gridWait gh g k ia
        | _ => s.reject gh 0x158

/-! ## Completion (R358, R360, R387, R442) -/

/-- Whether nothing of a grid is left to run: its blocks are placed and gone or discarded, every map write is made, and a
dispenser grid that has not failed has every atom done. -/
def State.gridOver (s : State) (gh : Nat) (g : Grid) : Bool :=
  !(s.blocks.any fun b => b.2.grid == gh) && ((g.disp.map fun d => d.pending.isEmpty && (g.failed.isSome || d.later.isEmpty)).getD true) &&
    (g.failed.isSome ||
      (match g.disp with
       | none => g.started && g.next ≥ g.total
       | some d => g.started && g.next ≥ g.total
           && (List.range (atomCount d.ext d.atom)).all fun a => d.done.contains a))

/-- Whether a tree is over: its seed grid has completed and its counter is 0 (R358). -/
def State.treeOver (s : State) (t : Tree) : Bool := t.counter == 0 && (s.grids.find t.seed).isNone

/-- A grid has completed on every cluster; the pinned lines of an image end with its last grid on the cluster (R302). -/
def State.unpin (s : State) (gh : Nat) : State :=
  { s with pinned := (s.pinned.map fun p => { p with grids := p.grids.filter fun x => x != gh }).filter fun p =>
      !p.grids.isEmpty }

/-- A grid has completed (R358): its tree's counter falls unless it is the seed grid. -/
def State.gridDone (s : State) (gh : Nat) (g : Grid) : State :=
  let s := { s with
    grids := s.grids.del gh
    comps := s.comps.del (2 * gh)
    trees := if g.seed then s.trees else s.trees.adj g.tree fun t => { t with counter := t.counter - 1 } }
  s.unpin gh

/-- A tree has completed: the event record and the interrupt (R356, R360). -/
def State.treeDone (s : State) (id : Nat) (t : Tree) : State :=
  let s := { s with trees := s.trees.del id, comps := s.comps.del (2 * id + 1) }
  let (gh, err, cause, info, core) := t.failed.getD (0, 0, 0, 0, 0xFFFF)
  let s := if t.flags.getLsbD 0 then
      s.post t.die t.part 1 (eventBytes id gh info 0 (if t.failed.isSome then 0x41 else 0x40) err
        (if err = 1 then cause.toNat else 0) core)
    else s
  if t.flags.getLsbD 1 then s.raise (t.part + 1) t.vec.toNat else s

/-- A completion word is written, waits on its page, or is lost with a record (R442); then the completion goes on. -/
def State.complete (s : State) (key die part ctx va : Nat) (v : U64) (fin : State → State) : State :=
  if (s.comps.find key).isSome || s.held (compTag key) then s
  else if va = 0 then fin s
  else
    let (r, s) := s.sysWord part ctx va v false
    match r with
    | .ok _ => fin s
    | .wait k ia => { s.sysFault die part ia k false (compTag key) with comps := s.comps.put key ia }
    | .deny k ia far => fin (s.sysFault die part ia k far)
    | .none => fin s

/-- The address of a grid's completion word, 0 where the grid has none that its launch record may name (R359, R362): a
grid that is rejected for this word writes nothing. -/
def State.completionVa (s : State) (g : Grid) : Nat :=
  let va := if g.record.length < 128 then 0 else recNum g.record 0x30 8
  if va % 8 = 0 && (s.sysMap g.part g.ctx va 8 false true false).isSome then va else 0

/-- COMPLETION_WRITE (R358, R360). Argument: 2 × the handle of a grid, or 2 × a tree + 1. -/
def execCompletionWrite (s : State) : Outcome State Fault Refusal :=
  let key := s.arg 0
  .next (if key % 2 = 0 then
      match s.grids.find (key / 2) with
      | some g =>
        if s.gridOver (key / 2) g then
          s.complete key g.die g.part g.ctx (s.completionVa g)
            (BitVec.ofNat 64 (recNum g.record 0x38 8)) fun s => s.gridDone (key / 2) g
        else s
      | none => s
    else
      match s.trees.find (key / 2) with
      | some t =>
        if s.treeOver t then
          s.complete key t.die t.part t.ctx t.word t.value fun s => s.treeDone (key / 2) t
        else s
      | none => s)

/-! ## SPAWN (R363) -/

/-- Bytes of shared memory or behind a window, as the issuing group reads a launch record. -/
def State.spawnRead (s : State) (c : Ctx) (v : U64) : Except (BitVec 8 × Nat) SysRes × State :=
  let top := v.toNat / 2 ^ 57
  let a := v.toNat % 2 ^ 57
  if a % 64 ≠ 0 then (.error (cALIGN, v.toNat), s)
  else if top = 0x40 then
    (if a + 128 > c.h.sharedBound then .error (cSPAD, v.toNat) else .ok (.ok (c.k.bytes a 128)), s)
  else if top ≠ 0 then (.error (cSPAD, v.toNat), s)
  else match s.mapVa c.k.part c.k.ctx a with
    | none => (.error (cMISS, v.toNat), s)
    | some (w, ia) =>
      match w.beyond a 128 with
      | some e => (.error (cMISS, e), s)
      | none =>
        if !w.canR || !w.kindOk ia then (.error (cPERM, v.toNat), s)
        else if w.kind = 2 && !s.padNames ia 128 then (.error (cSPAD, v.toNat), s)
        else
          let (r, s) := s.iaRead c.k.part ia 128
          (.ok r, s)

/-- The record of a SPAWN has been read: the child grid is accepted, and the group's register takes its handle, unless a later
word has written the register (R17, R363). A record that cannot be read counts as empty (R362). -/
def State.spawned (s : State) (id : Nat) (x : Spawn) (r : SysRes) : State :=
  match s.block x.blk, s.group x.blk x.gid with
  | some k, some q =>
    (match s.gridOf k with
     | none => s
     | some g =>
       let bs : List Byte := match r with | .ok bs => bs | _ => []
       let prio := ((s.trees.find x.tree).bind fun t => (s.lanes.find t.lane).map Lane.prio).getD g.prio
       let (gh, s) := s.accept x.tree x.depth k.part k.ctx (dieOf q.core) prio g.privileged false (some bs) none
       s.modGroup x.blk x.gid fun q =>
         let q := q.landOne id x.reg (BitVec.ofNat 64 (2 ^ 63 + gh))
         { q with pend := q.pend.map fun e => if e.id == id then { e with op := 0 } else e })
  | _, _ => s

/-- The record of a SPAWN meets a page that is not present or MIG: a record of its group's access, once for the page, and the read
waits on it (log entry 21). -/
def State.spawnWaits (s : State) (id : Nat) (x : Spawn) (kind ia : Nat) : State :=
  match s.block x.blk, s.group x.blk x.gid with
  | some k, some q =>
    { s.fault k.part q.core (x.va + (ia - x.ia)) ia 0 kind 4 0xFF q.slot with spawns := s.spawns.put id { x with wait := ia } }
  | _, _ => s

/-- The read of a SPAWN's record is tried again. -/
def State.spawnAgain (s : State) (id : Nat) : State :=
  match s.spawns.find id with
  | none => s
  | some x =>
    match (s.block x.blk).map fun k => s.iaRead k.part x.ia 128 with
    | some (.wait kind ia, s) => s.spawnWaits id x kind ia
    | some (r, s) => { s with spawns := s.spawns.del id }.spawned id x r
    | none => s

/-- SPAWN (R363): the tree counts the child at once; the record is read, and the child created, before sd is written. The word
issues, and sd is outstanding meanwhile: a page that is not present does not hold the group back (R201; log entry 21). -/
def execSpawn (d a : BitVec 8) (s : State) : Outcome State Fault Refusal :=
  issue (.spawn d a) (fun c s =>
    match s.gridOf c.k with
    | none => .stall
    | some g =>
      let va := (c.g.getS c.n3).toNat
      let (r, s) := s.spawnRead c (c.g.getS c.n3)
      match r with
      | .error (cause, info) => .trap cause (BitVec.ofNat 64 info)
      | .ok r =>
        if (s.trees.find g.tree).map Tree.counter = some 65535 then .trap cSPAWN 1
        else if g.depth ≥ 15 then .trap cSPAWN 2
        else
          let (id, s) := c.owe { s with trees := s.trees.adj g.tree fun t => { t with counter := t.counter + 1 } } c.n2
          let x : Spawn := ⟨c.blk, c.gid, c.n2, g.tree, g.depth + 1, va, ((s.mapVa c.k.part c.k.ctx va).map Prod.snd).getD 0, 0⟩
          .done (match r with
            | .wait kind ia => s.spawnWaits id x kind ia
            | r => s.spawned id x r) none) s

end Sys2Proof.Machine
end

