-- ==== Sys2Proof/Machine/Dispenser.lean ====
section
/-! DEFINITION. The tile dispenser: the coverage map (R383), tiles (R382), seasons (R384, R385) and the schedule
instructions (R376 to R381). -/

namespace Sys2Proof.Machine

open Host (Outcome)

/-! ## The dispenser's view -/

/-- Change a grid's dispenser state. -/
def State.modDisp (s : State) (gh : Nat) (f : Disp → Disp) : State :=
  { s with grids := s.grids.adj gh fun g => { g with disp := g.disp.map f } }

/-- The dispenser state of a grid. -/
def State.dispOf (s : State) (gh : Nat) : Option Disp := (s.grids.find gh).bind Grid.disp

/-- The number of atoms. -/
def Disp.size (d : Disp) : Nat := atomCount d.ext d.atom

/-- The handle that an atom is claimed or held under. -/
def Disp.ownerOf (d : Disp) (a : Nat) : Option (Nat × Handle) := d.handles.find? fun h => h.2.left.contains a

/-- The field of an atom as the dispenser holds it (R383): 0 free, 1 claimed, 2 held, 3 done. -/
def Disp.codeOf (d : Disp) (a : Nat) : Nat :=
  match d.ownerOf a with
  | some h => if h.2.held then 2 else 1
  | none => if d.done.contains a then 3 else 0

/-- The handles once each keeps only some of its atoms; one that keeps none is retired (R380, R383). -/
def Disp.keepAtoms (d : Disp) (keep : Nat × Handle → Nat → Bool) : Table Handle :=
  (d.handles.map fun h => (h.1, { h.2 with left := h.2.left.filter (keep h) })).filter fun h => !h.2.left.isEmpty

/-- The counts of R381: claimed, free, done, held. -/
def Disp.counts (d : Disp) : Nat × Nat × Nat × Nat :=
  let sum (off : Bool) : Nat := (d.handles.filter fun h => h.2.held == off).foldl (fun n h => n + h.2.left.length) 0
  let claimed := sum false
  let held := sum true
  (claimed, d.size - claimed - held - d.done.length, d.done.length, held)

/-! ## The map in memory (R383) -/

/-- The byte that holds an atom's field: the verdict on reading or writing it. -/
def State.mapTarget (s : State) (part : Nat) (d : Disp) (a : Nat) (r w : Bool) : List (Tgt × Nat × Nat) × State :=
  s.sysTargets part r w [(d.mapLoc + a / 4, 1)]

/-- The first byte of the map among those of some atoms that cannot be reached. -/
def State.mapReach (part : Nat) (d : Disp) (r w : Bool) : List Nat → State → Option SysRes × State
  | [], s => (.none, s)
  | a :: l, s =>
    let (ts, s) := s.mapTarget part d a r w
    match sysStop ts with
    | some e => (some e, s)
    | .none => State.mapReach part d r w l s

/-- Two bits of a byte. -/
def putField (old a code : Nat) : Nat :=
  let k := 4 ^ (a % 4)
  old / (k * 4) * (k * 4) + code * k + old % k

/-- A step meets a page of the map that it cannot reach: a record of source 2, or of the far end's denial (R420), and the
dispenser waits on the page (R379), on one that is denied as on one that is not present (log entry 33); a page that it waits on
already sends no further record. `tag` is what waits at the record (R345): a TNEXT is answered and does not. -/
def State.mapStuck (s : State) (gh : Nat) (g : Grid) (r : SysRes) (tag : Nat := mapTag gh) : State :=
  let halt (kind ia : Nat) (far : Bool) : State :=
    if ((s.dispOf gh).map Disp.wait).any fun l => l.any fun x => s.faultPage g.part x == s.faultPage g.part ia then s
    else (s.sysFault ((s.dispOf gh).map Disp.die |>.getD g.die) g.part ia kind far tag).modDisp gh fun d =>
      { d with wait := d.wait ++ [ia] }
  match r with
  | .wait kind ia => halt kind ia false
  | .deny kind ia far => halt kind ia far
  | _ => s

/-- A map write is performed, which updates its field alone, unless its page cannot be written. Answers whether it was. -/
def State.fieldTry (s : State) (gh a code : Nat) : Bool × State :=
  match s.grids.find gh, s.dispOf gh with
  | some g, some d =>
    let (ts, s) := s.mapTarget g.part d a false true
    match sysStop ts with
    | none =>
      let (old, s) := s.sysLoad ts
      (true, s.sysStore g.part ts (leBytes 1 (putField (leNat old) a code)))
    | some r => (false, s.mapStuck gh g r)
  | _, _ => (true, s)

/-- The dispenser writes a transition to the map, after the writes that wait. -/
def State.fieldWrite (s : State) (gh a code : Nat) : State :=
  if ((s.dispOf gh).map fun d => !d.pending.isEmpty).getD false then
    s.modDisp gh fun d => { d with pending := d.pending ++ [(a, code)] }
  else
    match s.fieldTry gh a code with
    | (false, s) => s.modDisp gh fun d => { d with pending := [(a, code)] }
    | (true, s) => s

/-- The writes that wait are tried again, in order. -/
def State.flushWrites (gh : Nat) : List (Nat × Nat) → State → State
  | [], s => s.modDisp gh fun d => { d with pending := [] }
  | (a, code) :: r, s =>
    match s.fieldTry gh a code with
    | (false, s) => s.modDisp gh fun d => { d with pending := (a, code) :: r }
    | (true, s) => State.flushWrites gh r s

/-- The dispenser reads an atom's field: none when its byte cannot be reached. Its own waiting write comes first. -/
def State.fieldRead (s : State) (gh a : Nat) : Option Nat × State :=
  match s.grids.find gh, s.dispOf gh with
  | some g, some d =>
    (match d.pending.reverse.find? fun p => p.1 == a with
     | some p => (some p.2, s)
     | none =>
       let (ts, s) := s.mapTarget g.part d a true false
       match sysStop ts with
       | none => let (bs, s) := s.sysLoad ts; (some (leNat bs / 4 ^ (a % 4) % 4), s)
       | some _ => (none, s))
  | _, _ => (none, s)

/-- The dispenser brings its counts and handles into line with a field that it has read (R383). -/
def Disp.adjust (d : Disp) (a code : Nat) : Disp :=
  match d.ownerOf a with
  | some h =>
    if code = 1 || (code = 2 && h.2.held) then d
    else { d with handles := d.keepAtoms fun _ x => x != a, done := if code = 3 then a :: d.done else d.done }
  | none =>
    if code = 3 then (if d.done.contains a then d else { d with done := a :: d.done })
    else { d with done := d.done.filter fun x => x != a }

/-- The dispenser reads the fields of atoms and adjusts. -/
def State.syncAtoms (gh : Nat) : List Nat → State → State
  | [], s => s
  | a :: r, s =>
    match s.fieldRead gh a with
    | (some code, s') => State.syncAtoms gh r (s'.modDisp gh fun d => d.adjust a code)
    | (none, s') => State.syncAtoms gh r s'

/-! ## Tiles (R382) -/

/-- Atoms per tile along a dimension. -/
def Disp.tileAt (d : Disp) (k : Nat) : Nat := d.tile.toNat / 2 ^ (16 * k) % 2 ^ 16

/-- Atoms along a dimension. -/
def Disp.along (d : Disp) (k : Nat) : Nat := (atomsOf d.ext d.atom).getD k 1

/-- Tiles along a dimension. -/
def Disp.tilesAlong (d : Disp) (k : Nat) : Nat := ceilDiv (d.along k) (d.tileAt k)

/-- The dimension at a slot of ORDER. -/
def Disp.slot (d : Disp) (j : Nat) : Nat := d.order.toNat / 4 ^ j % 4

/-- The number of tiles. -/
def Disp.tileCount (d : Disp) : Nat := ((List.range 4).map d.tilesAlong).foldl (· * ·) 1

/-- The coordinate of tile `w` along dimension `k`. -/
def Disp.coord (d : Disp) (w k : Nat) : Nat :=
  ((List.range 4).foldl (fun (r : Nat × Nat) j =>
    let m := d.tilesAlong (d.slot j)
    (r.1 / m, if d.slot j = k then r.1 % m else r.2)) (w, 0)).2

/-- The extent of tile `w` in atoms along dimension `k`. -/
def Disp.extent (d : Disp) (w k : Nat) : Nat := min (d.tileAt k) (d.along k - d.coord w k * d.tileAt k)

/-- The atoms of tile `w`, in the order of the mask (R378). -/
def Disp.tileAtoms (d : Disp) (w : Nat) : List Nat :=
  let base (k : Nat) : Nat := d.coord w k * d.tileAt k
  (tuples ((List.range 4).map fun k => d.extent w k)).map fun i =>
    let a (k : Nat) : Nat := base k + i.getD k 0
    a 0 + d.along 0 * (a 1 + d.along 1 * (a 2 + d.along 2 * a 3))

/-- What a walk finds: a tile with free atoms, none in a full turn, or a byte of the map that cannot be reached. -/
inductive Walked where
  | tile (w : Nat) (atoms : List (Nat × Nat))
  | none
  | stuck (r : SysRes)
deriving DecidableEq, Repr

/-- The walk of R382 from tile `w`: it reads the fields of the tiles that it examines, and claims what it can write (R379). -/
def State.walkTiles (gh part : Nat) : Nat → Nat → State → Walked × State
  | 0, _, s => (.none, s)
  | f + 1, w, s =>
    match s.dispOf gh with
    | .none => (.none, s)
    | some d =>
      let atoms := d.tileAtoms w
      match State.mapReach part d true false atoms s with
      | (some e, s) => (.stuck e, s)
      | (.none, s) =>
        let s := State.syncAtoms gh atoms s
        let d' := (s.dispOf gh).getD d
        let free := ((List.range atoms.length).zip atoms).filter fun x => d'.codeOf x.2 == 0
        if free.isEmpty then State.walkTiles gh part f ((w + 1) % d.tileCount) s
        else match State.mapReach part d false true (free.map Prod.snd) s with
          | (some e, s) => (.stuck e, s)
          | (.none, s) => (.tile w free, s)

/-- The next handle: never 0, never one that is live (R382). -/
def Disp.newHandle (d : Disp) : Nat :=
  let cand (k : Nat) : Nat := (d.nextH - 1 + k) % (2 ^ 32 - 1) + 1
  (((List.range (d.handles.length + 1)).map cand).find? fun h => (d.handles.find h).isNone).getD d.nextH

/-- The answer of a TNEXT: status, season, and the registers sd+1 to sd+5 (R378). -/
structure TileAns where
  status : Nat
  season : BitVec 32
  rest   : List Nat := [0, 0, 0, 0, 0]

/-- The six registers. -/
def TileAns.words (t : TileAns) : List U64 :=
  (BitVec.ofNat 64 (t.season.toNat * 2 ^ 32 + t.status)) :: t.rest.map fun x => BitVec.ofNat 64 x

/-- The decision of a TNEXT (R379). -/
def State.nextTile (s : State) (blk : Nat) (k : Block) (g : Grid) (d : Disp) : TileAns × State :=
  let say (n : Nat) : TileAns := ⟨n, d.season, [0, 0, 0, 0, 0]⟩
  if g.failed.isSome then (say 1, s)
  else if k.cores.any fun c => !d.place.getLsbD c then (say 2, s)
  else if d.hold || (d.handles.filter fun h => h.2.blk == blk).length ≥ 16 then (say 3, s)
  else if d.counts.2.1 = 0 then (say 1, s)
  else
    match State.walkTiles k.grid g.part d.tileCount d.cursor s with
    | (.none, s) => (say 1, s)
    | (.stuck r, s) => (say 3, s.mapStuck k.grid g r 0)
    | (.tile w free, s) =>
      let h := ((s.dispOf k.grid).getD d).newHandle
      let s := s.modDisp k.grid fun d =>
        { d with
          handles := d.handles.put h ⟨blk, free, free.map Prod.snd, false⟩
          nextH := h % (2 ^ 32 - 1) + 1
          cursor := (w + 1) % d.tileCount }
      let s := free.foldl (fun s x => s.fieldWrite k.grid x.2 1) s
      let org (i : Nat) : Nat := d.coord w i * d.tileAt i * d.atom.getD i 1 % 2 ^ 32
      let ext := ((List.range 4).map fun i => d.extent w i * 2 ^ (16 * i)).foldl (· + ·) 0
      (⟨0, d.season, [h, org 1 * 2 ^ 32 + org 0, org 3 * 2 ^ 32 + org 2, ext,
        (free.map fun x => 2 ^ x.1).foldl (· + ·) 0]⟩, s)

/-! ## The steps that read fields (R380, R381, R383) -/

/-- The fields that a step reads. A TDONE or TREL reads those of the handle's atoms that its mask names, the atoms that the handle
has given up already among them. -/
def Disp.reads (d : Disp) : DispStep → List Nat
  | .owner _ b hs => (d.handles.filter fun h => hs.contains h.1 && h.2.blk == b).flatMap fun h => h.2.left
  | .commit _ b h m => match d.handles.find h with
    | some x => if x.blk = b then (x.atoms.filter fun a => m.getLsbD a.1).map Prod.snd else []
    | none => []
  | .read _ _ _ _ lo => ((List.range 32).map fun i => lo + i).filter fun a => a < d.size

/-- COVR's 32 fields; atoms at or beyond N read as 0b11 (R381). -/
def Disp.fields (d : Disp) (lo : Nat) : U64 :=
  let code (i : Nat) : Nat := if lo + i ≥ d.size then 3 else d.codeOf (lo + i)
  BitVec.ofNat 64 (((List.range 32).map fun i => code i * 4 ^ i).foldl (· + ·) 0)

/-- A step is decided, its fields read: the atoms of a block's handles become free, claimed or held; the named atoms that are
still claimed under a handle become done, or free; a COVR's register takes its fields. -/
def State.dispDecide (s : State) (gh : Nat) (d : Disp) (st : DispStep) : State :=
  match st with
  | .owner code b hs =>
    let mine (h : Nat × Handle) : Bool := hs.contains h.1 && h.2.blk == b
    (d.reads st).foldl (fun s a => s.fieldWrite gh a code) (s.modDisp gh fun d => { d with
      handles := if code = 0 then d.handles.filter fun h => !mine h
        else d.handles.map fun h => if mine h then (h.1, { h.2 with held := code == 2 }) else h })
  | .commit code b h _ =>
    let act := (d.reads st).filter fun a => d.ownerOf a |>.any fun x => x.1 == h && x.2.blk == b && !x.2.held
    act.foldl (fun s a => s.fieldWrite gh a code) (s.modDisp gh fun d => { d with
      handles := d.keepAtoms fun _ a => !act.contains a
      done := if code = 3 then act ++ d.done else d.done })
  | .read b gid id reg lo => s.modGroup b gid fun g =>
      let g := g.landOne id reg (d.fields lo)
      { g with pend := g.pend.map fun e => if e.id == id then { e with op := 0 } else e }

/-- A step is taken, unless a field that it reads cannot be reached: then the dispenser waits on the page (R379). A failed grid's
dispenser makes no transition (R383). Answers whether it was taken. -/
def State.stepTry (s : State) (gh : Nat) (st : DispStep) : Bool × State :=
  match s.grids.find gh with
  | none => (true, s)
  | some g =>
    match g.disp with
    | none => (true, s)
    | some d =>
      if g.failed.isSome && !(match st with | .read .. => true | _ => false) then (true, s)
      else match State.mapReach g.part d true false (d.reads st) s with
        | (none, s) =>
          let s := State.syncAtoms gh (d.reads st) s
          (true, s.dispDecide gh ((s.dispOf gh).getD d) st)
        | (some e, s) => (false, s.mapStuck gh g e)

/-- Steps are taken in order, as far as their fields can be reached; the others wait. -/
def State.flushSteps (gh : Nat) : List DispStep → State → State
  | [], s => s.modDisp gh fun d => { d with later := [] }
  | st :: r, s =>
    match s.stepTry gh st with
    | (true, s) => State.flushSteps gh r s
    | (false, s) => s.modDisp gh fun d => { d with later := st :: r }

/-- What waits in a grid's dispenser is tried again, writes first, unless a record of it still waits at the arbiter (R345). -/
def State.dispFlush (s : State) (gh : Nat) : State :=
  if s.held (mapTag gh) then s
  else
    let s := State.flushWrites gh (((s.dispOf gh).map Disp.pending).getD []) s
    State.flushSteps gh (((s.dispOf gh).map Disp.later).getD []) s

/-- A dispenser takes a step, after those that wait (R384). -/
def State.dispStep (s : State) (gh : Nat) (st : DispStep) : State :=
  if ((s.dispOf gh).map fun d => !d.later.isEmpty).getD false then
    s.modDisp gh fun d => { d with later := d.later ++ [st] }
  else State.flushSteps gh [st] s

/-- A block exits (code 0), resumes (1) or is pre-empted (2): the step concerns the handles that it has now (R383). -/
def State.ownerStep (s : State) (gh b code : Nat) : State :=
  s.dispStep gh (.owner code b
    (((s.dispOf gh).map fun d => (d.handles.filter fun h => h.2.blk == b).map Prod.fst).getD []))

/-! ## The instructions (R377 to R381) -/

/-- A schedule instruction: ILLEGAL in a grid without a dispenser (R377). -/
def Ctx.sched (c : Ctx) (s : State) (f : Grid → Disp → Res) : Res :=
  match s.gridOf c.k with
  | none => c.illegal
  | some g =>
    match g.disp with
    | none => c.illegal
    | some d => f g d

/-- Scoreboarded scalar results from a register on (R24). -/
def Ctx.putRun (c : Ctx) (s : State) (n : Nat) (vs : List U64) : Res :=
  let s := s.modGroup c.blk c.gid fun g => ((List.range vs.length).zip vs).foldl (fun g x => g.setS (n + x.1) x.2) g
  .done (c.await s ((List.range vs.length).map fun i => .s (n + i)) 0xFFFFFFFF).2 none

/-- TNEXT (R378, R379). -/
def execTnext (d : BitVec 8) (s : State) : Outcome State Fault Refusal :=
  issue (.tnext d) (fun c s => c.sched s fun g d =>
    let (t, s) := s.nextTile c.blk c.k g d
    c.putRun s c.n2 t.words) s

/-- TDONE and TREL (R380): the named atoms of the handle that are still claimed become done, or free. The word issues, and the
step is the dispenser's, which may have to wait for a page of the map (R201, R379; log entry 33). -/
def commitBody (code : Nat) (c : Ctx) (s : State) : Res :=
  c.sched s fun g d =>
    let sa := c.g.getS c.n2
    if (d.handles.find sa.toNat).map Handle.blk ≠ some c.blk then .trap cTILE sa
    else if g.failed.isSome then .done s none
    else .done (s.dispStep c.k.grid (.commit code c.blk sa.toNat (c.g.getS c.n3))) none

/-- TDONE (R380). -/
def execTdone (a b : BitVec 8) (s : State) : Outcome State Fault Refusal := issue (.tdone a b) (commitBody 3) s

/-- TREL (R380). -/
def execTrel (a b : BitVec 8) (s : State) : Outcome State Fault Refusal := issue (.trel a b) (commitBody 0) s

/-- TSTAT (R381). -/
def execTstat (d : BitVec 8) (s : State) : Outcome State Fault Refusal :=
  issue (.tstat d) (fun c s => c.sched s fun _ d =>
    let (claimed, free, done, held) := d.counts
    c.putRun s c.n2 [BitVec.ofNat 64 (claimed * 2 ^ 32 + free), BitVec.ofNat 64 (done * 2 ^ 32 + held)]) s

/-- The published value of a schedule register (R376); PLACE bits of cores outside the partition, whose cores are `own`, read
as 0. -/
def Disp.reg (d : Disp) (own : BitVec 512) (i : Nat) : U64 :=
  match i with
  | 0 => d.order.setWidth 64
  | 1 => d.tile
  | 10 => d.season.setWidth 64
  | 11 => BitVec.ofNat 64 (d.ext.getD 1 1 * 2 ^ 32 + d.ext.getD 0 1)
  | 12 => BitVec.ofNat 64 (d.ext.getD 3 1 * 2 ^ 32 + d.ext.getD 2 1)
  | 13 => BitVec.ofNat 64 (((List.range 4).map fun k => d.atom.getD k 1 * 2 ^ (16 * k)).foldl (· + ·) 0)
  | 14 => if d.hold then 1 else 0
  | i => if 2 ≤ i && i ≤ 9 then BitVec.ofNat 64 ((d.place &&& own).toNat / 2 ^ (64 * (i - 2))) else 0

/-- SCHR (R381). -/
def execSchr (d : BitVec 8) (st : BitVec 1) (i : BitVec 4) (s : State) : Outcome State Fault Refusal :=
  issue (.schr d st i) (fun c s => c.sched s fun g d =>
    if i = 15 then c.illegal
    else
      let now := d.reg (coreMask (s.coresOf g.part)) i.toNat
      let v := match c.k.staged.find i.toNat with
        | some v => if st = 1 then v else now
        | none => now
      c.putRun s c.n2 [v]) s

/-- Whether a value may be staged for a register (R376, R381). -/
def schOk (i : Nat) (v : U64) : Bool :=
  let t (k : Nat) : Nat := v.toNat / 2 ^ (16 * k) % 2 ^ 16
  match i with
  | 0 => v.toNat < 256 && (List.range 4).all fun k => (List.range 4).any fun j => v.toNat / 4 ^ j % 4 == k
  | 1 => t 0 != 0 && t 1 != 0 && t 2 != 0 && t 3 != 0 && t 0 * t 1 * t 2 * t 3 ≤ 64
  | 14 => v.toNat < 2
  | i => 2 ≤ i && i ≤ 9

/-- SCHW (R381). -/
def execSchw (a : BitVec 8) (i : BitVec 4) (s : State) : Outcome State Fault Refusal :=
  issue (.schw a i) (fun c s => c.sched s fun _ _ =>
    let v := c.g.getS c.n2
    if !schOk i.toNat v then c.illegal
    else if c.gid ≠ c.h.tuner then .trap cSCHED (i.setWidth 64)
    else .done (s.modBlock c.blk fun k => { k with staged := k.staged.put i.toNat v }) none) s

/-- One staged value is published; PLACE drops cores outside the partition (R376, R384). -/
def Disp.publish (own : BitVec 512) (d : Disp) (x : Nat × U64) : Disp :=
  match x.1 with
  | 0 => { d with order := x.2.setWidth 8 }
  | 1 => { d with tile := x.2 }
  | 14 => { d with hold := x.2.getLsbD 0 }
  | i =>
    let lo := 2 ^ (64 * (i - 2))
    let old := d.place.toNat
    { d with place := BitVec.ofNat 512 (old / (lo * 2 ^ 64) * (lo * 2 ^ 64) + x.2.toNat * lo + old % lo) &&& own }

/-- SCHCOM (R381, R384): one publication. -/
def execSchcom (d : BitVec 8) (s : State) : Outcome State Fault Refusal :=
  issue (.schcom d) (fun c s => c.sched s fun g d =>
    if c.gid ≠ c.h.tuner then .trap cSCHED 0x10
    else
      let own := coreMask (s.coresOf g.part)
      let s := s.modDisp c.k.grid fun d =>
        { c.k.staged.foldl (fun d x => d.publish own x) d with season := d.season + 1, cursor := 0 }
      let s := s.modBlock c.blk fun k => { k with staged := [] }
      c.putRun s c.n2 [(d.season + 1).setWidth 64]) s

/-- COVR (R381, R383): 32 fields from an atom on, as the map holds them. The word issues, and sd is outstanding until the
dispenser has taken the step and the result has come (R24, R201). -/
def execCovr (d a : BitVec 8) (s : State) : Outcome State Fault Refusal :=
  issue (.covr d a) (fun c s => c.sched s fun _ _ =>
    let (id, s) := c.owe s c.n2
    .done (s.dispStep c.k.grid (.read c.blk c.gid id c.n2 (c.g.getS c.n3).toNat)) none) s

end Sys2Proof.Machine
end

