-- ==== Sys2Proof/Machine/Place.lean ====
section
/-! DEFINITION. The distributor (R364 to R368, R386), placement and restoration of blocks (R49 to R51, R200, R293 to
R295, R302, R371), the ends of groups and blocks (R84, R209), and promotion (R202). -/

namespace Sys2Proof.Machine

open Host (Outcome)

/-! ## Eligibility and choice of cores (R364, R365, R368) -/

/-- Whether a grid is suspended on a die (R370): by itself, or with its context unless it has been resumed alone since
(R371). -/
def State.suspended (s : State) (die : Nat) (g : Grid) (gh : Nat) : Bool :=
  s.susp.contains (die, g.part, g.ctx, gh)
    || (s.susp.contains (die, g.part, g.ctx, 0) && !s.lifted.contains (die, g.part, g.ctx, gh))

/-- Whether a core is eligible for blocks of a grid, but for suspension and room (R364, R399, R423). -/
def State.allowed (s : State) (g : Grid) (core : Nat) : Bool :=
  let k := s.core core
  s.owns g.part (quadOf core) && !(s.part g.part).pclose.getLsbD (quadOf core)
    && (match g.disp with
        | some d => d.place.getLsbD core
        | none => let m := g.mask.getD 0; m == 0 || m.getLsbD core)
    && k.almValid && !k.faulted && k.carry == g.carry

/-- The eligible cores of a grid. -/
def State.eligible (s : State) (g : Grid) (gh : Nat) : List Nat :=
  (s.coresOf g.part).filter fun c => s.allowed g c && !s.suspended (dieOf c) g gh

/-- The first of a list with the least measure. -/
def leastBy (f : Nat → Nat) (l : List Nat) : Option Nat :=
  l.foldl (fun m x => match m with
    | none => some x
    | some y => if f x < f y then some x else some y) none

/-- Resident groups of a cluster. -/
def State.clusterGroups (s : State) (k : Nat) : Nat :=
  ((List.range 8).map fun c => (s.usage (8 * k + c)).groups).foldl (· + ·) 0

/-- The cores for a block whose members have `share` groups (R365), with a test that each single core or chosen set must pass
(R368). -/
def State.chooseCores (s : State) (g : Grid) (gh : Nat) (h : Header) (share : Nat → Nat) (also : List Nat → Bool) :
    Option (List Nat) :=
  let cs := s.eligible g gh
  if h.cores = 1 then
    (leastBy (fun c => (s.usage c).groups) (cs.filter fun c => s.roomFor c h (share 0) && also [c])).map fun c => [c]
  else
    let pick (k : Nat) : Option (List Nat) := pickCores (s.roomFor · h ·) share h.cores h.cores (cs.filter fun c => clusterOf c == k)
    let ok := (List.range 64).filter fun k => ((pick k).map also).getD false
    (leastBy s.clusterGroups ok).bind pick

/-! ## Seating groups (R51, R200) -/

/-- The groups on a core. -/
def State.onCore (s : State) (core : Nat) : List Group :=
  s.blocks.flatMap fun b => if b.2.st == .resident then (b.2.groups.filter fun g => g.2.core == core).map Prod.snd else []

/-- A free slot of a core and the quarter with the fewest groups (R200). Which free slot a group takes is open: the model takes
the lowest (DESIGN CHOICE, log entry 47). -/
def State.seat (s : State) (core : Nat) : Nat × Nat :=
  let gs := s.onCore core
  (((List.range 32).find? fun n => !(gs.any fun g => g.slot == n)).getD 0,
   (leastBy (fun q => (gs.filter fun g => g.quarter == q).length) (List.range 4)).getD 0)

/-- The live mask of a group (R51). -/
def liveMask (lanes i : Nat) : BitVec 32 := BitVec.ofNat 32 (2 ^ min 32 (lanes - 32 * i) - 1)

/-- A group as it is first placed (R49). -/
def Group.fresh (core slot quarter : Nat) (pc : U64) (cmixm : Bool) (live : BitVec 32) : Group where
  core := core
  slot := slot
  quarter := quarter
  v := []
  s := []
  p := SMap.set [] 0 live
  x := []
  live := live
  pc := pc
  resume := 0
  mode := modeWord 0x11 0 cmixm
  amax := 0
  amaxNan := false
  cmixcnt := 0
  oc := ⟨0, 0, 0, 0, 0⟩
  issued := ⟨0, 0, 0, 0, 0⟩
  replay := []
  cause := 0
  trapPc := 0
  trapInfo := 0
  handler := false
  scClock := 0
  high := false
  promoted := false
  stood := 0
  park := .run
  parkPc := 0
  parkAt := 0
  parkS := false
  split := none
  bundle := Bundle.empty pc
  slotNo := 0
  early := []
  pend := []
  deferred := []
  stack := []
  ahead := []
  fetchIa := none
  gather := none
  posted := []
  held := none
  poison := []
  nextAt := 0

/-- A group is seated in a block on a core. -/
def State.seatGroup (s : State) (b gid core : Nat) (make : Nat → Nat → Group) : State :=
  let (slot, quarter) := s.seat core
  s.modBlock b fun k => { k with groups := k.groups.put gid (make slot quarter) }

/-! ## Placement -/

/-- The coordinates of block `i` of a grid (R365). -/
def Grid.coords (g : Grid) (i : Nat) : Nat × Nat × Nat :=
  let (x, y, _) := g.dims
  (i % x, i / x % y, i / (x * y))

/-- The 128-byte lines of a range, from the first up to the one after the last. -/
def lineSpan (a n : Nat) : Nat × Nat := if n = 0 then (0, 0) else (a / 128, (a + n - 1) / 128 + 1)

/-- What is left of a range without another. -/
def cutRange (r x : Nat × Nat) : List (Nat × Nat) :=
  [(r.1, min r.2 x.1), (max r.1 x.2, r.2)].filter fun p => p.1 < p.2

/-- The number of lines in a list of ranges; a line that several of them hold counts once. -/
def lineCount (l : List (Nat × Nat)) : Nat :=
  (l.foldl (fun acc r => acc ++ acc.foldl (fun ps x => ps.flatMap (cutRange · x)) [r]) ([] : List (Nat × Nat))).foldl
    (fun n r => n + (r.2 - r.1)) 0

/-- A cluster loads the words of an image for its cores. -/
def State.loadImage (s : State) (cluster : Nat) (rs : List (Nat × Nat)) : State :=
  (rs.flatMap fun r => (List.range (r.2 / 4)).map fun i => r.1 + 4 * i).foldl (fun s ia =>
    (List.range 8).foldl (fun s c => s.icacheFill (8 * cluster + c) ia) s) s

/-- A block of a pinned kernel is placed on a cluster: at the first such placement its lines are loaded and pinned, if both
bounds allow it; a later grid of the image joins those that hold it, pinned or not (R302). -/
def State.pin (s : State) (gh : Nat) (g : Grid) (h : Header) (cluster : Nat) : State :=
  let img := recNum g.record 0 8
  let ranges := s.imageRanges g h
  let lines := ranges.map fun r => lineSpan r.1 r.2
  let bytes (l : List Pin) : Nat := 128 * lineCount (l.flatMap Pin.lines ++ lines)
  let here := s.pinned.filter fun p => p.cluster == cluster
  let mine := here.filter fun p => p.part == g.part && p.ctx == g.ctx
  let same (p : Pin) : Bool := p.cluster == cluster && p.part == g.part && p.ctx == g.ctx && p.image == img
  if !h.flags.getLsbD 0 then s
  else if s.pinned.any same then
    { s with pinned := s.pinned.map fun p =>
        if same p && !p.grids.contains gh then { p with grids := p.grids ++ [gh] } else p }
  else if bytes mine > 512 * 1024 || bytes here > 1024 * 1024 then
    { s with pinned := s.pinned ++ [⟨cluster, g.part, g.ctx, img, [], [gh]⟩] }
  else { s.loadImage cluster ranges with pinned := s.pinned ++ [⟨cluster, g.part, g.ctx, img, lines, [gh]⟩] }

/-- Its lines on the clusters of some cores. -/
def State.pinAll (s : State) (gh : Nat) (g : Grid) (h : Header) (cores : List Nat) : State :=
  (distinct (cores.map clusterOf)).foldl (fun s c => s.pin gh g h c) s

/-- The index of the next block: the next in order, or the lowest that no live block of the grid holds (R386). -/
def State.nextIndex (s : State) (gh : Nat) (g : Grid) : Nat :=
  if g.next < g.total then g.next
  else ((List.range g.total).find? fun i =>
    !(s.blocks.any fun b => b.2.grid == gh && b.2.idx == g.coords i)).getD 0

/-- A block is placed for the first time, all or nothing (R49, R294). -/
def State.placeBlock (s : State) (gh : Nat) (g : Grid) (h : Header) (cores : List Nat) : State :=
  let b := s.nextId
  let k : Block := ⟨gh, g.part, g.ctx, g.coords (s.nextIndex gh g), cores, .resident, 0, [], 0, [], [], [], [], [], [], [], false⟩
  let s := { s with
    blocks := s.blocks.put b k
    nextId := b + 1
    grids := s.grids.adj gh fun g =>
      { g with next := if g.next < g.total then g.next + 1 else g.next, passed := allOnes, reserving := false } }
  let pc := BitVec.ofNat 64 (recNum g.record 0 8 + h.entry)
  let s := (List.range h.groups).foldl (fun s i =>
    let core := cores.getD (h.memberOf i) 0
    s.seatGroup b i core fun slot quarter =>
      Group.fresh core slot quarter pc (h.flags.getLsbD 2) (liveMask (recNum g.record 0x24 4) i)) s
  s.pinAll gh g h cores

/-- The registers that a block's live groups hold, as (group, register, lane). -/
def Block.words (k : Block) (allot : Nat) : Nat := k.groups.length * allot * 32

/-- The bytes of a block's state in the save area (R50, R266, R288, R373). -/
def State.saveSize (s : State) (k : Block) : Nat :=
  let h := s.hdr k
  let groups := k.groups.foldl (fun n g => n + h.allot * 256 + 4352 + 512 * g.2.replay.length) 0
  let bits (m : BitVec 16) : Nat := ((List.range 16).filter fun i => m.getLsbD i).length
  let abaci := k.abaci.foldl (fun n a =>
    n + 18432 * bits a.2.liveS + 20480 * bits a.2.liveT + (if a.2.latch.isEmpty then 0 else 40960)
      + (if h.flags.getLsbD 4 then 20480 else 0)) 0
  groups + h.shared + k.groups.length * h.stack * 256 + abaci

/-- A saved block is restored on cores (R371, R328): its groups are bound again and begin with the fetch barrier, and
each core's SC clock rises to theirs (R318). -/
def State.restoreBlock (s : State) (b : Nat) (k : Block) (h : Header) (cores : List Nat) : State :=
  let s := s.ownerStep k.grid b 1
  let gs := k.groups
  let s := s.modBlock b fun k => { k with groups := [], cores := cores, st := .resident }
  let s := gs.foldl (fun s x =>
    let core := cores.getD (h.memberOf x.1) 0
    let s := s.modCore core fun c => { c with clock := if c.clock.toNat < x.2.scClock.toNat then x.2.scClock else c.clock }
    s.seatGroup b x.1 core fun slot quarter =>
      { x.2 with core := core, slot := slot, quarter := quarter, early := [], ahead := [], fetchIa := none, gather := none, held := none })
    s
  let s := match s.grids.find k.grid with
    | some g => s.pinAll k.grid g h cores
    | none => s
  { s with grids := s.grids.adj k.grid fun g => { g with passed := allOnes, reserving := false } }.releaseAsked b

/-- A saved word with an uncorrectable error, by kind: a vector lane, a scalar, predicate or index register, a word of shared
memory, a stack word, a live tile's entry or a live slot's cell; `n` chooses within the kind (R222, R224, R265). A kind that the
block has no word of leaves its word to the vector registers. -/
def State.restorePoison (s : State) (b : Nat) (k : Block) (h : Header) (kind n : Nat) : State :=
  let gid := (k.groups.map Prod.fst).getD (n % max 1 k.groups.length) 0
  let n := n / 128
  let reg (r : Reg) (lane : Nat) : State := s.modGroup b gid fun g => { g with poison := (r, lane) :: g.poison }
  let mem := (k.abaci.map Prod.fst).getD (n / 2 ^ 20 % max 1 k.abaci.length) 0
  let a := k.abacus mem
  let tiles := (List.range 16).filter fun i => a.liveT.getLsbD i
  let adj (f : Abacus → Abacus) : State := s.modBlock b fun k => { k with abaci := k.abaci.adj mem f }
  match kind with
  | 1 => reg (.s (n % 511 + 1)) 0
  | 2 => reg (.p (n % 15)) 0
  | 3 => reg (.x (n % 4)) 0
  | 4 => if h.shared = 0 then reg (.v (n / 32 % h.allot)) (n % 32) else s.spoilShared b (n % ceilDiv h.shared 8)
  | 5 => if h.stack = 0 then reg (.v (n / 32 % h.allot)) (n % 32)
    else s.modBlock b fun k => { k with stackBad := (gid, n % (32 * h.stack)) :: k.stackBad }
  | 6 => if tiles.isEmpty then reg (.v (n / 32 % h.allot)) (n % 32)
    else adj fun a => { a with tileBad := (4096 * tiles.getD (n / 4096 % tiles.length) 0 + n % 4096) :: a.tileBad }
  | 7 => if a.liveS = 0 then reg (.v (n / 32 % h.allot)) (n % 32) else adj fun a => a.spoilCell (n % 9216)
  | _ => reg (.v (n / 32 % h.allot)) (n % 32)

/-- The words of a bad granule of the save area: between 1 and 32, one for each of its bytes at most; how many and which is a
free value, since the area's layout is open (R370, log entry 2). -/
def State.restoreGranule (s : State) (b : Nat) (k : Block) (h : Header) : State :=
  let m := (Config.free s.free).toNat % 32 + 1
  (List.range m).foldl (fun s _ =>
    let n := (Config.free s.free).toNat
    { s with free := s.free + 1 }.restorePoison b k h (n % 8) (n / 8)) { s with free := s.free + 1 }

/-- A block whose saved state is lost is aborted, with a record of kind 10 (R224). -/
def State.restoreLost (s : State) (b : Nat) (k : Block) (core : Nat) : State :=
  (s.abortBlock b 1 cUNC allOnes core).fault k.part core 0 0 0 10 4 0xFF 0

/-- Uncorrectable errors in the save area of a block, found at its restoration (R224): which words they touch is a free
value, since the area's layout is open. A word of other state aborts the block with a record of kind 10; words of
register, shared-memory, stack or abacus state are restored as poisoned. A word that an MXRD of the saved queue would read counts
as other state, since the MXRD has issued (R265; log entry 15). -/
def State.restoreChecked (s : State) (b : Nat) (k : Block) (h : Header) (cores : List Nat) : State :=
  let die := dieOf (k.cores.headD 0)
  let base := (s.preempt.find (die * 16 + k.part)).map fun p => p.psave.toNat * 4096
  let lo := base.getD 0 + k.saveOff
  let hurt := s.memBad.filter fun g => lo ≤ g + 31 && g < lo + s.saveSize k
  if hurt.isEmpty then s.restoreBlock b k h cores
  else
    let (other, s) := s.flip
    if other then s.restoreLost b k (cores.headD 0)
    else
      let t := hurt.foldl (fun s _ => s.restoreGranule b k h) (s.restoreBlock b k h cores)
      if t.unreadable then s.restoreLost b k (cores.headD 0) else t

/-- A block that waits for placement: a saved one that resumes, or the next of a grid. -/
structure Cand where
  prio   : Nat
  resume : Option Nat
  order  : Nat
  gh     : Nat
  idx    : Nat × Nat × Nat   -- BLOCKIDX of one that resumes
deriving DecidableEq, Repr

/-- The order of BLOCKIDX, x varying fastest (R365). -/
def idxBefore (a b : Nat × Nat × Nat) : Bool :=
  if a.2.2 ≠ b.2.2 then a.2.2 < b.2.2 else if a.2.1 ≠ b.2.1 then a.2.1 < b.2.1 else a.1 < b.1

/-- The order of R366; that of R365 among the blocks of a grid. -/
def Cand.before (a b : Cand) : Bool :=
  if a.prio ≠ b.prio then a.prio > b.prio
  else if a.resume.isSome ≠ b.resume.isSome then a.resume.isSome
  else if a.order ≠ b.order then a.order < b.order
  else idxBefore a.idx b.idx

/-- Insert in the order of R366. -/
def insertCand (c : Cand) (l : List Cand) : List Cand :=
  match l with
  | [] => [c]
  | d :: r => if c.before d then c :: d :: r else d :: insertCand c r

/-- Whether a grid has a block to place that has never been placed, or a fresh one (R362, R386). -/
def State.wants (s : State) (gh : Nat) (g : Grid) : Bool :=
  g.failed.isNone && g.total > 0 &&
    (g.next < g.total ||
      (match g.disp with
       | some d => d.counts.2.1 > 0 && (s.blocks.filter fun b => b.2.grid == gh).length < g.total
       | none => false))

/-- The blocks that wait, in the order of R366. -/
def State.waitingBlocks (s : State) : List Cand :=
  let back := (s.blocks.filter fun b => b.2.st == .resuming).filterMap fun b =>
    (s.grids.find b.2.grid).map fun g => (⟨g.prio, some b.1, g.accepted, b.2.grid, b.2.idx⟩ : Cand)
  let new := (s.grids.filter fun g => s.wants g.1 g.2).map fun g => (⟨g.2.prio, none, g.2.accepted, g.1, (0, 0, 0)⟩ : Cand)
  (back ++ new).foldr insertCand []

/-- The early-launch test (R368): a block of the producer still fits on each core, or in its cluster. -/
def State.earlyOk (s : State) (g : Grid) (h : Header) (share : Nat → Nat) (cores : List Nat) : Bool :=
  if !(recNum g.record 0x28 4).testBit 0 then true
  else match s.grids.find (recNum g.record 0x2C 4) with
  | none => true
  | some p =>
    if p.part ≠ g.part || p.failed.isSome || p.next ≥ p.total then true
    else match p.hdr with
    | none => false
    | some ph =>
      let mine (c : Nat) : Load :=
        ((List.range cores.length).zip cores).foldl (fun u x =>
          if x.2 = c then u.plus (h.takes (share x.1)) else u) (s.usage c)
      let fits (c n : Nat) : Bool := s.within c ((mine c).plus (ph.takes n))
      cores.all fun c =>
        if ph.cores = 1 then fits c ph.groups
        else (pickCores fits ph.share ph.cores ph.cores ((List.range 8).map fun i => clusterOf c * 8 + i)).isSome

/-- Whether a grid is held by suspension on every die where its placement has cores (R370). -/
def State.heldBack (s : State) (gh : Nat) (g : Grid) : Bool :=
  (s.eligible g gh).isEmpty && (s.coresOf g.part).any fun k => s.allowed g k

/-- The live groups of each member of a saved block: those that have exited take nothing (R84, R370). -/
def Block.share (k : Block) (h : Header) (j : Nat) : Nat := (k.groups.filter fun g => h.memberOf g.1 == j).length

/-- A candidate is placed if it can be. Answers whether it was, and whether it was passed over for want of room. -/
def State.tryPlace (s : State) (c : Cand) : Bool × Bool × State :=
  match s.grids.find c.gh with
  | none => (false, false, s)
  | some g =>
    match g.hdr with
    | none => (false, false, s)
    | some h =>
      let held := s.heldBack c.gh g
      match c.resume with
      | some b =>
        (match s.block b with
         | none => (false, false, s)
         | some k =>
           let own := k.channels.isEmpty
           let pick := if own then s.chooseCores g c.gh h (k.share h) (s.earlyOk g h (k.share h))
             else if k.cores.all (fun x => (s.eligible g c.gh).contains x) && s.earlyOk g h (k.share h) k.cores
                 && (List.range k.cores.length).all (fun j => s.roomFor (k.cores.getD j 0) h (k.share h j)) then some k.cores
             else none
           match pick with
           | some cores => (true, false, s.restoreChecked b k h cores)
           | none => (false, !held, s))
      | none =>
        if !g.started then (false, false, s)
        else match s.chooseCores g c.gh h h.share (s.earlyOk g h h.share) with
          | some cores => (true, false, s.placeBlock c.gh g h cores)
          | none => (false, !held, s)

/-- Some grids are not passed over without a break: they are held, or have no block that waits (R366). -/
def State.breakPasses (s : State) (only : Nat → Bool) : State :=
  { s with grids := s.grids.mapVal fun gh g => if only gh then { g with passed := allOnes } else g }

/-- The first waiting block that can be placed is placed; a grid whose next block cannot be is passed over with all its
blocks, and one that is reserving stops its partition (R366). -/
def State.placeFirst : List Cand → List Nat → List Nat → State → State
  | [], _, _, s => s
  | c :: r, stopped, skipped, s =>
    match s.grids.find c.gh with
    | none => State.placeFirst r stopped skipped s
    | some g0 =>
      if stopped.contains g0.part || skipped.contains c.gh then State.placeFirst r stopped skipped s
      else
        let s := if c.resume.isNone then s.attempt c.gh else s
        match s.tryPlace c with
        | (true, _, s) => s
        | (false, passed, s) =>
          let s := if passed then { s with grids := s.grids.adj c.gh fun g =>
              { g with passed := if g.passed = allOnes then s.cycle else g.passed } } else s.breakPasses (· == c.gh)
          State.placeFirst r (if passed && g0.reserving then g0.part :: stopped else stopped) (c.gh :: skipped) s

/-- BLOCK_PLACEMENT (R364 to R368, R371, R386): the distributor takes one step: it places one block, or goes on with the
first attempts of the grids that wait. -/
def execBlockPlacement (s : State) : Outcome State Fault Refusal :=
  let l := s.waitingBlocks
  .next (State.placeFirst l [] [] (s.breakPasses fun gh => !l.any fun c => c.gh == gh))

/-- GRID_RESERVING (R366): a grid that has been passed over without a break for 2^20 cycles becomes reserving. Argument:
grid. -/
def execGridReserving (s : State) : Outcome State Fault Refusal :=
  .next (match s.grids.find (s.arg 0) with
    | some g =>
      if g.passed ≠ allOnes && g.passed.toNat + 2 ^ 20 ≤ s.cycle.toNat && !s.heldBack (s.arg 0) g
          && s.waitingBlocks.any (fun c => c.gh == s.arg 0) then
        { s with grids := s.grids.adj (s.arg 0) fun g => { g with reserving := true } }
      else s
    | none => s)

/-! ## The ends of groups and blocks (R84) -/

/-- Whether an exiting group has drained: every result written, every counter zero. -/
def Group.drained (g : Group) : Bool :=
  g.park == .exiting && g.pend.isEmpty && g.oc == ⟨0, 0, 0, 0, 0⟩

/-- A block exits: the abacus is released, shared memory, stacks and channels are freed, and its atoms become free. -/
def State.blockExit (s : State) (b : Nat) (k : Block) : State := (s.ownerStep k.grid b 0).dropBlock b

/-- GROUP_EXIT_COMPLETE (R84, R209, R299). Arguments: block, group. The group counts as arrived for every later
generation. -/
def execGroupExitComplete (s : State) : Outcome State Fault Refusal :=
  let b := s.arg 0
  let gid := s.arg 1
  .next (match s.block b, s.group b gid with
    | some k, some g =>
      if k.st = .resident && g.drained && !s.spawns.any (fun x => x.2.blk == b && x.2.gid == gid) then
        let s := s.unlock g.core g.slot
        let s := s.modBlock b fun k => { k with
          groups := k.groups.del gid
          stackBad := k.stackBad.filter fun x => x.1 != gid
          abaci := k.abaci.mapVal fun _ a => if a.holder = some gid then { a with holder := none } else a }
        if k.groups.length ≤ 1 then s.blockExit b k else s.modBlock b Block.genAdvance
      else s
    | _, _ => s)

/-- LOW_CLASS_PROMOTION (R202): a low-class group that has stood ready for 64 cycles counts as high class for its next
issue. Arguments: block, group. -/
def execLowClassPromotion (s : State) : Outcome State Fault Refusal :=
  .next (match s.resident (s.arg 0) (s.arg 1) with
    | some g =>
      if !g.high && g.park = .run && g.stood ≥ 64 then
        s.modGroup (s.arg 0) (s.arg 1) fun g => { g with promoted := true }
      else s
    | none => s)

end Sys2Proof.Machine
end

