-- ==== Sys2Proof/Machine/Preempt.lean ====
section
/-! DEFINITION. Pre-emption (R369 to R372): requests, suspension, saving, resuming and aborting. The layout of the save
area is open (R370): its bytes are free values, and the block's state stays in the model's block table. -/

namespace Sys2Proof.Machine

open Host (Outcome)

/-- The table key of a partition's set on a die. -/
def preKey (die part : Nat) : Nat := die * 16 + part

/-- The set as reset leaves it (R347, R369). -/
def Preempt.reset : Preempt := ⟨0, 0, 0, false, 0, 0, 0, 0, false, false, [], 0, 0⟩

/-- A partition's set on a die. -/
def State.pre (s : State) (die part : Nat) : Preempt := (s.preempt.find (preKey die part)).getD Preempt.reset

/-- Change a set. -/
def State.modPre (s : State) (die part : Nat) (f : Preempt → Preempt) : State :=
  { s with preempt := s.preempt.put (preKey die part) (f (s.pre die part)) }

/-- The lane as reset leaves it (R349). -/
def Lane.reset : Lane := ⟨0, 0, 0, 0, 4, 0, 0, false, 0, false, none, none, 0⟩

/-- A lane of the command processors, by 64 × die + lane. -/
def State.lane (s : State) (n : Nat) : Lane := (s.lanes.find n).getD Lane.reset

/-- Change a lane. -/
def State.modLane (s : State) (n : Nat) (f : Lane → Lane) : State := { s with lanes := s.lanes.put n (f (s.lane n)) }

/-- The quadrant of a lane (R348). -/
def laneQuad (n : Nat) : Nat := n / 16

/-- Whether the partition holds anything of a context (R369, badctx). -/
def State.knowsCtx (s : State) (part ctx : Nat) : Bool :=
  ((List.range 256).any fun n => s.owns part (laneQuad n) && (s.lane n).ctx == ctx)
    || (s.grids.any fun g => g.2.part == part && g.2.ctx == ctx)
    || (s.susp.any fun x => x.2.1 == part && x.2.2.1 == ctx)

/-- Whether a block belongs to the target of a request. -/
def State.isTarget (s : State) (part ctx gh : Nat) (k : Block) : Bool :=
  k.part == part && k.ctx == ctx && (gh == 0 || k.grid == gh) && (s.grids.find k.grid).isSome

/-- The grids of a target. -/
def State.targetGrids (s : State) (part ctx gh : Nat) : List Nat :=
  (s.grids.filter fun g => g.2.part == part && g.2.ctx == ctx && (gh == 0 || g.1 == gh)).map Prod.fst

/-- The die of a block's cores. -/
def Block.die (k : Block) : Nat := dieOf (k.cores.headD 0)

/-- The target's blocks on a die in some states. -/
def State.targetBlocks (s : State) (die part ctx gh : Nat) (ok : BlockSt → Bool) : List Nat :=
  (s.blocks.filter fun b => s.isTarget part ctx gh b.2 && b.2.die == die && ok b.2.st).map Prod.fst

/-! ## Saving (R370, R372) -/

/-- A group that is parked at an ICINV executes it again from the start (R96). -/
def Group.againIcinv (g : Group) : Group :=
  match g.park with
  | .icinv _ => { g with park := .run, pc := g.parkPc, bundle := Bundle.empty g.parkPc, parkS := false }
  | _ => g

/-- A group as it is saved: it stands at a bundle's first word, its fixed-latency results are complete, and words
fetched ahead are dropped. -/
def Group.saved (g : Group) : Group :=
  { g.againIcinv with
    pc := if g.againIcinv.park = .run then g.againIcinv.bundle.entry else g.pc
    bundle := if g.againIcinv.park = .run then Bundle.empty g.againIcinv.bundle.entry else g.bundle
    early := []
    ahead := []
    fetchIa := none
    gather := none
    held := none
    promoted := false
    stood := 0 }

/-- The places of the save area that are taken on a die: offset and bytes. -/
def State.savedAreas (s : State) (die part : Nat) : List (Nat × Nat) :=
  (s.blocks.filter fun b => b.2.part == part && b.2.die == die && b.2.st != .resident).map fun b =>
    (b.2.saveOff, s.saveSize b.2)

/-- The lowest place of the save area with room for `n` bytes. -/
def State.savePlace (s : State) (die part n : Nat) : Option Nat :=
  let used := s.savedAreas die part
  let free (o : Nat) : Bool :=
    o + n ≤ (s.pre die part).psize.toNat && used.all fun u => o + n ≤ u.1 || u.1 + u.2 ≤ o
  let fit := (0 :: used.map fun u => u.1 + u.2).filter free
  leastBy id fit

/-- No operation that has gathered its rows or has started stands at the head of a member's queue: such a one ends before the block
is saved (R266, R288), and an idle interval holds it until then (R217). -/
def Block.calm (k : Block) : Bool :=
  k.abaci.all fun x => match x.2.queue with
    | o :: _ => !o.gathered && !o.started
    | [] => true

/-- A block is saved, or keeps running for want of room (R370). What its groups' accesses and lane copies may still do has been
done before. -/
def State.saveBlock (s : State) (die part b : Nat) : State :=
  match s.block b with
  | none => s
  | some k =>
    if k.st ≠ .resident then s
    else
      let s := (s.landBlock b).landLanes (s.ops.filter fun o => o.2.blk == b)
      let n := s.saveSize k
      match s.savePlace die part n with
      | none => s.modPre die part fun p => { p with nospace := true }
      | some o =>
        let s := s.ownerStep k.grid b 2
        let s := k.groups.foldl (fun s g => s.unlock g.2.core g.2.slot) s
        let s := s.modBlock b fun k => { k with
          st := .saved, saveOff := o, groups := k.groups.mapVal fun _ g => g.saved }
        let bytes := (List.range n).map fun i => Config.saveByte (s.free + i)
        let a := (s.pre die part).psave.toNat * 4096 + o
        let s := if s.ownsHbm part a n then s.storeBytes a bytes else s
        { s with free := s.free + n }.modPre die part fun p => { p with blocks := p.blocks + 1 }

/-- Whether a SPAWN is the next word of a group and stalls at issue (R372). -/
def State.spawnStalls (s : State) (b gid : Nat) (k : Block) (g : Group) : Bool :=
  match s.fetchWord k g g.pc.toNat true with
  | .word w =>
    (match decodeWord w with
     | .ok d => (match d.instr with
       | .spawn x y =>
         (match execSpawn x y { s with cur := some (b, gid), mark := d.mark, args := [] } with
          | .next t => g.stalled (t.group b gid)
          | _ => false)
       | _ => false)
     | .error _ => false)
  | _ => false

/-- Whether a group has stopped (R370, R372): it is parked, but for a WINDOW write, whose park ends first; or it stands between
bundles; or it waits on a page for a word (R83), or at a SPAWN that stalls. -/
def State.stopped (s : State) (b gid : Nat) (k : Block) (g : Group) : Bool :=
  match g.park with
  | .run => g.bundle.words.isEmpty || g.fetchIa.isSome || s.spawnStalls b gid k g
  | .wctl _ _ _ => false
  | _ => true

/-- Whether every group of a block has stopped, and its abaci have. -/
def State.atBoundary (s : State) (b : Nat) : Bool :=
  ((s.block b).map fun k => k.calm && k.groups.all fun g => s.stopped b g.1 k g.2).getD true

/-- The blocks of a running pre-emption that stand at a boundary are saved. -/
def State.saveReady (s : State) (die part : Nat) : State :=
  (s.pre die part).todo.foldl (fun s b =>
    if s.atBoundary b then
      (s.saveBlock die part b).modPre die part fun p => { p with todo := p.todo.erase b }
    else s) s

/-! ## Requests (R369 to R371) -/

/-- The blocks that a grid has still to place are discarded by an abort where it is held (R371). -/
def State.heldCount (s : State) (die gh : Nat) : Nat :=
  match s.grids.find gh with
  | some g => if s.suspended die g gh && g.failed.isNone then g.total - g.next else 0
  | none => 0

/-- The abort of the target on a die (R371). -/
def State.abortTarget (s : State) (die part ctx gh : Nat) : State :=
  let grids := s.targetGrids part ctx gh
  let held := (grids.map fun g => s.heldCount die g).foldl (· + ·) 0
  let s := grids.foldl (fun s g => s.failGrid g 3 0 0 0xFFFF) s
  let bs := s.targetBlocks die part ctx gh fun _ => true
  (s.abortAll bs 3 0 0 0xFFFF).modPre die part fun p => { p with blocks := held + bs.length }

/-- The resumption of the target on a die (R371). A grid resumed alone is lifted out of its context's suspension. -/
def State.resumeTarget (s : State) (die part ctx gh : Nat) : State :=
  let bs := s.targetBlocks die part ctx gh fun t => t == .saved
  let here (x : Nat × Nat × Nat × Nat) : Bool := x.1 == die && x.2.1 == part && x.2.2.1 == ctx && (gh == 0 || x.2.2.2 == gh)
  let s := { s with
    susp := s.susp.filter fun x => !here x
    lifted := (s.lifted.filter fun x => !here x)
      ++ (if gh != 0 && s.susp.contains (die, part, ctx, 0) then [(die, part, ctx, gh)] else [])
    blocks := s.blocks.mapVal fun b k => if bs.contains b then { k with st := .resuming } else k }
  s.modPre die part fun p => { p with blocks := bs.length }

/-- A write of PREQ starts a request, unless one runs (R369): 1 pre-empt, 2 resume, 3 abort. One of op 0 starts none, and the
grid that a read returns stays that of the last request (DESIGN CHOICE, log entry 63). -/
def State.request (s : State) (die part op gh : Nat) : State :=
  let p := s.pre die part
  if p.busy || op = 0 then s
  else
    let ctx := p.pctx
    let bad := !s.knowsCtx part ctx
    let s := s.modPre die part fun p =>
      { p with busy := true, op := op, ctx := ctx, grid := gh, blocks := 0, badctx := bad,
               nospace := if op = 1 then false else p.nospace, todo := [] }
    if bad then s
    else match op with
      | 1 =>
        let here := (die, part, ctx, gh)
        let s := { s with
          susp := if s.susp.contains here then s.susp else s.susp ++ [here]
          lifted := s.lifted.filter fun x => !(x.1 == die && x.2.1 == part && x.2.2.1 == ctx && (gh == 0 || x.2.2.2 == gh)) }
        let s := s.breakPasses fun g => ((s.grids.find g).map fun x => s.heldBack g x).getD false
        let bs := s.targetBlocks die part ctx gh fun t => t == .resident
        s.modPre die part fun p => { p with todo := bs }
      | 2 => s.resumeTarget die part ctx gh
      | _ => s.abortTarget die part ctx gh

/-- PREEMPT_REQUEST (R370). Arguments: die, partition, grid or 0. The target's blocks that stand at a boundary are saved
at once, the others when they reach it. -/
def execPreemptRequest (s : State) : Outcome State Fault Refusal :=
  .next (if (s.pre (s.arg 0) (s.arg 1)).busy then s
    else (s.request (s.arg 0) (s.arg 1) 1 (s.arg 2)).saveReady (s.arg 0) (s.arg 1))

/-- RESUME_REQUEST (R371). Arguments: die, partition, grid or 0. -/
def execResumeRequest (s : State) : Outcome State Fault Refusal :=
  .next (s.request (s.arg 0) (s.arg 1) 2 (s.arg 2))

/-- ABORT_REQUEST (R371). Arguments: die, partition, grid or 0. -/
def execAbortRequest (s : State) : Outcome State Fault Refusal :=
  .next (s.request (s.arg 0) (s.arg 1) 3 (s.arg 2))

/-- PREEMPT_REQUEST_DONE (R28, R369, R370): the blocks that have stopped meanwhile are saved; once none is left, busy clears and
a record of kind 0x43 is sent. Arguments: die, partition. -/
def execPreemptRequestDone (s : State) : Outcome State Fault Refusal :=
  let die := s.arg 0
  let part := s.arg 1
  .next (if !(s.pre die part).busy then s
    else
      let s := s.saveReady die part
      let p := s.pre die part
      if !p.todo.isEmpty then s
      else
      let s := s.modPre die part fun p => { p with busy := false, todo := [] }
      s.post die part 1 (eventBytes p.ctx p.grid 0 p.blocks 0x43 p.op 0 0xFFFF))

end Sys2Proof.Machine
end

