-- ==== Sys2Proof/Machine/Sha.lean ====
section
/-! DEFINITION. SHAKE256, the measurement of the almanac image (R220) and the key of a translated image (R409). -/

namespace Sys2Proof.Machine

/-- The rotation of each lane of the permutation's state, at x + 5 y. -/
def keccakRot : List Nat :=
  [0, 1, 62, 28, 27, 36, 44, 6, 55, 20, 3, 10, 43, 25, 39, 41, 45, 15, 21, 8, 18, 2, 61, 56, 14]

/-- The round constants. -/
def keccakRc : List U64 :=
  [0x0000000000000001, 0x0000000000008082, 0x800000000000808A, 0x8000000080008000, 0x000000000000808B,
   0x0000000080000001, 0x8000000080008081, 0x8000000000008009, 0x000000000000008A, 0x0000000000000088,
   0x0000000080008009, 0x000000008000000A] ++
  [0x000000008000808B, 0x800000000000008B, 0x8000000000008089, 0x8000000000008003, 0x8000000000008002,
   0x8000000000000080, 0x000000000000800A, 0x800000008000000A, 0x8000000080008081, 0x8000000000008080,
   0x0000000080000001, 0x8000000080008008]

/-- One round on 25 lanes. -/
def keccakRound (a : List U64) (rc : U64) : List U64 :=
  let at_ (l : List U64) (x y : Nat) : U64 := l.getD (x % 5 + 5 * (y % 5)) 0
  let c := (List.range 5).map fun x => at_ a x 0 ^^^ at_ a x 1 ^^^ at_ a x 2 ^^^ at_ a x 3 ^^^ at_ a x 4
  let d := (List.range 5).map fun x => c.getD ((x + 4) % 5) 0 ^^^ (c.getD ((x + 1) % 5) 0).rotateLeft 1
  let t := (List.range 25).map fun i => a.getD i 0 ^^^ d.getD (i % 5) 0
  -- lane (x, y) of b comes from lane (x + 3 y, x)
  let b := (List.range 25).map fun i =>
    let x := i % 5
    let y := i / 5
    let j := (x + 3 * y) % 5 + 5 * x
    (t.getD j 0).rotateLeft (keccakRot.getD j 0)
  let e := (List.range 25).map fun i =>
    at_ b (i % 5) (i / 5) ^^^ (~~~(at_ b (i % 5 + 1) (i / 5)) &&& at_ b (i % 5 + 2) (i / 5))
  match e with
  | [] => []
  | h :: r => (h ^^^ rc) :: r

/-- The permutation. -/
def keccak (a : List U64) : List U64 := keccakRc.foldl keccakRound a

/-- The 64-bit little-endian number of 8 bytes. -/
def laneOf (b : List Byte) : U64 := b.foldr (fun x n => n * 256 + x.setWidth 64) 0

/-- Absorb the blocks of 136 bytes of a padded message. -/
def shakeAbsorb : Nat → List Byte → List U64 → List U64
  | 0, _, a => a
  | n + 1, m, a =>
    let mixed := (List.range 25).map fun i =>
      if i < 17 then a.getD i 0 ^^^ laneOf ((m.drop (8 * i)).take 8) else a.getD i 0
    shakeAbsorb n (m.drop 136) (keccak mixed)

/-- The first 136 bytes of SHAKE256 of a message, as 17 words. -/
def shake256 (m : List Byte) : List U64 :=
  let n := m.length / 136 + 1
  let gap := 136 * n - m.length
  let pad : List Byte := if gap = 1 then [0x9F] else 0x1F :: List.replicate (gap - 2) 0 ++ [0x80]
  (shakeAbsorb n (m ++ pad) (List.replicate 25 0)).take 17

/-- A number of 64-bit words, low word first. -/
def wordsNat (l : List U64) : Nat := l.foldr (fun x n => n * 2 ^ 64 + x.toNat) 0

end Sys2Proof.Machine
end

