-- ==== Sys2Proof/Machine/Registers.lean ====
section
/-! DEFINITION. Special registers (R57 to R60, R219, R336 to R338, R342, R347, R369, R398), SRD and SWR (R102), and the
steps that their writes start: windows, the almanac, MTU invalidation, replay release, the event arbiter. -/

namespace Sys2Proof.Machine

open Host (Outcome)

/-! ## Windows (R336, R337) -/

/-- Change a window. -/
def State.modWindow (s : State) (part ctx w : Nat) (f : Window → Window) : State :=
  { s with windows := s.windows.put (winKey part ctx w) (f (s.window part ctx w)) }

/-- Bits of a 64-bit word kept by a mask. -/
def maskBits (v : U64) (lo n : Nat) : U64 := BitVec.ofNat 64 (bitsOf v.toNat lo n * 2 ^ lo)

/-- A written WCTL: reserved bits dropped, kinds 5 to 7 become 0. -/
def wctlOf (v : U64) : BitVec 7 :=
  let k := bitsOf v.toNat 0 3
  BitVec.ofNat 7 (bitsOf v.toNat 4 3 * 16 + (if k ≥ 5 then 0 else k))

/-- A write of WBASE, WLIMIT or WOFF, ignored while the window's kind is nonzero (R337). -/
def Window.write (x : Window) (j : Nat) (v : U64) : Window :=
  if x.kind ≠ 0 then x
  else match j with
    | 0 => { x with base := maskBits v 21 36 }
    | 1 => { x with limit := maskBits v 12 46 }
    | _ => { x with off := maskBits v 16 36 }

/-- A register of a window. -/
def Window.read (x : Window) (j : Nat) : U64 :=
  match j with
  | 0 => x.base
  | 1 => x.limit
  | 2 => x.off
  | _ => x.ctl.setWidth 64

/-- WCTL (R337): the write takes effect on every core at once, and the groups parked on it wake. Arguments: partition,
context, window, value. -/
def execWctl (s : State) : Outcome State Fault Refusal :=
  let part := s.arg 0
  let ctx := s.arg 1
  let w := s.arg 2
  let v := BitVec.ofNat 64 (s.arg 3)
  .next (if w ≥ 16 then s
    else
      let s := s.modWindow part ctx w fun x => { x with ctl := wctlOf v }
      { s with blocks := s.blocks.mapVal fun _ k =>
          if k.part = part && k.st = .resident then
            { k with groups := k.groups.mapVal fun _ g => if g.park = .wctl ctx w v then g.wake else g }
          else k })

/-! ## Core configuration (R338) -/

/-- Whether a block is resident on a core. -/
def State.occupied (s : State) (core : Nat) : Bool :=
  s.blocks.any fun b => b.2.st == .resident && b.2.cores.contains core

/-- A write of DVSIZE. Accesses that have been translated are performed before the region changes. -/
def State.setDvsize (s : State) (core : Nat) (v : U64) : State :=
  if s.occupied core then s else s.landEverything.modCore core fun c => { c with dvsize := min 96 (bitsOf v.toNat 0 7) }

/-- A write of PADATTR; bits [8p+7 : 8p+6] are reserved. -/
def padattrOf (v : U64) : BitVec 48 :=
  BitVec.ofNat 48 (((List.range 6).map fun p => bitsOf v.toNat (8 * p) 6 * 2 ^ (8 * p)).foldl (· + ·) 0)

/-! ## The almanac (R213, R218 to R220) -/

/-- The bytes of the image. -/
def CoreSt.imageBytes (k : CoreSt) : List Byte :=
  (List.range 3040).flatMap fun i => leBytes 8 (k.almImage.get i).toNat

/-- Whether writes to ALMCTL[0], ALMADDR and ALMDATA are ignored. -/
def State.almClosed (s : State) (core : Nat) : Bool := (s.core core).almLock || s.occupied core

/-- A commit (R220). -/
def State.almCommit (s : State) (core : Nat) : State :=
  if s.almClosed core then s
  else s.modCore core fun k =>
    let m := BitVec.ofNat 512 (wordsNat ((shake256 k.imageBytes).take 8))
    { k with almMeas := m, almValid := m == Config.fusedDigest, almMis := m != Config.fusedDigest }

/-- A lock (R219). -/
def State.almSetLock (s : State) (core : Nat) : State := s.modCore core fun k => { k with almLock := true }

/-- A write of ALMADDR. Its bits [2:0] are ignored where it is used; whether they read back as written the spec does not say: the
model keeps them (DESIGN CHOICE, log entry 56). -/
def State.almSetAddr (s : State) (core : Nat) (v : U64) : State :=
  if s.almClosed core then s else s.modCore core fun k => { k with almAddr := bitsOf v.toNat 0 15 }

/-- A write of ALMDATA: 8 bytes are stored at ALMADDR, whose bits [2:0] are ignored, and ALMADDR advances by 8; beyond the
image nothing is stored. A stored word ends the image's validity until the next commit: valid says that the almanac is loaded
and matched, and no image that changes a frozen contract can be valid (R8, R219, R220; DEDUCED, log entry 56). -/
def State.almSetData (s : State) (core : Nat) (v : U64) : State :=
  if s.almClosed core || (s.core core).almAddr / 8 ≥ 3040 then s
  else s.modCore core fun k =>
    { k with almImage := k.almImage.set (k.almAddr / 8) v, almAddr := (k.almAddr + 8) % 2 ^ 15, almValid := false }

/-- A read of an almanac register (R219); none for an index that is not listed. -/
def CoreSt.almRead (k : CoreSt) (i : Nat) : Option U64 :=
  match i with
  | 0xA00 => some (BitVec.ofNat 64 ((if k.almValid then 1 else 0) + (if k.almLock then 2 else 0) + (if k.almMis then 4 else 0)))
  | 0xA01 => some 0
  | 0xA02 => some (BitVec.ofNat 64 k.almAddr)
  | 0xA03 => some (k.almImage.get (k.almAddr / 8))
  | i =>
    if 0xA08 ≤ i && i ≤ 0xA0F then some (BitVec.ofNat 64 (k.almMeas.toNat / 2 ^ (64 * (i - 0xA08))))
    else if 0xA10 ≤ i && i ≤ 0xA1F then
      some (if k.almValid then BitVec.ofNat 64 (almEntry (i - 0xA10)) else 0)
    else none

/-- A write of an almanac register. One write of ALMCTL that commits and locks commits first: the spec gives no order (DESIGN
CHOICE, log entry 56). -/
def State.almWrite (s : State) (core i : Nat) (v : U64) : State :=
  match i with
  | 0xA01 =>
    let s := if v.getLsbD 0 then s.almCommit core else s
    if v.getLsbD 1 then s.almSetLock core else s
  | 0xA02 => s.almSetAddr core v
  | 0xA03 => s.almSetData core v
  | _ => s

/-- ALMCTL_COMMIT (R220). Argument: core. -/
def execAlmctlCommit (s : State) : Outcome State Fault Refusal := .next (s.almCommit (s.arg 0))

/-- ALMCTL_LOCK (R219). Argument: core. -/
def execAlmctlLock (s : State) : Outcome State Fault Refusal := .next (s.almSetLock (s.arg 0))

/-- ALMDATA (R219). Arguments: core, value. -/
def execAlmdata (s : State) : Outcome State Fault Refusal :=
  .next (s.almSetData (s.arg 0) (BitVec.ofNat 64 (s.arg 1)))

/-! ## The event arbiter (R345 to R347) -/

/-- QSTAT's nonempty bit. -/
def EvQueue.nonempty (q : EvQueue) : Bool := q.wr != q.rd

/-- Whether the queue is full. -/
def EvQueue.full (q : EvQueue) : Bool := q.wr - q.rd == BitVec.ofNat 32 (2 ^ q.size)

/-- A register of a queue (R347). -/
def EvQueue.read (q : EvQueue) (j : Nat) : U64 :=
  match j with
  | 0 => BitVec.ofNat 64 (q.base.toNat * 4096)
  | 1 => BitVec.ofNat 64 q.size
  | 2 => q.wr.setWidth 64
  | 3 => q.rd.setWidth 64
  | 4 => BitVec.ofNat 64 (q.vec.toNat + (if q.irq then 2 ^ 16 else 0))
  | _ => BitVec.ofNat 64 ((if q.nonempty then 1 else 0) + (if q.full && !q.waiting.isEmpty then 2 else 0))

/-- A write of a register of a queue. -/
def EvQueue.write (q : EvQueue) (j : Nat) (v : U64) : EvQueue :=
  match j with
  | 0 => { q with base := BitVec.ofNat 40 (bitsOf v.toNat 12 40) }
  | 1 => let k := bitsOf v.toNat 0 5; { q with size := if 7 ≤ k && k ≤ 20 then k else 7 }
  | 3 => { q with rd := v.setWidth 32 }
  | 4 => { q with irq := v.getLsbD 16, vec := v.setWidth 16 }
  | _ => q

/-- The interrupt of a queue that turns non-empty (R347). -/
def State.queueTurn (s : State) (die part n : Nat) (old : EvQueue) : State :=
  let q := s.queue die part n
  if q.irq && q.nonempty && !old.nonempty then s.raise (part + 1) q.vec.toNat else s

/-- A write of a register of a queue. -/
def State.queueWrite (s : State) (die part n j : Nat) (v : U64) : State :=
  let old := s.queue die part n
  (s.modQueue die part n fun q => q.write j v).queueTurn die part n old

/-! ## Replay release (R198, R347) -/

/-- The group that holds a core's slot in a partition. -/
def State.slotHolder (s : State) (part core slot : Nat) : Option (Nat × Nat) :=
  s.blocks.findSome? fun b =>
    if b.2.st == .resident && b.2.part == part then
      (b.2.groups.find? fun g => g.2.core == core && g.2.slot == slot).map fun g => (b.1, g.1)
    else none

/-- The replay record that a value of RPLREL names. -/
def State.recordNamed (s : State) (part : Nat) (v : U64) : Option (Nat × Nat × Replay) :=
  match s.slotHolder part (bitsOf v.toNat 7 9) (bitsOf v.toNat 2 5) with
  | none => none
  | some (b, g) => ((s.group b g).bind fun r => r.replay.find (bitsOf v.toNat 0 2)).map fun r => (b, g, r)

/-- The record that RPLREL names is replayed. A record of its instruction that still waits at the arbiter holds the replay back
until it is taken (R345). Answers the lanes that are unfinished. -/
def State.replayNamed (s : State) (part : Nat) (v : U64) : BitVec 32 × State :=
  match s.recordNamed part v with
  | none => (0, s)
  | some (b, g, r) =>
    if s.held r.op then
      (r.lanes, s.modGroup b g fun g => { g with replay := g.replay.adj (bitsOf v.toNat 0 2) fun r => { r with asked := true } })
    else s.replayRecord b g (bitsOf v.toNat 0 2)

/-- A write of RPLREL: the named record of a group on a core of the partition is replayed. -/
def State.release (s : State) (die part : Nat) (v : U64) : State :=
  let (left, s) := s.replayNamed part v
  s.modPre die part fun p => { p with rplrel := BitVec.ofNat 64 (bitsOf v.toNat 0 16), rplmask := left }

/-- The last record of an operation has been taken: what has waited at it goes on (R345). -/
def State.taken (s : State) (tag : Nat) : State :=
  if s.held tag then s
  else if tag / 2 ^ 42 = 1 then s.dispFlush (tag % 2 ^ 42)
  else s.releaseHeld tag

/-- FAULT_RECORD (R345, R346): the oldest waiting record of a queue with room is appended with its sequence number, and
the write index advances. A ring outside the partition's own HBM is not written (R397). Arguments: die, partition, queue. -/
def execFaultRecord (s : State) : Outcome State Fault Refusal :=
  let die := s.arg 0
  let part := s.arg 1
  let n := s.arg 2
  let q := s.queue die part n
  .next (match q.waiting with
    | [] => s
    | (tag, bytes) :: rest =>
      if q.full then s
      else
        let a := q.base.toNat * 4096 + 32 * (q.wr.toNat % 2 ^ q.size)
        let s := if s.ownsHbm part a 32 then s.storeBytes a (bytes ++ leBytes 4 q.wr.toNat) else s
        let s := s.modQueue die part n fun q => { q with wr := q.wr + 1, waiting := rest }
        let s := s.queueTurn die part n q
        if tag = 0 then s else s.taken tag)

/-- RPLREL (R198). Arguments: die, partition, value. -/
def execRplrel (s : State) : Outcome State Fault Refusal :=
  .next (s.release (s.arg 0) (s.arg 1) (BitVec.ofNat 64 (s.arg 2)))

/-! ## MTU registers (R342, R343) -/

/-- A register of an MTU. -/
def Quad.mtuRead (q : Quad) (j : Nat) : U64 :=
  match j with
  | 0 => BitVec.ofNat 64 (q.l1base.toNat * 4096)
  | 1 => BitVec.ofNat 64 q.l1count
  | 2 => q.invVal
  | _ => if q.busy then 1 else 0

/-- A write of MTUINV starts an invalidation (R343). -/
def State.mtuInv (s : State) (quad : Nat) (v : U64) : State :=
  let v := BitVec.ofNat 64 (bitsOf v.toNat 0 52)
  s.modQuad quad fun q => { q with invVal := v, busy := true, inv := q.inv ++ [v] }

/-- A write of a register of an MTU. -/
def State.mtuWrite (s : State) (quad j : Nat) (v : U64) : State :=
  match j with
  | 0 => s.modQuad quad fun q => { q with l1base := BitVec.ofNat 40 (bitsOf v.toNat 12 40) }
  | 1 => s.modQuad quad fun q => { q with l1count := bitsOf v.toNat 0 27 }
  | 2 => s.mtuInv quad v
  | _ => s

/-- MTUINV (R343). Arguments: quadrant, value. -/
def execMtuinv (s : State) : Outcome State Fault Refusal := .next (s.mtuInv (s.arg 0) (BitVec.ofNat 64 (s.arg 1)))

/-! ## Pre-emption registers (R369) -/

/-- A register of a pre-emption set. -/
def Preempt.read (p : Preempt) (j : Nat) : U64 :=
  match j with
  | 0 => BitVec.ofNat 64 (p.psave.toNat * 4096)
  | 1 => p.psize.setWidth 64
  | 2 => BitVec.ofNat 64 p.pctx
  | 3 => BitVec.ofNat 64 (p.grid * 2 ^ 32)
  | _ => BitVec.ofNat 64 (p.blocks % 2 ^ 32 * 2 ^ 32 + (if p.badctx then 4 else 0) + (if p.nospace then 2 else 0)
      + (if p.busy then 1 else 0))

/-- A write of a register of a pre-emption set. -/
def State.preWrite (s : State) (die part j : Nat) (v : U64) : State :=
  match j with
  | 0 => s.modPre die part fun p => { p with psave := BitVec.ofNat 40 (bitsOf v.toNat 12 40) }
  | 1 => s.modPre die part fun p => { p with psize := BitVec.ofNat 40 (bitsOf v.toNat 0 40) }
  | 2 => s.modPre die part fun p => { p with pctx := bitsOf v.toNat 0 32 }
  | 3 => s.request die part (bitsOf v.toNat 0 2) (bitsOf v.toNat 32 32)
  | _ => s

/-! ## SRD and SWR (R57 to R59, R102) -/

/-- OC (R58). -/
def PerClass.word (p : PerClass) : Nat :=
  p.cp + p.gt * 2 ^ 6 + p.mx * 2 ^ 12 + p.sp * 2 ^ 18 + p.cl * 2 ^ 24

/-- The unfinished lanes of the oldest replay record. -/
def Group.oldestReplay (g : Group) : BitVec 32 :=
  ((g.replay.foldl (fun (m : Option Replay) r => match m with
    | none => some r.2
    | some x => if r.2.seq < x.seq then some r.2 else some x) none).map Replay.lanes).getD 0

/-- CAPC (R58). -/
def capc : U64 := 0x16D

/-- FEAT (R58). -/
def feat : U64 := 0x3F

/-- The value of a special register as the issuing group reads it; none for an index that raises ILLEGAL. Of the instants
between the issue of an SRD and the write of its result, at which a register may be read (R59), the model takes that of the
issue (DESIGN CHOICE, log entry 44). -/
def Ctx.special (c : Ctx) (s : State) (i : Nat) : Option U64 :=
  let n (x : Nat) : Option U64 := some (BitVec.ofNat 64 x)
  let g := c.g
  let part := c.k.part
  let die := dieOf g.core
  match i with
  | 0x000 => n c.gid
  | 0x001 => n (c.k.idx.1 + c.k.idx.2.1 * 2 ^ 21 + c.k.idx.2.2 * 2 ^ 42)
  | 0x002 => n g.core
  | 0x003 => n (g.core / 8 % 16)
  | 0x004 => n die
  | 0x005 => n (c.h.contract + c.eff * 2 ^ 16)
  | 0x006 => some capc
  | 0x007 => some feat
  | 0x008 => some s.cycle
  | 0x009 => some (g.amax.setWidth 64)
  | 0x00A => n (if g.amaxNan then 1 else 0)
  | 0x00B => n g.oc.word
  | 0x00C => n (g.replay.length + g.oldestReplay.toNat * 2 ^ 32)
  | 0x00D => some (g.cmixcnt.setWidth 64)
  | 0x00E => n c.k.grid
  | 0x00F => n (((s.gridOf c.k).map Grid.tree).getD 0)
  | 0x010 => some (g.cause.setWidth 64)
  | 0x011 => some g.trapPc
  | 0x012 => some g.trapInfo
  | 0x8F0 => n (s.core g.core).dvsize
  | 0x8F1 => some ((s.core g.core).padattr.setWidth 64)
  | 0x900 => n (part + ((s.quadsOf part).map fun q => 2 ^ q).foldl (· + ·) 0 * 2 ^ 32)
  | 0x901 => n c.k.ctx
  | 0x902 => some ((s.core g.core).eccCnt.setWidth 64)
  | 0x903 => some (Config.mcrev.setWidth 64 + Config.xlat.setWidth 64 * 2 ^ 32)
  | 0xD00 => some (s.pre die part).rplrel
  | 0xD01 => some ((s.pre die part).rplmask.setWidth 64)
  | i =>
    if 0x800 ≤ i && i < 0x840 then some ((s.window part c.k.ctx ((i - 0x800) / 4)).read (i % 4))
    else if 0xA00 ≤ i && i < 0xB00 then (s.core g.core).almRead i
    else if 0xB00 ≤ i && i < 0xB10 && i % 8 < 6 then some ((s.queue die part ((i - 0xB00) / 8)).read (i % 8))
    else if 0xB40 ≤ i && i < 0xC00 && i % 8 < 4 then
      ((s.quadsOf part)[(i - 0xB40) / 8]?).map fun q => (s.quad q).mtuRead (i % 8)
    else if 0xC00 ≤ i && i ≤ 0xC04 then some ((s.pre die part).read (i - 0xC00))
    else none

/-- The effect of an SWR's write; none for a register that the program may only read (R57). AMAX takes a negative or a NaN
code as it is written, although a fold leaves none (DESIGN CHOICE, log entry 44). -/
def Ctx.setSpecial (c : Ctx) (s : State) (i : Nat) (v : U64) : Option State :=
  let core := c.g.core
  let part := c.k.part
  let die := dieOf core
  let grp (f : Group → Group) : Option State := some (s.modGroup c.blk c.gid f)
  match i with
  | 0x009 => grp fun g => { g with amax := v.setWidth 32 }
  | 0x00A => grp fun g => { g with amaxNan := v.getLsbD 0 }
  | 0x00D => grp fun g => { g with cmixcnt := v.setWidth 32 }
  | 0x8F0 => some (s.setDvsize core v)
  | 0x8F1 => some (s.modCore core fun k => { k with padattr := padattrOf v })
  | 0x902 => some (s.modCore core fun k => { k with eccCnt := 0 })
  | 0xD00 => some (s.release die part v)
  | i =>
    if i < 0x800 then none
    else if i < 0x840 then
      let w := (i - 0x800) / 4
      if i % 4 = 3 then grp fun g => { g with park := .wctl c.k.ctx w v }
      else some (s.modWindow part c.k.ctx w fun x => x.write (i % 4) v)
    else if 0xA00 ≤ i && i < 0xB00 then some (s.almWrite core i v)
    else if 0xB00 ≤ i && i < 0xB10 then some (s.queueWrite die part ((i - 0xB00) / 8) (i % 8) v)
    else if 0xB40 ≤ i && i < 0xC00 then
      match (s.quadsOf part)[(i - 0xB40) / 8]? with
      | none => some s
      | some q =>
        let s := s.mtuWrite q (i % 8) v
        some (if i % 8 = 2 then s.modGroup c.blk c.gid fun g => { g with park := .mtuinv q } else s)
    else if 0xC00 ≤ i && i ≤ 0xC04 then some (s.preWrite die part (i - 0xC00) v)
    else some s

/-- SRD (R102). -/
def execSrd (d : BitVec 8) (i : BitVec 12) (s : State) : Outcome State Fault Refusal :=
  issue (.srd d i) (fun c s =>
    match c.special s i.toNat with
    | none => c.illegal
    | some v => c.putS1 s v) s

/-- SWR (R102): the register takes sd, then sd takes the register's old value. -/
def execSwr (d : BitVec 8) (i : BitVec 12) (s : State) : Outcome State Fault Refusal :=
  issue (.swr d i) (fun c s =>
    match c.special s i.toNat, c.setSpecial s i.toNat (c.g.getS c.n1) with
    | some old, some s => c.putS1 s old
    | _, _ => c.illegal) s

end Sys2Proof.Machine
end

