-- ==== Sys2Proof/Machine/Packets.lean ====
section
/-! DEFINITION. The command processor (R348 to R356): lanes, loading and checking packets, and every packet but COMM. -/

namespace Sys2Proof.Machine

open Host (Outcome)

/-! ## Lanes (R349) -/

/-- The partition that a lane serves (R348). -/
def State.lanePart (s : State) (n : Nat) : Option Nat :=
  let q := s.quad (laneQuad n)
  if n < 256 && q.state = 2 then some q.part else none

/-- The type of a packet. -/
def pktType (p : List Byte) : Nat := recNum p 0 1

/-- A write of state 0: a loaded WAITV is abandoned, any other loaded packet runs to completion (R349); so does one that is loaded
and has not begun, of which R349 does not speak (DESIGN CHOICE, log entry 62). -/
def Lane.halt (l : Lane) : Lane :=
  if l.state ≠ 1 then { l with state := 0 }
  else match l.pkt with
    | none => { l with state := 0, wait := none }
    | some p => if pktType p = 3 then { l with state := 0, pkt := none, wait := none, stage := 0 } else { l with stop := true }

/-- A write of state 1. -/
def Lane.run (l : Lane) : Lane := if l.state = 1 then l else { l with state := 1, pkt := none, wait := none, stage := 0 }

/-- A write of CQCTL (R349). The state field 3, which the table does not name, leaves the state as it is (DESIGN CHOICE, log entry
62). -/
def Lane.writeCtl (l : Lane) (v : U64) : Lane :=
  let f := v.toNat
  let l := { l with ceil := bitsOf f 12 2, prio := bitsOf f 10 2 }
  let k := bitsOf f 16 4
  let l := if l.state = 1 then l
    else { l with ctx := bitsOf f 32 32, k := if k = 0 then 16 else max k 4, priv := f.testBit 9 }
  match bitsOf f 0 2 with
  | 0 => l.halt
  | 1 => l.run
  | _ => l

/-- A write of a lane register: CQRING, CQWRVA, CQRD, CQCTL. -/
def Lane.write (l : Lane) (j : Nat) (v : U64) : Lane :=
  match j with
  | 0 => if l.state = 1 then l else { l with ring := maskBits v 6 51 }
  | 1 => if l.state = 1 then l else { l with wrva := maskBits v 3 54 }
  | 2 => if l.state = 1 then l else { l with rd := v.setWidth 32 }
  | _ => l.writeCtl v

/-- The grids of a lane's trees take its priority (R366, R367). -/
def State.spreadPrio (s : State) (n : Nat) : State :=
  let mine (g : Grid) : Bool := (s.trees.find g.tree).map Tree.lane == some n
  { s with grids := s.grids.mapVal fun _ g => if mine g then { g with prio := (s.lane n).prio } else g }

/-- The lane that a step names: 64 × die + lane. -/
def State.laneArg (s : State) : Nat := 64 * s.arg 0 + s.arg 1

/-- CQCTL_STOP (R349). Arguments: die, lane. -/
def execCqctlStop (s : State) : Outcome State Fault Refusal := .next (s.modLane s.laneArg Lane.halt)

/-- CQCTL_RUN (R349). Arguments: die, lane. -/
def execCqctlRun (s : State) : Outcome State Fault Refusal := .next (s.modLane s.laneArg Lane.run)

/-! ## Errors, waits, completion -/

/-- The queue goes into the error state with an event record of kind 0x42 (R355, R356). Where the write index or the slot itself
could not be read, there are no packet bytes for the record: the model writes zero there (DESIGN CHOICE, log entry 62). -/
def State.laneErr (s : State) (n part reason : Nat) : State :=
  let l := s.lane n
  let s := s.modLane n fun l => { l with state := 2, pkt := none, wait := none, stop := false, stage := 0 }
  s.post (n / 64) part 1
    (eventBytes n l.rd.toNat (BitVec.ofNat 64 (recNum (l.pkt.getD []) 0 8)) 0 0x42 reason 0 0xFFFF) (laneTag n)

/-- The lane waits on a page (R350). -/
def State.laneWait (s : State) (n part kind ia : Nat) : State :=
  (s.sysFault (n / 64) part ia kind false (laneTag n)).modLane n fun l => { l with wait := some ia }

/-- The packet completes: rd advances, and a lane asked to stop stops (R349, R350). -/
def State.laneDone (s : State) (n : Nat) : State :=
  s.modLane n fun l =>
    { l with rd := l.rd + 1, pkt := none, wait := none, stage := 0, state := if l.stop then 0 else l.state, stop := false }

/-- Whether any byte of a range is not zero. -/
def notZero (p : List Byte) (off n : Nat) : Bool := recNum p off n != 0

/-- Fields of a COMM packet that are out of range or must be zero (R422). -/
def commBad (p : List Byte) : Bool :=
  let op := recNum p 1 1
  op > 2 || recNum p 4 1 > 7 || notZero p 6 2 || notZero p 20 4 || notZero p 40 24
    || (if op = 0 then
          recNum p 5 1 == 0 || recNum p 5 1 > 4 || recNum p 16 2 < 2 || recNum p 16 2 > 256 || recNum p 18 2 ≥ recNum p 16 2
        else notZero p 5 1 || notZero p 8 12 || notZero p 32 8)

/-- What is wrong with a packet's bytes (R353, R355): the reason of the event record. A packet with several defects has the first
of these: a reserved type, an unprivileged COMM, a bad field, and at last an address; the spec gives no order (DESIGN CHOICE,
log entry 62). -/
def pktBad (p : List Byte) (priv : Bool) : Option Nat :=
  let f := recNum p 1 1
  if pktType p > 6 then some 1
  else if pktType p = 6 && !priv then some 3
  else if notZero p 2 2 then some 2
  else
    let bad := match pktType p with
      | 0 => f != 0 || notZero p 4 60
      | 1 => f > 3 || notZero p 6 2 || notZero p 32 32
      | 2 => f == 0 || f > 3 || notZero p 4 4 || notZero p 24 40
      | 3 => f > 3 || notZero p 4 4 || notZero p 32 32
      | 4 => f > 3 || notZero p 6 2 || notZero p 24 40
      | 5 => f != 0 || recNum p 4 1 > 3 || notZero p 5 59
      | _ => commBad p
    if bad then some 2 else none

/-- A running lane without a packet reads the write index and, when it differs from rd, the packet in slot rd (R350). -/
def State.loadPkt (s : State) (n part : Nat) : State :=
  let l := s.lane n
  if l.state ≠ 1 || l.pkt.isSome || l.wait.isSome then s
  else
    let (r, s) := s.sysRead part l.ctx l.wrva.toNat 8
    match r with
    | .wait k ia => s.laneWait n part k ia
    | .ok bs =>
      if BitVec.ofNat 32 (leNat bs) = l.rd then s
      else
        let (r, s) := s.sysRead part l.ctx (l.ring.toNat + 64 * (l.rd.toNat % 2 ^ l.k)) 64
        (match r with
         | .wait k ia => s.laneWait n part k ia
         | .ok p =>
           let s := s.modLane n fun l => { l with pkt := some p, stage := 0 }
           (match pktBad p l.priv with
            | some reason => s.laneErr n part reason
            | none => s)
         | _ => s.laneErr n part 4)
    | _ => s.laneErr n part 4

/-- A packet step: a lane whose own record waits at the arbiter waits with it (R345); otherwise the lane loads if it can; when it then holds a packet of the step's type, that packet is served. -/
def State.serve (s : State) (type : Nat) (f : Nat → Nat → Lane → List Byte → State → State) : State :=
  let n := s.laneArg
  match s.lanePart n with
  | none => s
  | some part =>
    if s.held (laneTag n) then s
    else
    let s := s.loadPkt n part
    let l := s.lane n
    match l.pkt with
    | some p => if l.state = 1 && l.wait.isNone && pktType p = type then f n part l p s else s
    | none => s

/-! ## Packets (R352 to R354) -/

/-- NOPKT. Arguments of this and the next steps: die, lane. -/
def execNopkt (s : State) : Outcome State Fault Refusal := .next (s.serve 0 fun n _ _ _ s => s.laneDone n)

/-- The DISPATCH is accepted: its tree and seed grid exist (R357, R361). -/
def State.dispatch (s : State) (n part : Nat) (l : Lane) (p : List Byte) (record : Option (List Byte)) : State :=
  let (t, s) := s.newTree part (n / 64) n l.ctx (recNum p 16 8) (BitVec.ofNat 64 (recNum p 24 8))
    (BitVec.ofNat 8 (recNum p 1 1)) (BitVec.ofNat 16 (recNum p 4 2))
  let (_, s) := s.accept t 0 part l.ctx (n / 64) l.prio l.priv true record none
  s.laneDone n

/-- DISPATCH (R352, R355, R361). -/
def execDispatch (s : State) : Outcome State Fault Refusal :=
  .next (s.serve 1 fun n part l p s =>
    let word := recNum p 16 8
    let va := recNum p 8 8
    if word ≠ 0 && (word % 8 != 0 || (s.sysMap part l.ctx word 8 false true false).isNone) then s.laneErr n part 4
    else if va % 64 ≠ 0 then s.dispatch n part l p none
    else
      let (r, s) := s.sysRead part l.ctx va 128
      match r with
      | .wait k ia => s.laneWait n part k ia
      | .ok bs => s.dispatch n part l p (some bs)
      | _ => s.dispatch n part l p none)

/-- Whether a range lies wholly in enabled windows of a context (R354). -/
def State.inWindows (s : State) (part ctx : Nat) : Nat → Nat → Nat → Bool
  | 0, _, _ => false
  | f + 1, va, len =>
    if len = 0 then true
    else match s.mapVa part ctx va with
      | none => false
      | some (w, _) =>
        let e := w.base.toNat + w.limit.toNat
        s.inWindows part ctx f e (va + len - e)

/-- The held L2 lines of a partition's quadrants that some ranges touch are written back where they are dirty; they are given
up as well when they are to be invalidated (R332, R354). CMAINT changes only time, so invalidation loses no byte. -/
def State.maintain (s : State) (part : Nat) (drop : Bool) (rs : List (Nat × Nat)) : State :=
  (s.l2.filter fun x => s.owns part (x.1 / 2 ^ 40 % 16) && rs.any (lineHit (128 * x.1))).foldl (fun s x =>
    if drop then s.l2Evict x.1 else (s.l2Clean x.1).2) s

/-- CMAINT (R354): flags 1 clean, 2 invalidate, 3 both. -/
def execCmaint (s : State) : Outcome State Fault Refusal :=
  .next (s.serve 2 fun n part l p s =>
    if s.inWindows part l.ctx 40 (recNum p 8 8) (recNum p 16 8) then
      (match s.vaPieces part l.ctx (recNum p 8 8) (recNum p 16 8) with
       | .ok rs => (s.maintain part (recNum p 1 1 != 1) rs).laneDone n
       | .error _ => s.laneDone n)
    else s.laneErr n part 4)

/-- The condition of a WAITV (R353). -/
def waitHolds (cond word ref mask : Nat) : Bool :=
  let a := Nat.land word mask
  let b := Nat.land ref mask
  match cond with
  | 0 => a == b
  | 1 => a != b
  | 2 => a ≥ b
  | _ => a < b

/-- One reading of a WAITV's word. -/
def waitvRead (n part : Nat) (l : Lane) (p : List Byte) (s : State) : State :=
  let va := recNum p 8 8
  if va % 8 ≠ 0 then s.laneErr n part 4
  else
    let (r, s) := s.sysRead part l.ctx va 8
    match r with
    | .ok bs =>
      if waitHolds (recNum p 1 1) (leNat bs) (recNum p 16 8) (recNum p 24 8) then s.laneDone n
      else s.modLane n fun l => { l with stage := 1 }
    | .wait k ia => s.laneWait n part k ia
    | _ => s.laneErr n part 4

/-- WAITV (R354). -/
def execWaitv (s : State) : Outcome State Fault Refusal := .next (s.serve 3 waitvRead)

/-- WAITV_POLL (R354): a waiting WAITV reads its word again. -/
def execWaitvPoll (s : State) : Outcome State Fault Refusal :=
  .next (s.serve 3 fun n part l p s => if l.stage = 1 then waitvRead n part l p s else s)

/-- SIGNAL (R354, R442). Without its write, it completes once its record has been taken (R345): stage 2. -/
def execSignal (s : State) : Outcome State Fault Refusal :=
  .next (s.serve 4 fun n part l p s =>
    let va := recNum p 8 8
    let add := (recNum p 1 1).testBit 1
    let fin (s : State) : State :=
      (if (recNum p 1 1).testBit 0 then s.raise (part + 1) (recNum p 4 2) else s).laneDone n
    if l.stage = 2 then fin s
    else if va % 8 ≠ 0 then s.laneErr n part 4
    else
      let (r, s) := s.sysWord part l.ctx va (BitVec.ofNat 64 (recNum p 16 8)) add
      match r with
      | .ok _ => fin s
      | .wait k ia => s.laneWait n part k ia
      | .deny k ia far => (s.sysFault (n / 64) part ia k far (laneTag n)).modLane n fun l => { l with stage := 2 }
      | .none => s.laneErr n part 4)

/-- PRIO (R354, R367): the queue's priority, and that of every block of its grids that is not resident. -/
def execPrio (s : State) : Outcome State Fault Refusal :=
  .next (s.serve 5 fun n _ l p s =>
    ((s.modLane n fun x => { x with prio := min (recNum p 4 1) l.ceil }).spreadPrio n).laneDone n)

end Sys2Proof.Machine
end

