-- ==== Sys2Proof/Machine/Fabric.lean ====
section
/-! DEFINITION. The fabric (R418 to R421, R437): links, peer accesses; communicators (R422 to R425); collectives, steps
and reduction units (R426 to R436). Peers, and the members of a communicator that are not this one, are the surroundings:
what they send comes as arguments of steps, and what this member sends them goes to the outbox (log entry 8). -/

namespace Sys2Proof.Machine

open Host (Outcome)

/-- A collective's footprint: a miss or a permission fault with its address, or the intermediate address (R429). -/
def State.footprint (s : State) (part ctx va n : Nat) (w : Bool) : Except (BitVec 8 × Nat) Nat :=
  match s.mapVa part ctx va with
  | none => .error (cMISS, va)
  | some (win, ia) =>
    match win.beyond va n with
    | some e => .error (cMISS, e)
    | none =>
      if !([1, 2, 3] : List Nat).contains win.kind || !(if w then win.canW else win.canR) || !win.kindOk ia then
        .error (cPERM, va)
      else .ok ia

/-! ## COLL (R429) -/

/-- A group's COLL joins its block's earliest collective that has not started and that the group has not joined; the
lowest-numbered group's descriptor, barrier handle and footprints are the collective's. One that is issued on a communicator
that is not open has passed without the checks that need an open one, and fails with reason 2. -/
def State.joinColl (s : State) (c : Ctx) (op key : Nat) (d : List U64) (bar : Option BarLoc) (src dst : Nat) : State :=
  let fits (k : Collective) : Bool := k.blk == c.blk && !k.started && (k.ops.find c.gid).isNone
  let put (k : Collective) : Collective :=
    let ops := k.ops.put c.gid op
    let k := if (s.openComm key).isNone then { k with failed := k.failed <|> some 2 } else k
    if (ops.headD (0, 0)).1 = c.gid then { k with ops := ops, comm := key, desc := d, bar := bar, src := src, dst := dst }
    else { k with ops := ops }
  match s.colls.find? fun k => fits k.2 with
  | some (id, k) => { s with colls := s.colls.put id (put k) }
  | none =>
    { s with
      colls := s.colls.put s.nextId (put ⟨c.k.part, c.k.ctx, key, 0, c.blk, [], d, bar, dieOf c.g.core, false, false, none,
        [], [], src, dst, [], [], none, [], []⟩)
      nextId := s.nextId + 1 }

/-- The effect of a COLL whose checks have passed. -/
def Ctx.startColl (c : Ctx) (s : State) (key : Nat) (d : List U64) (bar : Option BarLoc) (src dst : Nat) (count : Bool) :
    Res :=
  let s := if count then s.modGroup c.blk c.gid fun g =>
      { g with cmixcnt := if g.cmixcnt = 0xFFFFFFFF then g.cmixcnt else g.cmixcnt + 1 } else s
  let op := s.nextId
  let s := c.launch s .cl none none 0 (.coll key 0 bar) [] 0 false
  .done (s.joinColl c op key d bar src dst) none

/-- COLL (R429). -/
def execColl (a b : BitVec 8) (s : State) : Outcome State Fault Refusal :=
  issue (.coll a b) (fun c s =>
    let d := (List.range 8).map fun k => c.g.getS (c.n3 + k)
    let y := CollDesc.of d
    let key := commKey c.k.part y.handle
    let comm := s.openComm key
    let p := (comm.map Comm.count).getD 1
    let es := elemSize y.ty
    let h := c.g.getS c.n2
    if collReserved d || y.n = 0 || (comm.isSome && y.root ≥ p) || y.overlaps p then c.illegal
    else if !y.typeOk (comm.map Comm.contract) then .trap cTYPE (BitVec.ofNat 64 y.ty)
    else
      let bar := if h = 0 then Except.ok none else (s.handle c.k c.h h).map fun l => some (l.inBlock c.blk)
      match bar with
      | .error e => e.trap
      | .ok bar =>
        if y.src % es ≠ 0 then .trap cALIGN (BitVec.ofNat 64 y.src)
        else if y.dst % es ≠ 0 then .trap cALIGN (BitVec.ofNat 64 y.dst)
        else
          let src := s.footprint c.k.part c.k.ctx y.src (y.srcBytes p) false
          let dst := s.footprint c.k.part c.k.ctx y.dst (y.dstBytes p) true
          match src, dst with
          | .error (x, va), .ok _ => .trap x (BitVec.ofNat 64 va)
          | .ok _, .error (x, va) => .trap x (BitVec.ofNat 64 va)
          | .error (x, va), .error (x', va') =>
            if x = cPERM && x' = cMISS then .trap x' (BitVec.ofNat 64 va') else .trap x (BitVec.ofNat 64 va)
          | .ok src, .ok dst =>
            let mix := (comm.map fun k => k.contract != c.eff).getD false
            if mix && !c.g.mode.getLsbD 8 then .trap cCMIX (BitVec.ofNat 64 y.src)
            else c.startColl s key d bar src dst mix) s

/-! ## Harvest queues (R431) -/

/-- The key of a harvest queue. -/
def harvestKey (die part ctx q : Nat) : Nat := ((part * 2 ^ 32 + ctx) * 4 + die) * 128 + q

/-- ARQPOP (R431). -/
def execArqpop (d a : BitVec 8) (s : State) : Outcome State Fault Refusal :=
  issue (.arqpop d a) (fun c s =>
    let q := (c.g.getS c.n3).toNat
    if q = 0 || q > 64 then c.illegal
    else
      let key := harvestKey (dieOf c.g.core) c.k.part c.k.ctx q
      match (s.harvest.find key).getD [] with
      | [] => c.putRun s c.n2 [0]
      | t :: r => c.putRun { s with harvest := if r.isEmpty then s.harvest.del key else s.harvest.put key r } c.n2
          [BitVec.ofNat 64 (2 ^ 63 + t.toNat % 2 ^ 32)]) s

/-- The bytes of tile `k` of a destination of `n` bytes. -/
def tileRange (n k : Nat) : Nat × Nat := (65536 * k, min n (65536 * (k + 1)))

/-- The number of tiles. -/
def tileTotal (n : Nat) : Nat := ceilDiv n 65536

/-- Whether a range of destination bytes is wholly written. -/
def Collective.written (k : Collective) (r : Nat × Nat) : Bool := k.left.all fun x => x.2 ≤ r.1 || r.2 ≤ x.1

/-- HARVEST_PUSH (R431): a tile with its final values is announced when there is room. Arguments: collective, tile. -/
def execHarvestPush (s : State) : Outcome State Fault Refusal :=
  let id := s.arg 0
  let t := s.arg 1
  .next (match s.colls.find id with
    | none => s
    | some k =>
      let y := CollDesc.of k.desc
      let n := s.collBytes k
      let key := harvestKey k.die k.part k.ctx y.queue
      let q := (s.harvest.find key).getD []
      if y.queue = 0 || !k.begun || k.failed.isSome || t ≥ tileTotal n || k.tiles.contains t || !k.written (tileRange n t)
          || q.length ≥ 1024 then s
      else
        { s with
          harvest := s.harvest.put key (q ++ [BitVec.ofNat 64 ((y.base + t) % 2 ^ 32)])
          colls := s.colls.adj id fun k => { k with tiles := k.tiles ++ [t] } })

/-! ## Steps (R432) -/

/-- The bytes of a range are written. -/
def Collective.fill (k : Collective) (lo hi : Nat) : Collective :=
  { k with left := k.left.flatMap fun x => [(x.1, min lo x.2), (max hi x.1, x.2)].filter fun y => y.1 < y.2 }

/-- A step ends; a load has written its part of the destination. -/
def State.endStep (s : State) (id : Nat) (t : Step) : State :=
  { s with
    steps := s.steps.del id
    colls := if t.kind = 0 then s.colls.adj t.coll fun k => k.fill t.part.1 t.part.2 else s.colls }

/-- Whether the issuing group belongs to the carry grid of the communicator that a register names (R432). -/
def Ctx.carries (c : Ctx) (s : State) (v : U64) : Option Comm :=
  if v.toNat ≥ 8 then none
  else (s.comms.find (commKey c.k.part v.toNat)).filter fun k => k.grid == some c.k.grid

/-- STEPPOP (R432). -/
def execSteppop (d a : BitVec 8) (s : State) : Outcome State Fault Refusal :=
  issue (.steppop d a) (fun c s =>
    match c.carries s (c.g.getS c.n3) with
    | none => c.illegal
    | some k =>
      let key := commKey k.part k.handle
      if k.closing then c.putRun s c.n2 [2, 0, 0, 0]
      else match s.steps.find? fun t => t.2.comm == key && t.2.die == dieOf c.g.core && !t.2.popped with
        | none => c.putRun s c.n2 [1, 0, 0, 0]
        | some (id, t) =>
          c.putRun { s with steps := s.steps.adj id fun t => { t with popped := true } } c.n2
            [BitVec.ofNat 64 (id * 2 ^ 32 + t.kind * 16), t.src, t.dst, BitVec.ofNat 64 (t.ety * 2 ^ 32 + t.bytes)]) s

/-- STEPDONE (R432, R433): a refused step stays unended. -/
def execStepdone (a b : BitVec 8) (s : State) : Outcome State Fault Refusal :=
  issue (.stepdone a b) (fun c s =>
    let id := (c.g.getS c.n3).toNat
    match c.carries s (c.g.getS c.n2), s.steps.find id with
    | some k, some t =>
      if id ≥ 2 ^ 32 || t.comm ≠ commKey k.part k.handle || t.die ≠ dieOf c.g.core || !t.popped then c.illegal
      else if t.refused && (s.colls.find t.coll).map Collective.failed == some none then
        .done { s with steps := s.steps.adj id fun t => { t with asked := true } } none
      else .done (s.endStep id t) none
    | _, _ => c.illegal) s

/-! ## The start of a collective (R429, R432, R435) -/

/-- The verdicts of a collective's own footprints, line by line, with the side's virtual address of each. -/
def State.collPages (s : State) (k : Collective) (c : Comm) : List (Tgt × Nat × Nat) × State :=
  let y := CollDesc.of k.desc
  let n := if y.op = 3 && y.root ≠ c.rank then 0 else y.srcBytes c.count
  let m := y.dstBytes c.count
  let (a, s) := s.sysTargets k.part true false (lineParts k.src n)
  let (b, s) := s.sysTargets k.part false true (lineParts k.dst m)
  (a.map (fun t => (t.1, t.2.1, y.src + (t.2.1 - k.src))) ++ b.map fun t => (t.1, t.2.1, y.dst + (t.2.1 - k.dst)), s)

/-- The records of a collective's own pages that wait or are denied: one for each page and kind (R436). `stops` holds the
verdict, the intermediate and the virtual address. Whose core and slot such a record names the spec does not say: the model's has
core 0 and slot 0 (DESIGN CHOICE, log entry 19). -/
def State.collRecords (s : State) (id : Nat) (k : Collective) (stops : List (Tgt × Nat × Nat)) : State :=
  (stops.foldl (fun (r : List (Nat × Nat) × State) t =>
    let kind := (t.1.record.map Prod.fst).getD 0
    let page := (s.faultPage k.part t.2.1, kind)
    if r.1.contains page then r
    else (page :: r.1,
      { r.2.post k.die k.part 0 (faultBytes t.2.2 t.2.1 0 kind 5 0xFF 0 0) with
        colls := r.2.colls.adj id fun k => { k with told := page :: k.told } })) (k.told, s)).2

/-- One element moves from one place of this member to another; poison moves with it (R239). Answers where it went and whether
it is poisoned. -/
def State.moveElem (s : State) (part es src dst : Nat) : (Tgt × Option Nat × Bool) × State :=
  let (a, s) := s.target part (.ia src) es true false
  let (b, s) := s.target part (.ia dst) es false true
  let (bs, bad, s) := s.tgtRead a es
  ((b, none, bad), if bad then s.tgtSpoil part b es else s.tgtWrite part b bs)

/-- A run of elements moves, as one write (R412). -/
def State.moveRun (s : State) (part es n src dst : Nat) : State :=
  let r := (List.range n).foldl (fun (r : List (Tgt × Option Nat × Bool) × State) i =>
    let m := r.2.moveElem part es (src + i * es) (dst + i * es)
    (m.1 :: r.1, m.2)) ([], s)
  r.2.mend es r.1

/-- This member's own block goes straight from its source to its destination (R428). -/
def State.ownBlock (s : State) (k : Collective) (c : Comm) : State :=
  let y := CollDesc.of k.desc
  let es := elemSize y.ty
  let b := y.blockBytes
  let move (s : State) (src dst : Nat) : State :=
    s.moveRun k.part es y.n (k.src + src) (k.dst + dst)
  match y.op with
  | 1 => move s 0 (c.rank * b)
  | 3 => if y.root = c.rank && y.src ≠ y.dst then move s 0 0 else s
  | 4 => move s (c.rank * b) (c.rank * b)
  | _ => s

/-- The destination bytes that come from this member itself. -/
def CollDesc.ownRange (y : CollDesc) (rank : Nat) : Nat × Nat :=
  match y.op with
  | 1 | 4 => (rank * y.blockBytes, (rank + 1) * y.blockBytes)
  | 3 => if y.root = rank then (0, y.blockBytes) else (0, 0)
  | _ => (0, 0)

/-- The die that holds an intermediate address (R432). -/
def dieOfIa (ia : Nat) : Nat := if ia.testBit 51 then ia / 2 ^ 26 % 4 else ia / 2 ^ 49 % 4

/-- The first element address of a window, and how many places it has for `n` bytes of elements of `es` bytes. -/
def Window.places (w : Window) (es n : Nat) : Nat × Nat :=
  let lo := ceilDiv w.base.toNat es * es
  (lo, (w.base.toNat + w.limit.toNat + es - n - lo) / es)

/-- The peer-window address of `n` bytes of elements that a step moves (R432): which place for them of which peer window of
the communicator's context that allows the access is a free value (log entry 2). -/
def State.peerVa (s : State) (part ctx es n : Nat) (w : Bool) : U64 :=
  let f := Config.free s.free
  let clear (i : Nat) (x : Window) : Bool := (List.range i).all fun j =>
    let y := s.window part ctx j
    y.kind == 0 || y.base.toNat + y.limit.toNat ≤ x.base.toNat || x.base.toNat + x.limit.toNat ≤ y.base.toNat
  let ws := (List.range 16).filter fun i =>
    let x := s.window part ctx i
    x.kind == 4 && (if w then x.canW else x.canR) && (x.places es n).2 != 0 && clear i x
  match ws[f.toNat % ws.length]? with
  | some i =>
    let (lo, p) := (s.window part ctx i).places es n
    BitVec.ofNat 64 (lo + f.toNat / 16 % p * es)
  | none => f

/-- The largest step in bytes: the number stands in 32 bits (R432). How the engine cuts a block into steps is open; the model
cuts it into steps of this size (log entry 36). -/
def stepBytes : Nat := 2 ^ 31

/-- A block of a collective is pushed as steps. -/
def State.pushStep (s : State) (id : Nat) (k : Collective) (kind loc va bytes lo : Nat) : State :=
  let y := CollDesc.of k.desc
  let peer := s.peerVa k.part (((s.comms.find k.comm).map Comm.ctx).getD k.ctx) (elemSize y.ty) bytes (kind != 0)
  (List.range (ceilDiv bytes stepBytes)).foldl (fun s i =>
    let o := i * stepBytes
    let n := min stepBytes (bytes - o)
    let here := BitVec.ofNat 64 (va + o)
    let far := peer + BitVec.ofNat 64 o
    let t : Step := ⟨id, k.comm, dieOfIa (loc + o), kind, if kind = 0 then far else here, if kind = 0 then here else far,
      y.ty, n, (lo + o, lo + o + n), false, [], [], false, false⟩
    { s with steps := s.steps.put (s.freshKey s.steps) t, nextId := s.nextId + 1 }) { s with free := s.free + 1 }

/-- The steps towards and from one other member (R428, R432): contributions to its reduction unit, or a store of its
block; what it has for this member it stores itself, or a load fetches it as well: which is a free value. -/
def State.pushSteps (s : State) (id : Nat) (k : Collective) (c : Comm) (j : Nat) : State :=
  let y := CollDesc.of k.desc
  let b := y.blockBytes
  let push (s : State) (off : Nat) (kind : Nat) : State := s.pushStep id k kind (k.src + off) (y.src + off) b 0
  let load (s : State) (off : Nat) : State :=
    let (yes, s) := s.flip
    if yes then s.pushStep id k 0 (k.dst + off) (y.dst + off) b off else s
  match y.op with
  | 0 => push s 0 2
  | 2 => push s (j * b) 2
  | 1 => load (push s 0 1) (j * b)
  | 4 => load (push s (j * b) 1) (j * b)
  | _ =>
    if y.root = c.rank then push s 0 1
    else if y.root = j then load s 0
    else s

/-- A collective whose comparison has passed begins to move data: its own pages are checked (R436, reason 4), its own
block is moved and its steps are pushed. A page that is not present or migrating makes it wait, with a record. -/
def State.collBegin (s : State) (id : Nat) : State :=
  match s.colls.find id with
  | none => s
  | some k =>
    match s.comms.find k.comm with
    | none => s
    | some c =>
      if k.begun || !k.started || k.failed.isSome || k.wait.isSome
          || !((List.range c.count).all fun r => r == c.rank || k.exch.contains r) then s
      else
        let (ts, s) := s.collPages k c
        let stops := ts.filter fun t => t.1.waits || t.1.denied
        let s := s.collRecords id k stops
        if stops.any fun t => t.1.denied then s.collDetect id 4 true
        else match stops with
          | t :: _ => { s with colls := s.colls.adj id fun k => { k with wait := some t.2.1 } }
          | [] =>
            let s := s.ownBlock k c
            let y := CollDesc.of k.desc
            let own := y.ownRange c.rank
            let s := { s with colls := s.colls.adj id fun k => { k with begun := true }.fill own.1 own.2 }
            ((List.range c.count).filter fun j => j != c.rank).foldl (fun s j => s.pushSteps id k c j) s

/-- A message about a collective is used (R435, R436). The message: partition, handle, sequence number, rank, kind, then
the description or the reason. -/
def State.collExchange (s : State) (id : Nat) (m : List Nat) : State :=
  match s.colls.find id with
  | none => s
  | some k =>
    let rank := m.getD 3 0
    if k.failed.isSome then s
    else if m.getD 4 0 = 1 then s.collDetect id (m.getD 5 0 % 16) false
    else
      let s := { s with colls := s.colls.adj id fun k =>
        { k with seen := k.seen.put rank s.cycle.toNat, exch := if k.exch.contains rank then k.exch else k.exch ++ [rank] } }
      if m.drop 5 = (CollDesc.of k.desc).compared then s.collBegin id else s.collDetect id 0 true

/-- Messages of a communicator that came before their collective started. -/
def State.collHeld (s : State) (id key : Nat) (seq : BitVec 32) : State :=
  match s.comms.find key with
  | none => s
  | some c =>
    let mine := c.early.filter fun m => m.getD 2 0 = seq.toNat
    let s := { s with comms := s.comms.adj key fun c => { c with early := c.early.filter fun m => m.getD 2 0 ≠ seq.toNat } }
    mine.foldl (fun s m => s.collExchange id m) s

/-- A collective starts (R429, R430, R435): it takes its sequence number, its arrival falls to the lowest-numbered issuing
group's COLL, and its description goes to the members. It completes at once with reason 2 without an open communicator,
and with reason 3 after a destroy or a reset (R437). One that has failed before it starts takes its number of a communicator
that is open now too, and the members are told (log entry 36). -/
def State.collStart (s : State) (id : Nat) (k : Collective) : State :=
  let y := CollDesc.of k.desc
  let live := (s.comms.find k.comm).filter fun c => c.state ≥ 2
  let p := (live.map Comm.count).getD 1
  let seq := (live.map Comm.seq).getD 0
  let lead := (k.ops.headD (0, 0)).2
  let failed := k.failed <|> (match live with
    | none => some 2
    | some c => if c.closing then some 3 else if c.state = 2 then none else some 2)
  let now := s.cycle.toNat
  let s := { s with
    comms := s.comms.adj k.comm fun c => if live.isSome then { c with seq := c.seq + 1 } else c
    ops := (k.ops.foldl (fun t o => t.adj o.2 fun e => { e with kind := .coll k.comm id k.bar }) s.ops).adj lead fun e =>
      { e with barrier := k.bar, planned := y.dstBytes p }
    colls := s.colls.put id { k with
      started := true, seq := seq, failed := failed, left := [(0, y.dstBytes p)]
      seen := (List.range p).map fun r => (r, now) } }
  match failed, live with
  | none, some c => (s.tell c (collMsg seq 0 y.compared)).collHeld id k.comm seq
  | some r, some c => if c.state = 2 then s.tell c (collMsg seq 1 [r]) else s
  | _, none => s

/-- Whether every group of a collective's block has issued its COLL or is exiting. -/
def State.collReady (s : State) (k : Collective) : Bool :=
  match s.block k.blk with
  | none => false
  | some b => b.groups.all fun g => (k.ops.find g.1).isSome || g.2.park == .exiting

/-- COLLECTIVE_START (R429): a block's oldest collective starts; one that waited on a page begins. Argument: collective. -/
def execCollectiveStart (s : State) : Outcome State Fault Refusal :=
  let id := s.arg 0
  .next (match s.colls.find id with
    | none => s
    | some k =>
      if k.started then s.collBegin id
      else if s.colls.any (fun x => x.1 < id && x.2.blk == k.blk && !x.2.started) || !s.collReady k then s
      else s.collStart id k)

/-- COLLECTIVE_EXCHANGE (R435, R436): a member's description, or its detection of a failure. One that comes before the
collective of its number has started here is kept, also while the create has yet to end (log entry 36). A member in state 3
answers a description with reason 2. Arguments: partition, handle, sequence number, rank, kind, then op, reduction, type, n
and root or the reason. -/
def execCollectiveExchange (s : State) : Outcome State Fault Refusal :=
  let key := commKey (s.arg 0) (s.arg 1)
  .next (match s.comms.find key with
    | none => s
    | some c =>
      let s := s.heard (s.arg 0) ((c.members.getD (s.arg 3) 0).toNat / 2 ^ 52)
      if s.arg 3 ≥ c.count || s.arg 3 = c.rank then s
      else match s.colls.find? fun k => k.2.comm == key && k.2.started && k.2.failed.isNone && k.2.seq.toNat == s.arg 2 with
        | some (id, _) => s.collExchange id s.args
        | none =>
          if c.state = 3 then
            (if s.arg 4 = 0 then s.tell c (collMsg (BitVec.ofNat 32 (s.arg 2)) 1 [2]) else s)
          else if c.state = 2 && s.arg 2 < c.seq.toNat then s
          else { s with comms := s.comms.adj key fun c => { c with early := c.early ++ [s.args] } })

/-! ## Completion (R430, R436) -/

/-- Whether a collective is over: failed, or every destination byte written, every step ended, every tile announced. -/
def State.collOver (s : State) (id : Nat) (k : Collective) : Bool :=
  k.started && (k.failed.isSome ||
    (k.begun && k.left.isEmpty && !(s.steps.any fun t => t.2.coll == id)
      && ((CollDesc.of k.desc).queue == 0 || k.tiles.length == tileTotal (s.collBytes k))))

/-- COLLECTIVE_COMPLETE (R430, R436): every COLL of the block is ready to be signalled, in its group's CL order; the first
one makes the arrival. A failed one carries the COLL_MISMATCH that its observation raises. Argument: collective. -/
def execCollectiveComplete (s : State) : Outcome State Fault Refusal :=
  let id := s.arg 0
  .next (match s.colls.find id with
    | none => s
    | some k =>
      if !s.collOver id k then s
      else
        let info := k.failed.map fun r => BitVec.ofNat 64 (k.seq.toNat + r * 2 ^ 32)
        { s with
          ops := k.ops.foldl (fun t o => t.adj o.2 fun e => { e with finished := true, stamp := info }) s.ops
          colls := s.colls.del id
          steps := s.steps.filter fun t => t.2.popped || t.2.coll != id })

/-- Whether data of a member are still missing at this one (R428): contributions to unwritten elements, its block, or the
source of the root. -/
def Collective.lacks (k : Collective) (rank : Nat) : Bool :=
  let y := CollDesc.of k.desc
  match y.op with
  | 0 | 2 => (k.parts.filter fun x => x.2.1 == rank).length * elemSize y.ty
      < (k.left.map fun x => x.2 - x.1).foldl (· + ·) 0
  | 3 => y.root == rank && !k.left.isEmpty
  | _ => !k.written (rank * y.blockBytes, (rank + 1) * y.blockBytes)

/-- Whether a collective waits on a member: for its description or for its data. -/
def Collective.waitsFor (k : Collective) (c : Comm) (rank : Nat) : Bool :=
  rank != c.rank && rank < c.count && (!k.exch.contains rank || k.lacks rank)

/-- MEMBER_LOST_TIMEOUT (R437): a member that a collective waits on has sent no flit for 100 ms. Arguments: collective,
rank. -/
def execMemberLostTimeout (s : State) : Outcome State Fault Refusal :=
  let id := s.arg 0
  let rank := s.arg 1
  .next (match s.colls.find id with
    | none => s
    | some k =>
      match s.comms.find k.comm with
      | none => s
      | some c =>
        if k.started && k.failed.isNone && k.waitsFor c rank
            && ((k.seen.find rank).getD 0) + 110000000 ≤ s.cycle.toNat then s.commFail k.comm 1
        else s)

/-! ## Reduction units (R434) -/

/-- The value that a reduction unit writes from contributions in rank order. -/
def reduceUnit (contract red t : Nat) (vs : List Nat) : Nat :=
  if typeInt t then
    match red with
    | 0 => wrapInt (typeWidth t) ((vs.map (intVal t)).foldl (· + ·) 0)
    | r => match vs with
      | [] => 0
      | v :: l => l.foldl (fun a b =>
          if r = 1 then (if intVal t b < intVal t a then b else a) else (if intVal t a < intVal t b then b else a)) v
  else
    let f := fmtOf t
    match red with
    | 0 => f.round 0 false (fF32.val (dotOut contract (dotVal contract Val.zero (vs.map (factor contract t)))))
    | r => match vs.map (flushAcc (ctFlush contract) f) with
      | [] => 0
      | v :: l => l.foldl (fMinMax f (r == 2)) v

/-- The element of a reducing collective that a contribution addresses, if the unit takes it (R433). -/
def Collective.element (k : Collective) (ia n : Nat) : Option Nat :=
  let y := CollDesc.of k.desc
  let es := elemSize y.ty
  if y.reduces && k.dst ≤ ia && ia + n ≤ k.dst + y.blockBytes && n = es && (ia - k.dst) % es = 0 then
    some ((ia - k.dst) / es)
  else none

/-- A contribution arrives at the reduction unit of this member's port. Answers whether the unit takes it. -/
def State.contribute (s : State) (part handle seq module mpart ia : Nat) (n : Nat) (data : List Byte) : Bool × State :=
  let key := commKey part handle
  match s.openComm key, s.colls.find? fun k =>
      k.2.comm == key && k.2.started && k.2.failed.isNone && k.2.seq.toNat == seq with
  | some c, some (id, k) =>
    let rank := ((List.range c.count).zip c.members).find? fun m =>
      m.1 != c.rank && m.2.toNat / 2 ^ 56 == module && m.2.toNat / 2 ^ 52 % 16 == mpart
    (match rank, k.element ia n with
     | some (r, _), some e =>
       let v := if data.isEmpty then none else some (leNat data)
       (true, { s with colls := s.colls.adj id fun k =>
         { k with
           seen := k.seen.put r s.cycle.toNat
           parts := if k.written (e * n, e * n + n) then k.parts
             else (k.parts.filter fun x => !(x.1 == e && x.2.1 == r)) ++ [(e, r, v)] } })
     | _, _ => (false, s))
  | _, _ => (false, s)

/-- The source of an in-place collective is still needed while one of its reduce steps is unended. -/
def State.sourceBusy (s : State) (id : Nat) (k : Collective) : Bool :=
  let y := CollDesc.of k.desc
  y.src == y.dst && s.steps.any fun t => t.2.coll == id && t.2.kind == 2

/-- REDUCTION_UNIT_WRITE (R434): all contributions of an element have arrived and it is written once. Arguments:
collective, element. -/
def execReductionUnitWrite (s : State) : Outcome State Fault Refusal :=
  let id := s.arg 0
  let e := s.arg 1
  .next (match s.colls.find id with
    | none => s
    | some k =>
      match s.openComm k.comm with
      | none => s
      | some c =>
        let y := CollDesc.of k.desc
        let es := elemSize y.ty
        let at_ (r : Nat) : Option (Nat × Nat × Option Nat) := k.parts.find? fun x => x.1 == e && x.2.1 == r
        let others := (List.range c.count).filter fun r => r != c.rank
        if !k.begun || k.failed.isSome || k.wait.isSome || !y.reduces || e ≥ y.n || k.written (e * es, e * es + es)
            || s.sourceBusy id k || !(others.all fun r => (at_ r).isSome) then s
        else
          let src := k.src + (if y.op = 2 then c.rank * y.blockBytes else 0) + e * es
          let dst := k.dst + e * es
          let (a, s) := s.target k.part (.ia src) es true false
          let (b, s) := s.target k.part (.ia dst) es false true
          if a.denied || b.denied then s.collDetect id 4 true
          else if a.waits || b.waits then
            let ia := if a.waits then src else dst
            let va := if a.waits then y.src + (src - k.src) else y.dst + (dst - k.dst)
            (s.collRecords id k [(if a.waits then a else b, ia, va)]) |> fun s => { s with colls := s.colls.adj id fun k => { k with wait := some ia } }
          else
            let (bs, bad, s) := s.tgtRead a es
            let vs := (List.range c.count).map fun r =>
              if r = c.rank then (if bad then none else some (leNat bs)) else ((at_ r).bind fun x => x.2.2)
            let s := if vs.any Option.isNone then s.tgtSpoil k.part b es
              else s.tgtWrite k.part b (leBytes es (reduceUnit c.contract y.red y.ty (vs.map fun v => v.getD 0)))
            { s with colls := s.colls.adj id fun k =>
              { k with parts := k.parts.filter fun x => x.1 != e }.fill (e * es) (e * es + es) })

/-! ## Accesses of the host and of peers (R405, R412, R420) -/

/-- The die of an intermediate address. -/
def State.countUnc (s : State) (die : Nat) : State := { s with eccUnc := s.eccUnc.set die (s.eccUnc.get die + 1) }

/-- The answer to an access: 0 denied, 1 done, 2 refused by a reduction unit, 3 done with poison; then the data. -/
def State.answer (s : State) (w : HostWait) (v : Nat) (data : List Byte) : State :=
  let out : Out := match w.who with
    | none => ⟨5, w.part, w.ia, BitVec.ofNat 8 v :: data⟩
    | some (m, p) => ⟨4, m * 16 + p, w.ia, BitVec.ofNat 8 v :: data⟩
  if w.who.isNone && w.kind != 0 then s else { s with outbox := s.outbox ++ [out] }

/-- A refused access: a denial verdict to a peer; for the host, poison or nothing, counted in the die's ECCUNC (R405). -/
def State.agentDeny (s : State) (w : HostWait) : State :=
  (if w.who.isNone then s.countUnc (dieOfIa w.ia) else s).answer w 0 []

/-- Bytes and poison of a range behind verdicts. -/
def State.agentLoad (s : State) : List (Tgt × Nat × Nat) → List Byte × Bool × State
  | [] => ([], false, s)
  | (t, _, n) :: l =>
    let (bs, bad, s) := s.tgtRead t n
    let (cs, bad', s) := s.agentLoad l
    (bs ++ cs, bad || bad', s)

/-- A write by a peer counts for the collectives whose destination it reaches (R430). -/
def State.peerWrote (s : State) (w : HostWait) : State :=
  match w.who with
  | none => s
  | some (m, p) =>
    let hit (k : Collective) : Bool :=
      k.part == w.part && k.started && k.failed.isNone && !(CollDesc.of k.desc).reduces
        && k.dst < w.ia + w.len && w.ia < k.dst + s.collBytes k
    let rank (k : Collective) : Option Nat := (s.comms.find k.comm).bind fun c =>
      (((List.range c.count).zip c.members).find? fun x =>
        x.1 != c.rank && x.2.toNat / 2 ^ 56 == m && x.2.toNat / 2 ^ 52 % 16 == p).map Prod.fst
    { s with colls := s.colls.mapVal fun _ k =>
        match hit k, rank k with
        | true, some r => { k with seen := k.seen.put r s.cycle.toNat }.fill (w.ia - k.dst) (w.ia + w.len - k.dst)
        | _, _ => k }

/-- A poisoned write of a range: every granule of it is poisoned here, or the write goes on to the peer that is the page's
home (R411, R420). -/
def State.agentSpoil (s : State) (part : Nat) (t : Tgt) (n : Nat) : State :=
  (match t with
    | .key k _ _ => if k ≥ peerBase then s else (List.range n).foldl (fun s i => s.spoil (k + i)) s
    | _ => s).tgtSpoil part t n

/-- An access of the host or a peer meets the memory side: performed, refused, or waiting on a migrating page. -/
def State.agent (s : State) (w : HostWait) : State :=
  if w.ia + w.len > 2 ^ 51 then s.agentDeny w
  else
    let (ts, s) := s.sysTargets w.part (w.kind == 0) (w.kind != 0) (lineParts w.ia w.len)
    match sysStop ts with
    | some (.wait 2 _) => { s with hostWaits := s.hostWaits.put s.nextId w, nextId := s.nextId + 1 }
    | some (.deny _ ia _) => (if w.who.isSome then s.collDenied w.part ia else s).agentDeny w
    | some _ => s.agentDeny w
    | none =>
      match w.kind with
      | 0 =>
        let (bs, bad, s) := s.agentLoad ts
        s.answer w (if bad then 3 else 1) bs
      | 1 => ((s.sysStore w.part ts w.data).peerWrote w).answer w 1 []
      | 2 => ((ts.foldl (fun s t => s.agentSpoil w.part t.1 t.2.2) s).peerWrote w).answer w 1 []
      | _ =>
        let (m, p) := w.who.getD (0, 0)
        let (ok, s) := s.contribute w.part w.about.1 w.about.2 m p w.ia w.len w.data
        s.answer w (if ok then 1 else 2) []

/-- Whether a partition accepts accesses of a sender: one of its own ROUTE entries names it (R420). -/
def State.accepts (s : State) (part module mpart : Nat) : Bool :=
  (s.part part).routes.any fun r => r.2.toNat / 2 ^ 56 == module && r.2.toNat / 2 ^ 52 % 16 == mpart

/-- PEER_ACCESS_IN (R420, R433). Arguments: module and partition of the sender, target partition, kind, intermediate
address, length, handle and sequence number of a contribution, then the bytes written. -/
def execPeerAccessIn (s : State) : Outcome State Fault Refusal :=
  let w : HostWait := ⟨s.arg 2, s.arg 4, s.arg 3 % 4, s.arg 5, (s.args.drop 8).map (BitVec.ofNat 8),
    some (s.arg 0, s.arg 1), (s.arg 6, s.arg 7), s.cycle⟩
  let s := s.heard w.part (s.arg 0 * 16 + s.arg 1)
  .next (if s.accepts w.part (s.arg 0) (s.arg 1) then s.agent w else s.agentDeny w)

/-! ## Links (R418, R421, R437) -/

/-- The content of LINKSTAT of a link that is up, from a rate, a peer and a number of lanes. -/
def linkWord (v : U64) : U64 :=
  BitVec.ofNat 64 (bitsOf v.toNat 16 16 * 2 ^ 16 + bitsOf v.toNat 8 8 * 2 ^ 8 + bitsOf v.toNat 4 4 * 16 + 1)

/-- LINK_TRAINED (R418): a link trains or retrains with 8, 4 or 2 lanes, at up to 224 Gb/s a lane. Arguments: package link,
the content of LINKSTAT. -/
def execLinkTrained (s : State) : Outcome State Fault Refusal :=
  let v := BitVec.ofNat 64 (s.arg 1)
  let lanes := bitsOf v.toNat 4 4
  .next (if s.arg 0 < 24 && (lanes = 2 || lanes = 4 || lanes = 8) && bitsOf v.toNat 16 16 ≤ 224 then
      { s with links := s.links.put (s.arg 0) (linkWord v) }
    else s)

/-- LINK_DOWN (R437): without another up link to the module, collectives with members there fail with reason 1; a running
checkpoint over the link records an error (R414). Argument: package link. -/
def execLinkDown (s : State) : Outcome State Fault Refusal :=
  let i := s.arg 0
  .next (match s.links.find i with
    | none => s
    | some v =>
      let peer := bitsOf v.toNat 8 8
      let s := { s with links := s.links.put i (v &&& 0xFFFFFFFFFFFFFF0E) }
      let s := if s.ckpt.busy && s.ckpt.links.getLsbD i then { s with ckpt := { s.ckpt with error := true } } else s
      if s.linked peer then s
      else
        let lost := s.comms.filter fun c =>
          s.colls.any (fun k => k.2.comm == c.1 && k.2.started && k.2.failed.isNone)
            && ((List.range c.2.members.length).zip c.2.members).any fun m =>
              m.1 != c.2.rank && m.2.toNat / 2 ^ 56 == peer
        lost.foldl (fun s c => s.commFail c.1 1) s)

/-! ## Communicators (R422 to R425) -/

/-- The status word (R424). -/
def statusWord (code carry rank contract : Nat) : Nat := 2 ^ 63 + code * 2 ^ 56 + carry * 2 ^ 40 + rank * 2 ^ 16 + contract

/-- The status word is written, which completes the packet; it waits on its page, or is lost with a record, and the packet
completes once that is taken (R345, R442). The lane's stage holds a word that waits, plus 16; 15 stands for a lost one. -/
def State.statusWrite (s : State) (n part : Nat) (p : List Byte) (v : Nat) : State :=
  let (r, s) := s.sysWord part (s.lane n).ctx (recNum p 24 8) (BitVec.ofNat 64 v) false
  match r with
  | .wait k ia => (s.modLane n fun l => { l with stage := 16 + v }).laneWait n part k ia
  | .deny k ia far => (s.sysFault (n / 64) part ia k far (laneTag n)).modLane n fun l => { l with stage := 15 }
  | _ => s.laneDone n

/-- The reservations of a communicator end. -/
def State.unreserve (s : State) (key : Nat) : State :=
  { s with cores := s.cores.mapVal fun _ c => if c.carry = some key then { c with carry := none } else c }

/-- A create fails: the reservations are undone, the state returns to 0 and the status word carries the code. -/
def State.createFail (s : State) (n part : Nat) (p : List Byte) (code : Nat) : State :=
  let key := commKey part (recNum p 4 1)
  let s := match (s.comms.find key).bind Comm.grid with
    | some gh => s.failGrid gh 3 0 0 0xFFFF
    | none => s
  let s := { s with comms := s.comms.del key }.unreserve key
  s.statusWrite n part p (statusWord code 0 (recNum p 18 2) 0)

/-- An address that the packet names lies outside the windows, lacks a permission or is misaligned (R355). -/
def State.commAddrBad (s : State) (part ctx : Nat) (p : List Byte) : Bool :=
  let word := recNum p 24 8
  word % 8 != 0 || (s.sysMap part ctx word 8 false true false).isNone
    || (recNum p 1 1 == 0
      && ((s.sysMap part ctx (recNum p 8 8) (8 * recNum p 16 2) true false false).isNone
        || recNum p 32 8 % 64 != 0 || (s.sysMap part ctx (recNum p 32 8) 128 true false false).isNone))

/-- The contracts 1 to 15 that the part carries, by CAPC (R423). -/
def carriedSet : Nat := (((List.range 16).filter fun c => c != 0 && bitsOf capc.toNat (2 * c) 2 != 0).map fun c => 2 ^ c).foldl (· + ·) 0

/-- The entries of a member table. -/
def tableOf (bs : List Byte) : List U64 := (List.range (bs.length / 8)).map fun k => BitVec.ofNat 64 (recNum bs (8 * k) 8)

/-- Create, step 2: the member table is read and sent. -/
def createTable (n part : Nat) (l : Lane) (p : List Byte) (s : State) : State :=
  let key := commKey part (recNum p 4 1)
  let own := recNum p 18 2
  let (r, s) := s.sysRead part l.ctx (recNum p 8 8) (8 * recNum p 16 2)
  match r with
  | .wait k ia => s.laneWait n part k ia
  | .ok bs =>
    let t := tableOf bs
    let me := t.getD own 0
    if t.any (fun e => e.toNat % 2 ^ 52 / 8 != 0)
        || me.toNat / 2 ^ 52 ≠ s.modid.toNat * 16 + part || me.toNat % 8 ≠ recNum p 4 1 then s.createFail n part p 3
    else
      let s := { s with comms := s.comms.adj key fun c => { c with members := t, told := true, since := s.cycle } }
      let s := match s.comms.find key with
        | some c => s.tell c (bs ++ leBytes 2 c.count ++ leBytes 2 c.rank ++ leBytes 2 carriedSet)
        | none => s
      s.modLane n fun l => { l with stage := 2 }
  | _ => s.createFail n part p 7

/-- Whether a member's message agrees with this member's table, count and ranks. -/
def Comm.agrees (c : Comm) (m : List Nat) : Bool :=
  let r := m.getD 5 0
  m.getD 4 0 == c.count && r < c.count && r != c.rank && (m.drop 7) == c.members.map BitVec.toNat
    && (c.members.getD r 0).toNat / 2 ^ 52 == m.getD 2 0 * 16 + m.getD 3 0

/-- The highest contract of an intersection of carried sets, or 0. -/
def topContract (sets : List Nat) : Nat :=
  (((List.range 16).filter fun c => c != 0 && sets.all fun x => x.testBit c).reverse).headD 0

/-- Whether some member has not answered a create. -/
def Comm.unanswered (c : Comm) : Bool :=
  (List.range c.count).any fun r => r != c.rank && !(c.msgs.any fun m => m.getD 5 0 == r)

/-- Create, step 3: the members' answers. -/
def createAnswers (n part : Nat) (p : List Byte) (s : State) : State :=
  let key := commKey part (recNum p 4 1)
  match s.comms.find key with
  | none => s
  | some c =>
    if c.msgs.any fun m => !c.agrees m then s.createFail n part p 3
    else if c.unanswered then s
    else
      let k := topContract (carriedSet :: c.msgs.map fun m => m.getD 6 0)
      if k = 0 then s.createFail n part p 1
      else { s with comms := s.comms.adj key fun c => { c with contract := k, since := s.cycle } }.modLane n fun l =>
        { l with stage := 3 }

/-- The idle cores of a partition on a die that are eligible for a grid of a context, highest first (R364, R423). -/
def State.idleCores (s : State) (part ctx die : Nat) : List Nat :=
  ((s.coresOf part).filter fun c =>
    let k := s.core c
    dieOf c == die && !(s.part part).pclose.getLsbD (quadOf c) && k.almValid && !k.faulted && k.carry.isNone
      && !s.occupied c && !s.susp.contains (die, part, ctx, 0)).reverse

/-- The dies on which a partition has a quadrant. -/
def State.diesOf (s : State) (part : Nat) : List Nat :=
  (List.range 4).filter fun d => (s.quadsOf part).any fun q => q / 4 == d

/-- Whether some die of a partition has fewer idle cores for a context than a create wants. -/
def State.coresLack (s : State) (part ctx want : Nat) : Bool :=
  (s.diesOf part).any fun d => (s.idleCores part ctx d).length < want

/-- Create, step 4: the carry cores are reserved on every die of the partition, or none is. -/
def createReserve (n part : Nat) (p : List Byte) (s : State) : State :=
  let key := commKey part (recNum p 4 1)
  let want := recNum p 5 1
  let ctx := (s.lane n).ctx
  if s.coresLack part ctx want then s
  else
    let cs := (s.diesOf part).flatMap fun d => (s.idleCores part ctx d).take want
    let s := cs.foldl (fun s c => s.modCore c fun k => { k with carry := some key }) s
    { s with comms := s.comms.adj key fun c => { c with cores := cs } }.modLane n fun l => { l with stage := 4 }

/-- Create, step 5: the carry grid is accepted, in a tree of its own; its placement is the reserved cores, whatever its
record's mask holds. R44 names only grids that DISPATCH or SPAWN start: the carry grid takes its queue's priv bit as one of a
DISPATCH does (DESIGN CHOICE, log entry 43). -/
def createLaunch (n part : Nat) (l : Lane) (p : List Byte) (s : State) : State :=
  let key := commKey part (recNum p 4 1)
  let (r, s) := s.sysRead part l.ctx (recNum p 32 8) 128
  match r with
  | .wait k ia => s.laneWait n part k ia
  | .ok bs =>
    let rec_ := bs.take 0x60 ++ List.replicate 8 0 ++ bs.drop 0x68
    let cores := ((s.comms.find key).map Comm.cores).getD []
    let (t, s) := s.newTree part (n / 64) n l.ctx 0 0 0 0
    let (gh, s) := s.accept t 0 part l.ctx (n / 64) l.prio l.priv true (some rec_) (some key)
    { s with
      grids := s.grids.adj gh fun g => { g with mask := some (coreMask cores) }
      comms := s.comms.adj key fun c => { c with grid := some gh } }.modLane n fun l => { l with stage := 5 }
  | _ => s.createFail n part p 4

/-- Create, step 6: the carry grid's header decides, and the communicator opens. -/
def createOpen (n part : Nat) (p : List Byte) (s : State) : State :=
  let key := commKey part (recNum p 4 1)
  match s.comms.find key with
  | none => s
  | some c =>
    let gh := c.grid.getD 0
    let s := if ((s.grids.find gh).bind Grid.hdr).isNone then s.attempt gh else s
    match s.grids.find gh with
    | none => s.createFail n part p 4
    | some g =>
      if g.failed.isSome then s.createFail n part p 4
      else match g.hdr with
        | none => s
        | some h =>
          if h.eff ≠ c.contract then s.createFail n part p 4
          else
            { s with comms := s.comms.adj key fun c => { c with state := 2, seq := 0, msgs := [] } }.statusWrite n part p
              (statusWord 0 c.perDie c.rank c.contract)

/-- One step of a create. -/
def commCreate (n part : Nat) (l : Lane) (p : List Byte) (s : State) : State :=
  let key := commKey part (recNum p 4 1)
  match l.stage with
  | 0 =>
    if s.commAddrBad part l.ctx p then s.laneErr n part 4
    else if (s.comms.find key).isSome then s.statusWrite n part p (statusWord 3 0 (recNum p 18 2) 0)
    else
      let c : Comm := ⟨part, recNum p 4 1, 0, recNum p 18 2, 0, 1, [], recNum p 16 2, [], recNum p 5 1, [], none,
        recNum p 8 8, recNum p 32 8, recNum p 24 8, l.ctx, n, s.cycle, false, false, []⟩
      createTable n part l p ({ s with comms := s.comms.put key c }.modLane n fun l => { l with stage := 1 })
  | 1 => createTable n part l p s
  | 2 => createAnswers n part p s
  | 3 => createReserve n part p s
  | 4 => createLaunch n part l p s
  | 5 => createOpen n part p s
  | 15 => s.laneDone n
  | v => s.statusWrite n part p (v - 16)

/-- Every collective of a communicator that has not completed fails with reason 3, whether or not it has started. -/
def State.endColls (s : State) (key : Nat) : State :=
  (s.colls.filter fun k => k.2.comm == key).foldl (fun s k => s.collFail k.1 3) s

/-- One step of a destroy (R425). -/
def commDestroy (n part : Nat) (l : Lane) (p : List Byte) (s : State) : State :=
  let key := commKey part (recNum p 4 1)
  let c := s.comms.find key
  if l.stage ≥ 16 then s.statusWrite n part p (l.stage - 16)
  else if l.stage = 15 then s.laneDone n
  else if l.stage = 0 then
    (if s.commAddrBad part l.ctx p then s.laneErr n part 4
     else match c with
      | some k =>
        if k.state < 2 || k.closing then s.statusWrite n part p (statusWord 6 0 0 0)
        else { s.endColls key with comms := s.comms.adj key fun c => { c with closing := true, lane := n } }.modLane n fun l =>
          { l with stage := 1 }
      | none => s.statusWrite n part p (statusWord 6 0 0 0))
  else match c with
    | some k =>
      if (k.grid.bind s.grids.find).isSome then s
      else ({ s with comms := s.comms.del key }.unreserve key).statusWrite n part p (statusWord 0 0 k.rank k.contract)
    | none => s.statusWrite n part p (statusWord 6 0 0 0)

/-- A reset (R425). -/
def commReset (n part : Nat) (l : Lane) (p : List Byte) (s : State) : State :=
  let key := commKey part (recNum p 4 1)
  if l.stage ≥ 16 then s.statusWrite n part p (l.stage - 16)
  else if l.stage = 15 then s.laneDone n
  else if s.commAddrBad part l.ctx p then s.laneErr n part 4
  else match s.comms.find key with
    | some k =>
      if k.state < 2 || k.closing then s.statusWrite n part p (statusWord 6 0 0 0)
      else
        { s.endColls key with comms := s.comms.adj key fun c => { c with state := 2, seq := 0, early := [] } }.statusWrite n
          part p (statusWord 0 k.perDie k.rank k.contract)
    | none => s.statusWrite n part p (statusWord 6 0 0 0)

/-- COMM_CREATE (R423). Arguments of this and the next two: die, lane. -/
def execCommCreate (s : State) : Outcome State Fault Refusal :=
  .next (s.serve 6 fun n part l p s => if recNum p 1 1 = 0 then commCreate n part l p s else s)

/-- COMM_DESTROY (R425). -/
def execCommDestroy (s : State) : Outcome State Fault Refusal :=
  .next (s.serve 6 fun n part l p s => if recNum p 1 1 = 1 then commDestroy n part l p s else s)

/-- COMM_RESET (R425). -/
def execCommReset (s : State) : Outcome State Fault Refusal :=
  .next (s.serve 6 fun n part l p s => if recNum p 1 1 = 2 then commReset n part l p s else s)

/-- COMM_MEMBER_MESSAGE (R423). Arguments: partition, handle, module and partition of the member, its count, its rank, its
carried set, its member table. -/
def execCommMemberMessage (s : State) : Outcome State Fault Refusal :=
  let s := s.heard (s.arg 0) (s.arg 2 * 16 + s.arg 3)
  .next { s with comms := s.comms.adj (commKey (s.arg 0) (s.arg 1)) fun c =>
    if c.state = 1 then { c with msgs := c.msgs ++ [s.args] } else c }

/-- COMM_CREATE_TIMEOUT (R423): after 100 ms a create fails in which a member has not answered (code 2) or some die has too
few idle cores (code 5). Arguments: partition, handle. -/
def execCommCreateTimeout (s : State) : Outcome State Fault Refusal :=
  .next (match s.comms.find (commKey (s.arg 0) (s.arg 1)) with
    | none => s
    | some c =>
      match (s.lane c.lane).pkt with
      | none => s
      | some p =>
        let stage := (s.lane c.lane).stage
        if c.state ≠ 1 || c.since.toNat + 110000000 > s.cycle.toNat then s
        else if stage = 2 && c.unanswered then s.createFail c.lane c.part p 2
        else if stage = 3 && s.coresLack c.part c.ctx (recNum p 5 1) then s.createFail c.lane c.part p 5
        else s)

end Sys2Proof.Machine
end

