-- ==== Sys2Proof/Machine/Native.lean ====
section
/-! DEFINITION. The translator (R408): how the code of a portable image, which a checked kernel runs as it stands, becomes
code that runs unchecked. No register, no stack slot and no PFX.PATCH index changes, and no word changes its place among the
others; what R33 to R36 need is supplied by NOPs or by S bits, after a CALL by its S bit (log entry 51). -/

namespace Sys2Proof.Machine

/-- The words of a code section. -/
def codeWords (bs : List Byte) : List Word := (List.range (bs.length / 4)).map fun k => BitVec.ofNat 32 (recNum bs (4 * k) 4)

/-- Whether a word has a prefix's major. -/
def isPrefixWord (w : Word) : Bool := 1 ≤ w.toNat / 2 ^ 24 % 128 && w.toNat / 2 ^ 24 % 128 ≤ 6

/-- Whether a word is a JMPI or a RET. -/
def computedJump (w : Word) : Bool :=
  match decodeWord w with
  | .ok d => (match d.instr with | .jmpi _ => true | .ret _ => true | _ => false)
  | .error _ => false

/-- The instruction words of a code section, prefixes and words that no row matches left out. -/
def codeInstrs (ws : List Word) : List Instr :=
  ws.filterMap fun w => match decodeWord w with
    | .ok d => if d.instr.isPrefix then none else some d.instr
    | .error _ => none

/-- The scalar registers that an instruction writes, with no PFX.MOD. -/
def Instr.scalarWrites (i : Instr) : List Nat :=
  ((shapeOf i 0).ops.filter Opnd.wr).flatMap fun o => (o.regs o.num).filterMap fun r => match r with
    | .s n => some n
    | _ => none

/-- The signed displacement of an instruction, with its width (R21, R81, R85). -/
def Instr.disp : Instr → Option (Nat × Int)
  | .bra o => some (24, sext 24 o.toNat)
  | .brs _ o | .brm _ _ o | .call _ o => some (16, sext 16 o.toNat)
  | .yieldNow o | .yieldReg _ o | .yieldOc _ _ o | .yieldSleep _ o => some (12, sext 12 o.toNat)
  | _ => none

/-- Whether no control leaves a code section but by a traced jump: every displacement stays inside, and the last word does not
go on to the next. -/
def closed (ws : List Word) : Bool :=
  ((List.range ws.length).all fun j => match decodeWord (ws.getD j 0) with
    | .ok d => (match Instr.disp d.instr with
      | some (_, off) => decide (0 ≤ (j : Int) + off ∧ (j : Int) + off < ws.length)
      | none => true)
    | .error _ => true)
  && (match decodeWord (ws.getLast?.getD 0) with
    | .ok d => (match d.instr with | .bra _ | .jmpi _ | .ret _ | .exit => true | _ => false)
    | .error _ => false)

/-- Whether every JMPI and RET of a code section takes an address that can be traced to a CALL: its register is written by CALLs
alone, no PFX.MOD shifts a register's number, and no control leaves the section otherwise (R408, log entry 51). -/
def traceable (ws : List Word) : Bool :=
  let is := codeInstrs ws
  let calls := is.filterMap fun i => match i with | .call d _ => some d.toNat | _ => none
  let others := is.flatMap fun i => match i with | .call _ _ => [] | i => Instr.scalarWrites i
  (is.all fun i => match i with
    | .jmpi a | .ret a => a != 0 && calls.contains a.toNat && !others.contains a.toNat
    | _ => true)
  && (ws.all fun w => match decodeWord w with
    | .ok d => (match d.instr with | .pfxMod b n _ _ _ _ _ _ _ => b == 0 && n == 0 | _ => true)
    | .error _ => true)
  && closed ws

/-- The NOPs after a word that put every later word at the distance of its result or beyond (R33, R34). -/
def nopsAfter (w : Word) : Nat :=
  match decodeWord w with
  | .ok d => if d.instr.isPrefix then 0 else (shapeOf d.instr 0).lat.dist - 1
  | .error _ => 0

/-- A split region of the code: its PFX.SPLIT, its first word, its length, and whether a word of it offends (R190, R191). -/
structure Region where
  word  : Nat
  start : Nat
  len   : Nat
  bad   : Bool
deriving DecidableEq, Repr

/-- Whether a word may stand in a region. -/
def regionWord (w : Word) : Bool :=
  match decodeWord w with
  | .ok d => (match d.instr with
    | .pfxSplit _ => false
    | i => i.isPrefix || (shapeOf i 0).region)
  | .error _ => isPrefixWord w && w.toNat / 2 ^ 24 % 128 ≤ 5

/-- The region that a word opens. -/
def regionOf (ws : List Word) (j : Nat) : Option Region :=
  match decodeWord (ws.getD j 0) with
  | .ok d => (match d.instr with
    | .pfxSplit n =>
      let start := j + 1 + ((ws.drop (j + 1)).takeWhile isPrefixWord).length
      let body := (ws.drop start).take n.toNat
      some ⟨j, start, n.toNat, body.any (fun w => !regionWord w) || (body.getLast?.map isPrefixWord).getD true⟩
    | _ => none)
  | .error _ => none

/-- The regions of the code. -/
def regionsOf (ws : List Word) : List Region := (List.range ws.length).filterMap (regionOf ws)

/-- The native words of some words of a region: their NOPs among them, and none after the last. -/
def regionSize (body : List Word) : Nat := body.length + (body.dropLast.map nopsAfter).foldl (· + ·) 0

/-- The portable words that a good region keeps in native code: all of them, or its first bundle alone where 64 words cannot
hold what R33 to R36 need. The others then issue as ordinary code, in one pass. -/
def Region.kept (r : Region) (ws : List Word) : Nat :=
  if regionSize ((ws.drop r.start).take r.len) ≤ 64 then r.len else 1

/-- Whether a word stands in a region of the native code, where no S bit may stand (R191). -/
def inRegion (ws : List Word) (rs : List Region) (j : Nat) : Bool :=
  rs.any fun r => !r.bad && r.start ≤ j && j < r.start + r.kept ws

/-- Whether a word is a CALL. -/
def isCall (w : Word) : Bool :=
  match decodeWord w with
  | .ok d => (match d.instr with | .call _ _ => true | _ => false)
  | .error _ => false

/-- Whether a word takes an S bit: where S bits are used, and a CALL always, as the words that follow its link stand elsewhere
(R33 to R35). -/
def marked (marks : Bool) (ws : List Word) (rs : List Region) (j : Nat) : Bool :=
  (marks || isCall (ws.getD j 0)) && !inRegion ws rs j

/-- The words that follow a PFX.SPLIT whose region offends, as far as the region goes. The native code repeats them as they are
after it: the region offends at the same position, and a branch to one of them finds it in its place after that (R190). -/
def offendingCopy (ws : List Word) (rs : List Region) (j : Nat) : List Word :=
  match rs.find? fun r => r.bad && r.word == j with
  | some r => (ws.drop (j + 1)).take (r.start + r.len - (j + 1))
  | none => []

/-- The words of native code that a word becomes. -/
def sizeAt (marks : Bool) (ws : List Word) (rs : List Region) (j : Nat) : Nat :=
  1 + (if marked marks ws rs j then 0 else nopsAfter (ws.getD j 0)) + (offendingCopy ws rs j).length

/-- The position of a portable word in the native code. -/
def newPos (marks : Bool) (ws : List Word) (j : Nat) : Nat :=
  ((List.range j).map (sizeAt marks ws (regionsOf ws))).foldl (· + ·) 0

/-- The position to which a branch from one word to another leads; one that leaves the code keeps its distance from it. -/
def newDisp (marks : Bool) (ws : List Word) (j : Nat) (off : Int) : Int :=
  let t := (j : Int) + off
  let at_ (x : Nat) : Int := (newPos marks ws x : Int)
  (if t < 0 then t else if t ≤ ws.length then at_ t.toNat else at_ ws.length + (t - ws.length)) - at_ j

/-- The instruction with another displacement. -/
def Instr.withDisp (d : Int) : Instr → Instr
  | .bra _ => .bra (BitVec.ofInt 24 d)
  | .brs a _ => .brs a (BitVec.ofInt 16 d)
  | .brm p c _ => .brm p c (BitVec.ofInt 16 d)
  | .call r _ => .call r (BitVec.ofInt 16 d)
  | .yieldNow _ => .yieldNow (BitVec.ofInt 12 d)
  | .yieldReg a _ => .yieldReg a (BitVec.ofInt 12 d)
  | .yieldOc c n _ => .yieldOc c n (BitVec.ofInt 12 d)
  | .yieldSleep k _ => .yieldSleep k (BitVec.ofInt 12 d)
  | i => i

/-- Whether every displacement of the native code fits its field. -/
def fits (marks : Bool) (ws : List Word) : Bool :=
  (List.range ws.length).all fun j => match decodeWord (ws.getD j 0) with
    | .ok d => (match Instr.disp d.instr with
      | some (n, off) => decide (-(2 ^ (n - 1) : Int) ≤ newDisp marks ws j off ∧ newDisp marks ws j off < 2 ^ (n - 1))
      | none => true)
    | .error _ => true

/-- An instruction of the native code: its displacement and its region's length follow the new places of the words. -/
def nativeInstr (marks : Bool) (ws : List Word) (j : Nat) (i : Instr) : Instr :=
  match i with
  | .pfxSplit n => (match regionOf ws j with
    | some r => if r.bad then .pfxSplit n
      else .pfxSplit (BitVec.ofNat 7 (regionSize ((ws.drop r.start).take (r.kept ws))))
    | none => .pfxSplit n)
  | i => match Instr.disp i with
    | some (_, off) => Instr.withDisp (newDisp marks ws j off) i
    | none => i

/-- The native words of a portable word: itself, then NOPs or the copy of an offending region. -/
def nativeWords (marks : Bool) (ws : List Word) (rs : List Region) (j : Nat) : List Word :=
  let w := ws.getD j 0
  let copy := offendingCopy ws rs j
  let out := match decodeWord w with
    | .ok d => (encode ⟨marked marks ws rs j && !d.instr.isPrefix, nativeInstr marks ws j d.instr⟩).getD w
    | .error _ => w
  out :: List.replicate (sizeAt marks ws rs j - 1 - copy.length) 0 ++ copy

/-- The native code of portable code. -/
def nativeCode (marks : Bool) (ws : List Word) : List Word :=
  (List.range ws.length).flatMap (nativeWords marks ws (regionsOf ws))

end Sys2Proof.Machine
end

