-- ==== Sys2Proof/Machine/Package.lean ====
section
/-! DEFINITION. The package (R396 to R417): partitions and quadrants, the configuration space, the host's accesses, the
mailbox, soft errors, checkpoints, power; failures (R224, R303); the end of an MTU invalidation (R343). -/

namespace Sys2Proof.Machine

open Host (Outcome)

/-- Function 0 raises a vector of its own; which one is a free value (R406, log entry 2). -/
def State.raiseOwn (s : State) : State :=
  { s.raise 0 ((Config.free s.free).toNat % 2048) with free := s.free + 1 }

/-! ## Partitions (R399 to R402) -/

/-- The quadrants of a mask. -/
def quadList (m : BitVec 16) : List Nat := (List.range 16).filter fun q => m.getLsbD q

/-- The command-processor lanes of a quadrant (R396). -/
def lanesOfQuad (q : Nat) : List Nat := (List.range 16).map fun n => 16 * q + n

/-- The cores of a quadrant. -/
def coresOfQuad (q : Nat) : List Nat := (List.range 32).map fun c => 32 * q + c

/-- Whether the checkpoint that runs covers a quadrant of a partition, whatever CKQUADS holds by now. -/
def State.checkpointed (s : State) (p : Nat) : Bool := s.ckpt.busy && (s.ckpt.covers &&& (s.part p).pquads) != 0

/-- Whether a quadrant may leave its partition (R400). -/
def State.idleQuad (s : State) (q : Nat) : Bool :=
  !((coresOfQuad q).any fun c => s.occupied c) && !((lanesOfQuad q).any fun n => (s.lane n).state == 1) && !(s.quad q).busy

/-- A core's registers at their Reset values; a fault of the core stays (R224). -/
def CoreSt.renew (k : CoreSt) : CoreSt := { CoreSt.reset with faulted := k.faulted, clock := k.clock, carry := k.carry }

/-- A quadrant joins a partition: its MTU, lane and core registers hold their Reset values. -/
def State.addQuad (s : State) (p q : Nat) : State :=
  let s := s.modQuad q fun _ => { Quad.reset with state := 2, part := p }
  let s := (lanesOfQuad q).foldl (fun s n => s.modLane n fun _ => Lane.reset) s
  (coresOfQuad q).foldl (fun s c => s.modCore c CoreSt.renew) s

/-- A place in the die-visible region of a core of quadrants that leave their partition: an address that names no byte takes
its stead (R330, R400; log entry 48). -/
def BarLoc.lose (gone : List Nat) (l : BarLoc) : BarLoc :=
  match l with
  | .pad a => if gone.contains (quadOf (a / 2 ^ 19 % 512)) && !a.testBit 50 then .pad (a + 2 ^ 50) else l
  | .shared _ _ => l

/-- The place that an abacus operation transfers. -/
def MxKind.mapLoc (f : BarLoc → BarLoc) (k : MxKind) : MxKind :=
  match k with
  | .ldw l a b => .ldw (f l) a b
  | .st l a b => .st (f l) a b
  | .aff l => .aff (f l)
  | .ldc l => .ldc (f l)
  | .grad l a b => .grad (f l) a b
  | .grads l a b => .grads (f l) a b
  | .dx l a => .dx (f l) a
  | .stc l => .stc (f l)
  | k => k

/-- The object on which a group waits. -/
def Group.mapLoc (f : BarLoc → BarLoc) (g : Group) : Group :=
  { g with
    park := match g.park with
      | .barwait sd l p r => .barwait sd (f l) p r
      | p => p
    deferred := g.deferred.map fun d => { d with bar := d.bar.map f } }

/-- What is in flight no longer reaches quadrants that leave their partition: what may be performed is performed before they
do, and what comes later finds no byte there (R330, R400; log entry 48). -/
def State.loseQuads (s : State) (gone : List Nat) : State :=
  if gone.isEmpty then s
  else
    let s := s.landEverything
    let f := BarLoc.lose gone
    { s with
      blocks := s.blocks.mapVal fun _ k => { k with
        groups := k.groups.mapVal fun _ g => g.mapLoc f
        abaci := k.abaci.mapVal fun _ a => { a with queue := a.queue.map fun o => { o with kind := o.kind.mapLoc f } } }
      ops := s.ops.mapVal fun _ o => { o with
        barrier := o.barrier.map f
        kind := match o.kind with
          | .coll c i b => .coll c i (b.map f)
          | k => k }
      colls := s.colls.mapVal fun _ k => { k with bar := k.bar.map f } }

/-- A write of PQUADS (R400, R402). -/
def State.setPquads (s : State) (p : Nat) (v : U64) : State :=
  let new : BitVec 16 := v.setWidth 16
  let old := (s.part p).pquads
  let add := quadList (new &&& ~~~old)
  let sub := quadList (old &&& ~~~new)
  if (s.part p).state = 2 then s.modPart p fun x => { x with refused := true }
  else if new = old then s.modPart p fun x => { x with refused := false }
  else if (add.all fun q => (s.quad q).state == 0) && sub.all s.idleQuad && !s.checkpointed p then
    let s := sub.foldl (fun s q => s.modQuad q fun x => { x with state := 1, inv := [], cached := [] }) (s.loseQuads sub)
    let s := add.foldl (fun s q => s.addQuad p q) s
    s.modPart p fun x =>
      { x with pquads := new, pclose := x.pclose &&& new, refused := false, state := if new = 0 then 0 else 1 }
  else s.modPart p fun x => { x with refused := true }

/-- PQUADS (R400). Arguments: partition, value. -/
def execPquads (s : State) : Outcome State Fault Refusal :=
  .next (if s.arg 0 < 16 then s.setPquads (s.arg 0) (BitVec.ofNat 64 (s.arg 1)) else s)

/-- Whether a byte's key lies in a quadrant: its HBM, the SRAM of its cores, or its L2 slice. -/
def inQuad (q key : Nat) : Bool :=
  (q * 2 ^ 35 ≤ key && key < (q + 1) * 2 ^ 35) || (2 ^ 51 + q * 2 ^ 24 ≤ key && key < 2 ^ 51 + (q + 1) * 2 ^ 24)
    || (l2Base + q * 2 ^ 47 ≤ key && key < l2Base + (q + 1) * 2 ^ 47)

/-- A scrub's effect (R400): every byte of HBM, of the L2 slice and of the cores' SRAM is zero, the almanac's image among
them; poison is gone, and so are the almanac's bits. -/
def State.zeroQuad (s : State) (q : Nat) : State :=
  let s := { s with
    mem := s.mem.filter fun c => !inQuad q c.1
    memBad := s.memBad.filter fun g => !inQuad q g
    padBars := s.padBars.filter fun a => !inQuad q a
    l2 := s.l2.filter fun l => l.1 / 2 ^ 40 != q }
  (coresOfQuad q).foldl (fun s c => s.modCore c fun k =>
    { k with almImage := [], almValid := false, almLock := false, almMis := false, icache := [] }) s

/-- A scrub starts on an unscrubbed quadrant. -/
def State.startScrub (s : State) (q : Nat) : State :=
  if (s.quad q).state = 1 then s.modQuad q fun x => { x with state := 3 } else s

/-- QUADRANT_SCRUB (R400). Argument: quadrant. -/
def execQuadrantScrub (s : State) : Outcome State Fault Refusal :=
  .next (if s.arg 0 < 16 then s.startScrub (s.arg 0) else s)

/-- SCRUB_DONE (R400, R401, R406): the quadrant is free and clean, or stays assigned when its partition's reset scrubbed
it. Argument: quadrant. -/
def execScrubDone (s : State) : Outcome State Fault Refusal :=
  let q := s.arg 0
  let p := (s.quad q).part
  .next (if q < 16 && (s.quad q).state = 3 then
      ((s.zeroQuad q).modQuad q fun x => { x with state := 0, part := 0 }).raiseOwn
    else if q < 16 && (s.quad q).state = 2 && (s.part p).resetWait.contains q then
      ((s.zeroQuad q).modPart p fun x => { x with resetWait := x.resetWait.erase q }).raiseOwn
    else s)

/-- A communicator on which a collective runs. -/
def State.running (s : State) (key : Nat) : Bool :=
  s.colls.any fun k => k.2.comm == key && k.2.started && k.2.failed.isNone

/-- Whether a communicator has a member in a partition of this module, other than itself. -/
def State.memberIn (s : State) (c : Comm) (p : Nat) : Bool :=
  ((List.range c.members.length).zip c.members).any fun m => m.1 != c.rank && m.2.toNat / 2 ^ 52 == s.modid.toNat * 16 + p

/-- A partition is reset: collectives that run with a member in it fail with reason 1 at the other members (R402, R437); those
on other modules are told, those in other partitions of this module fail at once. -/
def State.memberReset (s : State) (p : Nat) : State :=
  let mine := s.colls.filter fun k => k.2.part == p && k.2.started && k.2.failed.isNone
  let s := mine.foldl (fun s k => match s.comms.find k.2.comm with
    | some c => s.tell c (collMsg k.2.seq 1 [1])
    | none => s) s
  (s.comms.filter fun c => c.2.part != p && s.running c.1 && s.memberIn c.2 p).foldl (fun s c => s.commFail c.1 1) s

/-- A partition reset's effect on blocks, grids, trees, communicators (R401, step 1). -/
def State.clearWork (s : State) (p : Nat) : State :=
  let s := s.memberReset p
  let bs := (s.blocks.filter fun b => b.2.part == p).map Prod.fst
  let s := bs.foldl (fun s b => (s.endOps b).dropBlock b) s
  let keys := (s.comms.filter fun c => c.2.part == p).map Prod.fst
  let s := keys.foldl (fun s k => s.unreserve k) s
  let mine (key : Nat) : Bool :=
    if key % 2 = 0 then ((s.grids.find (key / 2)).map Grid.part) == some p
    else ((s.trees.find (key / 2)).map Tree.part) == some p
  { s with
    comps := s.comps.filter fun c => !mine c.1
    grids := s.grids.filter fun g => g.2.part != p
    trees := s.trees.filter fun t => t.2.part != p
    susp := s.susp.filter fun x => x.2.1 != p
    lifted := s.lifted.filter fun x => x.2.1 != p
    pinned := s.pinned.filter fun x => x.part != p
    chans := s.chans.filter fun x => x.2.part != p
    comms := s.comms.filter fun c => c.2.part != p
    colls := s.colls.filter fun c => c.2.part != p
    steps := s.steps.filter fun t => !keys.contains t.2.comm
    harvest := s.harvest.filter fun h => h.1 / 2 ^ 41 != p }

/-- Its effect on lanes and registers (R401, steps 2 to 4). -/
def State.clearRegs (s : State) (p : Nat) : State :=
  let qs := s.quadsOf p
  let s := (qs.flatMap lanesOfQuad).foldl (fun s n => s.modLane n fun l =>
    { l with state := 0, rd := 0, stop := false, pkt := none, wait := none, stage := 0 }) s
  let s := { s with
    windows := s.windows.filter fun w => w.1 / 2 ^ 36 != p
    queues := s.queues.filter fun q => q.1 / 2 % 16 != p
    preempt := s.preempt.filter fun x => x.1 % 16 != p }
  let s := qs.foldl (fun s q => s.modQuad q fun x => { Quad.reset with state := x.state, part := x.part }) s
  (qs.flatMap coresOfQuad).foldl (fun s c => s.modCore c fun k =>
    { k with almValid := false, almLock := false, faulted := false, eccCnt := 0, icache := [] }) s

/-- The bytes that a command has written so far. -/
def Mailbox.wrote (m : Mailbox) : Nat :=
  match m.out, m.result with
  | some (_, off, _), _ => off
  | none, some (_, n) => n
  | none, none => 0

/-- The mailbox of a partition's function at its reset: a command that runs ends with status 4 (R402), with the bytes that it has
written (R407), and function 0 raises its vector (R406). -/
def State.boxAbort (s : State) (fn : Nat) : State :=
  if (s.mailbox.find fn).any Mailbox.busy then
    { s with mailbox := s.mailbox.adj fn fun m =>
      { m with busy := false, status := 4, len := BitVec.ofNat 32 m.wrote, wait := none, got := [], out := none, result := none } }.raiseOwn
  else s

/-- A reset of a partition (R401, R402): the sequence, until PSTATE returns to 1. -/
def State.resetPart (s : State) (p : Nat) (scrub : Bool) : State :=
  if (s.part p).state = 2 then s.modPart p fun x => { x with refused := true }
  else
    let hit := s.checkpointed p
    let out := s.hostWaits.filter fun w => w.2.part == p
    let s := { s with hostWaits := s.hostWaits.filter fun w => w.2.part != p }
    let s := out.foldl (fun s w => s.agentDeny w.2) s
    let s := (s.clearWork p).clearRegs p
    let s := { s with
      ckpt := if hit then
          { s.ckpt with error := true, pend := s.ckpt.pend.filter fun x => !(s.part p).pquads.getLsbD x.1 }
        else s.ckpt }.boxAbort (p + 1)
    s.modPart p fun x =>
      { x with state := 2, refused := false, xlat := [], resetWait := if scrub then quadList x.pquads else [] }

/-- PARTITION_RESET (R401). Argument: partition. -/
def execPartitionReset (s : State) : Outcome State Fault Refusal :=
  .next (if s.arg 0 < 16 then s.resetPart (s.arg 0) false else s)

/-- PARTITION_RESET_SCRUB (R401). Argument: partition. -/
def execPartitionResetScrub (s : State) : Outcome State Fault Refusal :=
  .next (if s.arg 0 < 16 then s.resetPart (s.arg 0) true else s)

/-- PARTITION_RESET_DONE (R401). Argument: partition. -/
def execPartitionResetDone (s : State) : Outcome State Fault Refusal :=
  let p := s.arg 0
  .next (if (s.part p).state = 2 && (s.part p).resetWait.isEmpty then
      s.modPart p fun x => { x with state := if x.pquads = 0 then 0 else 1 }
    else s)

/-! ## The mailbox (R407 to R410) -/

/-- A mailbox as reset leaves it. -/
def Mailbox.reset : Mailbox := ⟨0, 0, 0, 0, 0, false, none, [], none, none⟩

/-- The mailbox of a function. -/
def State.box (s : State) (fn : Nat) : Mailbox := (s.mailbox.find fn).getD Mailbox.reset

/-- Change a mailbox. -/
def State.modBox (s : State) (fn : Nat) (f : Mailbox → Mailbox) : State :=
  { s with mailbox := s.mailbox.put fn (f (s.box fn)) }

/-- The partition in which an argument of a function's command lies. -/
def State.argPart (s : State) (fn ia : Nat) : Nat := if fn = 0 then (s.quad (ia / 2 ^ 47 % 16)).part else fn - 1

/-- Free bytes (log entry 2). -/
def State.freeBytes (s : State) (n : Nat) : List Byte × State :=
  ((List.range n).map fun k => Config.freeByte (s.free + k), { s with free := s.free + n })

/-- A report's bytes (R410); the signature is a free value, and so is what the report of function 0 says of quadrants and
cores. -/
def State.report (s : State) (fn : Nat) (nonce : List Byte) : List Byte × State :=
  let p := fn - 1
  let cores := s.coresOf p
  let valid := cores.filter fun c => (s.core c).almValid
  let meas := (s.core (valid.headD (cores.headD 0))).almMeas
  let (quads, s) := if fn = 0 then s.freeBytes 8
    else (leBytes 8 (((s.quadsOf p).map fun q => 2 ^ q).foldl (· + ·) 0), s)
  let (count, s) := if fn = 0 then s.freeBytes 4 else (leBytes 4 valid.length, s)
  let (alm, s) := if fn = 0 then s.freeBytes 64 else (leBytes 64 meas.toNat, s)
  let (sig, s) := s.freeBytes 3309
  (leBytes 4 1 ++ leBytes 4 (if fn = 0 then 0xFFFFFFFF else p) ++ quads ++ nonce ++ leBytes 8 feat.toNat
    ++ leBytes 8 capc.toNat ++ (List.range 64).map Config.firmware ++ (List.range 64).map Config.microcode ++ alm ++ count
    ++ leBytes 4 Config.mcrev.toNat ++ List.replicate 56 0 ++ sig, s)

/-- A command waits on a page, with a record, as a system channel does (R239, R345). -/
def State.boxWait (s : State) (fn part kind ia : Nat) : State :=
  (s.sysFault (dieOfIa ia) part ia kind false (boxTag fn)).modBox fn fun m => { m with wait := some ia }

/-- What a command will end with. -/
def State.boxEnd (s : State) (fn status bytes : Nat) : State := s.modBox fn fun m => { m with result := some (status, bytes) }

/-- A command whose access memory refuses ends with status 4 after the bytes that it has written; the denial has its record
(R330, R346, R407). -/
def State.boxDeny (s : State) (fn part : Nat) (r : SysRes) (bytes : Nat := 0) : State :=
  (match r with
   | .deny k ia far => s.sysFault (dieOfIa ia) part ia k far (boxTag fn)
   | _ => s).boxEnd fn 4 bytes

/-- The channel of a command writes on, and the command ends with the last byte. At a page not present or migrating it stalls
at its byte offset (R239). -/
def State.boxPut (s : State) (fn : Nat) : State :=
  match (s.box fn).out with
  | none => s
  | some (status, off, bs) =>
    let ia := (s.box fn).arg1.toNat + off
    let part := s.argPart fn ia
    let (r, n, s) := s.chanWrite part ia bs
    match r with
    | .ok _ => (s.modBox fn fun m => { m with out := none }).boxEnd fn status (off + bs.length)
    | .wait k a => (s.modBox fn fun m => { m with out := some (status, off + n, bs.drop n) }).boxWait fn part k a
    | r => (s.modBox fn fun m => { m with out := none }).boxDeny fn part r (off + n)

/-- A command begins to write its output. -/
def State.boxWrite (s : State) (fn status : Nat) (bs : List Byte) : State :=
  (s.modBox fn fun m => { m with out := some (status, 0, bs) }).boxPut fn

/-- The channel of a command reads on to the first `n` bytes of its input, which are answered when they are there; it stalls
as `boxPut` does. -/
def State.boxRead (s : State) (fn n : Nat) : Option (List Byte) × State :=
  let ia := (s.box fn).arg0.toNat
  let part := s.argPart fn ia
  let (r, got, s) := s.chanRead part ia n (s.box fn).got
  let s := s.modBox fn fun m => { m with got := got }
  match r with
  | .ok bs => (some bs, s)
  | .wait k a => (none, s.boxWait fn part k a)
  | r => (none, s.boxDeny fn part r)

/-- The report command (R410). -/
def State.boxReport (s : State) (fn : Nat) : State :=
  match s.boxRead fn 32 with
  | (some nonce, s) => let (bs, s) := s.report fn nonce; s.boxWrite fn 0 bs
  | (none, s) => s

/-- The key of a translated image (R409). -/
def xlatKey (h : Header) (image : List Byte) : List Byte :=
  leBytes 32 (wordsNat ((shake256 (image ++ leBytes 4 Config.xlat.toNat ++ leBytes 8 feat.toNat ++ leBytes 4 Config.mcrev.toNat
    ++ leBytes 2 h.eff)).take 4))

/-- A native image (R408): the portable header with the checked flag clear and new code bytes, entry and trap offsets, then
the translated code. Whether the translator sets S bits or inserts NOPs is a free value (log entry 51). -/
def State.native (s : State) (image : List Byte) : List Byte × State :=
  let h := Header.parse image
  let ws := codeWords (image.drop 0x40)
  let (yes, s) := s.flip
  let marks := yes || !fits false ws
  let at_ (off : Nat) : Nat := 0x40 + 4 * newPos marks ws ((off - 0x40) / 4)
  let code := nativeCode marks ws
  (image.take 0x0B ++ leBytes 1 (h.flags.toNat - 2) ++ (image.drop 0x0C).take 8 ++ leBytes 4 (4 * code.length)
    ++ leBytes 4 (if h.trap = 0 then 0 else at_ h.trap) ++ leBytes 4 (at_ h.entry) ++ (image.drop 0x20).take 0x20
    ++ code.flatMap wordBytes, s)

/-- The translation of an image that has been read (R408, R409). An image with a jump that cannot be traced to a CALL is refused;
how far the translator traces is open: it may refuse others with computed jumps too (log entry 51). So is one of whose branches the
displacement has no room for what R33 to R36 need. -/
def State.translate (s : State) (fn part : Nat) (image : List Byte) : State :=
  let h := Header.parse image
  let ws := codeWords (image.drop 0x40)
  let key := xlatKey h image
  if !h.checked || (ws.any fun w => w.getLsbD 31 && !isPrefixWord w) then s.boxEnd fn 2 0
  else match (s.part part).xlat.find? fun x => x.1 == key with
    | some (_, out) => s.boxWrite fn 1 out
    | none =>
      let (lost, s) := if !ws.any computedJump then (false, s) else if traceable ws then s.flip else (true, s)
      if lost || !fits true ws then s.boxEnd fn 3 0
      else
        let (out, s) := s.native image
        if out.length > 4 * 2 ^ 20 then s.boxEnd fn 5 0
        else
          let s := if (s.part part).xlat.length < 4096 then s.modPart part fun x => { x with xlat := x.xlat ++ [(key, out)] }
            else s
          s.boxWrite fn 0 out

/-- The translate command. -/
def State.boxTranslate (s : State) (fn : Nat) : State :=
  match s.boxRead fn 64 with
  | (none, s) => s
  | (some got, s) =>
    let head := got.take 64
    match headerBad head true with
    | some _ => s.boxEnd fn 2 0
    | none =>
      match s.boxRead fn (64 + (Header.parse head).code) with
      | (some image, s) => s.translate fn (s.argPart fn (s.box fn).arg0.toNat) image
      | (none, s) => s

/-- The running command goes on, unless its channel waits on a page or at a record (R239, R345). -/
def State.boxWork (s : State) (fn : Nat) : State :=
  let m := s.box fn
  if !m.busy || m.wait.isSome || m.result.isSome || s.held (boxTag fn) then s
  else if m.out.isSome then s.boxPut fn
  else if m.cmd = 1 then s.boxReport fn else s.boxTranslate fn

/-- A write of MBCMD (R407): 1 report, 2 translate; ignored while busy. -/
def State.boxStart (s : State) (fn cmd : Nat) : State :=
  if (s.box fn).busy || (cmd ≠ 1 && cmd ≠ 2) then s
  else (s.modBox fn fun m => { m with cmd := cmd, busy := true, wait := none, got := [], out := none, result := none }).boxWork fn

/-- MAILBOX_REPORT (R410). Argument of this and the next two: function. -/
def execMailboxReport (s : State) : Outcome State Fault Refusal := .next (if s.arg 0 ≤ 16 then s.boxStart (s.arg 0) 1 else s)

/-- MAILBOX_TRANSLATE (R408). -/
def execMailboxTranslate (s : State) : Outcome State Fault Refusal :=
  .next (if s.arg 0 ≤ 16 then s.boxStart (s.arg 0) 2 else s)

/-- MAILBOX_DONE (R406, R407): the command ends with its status and length, and function 0 raises its vector. -/
def execMailboxDone (s : State) : Outcome State Fault Refusal :=
  let fn := s.arg 0
  let s := s.boxWork fn
  .next (match (s.box fn).result with
    | some (status, bytes) =>
      if s.held (boxTag fn) then s
      else
        (s.modBox fn fun m =>
          { m with busy := false, status := status, len := BitVec.ofNat 32 bytes, got := [], result := none }).raiseOwn
    | none => s)

/-! ## Checkpoints (R413 to R416) -/

/-- Bytes of HBM go to the safe tier, and poisoned granules as poisoned writes (R411, R413). `key` gives the place of the
bytes of each line: the line itself, or where the L2 holds it (R333). -/
def State.ckCopy (s : State) (a n : Nat) (key : Nat → Nat) : State :=
  let at_ (x : Nat) : Nat := (s.ckpt.dst.toNat + x) % 2 ^ 64
  let lines := (List.range (n / 128)).map fun i => a + 128 * i
  let bad := lines.flatMap fun x => ((List.range 4).filter fun j => s.bad (key x + 32 * j)).map fun j => x + 32 * j
  { s with
    outbox := s.outbox ++ [⟨7, 0, at_ a, lines.flatMap fun x => Memory.read s.mem (key x) 128⟩]
      ++ bad.map fun g => ⟨2, 32, at_ g, []⟩
    ckpt := { s.ckpt with bytes := s.ckpt.bytes + BitVec.ofNat 40 n } }

/-- DIRTY is cleared in an entry, in memory and in what the MTU holds of it (R414). -/
def State.clearDirty (s : State) (a : Nat) : State :=
  { s with
    mem := Memory.set s.mem (a + 6) (Memory.get s.mem (a + 6) &&& 0x7F)
    quads := s.quads.mapVal fun _ q =>
      { q with cached := q.cached.mapVal fun _ x => if x.1 = a then (a, x.2 &&& 0xFF7FFFFFFFFFFFFF) else x } }

/-- A lane of a CPS that was permitted while DIRTY of its page stood set, and is not yet performed, sets it again (R341, R415). -/
def LaneTgt.redirty (a ia size : Nat) (t : LaneTgt) : LaneTgt :=
  match t.tgt with
  | .key k st none => if ia ≤ t.ia && t.ia < ia + size then { t with tgt := .key k st (some a) } else t
  | _ => t

/-- The writes to a page that have been permitted and are still to be performed set DIRTY of its entry again (R415). -/
def State.redirty (s : State) (a ia size : Nat) : State :=
  { s with ops := s.ops.mapVal fun _ o => match o.kind with
    | .lane l => if l.put then { o with kind := .lane { l with ready := l.ready.map (LaneTgt.redirty a ia size) } } else o
    | _ => o }

/-- One page of a dirty checkpoint: DIRTY is cleared in the leaf before the page is read. A migrating page stalls the channel
(R239): then there is no answer. A leaf or a page outside the partition's quadrants is left alone (R340, R397). Arguments: the leaf, its address, the page's intermediate address and its size. -/
def State.ckLeaf (s : State) (e a ia size : Nat) : Option State :=
  let t := e / size % (2 ^ 52 / size) * size
  let p := s.partOfIa ia
  if e / 2 ^ 57 % 4 ≠ 0 || !e.testBit 55 || !s.ownsHbm p a 8 || !s.owns p (t / 2 ^ 35) then some s
  else if e.testBit 56 then none
  else some (((s.clearDirty a).redirty a ia size).ckCopy t (min size (hbmBytes - t % 2 ^ 35)) fun x => s.l2Key (ia + (x - t)) x)

/-- What a quadrant's channel of a dirty checkpoint sends at the indices of an entry, and the indices after it; none where it
stalls. -/
def State.ckEntry (s : State) (q i1 j : Nat) : Option ((Nat × Nat) × State) :=
  let a1 := (s.quad q).l1base.toNat * 4096 + 8 * i1
  let e1 := Memory.num s.mem a1 8
  let ia := q * 2 ^ 47 + i1 * 2 ^ 21
  if (s.quad q).state ≠ 2 || s.badRange a1 8 || !e1.testBit 0 then some ((i1 + 1, 0), s)
  else if e1.testBit 54 then (s.ckLeaf e1 a1 ia (2 ^ 21)).map fun s => ((i1 + 1, 0), s)
  else
    let a2 := e1 / 2 ^ 8 % 2 ^ 44 * 2 ^ 8 + 8 * j
    let e2 := Memory.num s.mem a2 8
    let next := if j ≥ 31 then (i1 + 1, 0) else (i1, j + 1)
    if s.badRange a2 8 || !e2.testBit 0 || e2.testBit 54 then some (next, s)
    else (s.ckLeaf e2 a2 (ia + j * 2 ^ 16) (2 ^ 16)).map fun s => (next, s)

/-- A piece of a full checkpoint: 2 MiB of a quadrant's HBM, the last one less. -/
def State.ckPiece (s : State) (q i : Nat) : State :=
  s.ckCopy (q * 2 ^ 35 + i * 2 ^ 21) (min (2 ^ 21) (hbmBytes - i * 2 ^ 21)) id

/-- The number of pieces, or of level-1 entries, that a quadrant's channel has to go through. -/
def State.ckEnd (s : State) (q : Nat) : Nat := if s.ckpt.op = 1 then ceilDiv hbmBytes (2 ^ 21) else (s.quad q).l1count

/-- A quadrant's channel goes on by `n` entries at most: where it stands then, or none at its end. -/
def State.ckRun (q : Nat) : Nat → Nat × Nat → State → Option (Nat × Nat) × State
  | 0, p, s => (some p, s)
  | n + 1, p, s =>
    if p.1 ≥ s.ckEnd q then (none, s)
    else if s.ckpt.op = 1 then State.ckRun q n (p.1 + 1, 0) (s.ckPiece q p.1)
    else match s.ckEntry q p.1 p.2 with
      | none => (some p, s)
      | some (p', s) => State.ckRun q n p' s

/-- Every quadrant's channel goes on. -/
def State.ckGo (s : State) (n : Nat) : State :=
  s.ckpt.pend.foldl (fun s x =>
    let (p, s) := State.ckRun x.1 (if n = 0 then 32 * s.ckEnd x.1 + 1 else n) x.2 s
    { s with ckpt := { s.ckpt with pend := match p with
      | none => s.ckpt.pend
      | some p => s.ckpt.pend ++ [(x.1, p)] } }) { s with ckpt := { s.ckpt with pend := [] } }

/-- A checkpoint starts (R414): ignored while one runs. A listed quadrant that is not assigned, or a listed link that is
down, sets error and its part is left out. -/
def State.ckStart (s : State) (op : Nat) : State :=
  if s.ckpt.busy || (op ≠ 1 && op ≠ 2) then s
  else
    let qs := quadList s.ckpt.quads
    let ready := qs.filter fun q => (s.quad q).state == 2
    let up (i : Nat) : Bool := ((s.links.find i).map fun v => v.getLsbD 0).getD false
    let links := (List.range 24).filter fun i => s.ckpt.links.getLsbD i
    let ok := links.any up
    { s with ckpt := { s.ckpt with
      busy := true, op := op, bytes := 0, covers := ready.foldl (fun m q => m ||| (1#16 <<< q)) 0, pend := if ok then ready.map fun q => (q, 0, 0) else []
      error := ready.length ≠ qs.length || !links.all up || !ok } }

/-- CHECKPOINT_FULL (R414). -/
def execCheckpointFull (s : State) : Outcome State Fault Refusal := .next (s.ckStart 1)

/-- CHECKPOINT_DIRTY (R414). -/
def execCheckpointDirty (s : State) : Outcome State Fault Refusal := .next (s.ckStart 2)

/-- CHECKPOINT_DONE (R406, R415, R416): the channels go on; with all at their end the checkpoint ends. Argument: how many
entries each channel goes through, 0 for as many as it can. -/
def execCheckpointDone (s : State) : Outcome State Fault Refusal :=
  .next (if !s.ckpt.busy then s
    else
      let s := s.ckGo (s.arg 0)
      if s.ckpt.pend.isEmpty then { s with ckpt := { s.ckpt with busy := false } }.raiseOwn else s)

/-! ## Power, clock, host port (R403, R417) -/

/-- A write of PWRCAP. -/
def State.setCap (s : State) (v : U64) : State :=
  let w := bitsOf v.toNat 0 16
  { s with pwrCap := BitVec.ofNat 16 (if 600 ≤ w && w ≤ 2400 then w else 2400) }

/-- PWRCAP (R417). Argument: value. -/
def execPwrcap (s : State) : Outcome State Fault Refusal := .next (s.setCap (BitVec.ofNat 64 (s.arg 0)))

/-- CLOCK_STEP (R417): the clock moves by steps of 25 MHz and never stands above 1,100 MHz. Argument: MHz. -/
def execClockStep (s : State) : Outcome State Fault Refusal :=
  let m := s.arg 0
  .next (if 0 < m && m ≤ 1100 && m % 25 = s.clkMhz.toNat % 25 then { s with clkMhz := BitVec.ofNat 16 m } else s)

/-- HOST_PORT_TRAINING (R403): x16, x8 or x4, or the link does not come up. Argument: lanes. -/
def execHostPortTraining (s : State) : Outcome State Fault Refusal :=
  let n := s.arg 0
  .next { s with hostLanes := if n = 16 || n = 8 || n = 4 then n else 0 }

/-! ## The host's accesses (R405) -/

/-- The intermediate address of a host address in a partition's decoders. -/
def State.decode (s : State) (p h : Nat) : Option Nat :=
  ((s.part p).decoders.find? fun d =>
    d.2.1.toNat ≤ h && h < d.2.1.toNat + d.2.2.1.toNat && !d.2.2.2.getLsbD 51).map fun d => h - d.2.1.toNat + d.2.2.2.toNat

/-- A host access of a partition: while the partition resets, reads complete with poison and writes are dropped. -/
def State.hostAccess (s : State) (p h kind n : Nat) (bs : List Byte) : State :=
  match s.decode p h with
  | none => s
  | some ia =>
    let w : HostWait := ⟨p, ia, kind, n, bs, none, (0, 0), s.cycle⟩
    if (s.part p).state = 2 then s.answer w 0 [] else s.agent w

/-- HOST_MEM_READ (R405). Arguments: partition, host address, length. -/
def execHostMemRead (s : State) : Outcome State Fault Refusal := .next (s.hostAccess (s.arg 0) (s.arg 1) 0 (s.arg 2) [])

/-- HOST_MEM_WRITE (R405, R412). Arguments: partition, host address, bytes. -/
def execHostMemWrite (s : State) : Outcome State Fault Refusal :=
  let bs := (s.args.drop 2).map (BitVec.ofNat 8)
  .next (s.hostAccess (s.arg 0) (s.arg 1) 1 bs.length bs)

/-- MIG_WAIT_TIMEOUT (R405, R420): an access that has waited for 10 ms is denied. Argument: access. -/
def execMigWaitTimeout (s : State) : Outcome State Fault Refusal :=
  .next (match s.hostWaits.find (s.arg 0) with
    | some w =>
      if w.since.toNat + 11000000 ≤ s.cycle.toNat then { s with hostWaits := s.hostWaits.del (s.arg 0) }.agentDeny w else s
    | none => s)

/-! ## Page copies (R239, R344) -/

/-- A line of 128 bytes that a page copy reads, through the L2 (R333). The page stands at MIG while it is copied, so its own
MIG does not stall the copy (log entry 53). -/
inductive ChanRes where
  | at_ (key : Nat)
  | wait
  | deny (kind : Nat)
deriving DecidableEq, Repr

/-- Where the line of an intermediate address is read (R340, R341). -/
def State.chanSource (s : State) (part ia : Nat) : ChanRes :=
  if ia ≥ 2 ^ 51 || !s.owns part (ia / 2 ^ 47) then .deny 5
  else match s.walk ia with
    | .error (.wait _) => .wait
    | .error (.deny k) => .deny k
    | .error (.ok _ _ _) => .wait
    | .ok (e, _, t) =>
      if e / 2 ^ 57 % 4 = 3 then .wait
      else if !e.testBit 1 then .deny 3
      else match e / 2 ^ 57 % 4 with
        | 0 => if !s.owns part (t / 2 ^ 35) then .deny 5 else if t % 2 ^ 35 ≥ hbmBytes then .deny 11 else .at_ (s.l2Key ia t)
        | 1 => .at_ (s.l2Key ia (hostBase + t))
        | _ => .at_ (s.l2Key ia (peerBase + t))

/-- A line moves from a key to another; a peer's bytes are free values (R420). -/
def State.chanMove (s : State) (part src dst : Nat) : State :=
  if src ≥ peerBase then
    let (bs, bad, s) := s.load src 128
    if dst ≥ peerBase then
      (if bad then s.toPeer 2 128 part (dst - peerBase) [] else s.toPeer 1 0 part (dst - peerBase) bs)
    else
      let s := s.storeBytes dst bs
      if bad then ((List.range 4).map fun i => dst + 32 * i).foldl State.spoil s else s
  else if dst ≥ peerBase then s.lineSend part src (dst - peerBase)
  else s.lineMove src dst

/-- The far end's verdict where a key names a peer's byte; otherwise none is asked (R420). -/
def State.peerOk (s : State) (part key : Nat) : Bool × State :=
  if key ≥ peerBase then s.farEnd part (key - peerBase) else (true, s)

/-- A page copy goes on by a line; a page that is not present stalls it at its byte offset, and a denied one, or memory that has
left the partition (R397), ends it, each with a record. -/
def State.chanGo (s : State) (id : Nat) : State :=
  match s.chans.find id with
  | none => s
  | some c =>
    if c.wait.isSome || s.held (chanTag id) then s
    else
      let ia := c.src + c.off
      let dst := c.dst + c.off
      let stop (s : State) (kind : Nat) (far : Bool) : State :=
        { s.sysFault (dieOfIa ia) c.part ia kind far (chanTag id) with chans := s.chans.del id }
      match s.chanSource c.part ia with
      | .wait =>
        { s.sysFault (dieOfIa ia) c.part ia 1 false (chanTag id) with
          chans := s.chans.adj id fun c => { c with wait := some ia } }
      | .deny k => stop s k false
      | .at_ key =>
        let (read, s) := s.peerOk c.part key
        let (write, s) := if read then s.peerOk c.part dst else (false, s)
        if !read then stop s 3 true
        else if dst < hostBase && !s.ownsHbm c.part dst 128 then stop s 5 false
        else if !write then stop s 4 true
        else
          let s := s.chanMove c.part key dst
          { s with chans := if c.off + 128 ≥ c.len then s.chans.del id
              else s.chans.adj id fun c => { c with off := c.off + 128 } }

/-- Firmware starts a page copy: from intermediate addresses of a partition to HBM of its own, to host memory or to a peer
(R340, R344), in lines. -/
def State.chanStart (s : State) (part src dst len : Nat) : State :=
  let host := hostBase ≤ dst && dst + len ≤ peerBase
  let peer := peerBase ≤ dst && dst + len ≤ peerBase + 2 ^ 52
  let hbm := s.ownsHbm part dst len
  if part ≥ 16 || len = 0 || len > 2 ^ 21 || src % 128 ≠ 0 || dst % 128 ≠ 0 || len % 128 ≠ 0 || !(host || peer || hbm) then s
  else { s with chans := s.chans.put s.nextId ⟨part, src, dst, len, 0, none⟩, nextId := s.nextId + 1 }

/-! ## Soft errors and failures (R224, R303, R411) -/

/-- A granule of HBM becomes poisoned: counted, with its address. One that is poisoned already is no new poison. -/
def State.newPoison (s : State) (a : Nat) : State :=
  let die := a / 2 ^ 37
  if s.bad a then s else
  { (s.spoil a).countUnc die with eccAddr := s.eccAddr.set die (BitVec.ofNat 64 (granule a).1) }

/-- A correction is counted in the die's ECCCORR. -/
def State.countCorr (s : State) (die : Nat) : State := { s with eccCorr := s.eccCorr.set die (s.eccCorr.get die + 1) }

/-- PATROL_SCRUB (R411): the scrubber reads a granule of an assigned quadrant: clean, corrected (1) or not correctable (2).
Arguments: package address, finding. -/
def execPatrolScrub (s : State) : Outcome State Fault Refusal :=
  let a := s.arg 0
  .next (if a ≥ 2 ^ 39 || a % 2 ^ 35 ≥ hbmBytes || (s.quad (a / 2 ^ 35)).state ≠ 2 then s
    else match s.arg 1 with
      | 1 => s.countCorr (a / 2 ^ 37)
      | 2 => s.newPoison a
      | _ => s)

/-- CORE_FAULT (R224). Argument: core. -/
def execCoreFault (s : State) : Outcome State Fault Refusal := .next (if s.arg 0 < 512 then s.coreFault (s.arg 0) else s)

/-- CLUSTER_FAULT (R303). Every group of a block on the cluster fails with it; the completion record names the core of the lowest
(R356; DESIGN CHOICE, log entry 58). Argument: cluster. -/
def execClusterFault (s : State) : Outcome State Fault Refusal :=
  let k := s.arg 0
  .next (if k ≥ 64 then s
    else
      let cores := (List.range 8).map fun i => 8 * k + i
      let hit := (s.blocks.filter fun b => b.2.st == .resident && b.2.cores.any fun c => clusterOf c == k).map Prod.fst
      let lost := cores.filterMap fun c => (s.core c).carry.map fun k => (k, c)
      let s := cores.foldl (fun s c => s.modCore c fun x => { x with faulted := true }) s
      let s := lost.foldl (fun s x => s.carryFault x.1 x.2) s
      (s.abortLost hit fun b => ((b.groups.head?.map fun g => g.2.core).getD 0xFFFF)).fault (s.quad (quadOf (8 * k))).part (8 * k) 0 0 0 9 4 0xFF 0)

/-! ## Configuration space (R399, R404, R405, R414, R421) -/

/-- A register of the configuration space. -/
inductive CfgReg where
  | identity (off : Nat)
  | publicKey (k : Nat)
  | certificate (k : Nat)
  | pwrcap
  | clkstat
  | qstate (q : Nat)
  | part (p j : Nat)
  | ckpt (j : Nat)
  | mailbox (j : Nat)
  | decoder (p i j : Nat)
  | modid
  | linkstat (i : Nat)
  | route (p i : Nat)
  | commstat (p c : Nat)
  | mtu (q j : Nat)
  | lane (n j : Nat)
  | dvsize (core : Nat)
  | padattr (core : Nat)
  | almanac (core i : Nat)
  | preempt (die p j : Nat)
  | queue (die p n j : Nat)
  | ecc (die j : Nat)
  | absent
deriving DecidableEq, Repr

/-- The register at an offset of a quadrant's region. -/
def quadReg (q o : Nat) : CfgReg :=
  if o < 0x20 then .mtu q (o / 8)
  else if 0x1000 ≤ o && o < 0x1200 then .lane (16 * q + (o - 0x1000) / 0x20) (o % 0x20 / 8)
  else if 0x2000 ≤ o && o < 0x2200 then
    (if o % 16 = 0 then .dvsize (32 * q + (o - 0x2000) / 16) else .padattr (32 * q + (o - 0x2000) / 16))
  else if 0x4000 ≤ o && o < 0x6000 then .almanac (32 * q + (o - 0x4000) / 0x100) (0xA00 + o % 0x100 / 8)
  else .absent

/-- The register at an offset of a die's region. -/
def dieReg (die o : Nat) : CfgReg :=
  if 0x100 ≤ o && o < 0x118 then .ecc die ((o - 0x100) / 8)
  else if 0x800 ≤ o && o < 0xC00 then
    (if o % 0x40 / 8 < 5 then .preempt die ((o - 0x800) / 0x40) (o % 0x40 / 8) else .absent)
  else if 0x1000 ≤ o && o < 0x1800 then
    (let j := o % 0x80 / 8
     if j < 14 && j % 8 < 6 then .queue die ((o - 0x1000) / 0x80) (j / 8) (j % 8) else .absent)
  else .absent

/-- The register at an offset of a function's BAR0. R410 has the public key and its certificate read through function 0 and
gives no offset: they stand at 0x1000 and from 0x2000 up (DESIGN CHOICE, log entry 52). -/
def State.cfgReg (s : State) (fn off : Nat) : CfgReg :=
  let own := fn - 1
  if off % 8 ≠ 0 || fn > 16 then .absent
  else if off < 0x10000 then
    (if fn ≠ 0 then .absent
     else if off < 0x10 then .identity off
     else if off = 0x10 then .pwrcap
     else if off = 0x18 then .clkstat
     else if 0x100 ≤ off && off < 0x180 then .qstate ((off - 0x100) / 8)
     else if 0x1000 ≤ off && off < 0x17A0 then .publicKey ((off - 0x1000) / 8)
     else if 0x2000 ≤ off then .certificate ((off - 0x2000) / 8)
     else .absent)
  else if off < 0x20000 then
    (let o := off - 0x10000
     if fn = 0 && o < 0x400 && o % 0x40 < 0x20 then .part (o / 0x40) (o % 0x40 / 8)
     else if fn ≠ 0 && o < 0x20 then .part own (o / 8)
     else .absent)
  else if off < 0x30000 then (if fn = 0 && off - 0x20000 < 0x28 then .ckpt ((off - 0x20000) / 8) else .absent)
  else if off < 0x40000 then (if off - 0x30000 < 0x20 then .mailbox ((off - 0x30000) / 8) else .absent)
  else if off < 0x50000 then
    (let o := off - 0x40000
     if o % 0x20 ≥ 0x18 then .absent
     else if fn = 0 && o < 0x1000 && o % 0x100 < 0x80 then .decoder (o / 0x100) (o % 0x100 / 0x20) (o % 0x20 / 8)
     else if fn ≠ 0 && o < 0x80 then .decoder own (o / 0x20) (o % 0x20 / 8)
     else .absent)
  else if off < 0x60000 then
    (let o := off - 0x50000
     if fn = 0 then
       (if o = 0 then .modid
        else if 0x100 ≤ o && o < 0x1C0 then .linkstat ((o - 0x100) / 8)
        else if 0x1000 ≤ o && o < 0x9000 then .route ((o - 0x1000) / 0x800) ((o - 0x1000) % 0x800 / 8)
        else .absent)
     else if 0x100 ≤ o && o < 0x140 then .commstat own ((o - 0x100) / 8)
     else if 0x800 ≤ o && o < 0x1000 then .route own ((o - 0x800) / 8)
     else .absent)
  else if 0x1000000 ≤ off && off < 0x2000000 then
    (let q := (off - 0x1000000) / 0x100000
     if fn = 0 || s.owns own q then quadReg q (off % 0x100000) else .absent)
  else if 0x2000000 ≤ off && off < 0x2400000 then
    (let die := (off - 0x2000000) / 0x100000
     let here := fn = 0 || (List.range 4).any fun q => s.owns own (4 * die + q)
     match dieReg die (off % 0x100000) with
     | .preempt d p j => if here && (fn = 0 || p = own) then .preempt d p j else .absent
     | .queue d p n j => if here && (fn = 0 || p = own) then .queue d p n j else .absent
     | r => if here then r else .absent)
  else .absent

/-- A decoder of a partition. -/
def Part.decoder (x : Part) (i : Nat) : U64 × U64 × U64 := (x.decoders.find i).getD (0, 0, 0)

/-- A lane register's content. -/
def Lane.read (l : Lane) (j : Nat) : U64 :=
  match j with
  | 0 => l.ring
  | 1 => l.wrva
  | 2 => l.rd.setWidth 64
  | _ => BitVec.ofNat 64 (l.state + (if l.priv then 2 ^ 9 else 0) + l.prio * 2 ^ 10 + l.ceil * 2 ^ 12 + l.k % 16 * 2 ^ 16
      + l.ctx * 2 ^ 32)

/-- A register's content as software reads it. -/
def State.cfgRead (s : State) (fn : Nat) (r : CfgReg) : U64 :=
  let n (x : Nat) : U64 := BitVec.ofNat 64 x
  let b (x : Bool) : Nat := if x then 1 else 0
  match r with
  | .identity o => Config.identity o
  | .publicKey k => Config.publicKey k
  | .certificate k => Config.certificate k
  | .pwrcap => s.pwrCap.setWidth 64
  | .clkstat => s.clkMhz.setWidth 64
  | .qstate q => n ((s.quad q).state + (if (s.quad q).state = 2 then (s.quad q).part * 16 else 0))
  | .part p j =>
    let x := s.part p
    (match j with
     | 0 => x.pquads.setWidth 64
     | 1 => x.pclose.setWidth 64
     | 2 => 0
     | _ => n (x.state + b x.refused * 4))
  | .ckpt j =>
    let k := s.ckpt
    (match j with
     | 0 => k.dst
     | 1 => k.quads.setWidth 64
     | 2 => k.links.setWidth 64
     | 3 => 0
     | _ => n (b k.busy + b k.error * 2 + k.bytes.toNat * 2 ^ 24))
  | .mailbox j =>
    let m := s.box fn
    (match j with
     | 0 => m.arg0
     | 1 => m.arg1
     | 2 => 0
     | _ => n (b m.busy + m.status * 2 + m.len.toNat * 2 ^ 32))
  | .decoder p i j =>
    let d := (s.part p).decoder i
    (match j with | 0 => d.1 | 1 => d.2.1 | _ => d.2.2)
  | .modid => s.modid.setWidth 64
  | .linkstat i => (s.links.find i).getD 0
  | .route p i => (s.part p).routes.get i
  | .commstat p c =>
    (match s.comms.find (commKey p c) with
     | none => 0
     | some k => if k.state = 1 then 1 else n (k.state + k.contract * 2 ^ 8 + k.rank * 2 ^ 16 + k.seq.toNat * 2 ^ 32))
  | .mtu q j => (s.quad q).mtuRead j
  | .lane l j => (s.lane l).read j
  | .dvsize c => n (s.core c).dvsize
  | .padattr c => (s.core c).padattr.setWidth 64
  | .almanac c i => ((s.core c).almRead i).getD 0xFFFFFFFFFFFFFFFF
  | .preempt d p j => (s.pre d p).read j
  | .queue d p q j => (s.queue d p q).read j
  | .ecc d j => (match j with | 0 => s.eccCorr.get d | 1 => s.eccUnc.get d | _ => s.eccAddr.get d)
  | .absent => 0xFFFFFFFFFFFFFFFF

/-- A write of a register of a partition's block. -/
def State.partWrite (s : State) (p j : Nat) (v : U64) : State :=
  match j with
  | 0 => s.setPquads p v
  | 1 => s.modPart p fun x => { x with pclose := v.setWidth 16 &&& x.pquads }
  | 2 =>
    if v.getLsbD 0 then s.resetPart p (v.getLsbD 1)
    else s.modPart p fun x => { x with refused := x.state == 2 }
  | _ => s

/-- A write of a checkpoint register. -/
def State.ckWrite (s : State) (j : Nat) (v : U64) : State :=
  match j with
  | 0 => { s with ckpt := { s.ckpt with dst := v } }
  | 1 => { s with ckpt := { s.ckpt with quads := v.setWidth 16 } }
  | 2 => { s with ckpt := { s.ckpt with links := v.setWidth 24 } }
  | 3 => s.ckStart (bitsOf v.toNat 0 2)
  | _ => s

/-- A write of a register of the configuration space; read-only registers and absent ones drop it. -/
def State.cfgWrite (s : State) (fn : Nat) (r : CfgReg) (v : U64) : State :=
  match r with
  | .pwrcap => s.setCap v
  | .qstate q => if v.getLsbD 0 then s.startScrub q else s
  | .part p j => if fn = 0 then s.partWrite p j v else s
  | .ckpt j => s.ckWrite j v
  | .mailbox j =>
    (match j with
     | 0 => s.modBox fn fun m => { m with arg0 := v }
     | 1 => s.modBox fn fun m => { m with arg1 := v }
     | 2 => s.boxStart fn (bitsOf v.toNat 0 8)
     | _ => s)
  | .decoder p i j =>
    if fn ≠ 0 then s
    else s.modPart p fun x =>
      let d := x.decoder i
      { x with decoders := x.decoders.put i (match j with
        | 0 => (maskBits v 28 36, d.2.1, d.2.2)
        | 1 => (d.1, maskBits v 28 36, d.2.2)
        | _ => (d.1, d.2.1, maskBits v 28 24)) }
  | .modid => if s.comms.isEmpty then { s with modid := v.setWidth 8 } else s
  | .route p i => if fn = 0 then s.modPart p fun x => { x with routes := x.routes.set i v } else s
  | .mtu q j => s.mtuWrite q j v
  | .lane n j =>
    let s := s.modLane n fun l => l.write j v
    if j = 3 then s.spreadPrio n else s
  | .dvsize c => s.setDvsize c v
  | .padattr c => s.modCore c fun k => { k with padattr := padattrOf v }
  | .almanac c i => s.almWrite c i v
  | .preempt d p j => s.preWrite d p j v
  | .queue d p n j => s.queueWrite d p n j v
  | _ => s

/-- CONFIG_REGISTER_WRITE (R404). Arguments: function, offset in its BAR0, value. -/
def execConfigRegisterWrite (s : State) : Outcome State Fault Refusal :=
  .next (s.cfgWrite (s.arg 0) (s.cfgReg (s.arg 0) (s.arg 1)) (BitVec.ofNat 64 (s.arg 2)))

/-- MODULE_RESET (R13): every register returns to its Reset value, and the quadrants are free and clean. Host memory is not
the module's. What left the module, and the model's own fields, stay. -/
def execModuleReset (s : State) : Outcome State Fault Refusal :=
  .next { State.reset with
    mem := s.mem.filter fun c => hostBase ≤ c.1
    memBad := s.memBad.filter fun g => hostBase ≤ g
    msix := s.msix
    outbox := s.outbox
    free := s.free
    nextId := s.nextId
    rot := s.rot
    cur := s.cur
    mark := s.mark
    args := s.args
    schedule := s.schedule }

/-! ## The end of an MTU invalidation (R343) -/

/-- The range of intermediate addresses that an MTUINV value names. -/
def invRange (q : Nat) (v : U64) : Nat × Nat :=
  let n := bitsOf v.toNat 0 16
  if n = 0 then (q * 2 ^ 47, (q + 1) * 2 ^ 47)
  else (bitsOf v.toNat 16 36 * 2 ^ 16, bitsOf v.toNat 16 36 * 2 ^ 16 + n * 2 ^ 16)

/-- The bytes of a page: 2 MiB where level 1 decides, otherwise 64 KiB. -/
def State.pageSpan (s : State) (ia : Nat) : Nat × Nat :=
  let lo := s.pageOf ia
  let q := s.quad (ia / 2 ^ 47 % 16)
  let i1 := ia / 2 ^ 21 % 2 ^ 26
  let e1 := s.mtuEntry (ia / 2 ^ 47 % 16) (mtuKey ia false) (q.l1base.toNat * 4096 + 8 * i1)
  (lo, lo + (if i1 ≥ q.l1count || !e1.testBit 0 || e1.testBit 54 then 2 ^ 21 else 2 ^ 16))

/-- Whether two ranges meet. -/
def rangesMeet (a b : Nat × Nat) : Bool := a.1 < b.2 && b.1 < a.2

/-- The entries that an invalidation drops: those whose page meets a range. -/
def Quad.dropCached (q : Quad) (quad : Nat) (rs : List (Nat × Nat)) : Quad :=
  { q with cached := q.cached.filter fun e =>
      let i1 := quad * 2 ^ 47 + e.1 / 64 * 2 ^ 21
      let p := if e.1 % 64 ≥ 32 then (i1, i1 + 2 ^ 21) else (i1 + e.1 % 64 * 2 ^ 16, i1 + (e.1 % 64 + 1) * 2 ^ 16)
      !rs.any (rangesMeet p) }

/-- Segments of an operation wake: a copy with fix-up tries them next from its list, any other takes them up again. -/
def EngOp.wakeSegs (hit : Nat → Bool) (o : EngOp) : EngOp :=
  let up := (o.waiting.filter fun w => hit w.2).map Prod.fst
  let o := { o with waiting := o.waiting.filter fun w => !hit w.2 }
  match o.kind with
  | .copy c => if c.fixup then { o with fixups := up ++ o.fixups } else { o with todo := o.todo ++ up }
  | _ => o

/-- A waiting page, if it is not hit. -/
def keepWait (hit : Nat → Bool) (w : Option Nat) : Option Nat := w.filter fun a => !hit a

/-- What waits on a page in the range wakes. -/
def State.wakePages (s : State) (hit : Nat → Bool) : State :=
  let due := (s.spawns.filter fun x => hit x.2.wait).map Prod.fst
  let disps := (s.grids.filter fun g => (g.2.disp.map fun d => d.wait.any hit).getD false).map Prod.fst
  let s := { s with
    ops := s.ops.mapVal fun _ o => o.wakeSegs hit
    lanes := s.lanes.mapVal fun _ l => { l with wait := keepWait hit l.wait }
    blocks := s.blocks.mapVal fun _ k => { k with groups := k.groups.mapVal fun _ g =>
      { g with fetchIa := keepWait hit g.fetchIa } }
    grids := s.grids.mapVal fun _ g => { g with
      wait := keepWait hit g.wait
      disp := g.disp.map fun d => { d with wait := d.wait.filter fun a => !hit a } }
    comps := s.comps.filter fun c => !hit c.2
    colls := s.colls.mapVal fun _ k => { k with wait := keepWait hit k.wait }
    mailbox := s.mailbox.mapVal fun _ m => { m with wait := keepWait hit m.wait }
    chans := s.chans.mapVal fun _ c => { c with wait := keepWait hit c.wait } }
  let s := due.foldl State.spawnAgain (disps.foldl State.dispFlush s)
  let back := s.hostWaits.filter fun w =>
    (pageParts w.2.ia w.2.len).any fun x => hit x.1
  back.foldl (fun s w => { s with hostWaits := s.hostWaits.del w.1 }.agent w.2) s

/-- A group parked on its write of MTUINV wakes. -/
def Group.invWake (q : Nat) (g : Group) : Group := if g.park = .mtuinv q then g.wake else g

/-- MTU_INVALIDATION_DONE (R343): what has been translated is performed, busy clears, the MTU holds no entry of the range any more, the writing groups wake, and so
does everything that waits on a page in the range. Argument: quadrant. -/
def execMtuInvalidationDone (s : State) : Outcome State Fault Refusal :=
  let q := s.arg 0
  .next (if !(s.quad q).busy then s
    else
      let rs := (s.quad q).inv.map (invRange q)
      let s := s.landEverything.modQuad q fun x => { x with busy := false, inv := [] }.dropCached q rs
      let s := { s with blocks := s.blocks.mapVal fun _ k => { k with groups := k.groups.mapVal fun _ g => g.invWake q } }
      s.wakePages fun a => rs.any (rangesMeet (s.pageSpan a)))

end Sys2Proof.Machine
end

