-- ==== Sys2Proof/Machine/Prefix.lean ====
section
/-! DEFINITION. The prefixes (R27 to R31, R190, R202): each adds its word and its field to the bundle in progress. The
word that breaks R27 or R28 is kept with its position; the bundle's instruction word, or a word that cannot be
fetched, then raises its ILLEGAL (R26). -/

namespace Sys2Proof.Machine

open Host (Outcome)

/-- The bundle with one more prefix word of a rank; `ok` tells whether R27 accepts its payload. -/
def Bundle.push (b : Bundle) (w : Word) (rank : Nat) (ok : Bool) : Bundle :=
  { b with
    words := b.words ++ [w]
    rank := max b.rank rank
    bad := if b.bad.isSome then b.bad
      else if !ok || rank ≤ b.rank then some (b.words.length, w) else none }

/-- A prefix word issues: it takes a slot, the bundle grows, and the quarter is held for the rest of it (R202). -/
def Group.prefixed (g : Group) (b : Bundle) (checked : Bool) (cycle : U64) : Group :=
  { g with
    slotNo := g.slotNo + 1
    pc := g.pc + 4
    bundle := b
    stood := 0
    nextAt := if checked then cycle + 2 else g.nextAt }

/-- The issue of a prefix word. -/
def issuePrefixWord (upd : Bundle → Bundle) (s : State) (kb : Block) (g : Group) (blk gid : Nat) : State :=
  if g.nextAt.toNat > s.cycle.toNat then s
  else
    (s.modGroup blk gid fun r => r.prefixed (upd g.bundle) (s.hdr kb).checked s.cycle).issuedBy g.core g.quarter g.slot
      true

/-- The meaning of a prefix: its word, its rank in the order of R28, and the field it supplies. -/
def issuePrefix (i : Instr) (rank : Nat) (set : Bundle → Bundle) (s : State) : Outcome State Fault Refusal :=
  match s.cur, s.curGroup with
  | some (blk, gid), some (kb, g) =>
    .next (issuePrefixWord (fun b => set (b.push ((encode ⟨false, i⟩).getD 0) rank i.wellFormed)) s kb g blk gid)
  | _, _ => .fault .noGroup

/-- PFX.IMM (R30). -/
def execPfxImm (i : BitVec 24) (s : State) : Outcome State Fault Refusal :=
  issuePrefix (.pfxImm i) 2 (fun b => { b with imm := some i }) s

/-- PFX.IMX (R30). -/
def execPfxImx (i : BitVec 24) (s : State) : Outcome State Fault Refusal :=
  issuePrefix (.pfxImx i) 1 (fun b => { b with imx := some i }) s

/-- PFX.MOD (R31). A second one breaks R28, and the first keeps its say on what it holds (R26). -/
def execPfxMod (b : BitVec 3) (n : BitVec 3) (x : BitVec 2) (m : BitVec 4) (t : BitVec 5) (c : BitVec 1) (a : BitVec 1)
    (o : BitVec 2) (p : BitVec 3) (s : State) : Outcome State Fault Refusal :=
  issuePrefix (.pfxMod b n x m t c a o p) 3
    (fun k => { k with mod := some (k.mod.getD ⟨b, n, x, m, t, c == 1, a == 1, o, p⟩) }) s

/-- PFX.PATCH (R30). -/
def execPfxPatch (k : BitVec 24) (s : State) : Outcome State Fault Refusal :=
  issuePrefix (.pfxPatch k) 2 (fun b => { b with patch := some k }) s

/-- PFX.SCHED (R202, R204): the priority class, and the solo bit that keeps the bundle's instruction out of gangs. -/
def execPfxSched (l : BitVec 1) (p : BitVec 2) (s : State) : Outcome State Fault Refusal :=
  issuePrefix (.pfxSched l p) 4 (fun b => { b with sched := some (l == 1, p) }) s

/-- PFX.SPLIT (R190). -/
def execPfxSplit (n : BitVec 7) (s : State) : Outcome State Fault Refusal :=
  issuePrefix (.pfxSplit n) 5 (fun b => { b with split := some n }) s

/-- A group's trap at a word that issues nothing. -/
def trapHere (cause : BitVec 8) (info : U64) (s : State) : State :=
  match s.cur with
  | some (b, g) => s.trap b g cause info
  | none => s

/-- The instruction whose entry a word that no row matches comes under, by its major and, for EXT, its xop: the same
word with the low fields that may be unallocated cleared. -/
def nearest (w : Word) : Option Instr :=
  ([0xFFFFFF00, 0xFFFF0000, 0xFF000000] : List Word).findSome? fun m =>
    if bits w 24 7 == 0x7F && m == 0xFF000000 then none
    else match decodeWord (w &&& m) with
      | .ok d => if d.instr.isPrefix then none else some d.instr
      | .error _ => none

/-- A word that no row of the table matches (R22 to R25). With a prefix's major it is a prefix that R27 refuses, or
one with bit 31 set (R28); the bundle goes on to its instruction and raises ILLEGAL there. Any other word is the
bundle's instruction and is malformed; a prefix that its entry cannot use is malformed before it (R26). Argument: the
word. -/
def execIllegalEncoding (s : State) : Outcome State Fault Refusal :=
  match s.cur, s.curGroup with
  | some (blk, gid), some (kb, g) =>
    let w : Word := BitVec.ofNat 32 (s.arg 0)
    let major := bits w 24 7
    if 1 ≤ major && major ≤ 6 then
      .next (issuePrefixWord (fun b => b.push w 6 false) s kb g blk gid)
    else if g.nextAt.toNat > s.cycle.toNat then .next s
    else
      let ty := typeInForce g.bundle g.mode
      let sh := ((nearest w).map fun i => shapeOf i ty).getD {}
      let bad := match earliest (g.bundle.bad.toList ++ g.bundle.orphan.toList ++ unusable g.bundle sh ty) with
        | some b => b.2
        | none => w
      .next (trapHere cILLEGAL (bad.setWidth 64) s)
  | _, _ => .fault .noGroup

/-- A word that cannot be fetched (R83), unless an earlier word of its bundle is malformed (R26); a word after a
malformed one raises nothing and waits for nothing. Whether a PFX.IMX counts as malformed (R28) where the bundle cannot be
fetched to a PFX.IMM or PFX.PATCH after it, R26 does not say: the fetch's fault is raised (DESIGN CHOICE, log entry 42).
Arguments: the cause, the word's virtual address and, where the denial sends a record (R330), its intermediate address; for the
far end's denial (R420), also the record's kind. -/
def execFetchFault (s : State) : Outcome State Fault Refusal :=
  match s.cur, s.curGroup with
  | some _, some (kb, g) =>
    if g.nextAt.toNat > s.cycle.toNat then .next s
    else match g.bundle.bad with
      | some b => .next (trapHere cILLEGAL (b.2.setWidth 64) s)
      | none =>
        let r : Option (Nat × Nat × Nat) := match s.args with
          | [_, va, ia] => some (va, ia, 5)
          | [_, va, ia, kind] => some (va, ia, kind)
          | _ => none
        let s := Note.apply { records := r.toList, src := fetchSource r } kb g s
        .next (trapHere (BitVec.ofNat 8 (s.arg 0)) (BitVec.ofNat 64 (s.arg 1)) s)
  | _, _ => .fault .noGroup

end Sys2Proof.Machine
end

