-- ==== Sys2Proof/Machine/Dispatch.lean ====
section
/-! DEFINITION. The dispatch: one arm for each constructor of `Instr`. -/

namespace Sys2Proof.Machine

open Host (Outcome)

def exec (i : Instr) (s : State) : Host.Outcome State Fault Refusal :=
  match i with
  | .pfxImm v => Sys2Proof.Machine.execPfxImm v s
  | .pfxImx imm => Sys2Proof.Machine.execPfxImx imm s
  | .pfxMod b n x m t c a o p => Sys2Proof.Machine.execPfxMod b n x m t c a o p s
  | .pfxPatch k => Sys2Proof.Machine.execPfxPatch k s
  | .pfxSched l p => Sys2Proof.Machine.execPfxSched l p s
  | .pfxSplit n => Sys2Proof.Machine.execPfxSplit n s
  | .bra o => Sys2Proof.Machine.execBra o s
  | .brs a o => Sys2Proof.Machine.execBrs a o s
  | .brm p c o => Sys2Proof.Machine.execBrm p c o s
  | .call d o => Sys2Proof.Machine.execCall d o s
  | .jmpi a => Sys2Proof.Machine.execJmpi a s
  | .ret a => Sys2Proof.Machine.execRet a s
  | .yieldNow o => Sys2Proof.Machine.execYieldNow o s
  | .yieldReg a o => Sys2Proof.Machine.execYieldReg a o s
  | .yieldOc c n o => Sys2Proof.Machine.execYieldOc c n o s
  | .yieldSleep k o => Sys2Proof.Machine.execYieldSleep k o s
  | .trap c => Sys2Proof.Machine.execTrap c s
  | .bkpt c => Sys2Proof.Machine.execBkpt c s
  | .icinv a b => Sys2Proof.Machine.execIcinv a b s
  | .sadd d a b => Sys2Proof.Machine.execSadd d a b s
  | .ssub d a b => Sys2Proof.Machine.execSsub d a b s
  | .smul d a b => Sys2Proof.Machine.execSmul d a b s
  | .smulh d a b => Sys2Proof.Machine.execSmulh d a b s
  | .smulhn d a b => Sys2Proof.Machine.execSmulhn d a b s
  | .sdiv d a b => Sys2Proof.Machine.execSdiv d a b s
  | .sdivn d a b => Sys2Proof.Machine.execSdivn d a b s
  | .srem d a b => Sys2Proof.Machine.execSrem d a b s
  | .sremn d a b => Sys2Proof.Machine.execSremn d a b s
  | .sand d a b => Sys2Proof.Machine.execSand d a b s
  | .sor d a b => Sys2Proof.Machine.execSor d a b s
  | .sxor d a b => Sys2Proof.Machine.execSxor d a b s
  | .sshl d a b => Sys2Proof.Machine.execSshl d a b s
  | .sshr d a b => Sys2Proof.Machine.execSshr d a b s
  | .ssar d a b => Sys2Proof.Machine.execSsar d a b s
  | .ssel d a b => Sys2Proof.Machine.execSsel d a b s
  | .smin d a b => Sys2Proof.Machine.execSmin d a b s
  | .smax d a b => Sys2Proof.Machine.execSmax d a b s
  | .sminn d a b => Sys2Proof.Machine.execSminn d a b s
  | .smaxn d a b => Sys2Proof.Machine.execSmaxn d a b s
  | .saddi d a imm => Sys2Proof.Machine.execSaddi d a imm s
  | .sli d imm => Sys2Proof.Machine.execSli d imm s
  | .slih d imm => Sys2Proof.Machine.execSlih d imm s
  | .scmp d a f => Sys2Proof.Machine.execScmp d a f s
  | .scmpn d a f => Sys2Proof.Machine.execScmpn d a f s
  | .sunPopc d a => Sys2Proof.Machine.execSunPopc d a s
  | .sunClz d a => Sys2Proof.Machine.execSunClz d a s
  | .sunCtz d a => Sys2Proof.Machine.execSunCtz d a s
  | .sunBrev d a => Sys2Proof.Machine.execSunBrev d a s
  | .sunBswap d a => Sys2Proof.Machine.execSunBswap d a s
  | .sunNot d a => Sys2Proof.Machine.execSunNot d a s
  | .sunNeg d a => Sys2Proof.Machine.execSunNeg d a s
  | .sunAbs d a => Sys2Proof.Machine.execSunAbs d a s
  | .satom d a p r w o => Sys2Proof.Machine.execSatom d a p r w o s
  | .srd d imm => Sys2Proof.Machine.execSrd d imm s
  | .swr d imm => Sys2Proof.Machine.execSwr d imm s
  | .sld d a x p z => Sys2Proof.Machine.execSld d a x p z s
  | .sst d a p z => Sys2Proof.Machine.execSst d a p z s
  | .sfpAdd d a t => Sys2Proof.Machine.execSfpAdd d a t s
  | .sfpSub d a t => Sys2Proof.Machine.execSfpSub d a t s
  | .sfpMul d a t => Sys2Proof.Machine.execSfpMul d a t s
  | .sfpDiv d a t => Sys2Proof.Machine.execSfpDiv d a t s
  | .sfpSqrt d a t => Sys2Proof.Machine.execSfpSqrt d a t s
  | .sfpMin d a t => Sys2Proof.Machine.execSfpMin d a t s
  | .sfpMax d a t => Sys2Proof.Machine.execSfpMax d a t s
  | .sfpEq d a t => Sys2Proof.Machine.execSfpEq d a t s
  | .sfpLt d a t => Sys2Proof.Machine.execSfpLt d a t s
  | .sfpLe d a t => Sys2Proof.Machine.execSfpLe d a t s
  | .sfpCvti d a t => Sys2Proof.Machine.execSfpCvti d a t s
  | .sfpCvtf d a t => Sys2Proof.Machine.execSfpCvtf d a t s
  | .pset d a => Sys2Proof.Machine.execPset d a s
  | .psetLive d a => Sys2Proof.Machine.execPsetLive d a s
  | .pget d a => Sys2Proof.Machine.execPget d a s
  | .plog d a b o => Sys2Proof.Machine.execPlog d a b o s
  | .pfirst d a => Sys2Proof.Machine.execPfirst d a s
  | .plast d a => Sys2Proof.Machine.execPlast d a s
  | .pcnt d a => Sys2Proof.Machine.execPcnt d a s
  | .mode d a f => Sys2Proof.Machine.execMode d a f s
  | .vlane d => Sys2Proof.Machine.execVlane d s
  | .vlaneBlk d => Sys2Proof.Machine.execVlaneBlk d s
  | .vlaneQuad d => Sys2Proof.Machine.execVlaneQuad d s
  | .vmovs d a => Sys2Proof.Machine.execVmovs d a s
  | .vmovsLane d a l => Sys2Proof.Machine.execVmovsLane d a l s
  | .vmov d a => Sys2Proof.Machine.execVmov d a s
  | .smovv d a l => Sys2Proof.Machine.execSmovv d a l s
  | .vseti d imm => Sys2Proof.Machine.execVseti d imm s
  | .xset d a => Sys2Proof.Machine.execXset d a s
  | .xadd d a => Sys2Proof.Machine.execXadd d a s
  | .xget d a => Sys2Proof.Machine.execXget d a s
  | .ld d a x p z => Sys2Proof.Machine.execLd d a x p z s
  | .st d a p z => Sys2Proof.Machine.execSt d a p z s
  | .atom d a p r w o => Sys2Proof.Machine.execAtom d a p r w o s
  | .vadd d a b => Sys2Proof.Machine.execVadd d a b s
  | .vsub d a b => Sys2Proof.Machine.execVsub d a b s
  | .vadds d a b => Sys2Proof.Machine.execVadds d a b s
  | .vsubs d a b => Sys2Proof.Machine.execVsubs d a b s
  | .vmul d a b => Sys2Proof.Machine.execVmul d a b s
  | .vmulh d a b => Sys2Proof.Machine.execVmulh d a b s
  | .vmad d a b => Sys2Proof.Machine.execVmad d a b s
  | .vand d a b => Sys2Proof.Machine.execVand d a b s
  | .vor d a b => Sys2Proof.Machine.execVor d a b s
  | .vxor d a b => Sys2Proof.Machine.execVxor d a b s
  | .vshl d a b => Sys2Proof.Machine.execVshl d a b s
  | .vshr d a b => Sys2Proof.Machine.execVshr d a b s
  | .vsar d a b => Sys2Proof.Machine.execVsar d a b s
  | .vmin d a b => Sys2Proof.Machine.execVmin d a b s
  | .vmax d a b => Sys2Proof.Machine.execVmax d a b s
  | .vabsd d a b => Sys2Proof.Machine.execVabsd d a b s
  | .vbitPopc d a => Sys2Proof.Machine.execVbitPopc d a s
  | .vbitClz d a => Sys2Proof.Machine.execVbitClz d a s
  | .vbitCtz d a => Sys2Proof.Machine.execVbitCtz d a s
  | .vbitBrev d a => Sys2Proof.Machine.execVbitBrev d a s
  | .vbitNot d a => Sys2Proof.Machine.execVbitNot d a s
  | .vbitNeg d a => Sys2Proof.Machine.execVbitNeg d a s
  | .vbitAbs d a => Sys2Proof.Machine.execVbitAbs d a s
  | .vaddi d a imm => Sys2Proof.Machine.execVaddi d a imm s
  | .vshli d a imm => Sys2Proof.Machine.execVshli d a imm s
  | .vshri d a imm => Sys2Proof.Machine.execVshri d a imm s
  | .vsari d a imm => Sys2Proof.Machine.execVsari d a imm s
  | .vcmpp p c a b => Sys2Proof.Machine.execVcmpp p c a b s
  | .vmuli d a imm => Sys2Proof.Machine.execVmuli d a imm s
  | .vltm d a b => Sys2Proof.Machine.execVltm d a b s
  | .vsel d a b => Sys2Proof.Machine.execVsel d a b s
  | .vdot d a b => Sys2Proof.Machine.execVdot d a b s
  | .vdots d a b => Sys2Proof.Machine.execVdots d a b s
  | .vswzXor d a k => Sys2Proof.Machine.execVswzXor d a k s
  | .vswzBcst d a k => Sys2Proof.Machine.execVswzBcst d a k s
  | .vswzRot d a k => Sys2Proof.Machine.execVswzRot d a k s
  | .vswzRev d a => Sys2Proof.Machine.execVswzRev d a s
  | .vpack d a b => Sys2Proof.Machine.execVpack d a b s
  | .vunpkLo d a => Sys2Proof.Machine.execVunpkLo d a s
  | .vunpkHi d a => Sys2Proof.Machine.execVunpkHi d a s
  | .ldk d k => Sys2Proof.Machine.execLdk d k s
  | .stk d k => Sys2Proof.Machine.execStk d k s
  | .vfadd d a b => Sys2Proof.Machine.execVfadd d a b s
  | .vfsub d a b => Sys2Proof.Machine.execVfsub d a b s
  | .vfmul d a b => Sys2Proof.Machine.execVfmul d a b s
  | .vfma d a b => Sys2Proof.Machine.execVfma d a b s
  | .vfms d a b => Sys2Proof.Machine.execVfms d a b s
  | .vfnma d a b => Sys2Proof.Machine.execVfnma d a b s
  | .vfmin d a b => Sys2Proof.Machine.execVfmin d a b s
  | .vfmax d a b => Sys2Proof.Machine.execVfmax d a b s
  | .vfminm d a b => Sys2Proof.Machine.execVfminm d a b s
  | .vfmaxm d a b => Sys2Proof.Machine.execVfmaxm d a b s
  | .veqm d a b => Sys2Proof.Machine.execVeqm d a b s
  | .vfunNeg d a => Sys2Proof.Machine.execVfunNeg d a s
  | .vfunAbs d a => Sys2Proof.Machine.execVfunAbs d a s
  | .vfunRint d a => Sys2Proof.Machine.execVfunRint d a s
  | .vfunFloor d a => Sys2Proof.Machine.execVfunFloor d a s
  | .vfunCeil d a => Sys2Proof.Machine.execVfunCeil d a s
  | .vfunTrunc d a => Sys2Proof.Machine.execVfunTrunc d a s
  | .vfunFract d a => Sys2Proof.Machine.execVfunFract d a s
  | .vfunRelu d a => Sys2Proof.Machine.execVfunRelu d a s
  | .vfunSign d a => Sys2Proof.Machine.execVfunSign d a s
  | .vfspecRcp d a => Sys2Proof.Machine.execVfspecRcp d a s
  | .vfspecRsqrt d a => Sys2Proof.Machine.execVfspecRsqrt d a s
  | .vfspecSqrt d a => Sys2Proof.Machine.execVfspecSqrt d a s
  | .vfspecExp2 d a => Sys2Proof.Machine.execVfspecExp2 d a s
  | .vfspecLog2 d a => Sys2Proof.Machine.execVfspecLog2 d a s
  | .vfspecSinpi d a => Sys2Proof.Machine.execVfspecSinpi d a s
  | .vfspecCospi d a => Sys2Proof.Machine.execVfspecCospi d a s
  | .vfspecTanh d a => Sys2Proof.Machine.execVfspecTanh d a s
  | .vfspecSilu d a => Sys2Proof.Machine.execVfspecSilu d a s
  | .vfspecErf d a => Sys2Proof.Machine.execVfspecErf d a s
  | .vfdiv d a b => Sys2Proof.Machine.execVfdiv d a b s
  | .vfscl d a b => Sys2Proof.Machine.execVfscl d a b s
  | .vfkeyMax d a => Sys2Proof.Machine.execVfkeyMax d a s
  | .vfkeyMin d a => Sys2Proof.Machine.execVfkeyMin d a s
  | .vfkeyInv d a => Sys2Proof.Machine.execVfkeyInv d a s
  | .vcvt d a r t => Sys2Proof.Machine.execVcvt d a r t s
  | .vcvta d a r t => Sys2Proof.Machine.execVcvta d a r t s
  | .vf6Split d a => Sys2Proof.Machine.execVf6Split d a s
  | .vf6Join d a => Sys2Proof.Machine.execVf6Join d a s
  | .vshfl d a b => Sys2Proof.Machine.execVshfl d a b s
  | .vbcst d a k => Sys2Proof.Machine.execVbcst d a k s
  | .vbcstFirst d a => Sys2Proof.Machine.execVbcstFirst d a s
  | .vredAdd d a => Sys2Proof.Machine.execVredAdd d a s
  | .vredAdds d a => Sys2Proof.Machine.execVredAdds d a s
  | .vredAddw d a => Sys2Proof.Machine.execVredAddw d a s
  | .vredMin d a => Sys2Proof.Machine.execVredMin d a s
  | .vredMax d a => Sys2Proof.Machine.execVredMax d a s
  | .vredAnd d a => Sys2Proof.Machine.execVredAnd d a s
  | .vredOr d a => Sys2Proof.Machine.execVredOr d a s
  | .vredXor d a => Sys2Proof.Machine.execVredXor d a s
  | .vredFadd d a => Sys2Proof.Machine.execVredFadd d a s
  | .vredFmin d a => Sys2Proof.Machine.execVredFmin d a s
  | .vredFmax d a => Sys2Proof.Machine.execVredFmax d a s
  | .vrediMin d a => Sys2Proof.Machine.execVrediMin d a s
  | .vrediMax d a => Sys2Proof.Machine.execVrediMax d a s
  | .vscan d a e o => Sys2Proof.Machine.execVscan d a e o s
  | .vqxSwap d a n => Sys2Proof.Machine.execVqxSwap d a n s
  | .vqxBcst d a n => Sys2Proof.Machine.execVqxBcst d a n s
  | .vqxAdd d a => Sys2Proof.Machine.execVqxAdd d a s
  | .vqxMin d a => Sys2Proof.Machine.execVqxMin d a s
  | .vqxMax d a => Sys2Proof.Machine.execVqxMax d a s
  | .vvoteAny d a => Sys2Proof.Machine.execVvoteAny d a s
  | .vvoteAll d a => Sys2Proof.Machine.execVvoteAll d a s
  | .vvoteBallot d a => Sys2Proof.Machine.execVvoteBallot d a s
  | .vvoteUniform d a => Sys2Proof.Machine.execVvoteUniform d a s
  | .vvotem d a p o => Sys2Proof.Machine.execVvotem d a p o s
  | .vrot d a imm => Sys2Proof.Machine.execVrot d a imm s
  | .mxmma t n imm h y => Sys2Proof.Machine.execMxmma t n imm h y s
  | .mxrd d t c => Sys2Proof.Machine.execMxrd d t c s
  | .mxwr a t c => Sys2Proof.Machine.execMxwr a t c s
  | .barinit a b => Sys2Proof.Machine.execBarinit a b s
  | .bararr a b => Sys2Proof.Machine.execBararr a b s
  | .barwait a b => Sys2Proof.Machine.execBarwait a b s
  | .bartry a b => Sys2Proof.Machine.execBartry a b s
  | .waitc c n => Sys2Proof.Machine.execWaitc c n s
  | .slotret a b => Sys2Proof.Machine.execSlotret a b s
  | .cpt a b => Sys2Proof.Machine.execCpt a b s
  | .cpg a b => Sys2Proof.Machine.execCpg a b s
  | .cps a b => Sys2Proof.Machine.execCps a b s
  | .cpm a b => Sys2Proof.Machine.execCpm a b s
  | .cpred a b => Sys2Proof.Machine.execCpred a b s
  | .mxacq a => Sys2Proof.Machine.execMxacq a s
  | .mxfmt a => Sys2Proof.Machine.execMxfmt a s
  | .mxldw a n => Sys2Proof.Machine.execMxldw a n s
  | .mxldws a n => Sys2Proof.Machine.execMxldws a n s
  | .mxzero a => Sys2Proof.Machine.execMxzero a s
  | .mxst a => Sys2Proof.Machine.execMxst a s
  | .spknot a => Sys2Proof.Machine.execSpknot a s
  | .spaff a => Sys2Proof.Machine.execSpaff a s
  | .spldc a => Sys2Proof.Machine.execSpldc a s
  | .speval imm p t => Sys2Proof.Machine.execSpeval imm p t s
  | .spgrad a => Sys2Proof.Machine.execSpgrad a s
  | .spdx a => Sys2Proof.Machine.execSpdx a s
  | .spstc a => Sys2Proof.Machine.execSpstc a s
  | .spcnt d a => Sys2Proof.Machine.execSpcnt d a s
  | .tnext d => Sys2Proof.Machine.execTnext d s
  | .tdone a b => Sys2Proof.Machine.execTdone a b s
  | .trel a b => Sys2Proof.Machine.execTrel a b s
  | .tstat d => Sys2Proof.Machine.execTstat d s
  | .schr d g imm => Sys2Proof.Machine.execSchr d g imm s
  | .schw a imm => Sys2Proof.Machine.execSchw a imm s
  | .schcom d => Sys2Proof.Machine.execSchcom d s
  | .covr d a => Sys2Proof.Machine.execCovr d a s
  | .spawn d a => Sys2Proof.Machine.execSpawn d a s
  | .coll a b => Sys2Proof.Machine.execColl a b s
  | .arqpop d a => Sys2Proof.Machine.execArqpop d a s
  | .rld d b => Sys2Proof.Machine.execRld d b s
  | .rst d b => Sys2Proof.Machine.execRst d b s
  | .rred d b => Sys2Proof.Machine.execRred d b s
  | .steppop d a => Sys2Proof.Machine.execSteppop d a s
  | .stepdone a b => Sys2Proof.Machine.execStepdone a b s
  | .nop => Sys2Proof.Machine.execNop s
  | .exit => Sys2Proof.Machine.execExit s
  | .trapRetRetry => Sys2Proof.Machine.execTrapRetRetry s
  | .trapRetNext => Sys2Proof.Machine.execTrapRetNext s
  | .trapRetAbort => Sys2Proof.Machine.execTrapRetAbort s
  | .fence => Sys2Proof.Machine.execFence s
  | .ifence => Sys2Proof.Machine.execIfence s
  | .bsync => Sys2Proof.Machine.execBsync s
  | .csync => Sys2Proof.Machine.execCsync s
  | .cpcan => Sys2Proof.Machine.execCpcan s
  | .mxrel => Sys2Proof.Machine.execMxrel s
  | .spref => Sys2Proof.Machine.execSpref s
  | .lowClassPromotion => Sys2Proof.Machine.execLowClassPromotion s
  | .switchParkWake => Sys2Proof.Machine.execSwitchParkWake s
  | .yieldWake => Sys2Proof.Machine.execYieldWake s
  | .waitcWake => Sys2Proof.Machine.execWaitcWake s
  | .barwaitWake => Sys2Proof.Machine.execBarwaitWake s
  | .icinvAcknowledged => Sys2Proof.Machine.execIcinvAcknowledged s
  | .splitMissPass => Sys2Proof.Machine.execSplitMissPass s
  | .groupExitComplete => Sys2Proof.Machine.execGroupExitComplete s
  | .copySegment => Sys2Proof.Machine.execCopySegment s
  | .engineSignal => Sys2Proof.Machine.execEngineSignal s
  | .laneCopyVerdict => Sys2Proof.Machine.execLaneCopyVerdict s
  | .abacusOperation => Sys2Proof.Machine.execAbacusOperation s
  | .rateIdleIntervalEnd => Sys2Proof.Machine.execRateIdleIntervalEnd s
  | .faultRecord => Sys2Proof.Machine.execFaultRecord s
  | .mtuinv => Sys2Proof.Machine.execMtuinv s
  | .mtuInvalidationDone => Sys2Proof.Machine.execMtuInvalidationDone s
  | .rplrel => Sys2Proof.Machine.execRplrel s
  | .wctl => Sys2Proof.Machine.execWctl s
  | .almctlCommit => Sys2Proof.Machine.execAlmctlCommit s
  | .almctlLock => Sys2Proof.Machine.execAlmctlLock s
  | .almdata => Sys2Proof.Machine.execAlmdata s
  | .preemptRequest => Sys2Proof.Machine.execPreemptRequest s
  | .resumeRequest => Sys2Proof.Machine.execResumeRequest s
  | .abortRequest => Sys2Proof.Machine.execAbortRequest s
  | .preemptRequestDone => Sys2Proof.Machine.execPreemptRequestDone s
  | .blockPlacement => Sys2Proof.Machine.execBlockPlacement s
  | .gridReserving => Sys2Proof.Machine.execGridReserving s
  | .completionWrite => Sys2Proof.Machine.execCompletionWrite s
  | .nopkt => Sys2Proof.Machine.execNopkt s
  | .dispatch => Sys2Proof.Machine.execDispatch s
  | .cmaint => Sys2Proof.Machine.execCmaint s
  | .waitv => Sys2Proof.Machine.execWaitv s
  | .waitvPoll => Sys2Proof.Machine.execWaitvPoll s
  | .signal => Sys2Proof.Machine.execSignal s
  | .prio => Sys2Proof.Machine.execPrio s
  | .commCreate => Sys2Proof.Machine.execCommCreate s
  | .commDestroy => Sys2Proof.Machine.execCommDestroy s
  | .commReset => Sys2Proof.Machine.execCommReset s
  | .cqctlStop => Sys2Proof.Machine.execCqctlStop s
  | .cqctlRun => Sys2Proof.Machine.execCqctlRun s
  | .pquads => Sys2Proof.Machine.execPquads s
  | .partitionReset => Sys2Proof.Machine.execPartitionReset s
  | .partitionResetScrub => Sys2Proof.Machine.execPartitionResetScrub s
  | .quadrantScrub => Sys2Proof.Machine.execQuadrantScrub s
  | .scrubDone => Sys2Proof.Machine.execScrubDone s
  | .mailboxReport => Sys2Proof.Machine.execMailboxReport s
  | .mailboxTranslate => Sys2Proof.Machine.execMailboxTranslate s
  | .mailboxDone => Sys2Proof.Machine.execMailboxDone s
  | .checkpointFull => Sys2Proof.Machine.execCheckpointFull s
  | .checkpointDirty => Sys2Proof.Machine.execCheckpointDirty s
  | .checkpointDone => Sys2Proof.Machine.execCheckpointDone s
  | .pwrcap => Sys2Proof.Machine.execPwrcap s
  | .clockStep => Sys2Proof.Machine.execClockStep s
  | .configRegisterWrite => Sys2Proof.Machine.execConfigRegisterWrite s
  | .moduleReset => Sys2Proof.Machine.execModuleReset s
  | .hostMemRead => Sys2Proof.Machine.execHostMemRead s
  | .hostMemWrite => Sys2Proof.Machine.execHostMemWrite s
  | .linkTrained => Sys2Proof.Machine.execLinkTrained s
  | .linkDown => Sys2Proof.Machine.execLinkDown s
  | .peerAccessIn => Sys2Proof.Machine.execPeerAccessIn s
  | .commMemberMessage => Sys2Proof.Machine.execCommMemberMessage s
  | .commCreateTimeout => Sys2Proof.Machine.execCommCreateTimeout s
  | .collectiveStart => Sys2Proof.Machine.execCollectiveStart s
  | .reductionUnitWrite => Sys2Proof.Machine.execReductionUnitWrite s
  | .harvestPush => Sys2Proof.Machine.execHarvestPush s
  | .collectiveComplete => Sys2Proof.Machine.execCollectiveComplete s
  | .memberLostTimeout => Sys2Proof.Machine.execMemberLostTimeout s
  | .coreFault => Sys2Proof.Machine.execCoreFault s
  | .clusterFault => Sys2Proof.Machine.execClusterFault s
  | .patrolScrub => Sys2Proof.Machine.execPatrolScrub s
  | .fixedLatencyResultWrite => Sys2Proof.Machine.execFixedLatencyResultWrite s
  | .memoryResponse => Sys2Proof.Machine.execMemoryResponse s
  | .illegalEncoding => Sys2Proof.Machine.execIllegalEncoding s
  | .fetchFault => Sys2Proof.Machine.execFetchFault s
  | .migWaitTimeout => Sys2Proof.Machine.execMigWaitTimeout s
  | .collectiveExchange => Sys2Proof.Machine.execCollectiveExchange s
  | .partitionResetDone => Sys2Proof.Machine.execPartitionResetDone s
  | .hostPortTraining => Sys2Proof.Machine.execHostPortTraining s

end Sys2Proof.Machine
end

