-- ==== Sys2Proof/Machine/Schedule.lean ====
section
/-! DEFINITION. Whose move is next (R201, R202; log entry 1): a quarter's choice of a group, the fetch of its next word, the
turns of a schedule, and the order in which moves come where no schedule stands. -/

namespace Sys2Proof.Machine

open Host (Outcome)

/-! ## Issue (R83, R201, R202) -/

/-- Whether a word orders the group's earlier accesses before something that follows it: a release or an SC operation (R94, R313 to
R318), a synchronisation, the issue of an engine operation but for a CPG, which keeps the order itself (R323), a launch, a step of
the dispenser that releases (R388), the invalidation of cached words, and the group's end. -/
def Instr.orders (i : Instr) (m : Mod) : Bool :=
  match i with
  | .fence => m.order != 1
  | .ld .. | .st .. | .atom .. | .sld .. | .sst .. | .satom .. => m.order.getLsbD 1
  | .barinit .. | .bararr .. | .barwait .. | .bartry .. | .bsync | .csync | .slotret .. | .spawn .. | .exit | .icinv .. => true
  | .tdone .. | .trel .. | .schcom .. => true
  | .cpg .. => false
  | i => (shapeOf i 0).cls.isSome

/-- The bytes that a group's own access would touch: how many at each place, and the places. -/
def State.reaches (s : State) (blk gid : Nat) (k : Block) (g : Group) (i : Instr) : Nat × List Spot :=
  let c := wordContext i s k g g blk gid
  let at_ (p n a : Nat) : List Spot := (s.checkAcc c.k c.h p n a false false).toOption.toList
  match i with
  | .ld _ _ _ p z | .st _ _ p z => (2 ^ z.toNat, c.lanes.flatMap fun l => at_ p.toNat (2 ^ z.toNat) (c.laneAddr l))
  | .atom _ _ p _ w _ => (4 + 4 * w.toNat, c.lanes.flatMap fun l => at_ p.toNat (4 + 4 * w.toNat) (c.laneAddr l))
  | .sld _ _ _ p z | .sst _ _ p z => (2 ^ z.toNat, at_ p.toNat (2 ^ z.toNat) c.scalarAddr)
  | .satom _ _ p _ w _ => (4 + 4 * w.toNat, at_ p.toNat (4 + 4 * w.toNat) c.scalarAddr)
  | _ => (0, [])

/-- The accesses of a hit pass that are not performed yet and that must come before a word of their group (R194): all of them
before a word after the region; before a word of the handler inside the region, which adds no order of its own (R325), those up
to the last that touches a byte that the word accesses, and all before a word that orders them; none before a word of a pass. -/
def State.landFor (s : State) (blk gid : Nat) (k : Block) (g : Group) (i : Instr) : State :=
  if g.posted.isEmpty then s
  else if g.split.isNone then s.landAll blk gid
  else if !g.handler then s
  else if Instr.orders i g.bundle.mods then s.landAll blk gid
  else
    let r := s.reaches blk gid k g i
    if g.posted.any fun a => a.touches r.1 r.2 then
      ({ s with free := (readOperands i s g).free }.landThrough blk gid fun a => a.touches r.1 r.2).modGroup blk gid fun q =>
        { q with held := some (g.held.getD s.free) }
    else s

/-- The next word of a group is fetched and runs; a word that cannot be fetched raises its fault or stalls the group. -/
def State.runGroup (s : State) (blk gid : Nat) : Outcome State Fault Refusal :=
  match s.resident blk gid, s.block blk with
  | some g, some k =>
    let s := { s with cur := some (blk, gid), mark := false, args := [] }
    let got := s.fetchWord k g g.pc.toNat true
    let s := s.hearWords k g
    (match got with
     | .word w =>
       (match decodeWord w with
        | .ok d => exec d.instr { s.landFor blk gid k g d.instr with mark := d.mark }
        | .error _ => exec .illegalEncoding { s with args := [w.toNat] })
     | .fault c r => exec .fetchFault { s with args := [c.toNat, g.pc.toNat] ++ (match r with
         | some x => if x.2.2 = 5 then [x.2.1] else [x.2.1, x.2.2]
         | none => []) }
     | .wait n ia =>
       if g.bundle.bad.isSome then exec .fetchFault { s with args := [0, g.pc.toNat] }
       else .next (s.fetchStall k g blk gid g.pc.toNat n ia))
  | _, _ => .next s

/-- Whether a pre-emption that runs lets a group issue: only the rest of a bundle in progress (R28, R370). -/
def State.mayIssue (s : State) (blk : Nat) (k : Block) (g : Group) : Bool :=
  !g.bundle.words.isEmpty || !((s.pre k.die k.part).busy && (s.pre k.die k.part).todo.contains blk)

/-- The groups of a quarter that are not held back by a park or by a fetch that waits: block, group and its state. -/
def State.quarterGroups (s : State) (core quarter : Nat) : List (Nat × Nat × Group) :=
  s.blocks.flatMap fun b =>
    if b.2.st ≠ .resident then []
    else (b.2.groups.filter fun g =>
        g.2.core == core && g.2.quarter == quarter && g.2.park == .run && g.2.fetchIa.isNone && s.mayIssue b.1 b.2 g.2).map
      fun g => (b.1, g.1, g.2)

/-- The distance of a slot after the one that issued last. -/
def slotAfter (last slot : Nat) : Nat := (slot + 63 - last) % 32

/-- Insert in the order of R202: the high class first, then by slot after the last one. -/
def insertSlot (last : Nat) (x : Nat × Nat × Group) (l : List (Nat × Nat × Group)) : List (Nat × Nat × Group) :=
  let key (y : Nat × Nat × Group) : Nat :=
    (if y.2.2.high || y.2.2.promoted then 0 else 32) + slotAfter last y.2.2.slot
  match l with
  | [] => [x]
  | y :: r => if key x < key y then x :: y :: r else y :: insertSlot last x r

/-- A group that has yielded in a gang stands behind the last of the groups of its class that it lets go first (R87). -/
def putBehind (l : List (Nat × Nat × Group)) (e : Yielded) : List (Nat × Nat × Group) :=
  let own (x : Nat × Nat × Group) : Bool := x.1 == e.blk && x.2.1 == e.gid
  match l.find? own with
  | none => l
  | some y =>
    let high (x : Nat × Nat × Group) : Bool := x.2.2.high || x.2.2.promoted
    let first (x : Nat × Nat × Group) : Bool := e.first.contains x.2.2.slot && high x == high y
    if (l.dropWhile fun x => !own x).any first then
      let r := (l.filter fun x => !own x).reverse
      ((r.dropWhile fun x => !first x).reverse ++ [y]) ++ (r.takeWhile fun x => !first x).reverse
    else l

/-- The groups that a quarter tries, in order: the one whose bundle it is issuing, or all by R87 and R202. -/
def State.tryOrder (s : State) (core quarter : Nat) : List (Nat × Nat × Group) :=
  let q := (s.core core).quarter quarter
  let gs := s.quarterGroups core quarter
  match q.lock with
  | some slot => gs.filter fun x => x.2.2.slot == slot
  | none => q.yielded.foldl putBehind (gs.foldr (insertSlot q.lastSlot) [])

/-- The first group of a list that does not stall issues its word. -/
def issueFirst : List (Nat × Nat × Group) → State → Outcome State Fault Refusal
  | [], s => .next s
  | (b, g, old) :: r, s =>
    match s.runGroup b g with
    | .next s' => if old.stalled (s'.group b g) then issueFirst r s' else .next s'
    | o => o

/-- A quarter's cycle. A faulted core has stopped issuing (R224). -/
def State.issueTurn (s : State) (core quarter : Nat) : Outcome State Fault Refusal :=
  if (s.core core).faulted then .next s else issueFirst (s.tryOrder core quarter) s

/-- Whether a group is ready: its next word would issue, park or trap now (R201). -/
def State.ready (s : State) (blk gid : Nat) (g : Group) : Bool :=
  g.park == .run && g.fetchIa.isNone && !(s.core g.core).faulted
    && match s.runGroup blk gid with
      | .next t => !g.stalled (t.group blk gid)
      | _ => true

/-! ## Gangs (R204, R205) -/

/-- The word that a group would issue next. -/
def State.nextWord (s : State) (blk : Nat) (g : Group) : Option Decoded :=
  (s.block blk).bind fun k => match s.fetchWord k g g.pc.toNat true with
    | .word w => (decodeWord w).toOption
    | _ => none

/-- The slices of the datapath that a group's word fills (R204). -/
def State.slices (s : State) (g : Group) (i : Instr) : Nat :=
  let m := (readOperands i s g).mask
  if m.toNat % 2 ^ 16 = 0 || m.toNat / 2 ^ 16 = 0 then 1 else 2

/-- Whether the word that a group would issue may issue in a gang: no prefix, not F64 of class B or C, no solo bit. -/
def State.gangWord (s : State) (blk : Nat) (g : Group) : Bool :=
  match s.nextWord blk g with
  | none => false
  | some d =>
    let ty := typeInForce g.bundle g.mode
    !d.instr.isPrefix && !f64Word (shapeOf d.instr ty) ty && !(g.bundle.sched.any Prod.fst)

/-- The slices of a group's next word. -/
def State.slicesOf (s : State) (x : Nat × Nat × Group) : Nat :=
  match s.nextWord x.1 x.2.2 with
  | some d => s.slices x.2.2 d.instr
  | none => 2

/-- The members that follow a gang's leader, in slot order after it, while they fit into four slices: groups of its block in
its quarter that are ready, at the same program counter, whose words may issue in a gang. -/
def State.gangTail (s : State) (core quarter : Nat) (lead : Nat × Nat × Group) : List (Nat × Nat × Group) :=
  let all := (s.quarterGroups core quarter).filter fun x =>
    x.1 == lead.1 && x.2.1 != lead.2.1 && x.2.2.pc == lead.2.2.pc && s.ready x.1 x.2.1 x.2.2 && s.gangWord x.1 x.2.2
  let low := all.map fun x => (x.1, x.2.1, { x.2.2 with high := true })
  let sorted := low.foldr (insertSlot lead.2.2.slot) []
  let take := sorted.foldl (fun (r : List (Nat × Nat × Group) × Nat) x =>
    if r.2 + s.slicesOf x ≤ 4 then (r.1 ++ [x], r.2 + s.slicesOf x) else (r.1, 5)) ([], s.slicesOf lead)
  take.1

/-- The gang that a quarter may form: the group that R202 chooses leads it. -/
def State.gang (s : State) (core quarter : Nat) : List (Nat × Nat) :=
  match (s.tryOrder core quarter).find? fun x => s.ready x.1 x.2.1 x.2.2 with
  | none => []
  | some lead =>
    if s.gangWord lead.1 lead.2.2 then
      (lead.1, lead.2.1) :: (s.gangTail core quarter lead).map fun x => (x.1, x.2.1)
    else [(lead.1, lead.2.1)]

/-- Each member issues its word, alone and in its own slot (R205). -/
def issueAll : List (Nat × Nat) → State → Outcome State Fault Refusal
  | [], s => .next s
  | x :: r, s =>
    match s.runGroup x.1 x.2 with
    | .next s' => issueAll r s'
    | o => o

/-- The members of a gang behind its leader that a kind-0 YIELD has parked: each lets the quarter's groups outside the gang go
first (R87). -/
def State.yieldedIn (s : State) (core quarter : Nat) (members : List (Nat × Nat)) : List Yielded :=
  let others := ((s.blocks.flatMap fun b => if b.2.st ≠ .resident then [] else
      (b.2.groups.filter fun g => g.2.core == core && g.2.quarter == quarter && !members.contains (b.1, g.1)).map
        fun g => g.2.slot))
  (members.drop 1).filterMap fun x =>
    match s.resident x.1 x.2 with
    | some g => if g.park = .yieldNow && !others.isEmpty then some ⟨x.1, x.2, g.slot, others⟩ else none
    | none => none

/-- A quarter issues the words of a gang, its members in any order (R205): the leader and the members that follow it, as many
as the turn names. The quarter has issued the leader last (log entry 49), and a member that has yielded lets the groups outside
the gang go first (R87). A turn that names no gang issues one word. -/
def State.gangTurn (s : State) (core quarter : Nat) (order : List (Nat × Nat)) : Outcome State Fault Refusal :=
  let members := (s.gang core quarter).take order.length
  if (s.core core).faulted || members.length < 2 || members.length ≠ order.length || !members.all order.contains then
    s.issueTurn core quarter
  else
    match issueAll order s, members with
    | .next t, (b, g) :: _ =>
      .next (match s.resident b g with
        | some lead => t.modCore core fun c =>
          let q := ⟨lead.slot, none, (c.quarter quarter).yielded ++ t.yieldedIn core quarter members⟩
          { c with quarters := c.quarters.put quarter q }
        | none => t)
    | o, _ => o

/-! ## The other turns -/

/-- Whether a constructor is a step of the device or of its surroundings, not a word that a group issues. -/
def isStep (i : Instr) : Bool :=
  match i with
  | .illegalEncoding => false
  | .fetchFault => false
  | i => (encodeLow i).isNone

/-- A group has stood ready for some more consecutive cycles; one that was not ready begins anew, from the cycle at which its
pace let it issue (R202, R203). `now` and `after` tell whether it is ready before and after the `n` cycles that end at
`cycle`. -/
def Group.stand (n : Nat) (now after : Bool) (cycle : U64) (g : Group) : Group :=
  if now then { g with stood := g.stood + n }
  else { g with stood := if after then min n (cycle.toNat - g.nextAt.toNat) else 0, promoted := false }

/-- Cycles pass. -/
def State.tick (s : State) (n : Nat) : State :=
  let t := { s with cycle := s.cycle + BitVec.ofNat 64 n }
  { t with
    blocks := s.blocks.mapVal fun b k =>
      if k.st = .resident then
        { k with groups := k.groups.mapVal fun gid g => g.stand n (s.ready b gid g) (t.ready b gid g) t.cycle }
      else k }

/-- The MTU of an intermediate address reads its entries and holds them (R343). -/
def State.cacheEntries (s : State) (ia : Nat) : State :=
  let q := ia / 2 ^ 47 % 16
  let i1 := ia / 2 ^ 21 % 2 ^ 26
  let r := s.quad q
  let a1 := r.l1base.toNat * 4096 + 8 * i1
  let hold (s : State) (key a : Nat) : State :=
    s.modQuad q fun x => { x with cached := x.cached.put key (a, BitVec.ofNat 64 (Memory.num s.mem a 8)) }
  if ia.testBit 51 || i1 ≥ r.l1count || s.badRange a1 8 then s
  else
    let s := if (r.cached.find (mtuKey ia false)).isSome then s else hold s (mtuKey ia false) a1
    let e1 := s.mtuEntry q (mtuKey ia false) a1
    if !e1.testBit 0 || e1.testBit 54 then s
    else
      let a2 := e1 / 2 ^ 8 % 2 ^ 44 * 2 ^ 8 + 8 * (ia / 2 ^ 16 % 32)
      if s.badRange a2 8 || (r.cached.find (mtuKey ia true)).isSome then s else hold s (mtuKey ia true) a2

/-- A group's fetch unit reads words ahead of its program counter and holds them (R83, R95). -/
def State.fetchAhead (s : State) (blk gid n : Nat) : State :=
  match s.block blk, s.resident blk gid with
  | some k, some g =>
    let got := (List.range n).filterMap fun i =>
      let va := g.pc.toNat + 4 * i
      match s.fetchWord k g va true with
      | .word w => some (va, w)
      | _ => none
    let s := (List.range n).foldl (fun s i => s.hearFetch k g (g.pc.toNat + 4 * i) true) s
    s.modGroup blk gid fun g => { g with ahead := g.ahead ++ got.filter fun e => !g.ahead.any fun x => x.1 == e.1 }
  | _, _ => s

/-- Add to a list without repeating. -/
def addTo {α : Type} [BEq α] (l : List α) (x : α) : List α := if l.contains x then l else x :: l

/-- A window as its registers can hold it (R336). -/
def Window.clean (w : Window) : Window :=
  ⟨maskBits w.base 21 36, maskBits w.limit 12 46, maskBits w.off 16 36, wctlOf (w.ctl.setWidth 64)⟩

/-- A corrected error: counted for its die and its core (R221, R398, R411). -/
def State.correct (s : State) (die core : Nat) : State :=
  (s.countCorr die).modCore core fun k => { k with eccCnt := if k.eccCnt = 0xFFFFFFFF then k.eccCnt else k.eccCnt + 1 }

/-- From now on the accesses of a group's hit pass are performed after their issue (R194). -/
def Group.lateHits (g : Group) : Group :=
  { g with split := g.split.map fun r => if r.pass = .hit then { r with late := true } else r }

/-- A soft error poisons a word, but for one that an MXRD of some queue would still read: that word's error would have been found
when the MXRD issued (R222, R265; log entry 15). -/
def State.softError (s t : State) : State := if t.unreadable then s else t

/-- One turn. -/
def State.turn (s : State) (t : Turn) : Outcome State Fault Refusal :=
  match t with
  | .issue core quarter => s.issueTurn core quarter
  | .gang core quarter order => s.gangTurn core quarter order
  | .event i args => if isStep i then exec i { s with cur := none, mark := false, args := args } else .next s
  | .tick n => .next (s.tick n)
  | .cacheEntry ia => .next (s.cacheEntries ia)
  | .ctxLoad part ctx w v =>
    .next (if w < 16 then s.modWindow part ctx w fun _ => v.clean else s)
  | .fetchAhead blk gid n => .next (s.fetchAhead blk gid n)
  | .icacheFill core ia => .next (s.icacheFill core ia)
  | .poisonReg blk gid r lane => .next (s.modGroup blk gid fun g => { g with poison := addTo g.poison (r, lane) })
  | .poisonMem a =>
    .next (s.softError (if a < 2 ^ 39 then s.newPoison a
      else if a < 2 ^ 52 || (hostBase ≤ a && a < peerBase) then s.spoil a else s))
  | .poisonShared blk unit => .next (s.softError (s.spoilShared blk unit))
  | .poisonStack blk gid key => .next (s.modBlock blk fun k => { k with stackBad := addTo k.stackBad (gid, key) })
  | .poisonTile blk mem key =>
    .next (s.softError (s.modBlock blk fun k =>
      { k with abaci := k.abaci.adj mem fun a => { a with tileBad := addTo a.tileBad key } }))
  | .poisonCell blk mem key =>
    .next (s.softError (s.modBlock blk fun k => { k with abaci := k.abaci.adj mem fun a => a.spoilCell key }))
  | .gradEntries blk mem n => .next (s.gradEntries blk mem n)
  | .icacheDrop core ia => .next (s.icacheDrop core ia)
  | .corrected die core => .next (s.correct die core)
  | .l2Hold ia => .next (s.l2Hold ia)
  | .l2Evict ia => .next (s.l2Evict (ia / 128))
  | .pageCopy part src dst len => .next (s.chanStart part src dst len)
  | .channel id => .next (s.chanGo id)
  | .unitDone op => .next (s.unitDone op)
  | .lateHits blk gid => .next (s.modGroup blk gid Group.lateHits)
  | .land blk gid => .next (s.land blk gid)
  | .laneLate op => .next (s.laneLate op)
  | .laneLand op lane => .next (s.laneLand op lane)

/-! ## The order without a schedule (log entry 1) -/

/-- A step with its arguments. -/
def ev (i : Instr) (args : List Nat) : Turn := .event i args

/-- The turns that a resident group can use. -/
def Group.turns (b gid : Nat) (k : Block) (g : Group) : List Turn :=
  (match g.park with
   | .run => [.issue g.core g.quarter]
   | .sMark => [ev .switchParkWake [b, gid]]
   | .yieldNow | .yieldReg _ | .yieldOc _ _ | .yieldSleep _ => [ev .yieldWake [b, gid]]
   | .waitc _ _ => [ev .waitcWake [b, gid]]
   | .barwait _ _ _ _ => [ev .barwaitWake [b, gid]]
   | .icinv _ => [ev .icinvAcknowledged [b, gid]]
   | .splitMiss => [ev .splitMissPass [b, gid]]
   | .verdict o => [ev .laneCopyVerdict [o]]
   | .wctl ctx w v => [ev .wctl [k.part, ctx, w, v.toNat]]
   | .mtuinv q => [ev .mtuInvalidationDone [q]]
   | .exiting => [ev .groupExitComplete [b, gid]]
   | .bsync _ | .replay _ => [])
  ++ ((g.pend.filter fun e => e.op == 0).map fun e => ev .memoryResponse [b, gid, e.id, e.lanes.toNat])
  ++ (match g.gather with | some r => if r.done then [] else [ev .memoryResponse [b, gid, r.id, 0]] | none => [])
  ++ (if g.early.isEmpty then [] else [ev .fixedLatencyResultWrite [b, gid]])
  ++ (if g.posted.isEmpty then [] else [.land b gid])
  ++ (if !g.high && g.stood ≥ 64 then [ev .lowClassPromotion [b, gid]] else [])

/-- The turns that a block can use. -/
def Block.turns (b : Nat) (k : Block) : List Turn :=
  if k.st ≠ .resident then []
  else (k.groups.flatMap fun g => g.2.turns b g.1 k)
    ++ k.abaci.flatMap fun a => if a.2.queue.isEmpty then [] else [ev .abacusOperation [b, a.1]]

/-- The turns of an engine operation. -/
def EngOp.turns (id : Nat) (o : EngOp) : List Turn :=
  if o.finished then [ev .engineSignal [id]]
  else
    (match o.kind with
     | .lane l => l.ready.map fun t => .laneLand id t.lane
     | _ => [])
    ++ match o.todo, o.fixups with
    | g :: _, _ => [ev .copySegment [id, g]]
    | [], g :: _ => [ev .copySegment [id, g]]
    | [], [] => if o.reduces && o.sent then [.unitDone id] else []

/-- The turn of a lane: its packet's, or the loading of one. -/
def Lane.turns (n : Nat) (l : Lane) : List Turn :=
  if l.state ≠ 1 || l.wait.isSome then []
  else
    let a := [n / 64, n % 64]
    match l.pkt with
    | none => [ev .nopkt a]
    | some p => match pktType p, recNum p 1 1 with
      | 0, _ => [ev .nopkt a]
      | 1, _ => [ev .dispatch a]
      | 2, _ => [ev .cmaint a]
      | 3, _ => [ev (if l.stage = 1 then .waitvPoll else .waitv) a]
      | 4, _ => [ev .signal a]
      | 5, _ => [ev .prio a]
      | _, 0 => [ev .commCreate a]
      | _, 1 => [ev .commDestroy a]
      | _, _ => [ev .commReset a]

/-- The turns of a collective. -/
def State.collTurns (s : State) (id : Nat) (k : Collective) : List Turn :=
  if !k.started || (k.failed.isNone && !k.begun) then [ev .collectiveStart [id]]
  else if s.collOver id k then [ev .collectiveComplete [id]]
  else
    let tiles := ((List.range (tileTotal (s.collBytes k))).filter fun t => !k.tiles.contains t).take 1
    (k.parts.map fun x => ev .reductionUnitWrite [id, x.1]) ++ tiles.map fun t => ev .harvestPush [id, t]

/-- Every turn that can be used, and a cycle's passing. -/
def State.turns (s : State) : List Turn :=
  (s.blocks.flatMap fun b => b.2.turns b.1)
  ++ (s.ops.flatMap fun o => o.2.turns o.1)
  ++ (s.queues.filter fun q => !q.2.waiting.isEmpty && !q.2.full).map
      (fun q => ev .faultRecord [q.1 / 32, q.1 / 2 % 16, q.1 % 2])
  ++ (s.lanes.flatMap fun l => l.2.turns l.1)
  ++ (if s.waitingBlocks.isEmpty then [] else [ev .blockPlacement []])
  ++ ((s.grids.filter fun g => s.gridOver g.1 g.2).map fun g => ev .completionWrite [2 * g.1])
  ++ ((s.trees.filter fun t => s.treeOver t.2).map fun t => ev .completionWrite [2 * t.1 + 1])
  ++ ((s.grids.filter fun g => g.2.passed != allOnes && !g.2.reserving).map fun g => ev .gridReserving [g.1])
  ++ ((s.preempt.filter fun p => p.2.busy).map fun p => ev .preemptRequestDone [p.1 / 16, p.1 % 16])
  ++ ((s.quads.filter fun q => q.2.busy).map fun q => ev .mtuInvalidationDone [q.1])
  ++ ((s.quads.filter fun q => q.2.state == 3 || (s.part q.2.part).resetWait.contains q.1).map fun q => ev .scrubDone [q.1])
  ++ ((s.parts.filter fun p => p.2.state == 2).map fun p => ev .partitionResetDone [p.1])
  ++ ((s.mailbox.filter fun m => m.2.busy).map fun m => ev .mailboxDone [m.1])
  ++ (if s.ckpt.busy then [ev .checkpointDone []] else [])
  ++ (s.colls.flatMap fun k => s.collTurns k.1 k.2)
  ++ ((s.cores.filter fun c => c.2.idle.isSome).map fun c => ev .rateIdleIntervalEnd [c.1])
  ++ ((s.chans.filter fun c => c.2.wait.isNone).map fun c => .channel c.1)
  ++ [.tick 1]

/-- The turn that comes without a schedule: the list of turns, taken in rotation. -/
def State.autoTurn (s : State) : Turn := (s.turns)[s.rot % s.turns.length]?.getD (.tick 1)

/-- The next move: the head of the schedule, or the next in rotation. The lines that the L2 holds are brought up to date before
it (R332). -/
def State.move (s : State) : Outcome State Fault Refusal :=
  let s := s.l2Sync
  match s.schedule with
  | t :: r => { s with schedule := r }.turn t
  | [] => { s with rot := s.rot + 1 }.turn s.autoTurn

end Sys2Proof.Machine
end

