-- ==== Sys2Proof/Machine/Boot.lean ====
section
/-! DEFINITION. A program of one word, loaded from outside the machine (log entry 11): what firmware, the host and a
DISPATCH set up before a kernel's first word runs, put in place at once. -/

namespace Sys2Proof.Machine

/-- The header of the loaded kernel: one group with every register, every role and both abacus families. -/
def bootHeader : Header :=
  { Header.none with allot := 256, producer := 0, tuner := 0, flags := 0x38, shared := 4096, stack := 16, code := 4 }

/-- The grid of the loaded kernel, in a tree of its own. -/
def bootGrid (tree : Nat) : Grid where
  tree := tree
  depth := 0
  part := 0
  ctx := 0
  die := 0
  prio := 0
  privOk := true
  seed := true
  record := List.replicate 128 0
  hdr := some bootHeader
  started := true
  consts := []
  next := 0
  failed := none
  accepted := 0
  mask := some 0
  wait := none
  carry := none
  passed := allOnes
  reserving := false
  disp := none

/-- The block of the loaded kernel, with its group at the first word of the code. -/
def bootBlock (grid : Nat) : Block where
  grid := grid
  part := 0
  ctx := 0
  idx := (0, 0, 0)
  cores := [0]
  st := .resident
  saveOff := 0
  groups := [(0, Group.fresh 0 0 0 0x40 false 0xFFFFFFFF)]
  gen := 0
  shared := []
  sharedBad := []
  stackBad := []
  bars := []
  staged := []
  abaci := []
  channels := []
  lost := false

/-- Quadrant 0 belongs to partition 0, and its table of one entry stands at HBM address 0x1000. -/
def bootQuad : Quad := { Quad.reset with state := 2, part := 0, l1base := 1, l1count := 1 }

/-- A window from virtual address 0: 2 MiB of HBM, readable, writable, executable. -/
def bootWindow : Window := ⟨0, 0x200000, 0, 0x71⟩

/-- A word stands at virtual address 0x40, which is HBM address 0x40, and one group on core 0 is about to fetch it. The
group is alone on the core, and its quarter's cycle comes next. -/
def State.boot (s : State) (w : Word) : State :=
  let b := s.nextId
  { s with
    mem := Memory.write (Memory.write s.mem 0x40 (wordBytes w)) 0x1000 (leBytes 8 (2 ^ 54 + 7))
    memBad := s.memBad.filter fun g => g != 0x40 && g != 0x1000
    quads := s.quads.put 0 bootQuad
    parts := s.parts.put 0 { Part.reset with pquads := 1, state := 1 }
    windows := s.windows.put (winKey 0 0 0) bootWindow
    cores := s.cores.put 0 { CoreSt.reset with almValid := true, almImage := (s.core 0).almImage }
    trees := s.trees.put b ⟨0, 0, 0, b, 0, none, 0, 0, 0, 0, 0⟩
    grids := s.grids.put b { bootGrid b with next := 1 }
    blocks := Table.put (s.blocks.filter fun x => !x.2.cores.contains 0) b (bootBlock b)
    nextId := b + 1
    schedule := [.issue 0 0] }

end Sys2Proof.Machine
end

