-- ==== Sys2Proof/Machine/Step.lean ====
section
/-! DEFINITION. One step of the machine, and the placing of a word where the next step fetches it. -/

namespace Sys2Proof.Machine

/-- One step: one turn of the schedule, or of the model's own order. -/
def step (s : State) : Host.Outcome State Fault Refusal := s.move

/-- The state with an instruction loaded so that the next step runs it (log entry 11). Every instruction is one word. -/
def State.withFetchWord (s : State) (nbits w : Nat) : State := s.boot (BitVec.ofNat 32 (w % 2 ^ nbits))

end Sys2Proof.Machine
end

