-- ==== Sys2Proof/Safety.lean ====
section
/-! DEFINITION. The terms in which claims are made: when a word issues, what it leaves unchanged, and the invariants. -/

namespace Sys2Proof.Machine

open Host (Outcome)

/-! ## Registers as claims see them -/

/-- One lane of a register as 64 bits; a register that is not a vector register has the same content in every lane. -/
def Group.lane (g : Group) (r : Reg) (l : Nat) : U64 :=
  match r with
  | .s n => g.getS n
  | .p n => (g.getP n).setWidth 64
  | .x n => (g.getX n).setWidth 64
  | .v n => g.getV n l

/-- What a group holds beside its numbered registers and its place in the program (R45, R54 to R59, R88, R177, R196). -/
structure Specials where
  live     : BitVec 32
  mode     : BitVec 32
  amax     : BitVec 32
  amaxNan  : Bool
  cmixcnt  : BitVec 32
  oc       : PerClass
  replay   : Table Replay
  cause    : BitVec 8
  trapPc   : U64
  trapInfo : U64
  resume   : U64
  handler  : Bool
  scClock  : BitVec 96
  stack    : SMap 64
deriving DecidableEq, Repr

/-- The special registers, exception registers, counters and stack of a group. -/
def Group.specials (g : Group) : Specials :=
  ⟨g.live, g.mode, g.amax, g.amaxNan, g.cmixcnt, g.oc, g.replay, g.cause, g.trapPc, g.trapInfo, g.resume, g.handler,
    g.scClock, g.stack⟩

/-! ## When a word issues -/

/-- Nothing keeps the instruction word `i` of group `g` from issuing now: no word of its bundle and no field of it is at
fault (R26, R30, R57, R112, R190), its registers are in bounds (R46), it parks on no replay record (R196), nothing that it
reads is outstanding, its class has room, its engine is ready for it and its pace allows it (R201, R210), it observes no deferred condition that raises
(R243), and it consumes no poison (R223); a word that needs the abacus looks at what it consumes after its holder (R255). -/
structure Clear (i : Instr) (s : State) (kb : Block) (g : Group) : Prop where
  formed : wordFault i s kb g = none
  bounds : regFault (s.hdr kb) g.bundle.mods (readOperands i s g) = none
  unparked : replayPark i s.mark (s.hdr kb).checked (readOperands i s g).reads (readOperands i s g).pass g = none
  ready : mustStall i s kb g (readOperands i s g) = false
  quiet : (observe g (readOperands i s g).sees).1 = none
  clean : ((shapeOf i (typeInForce g.bundle g.mode)).fam == .none
    && consumesPoison (shapeOf i (typeInForce g.bundle g.mode)) (readOperands i s g)) = false

/-- The group `g` is ready for the instruction word `i` (R196, R201): it parks on no replay record, and it does not stall. -/
def Ready (i : Instr) (s : State) (kb : Block) (g : Group) : Prop :=
  replayPark i s.mark (s.hdr kb).checked (readOperands i s g).reads (readOperands i s g).pass g = none
    ∧ mustStall i s kb g (readOperands i s g) = false

/-- The group that the state names issues the instruction word `i` now, and its meaning works with `c`: the operands as
read, the register numbers that its fields produce (R31), the mask (R47) and the immediate (R30). -/
def Issues (i : Instr) (s : State) (c : Ctx) : Prop :=
  s.cur = some (c.blk, c.gid) ∧ ∃ g, s.curGroup = some (c.k, g) ∧ Clear i s c.k g
    ∧ c = wordContext i s c.k g (observe g (readOperands i s g).sees).2 c.blk c.gid

/-- The group that issues, as it stands before the word. -/
def State.issuer (s : State) : Option Group := s.curGroup.map Prod.snd

/-! ## What a word leaves unchanged -/

/-- A core without the state that issuing itself moves on: its quarters, and the clock that SC operations advance. -/
def CoreSt.rest (k : CoreSt) : CoreSt := { k with quarters := [], clock := 0 }

/-- A block without its groups. -/
def Block.rest (k : Block) : Block := { k with groups := [] }

/-- The machine outside its cores and blocks; the model's own counters of free values and fresh numbers left out. -/
def State.outer (s : State) : State := { s with blocks := [], cores := [], free := 0, nextId := 0 }

/-- Nothing outside the blocks' groups changes: memory, every block's shared memory and abaci, the almanacs, the die, the
package and the fabric stand as before. -/
def OutsideKept (s t : State) : Prop :=
  t.outer = s.outer
  ∧ (∀ n, (t.core n).rest = (s.core n).rest)
  ∧ ∀ b, (t.block b).map Block.rest = (s.block b).map Block.rest

/-- Every group but the issuing one stands as before. -/
def OthersKept (s t : State) (c : Ctx) : Prop :=
  ∀ b gid, ¬(b = c.blk ∧ gid = c.gid) → t.group b gid = s.group b gid

/-- The issuing group after a word: it has taken one slot and goes on at `pc` with an empty bundle; its special registers
are `sp`; every register but those of `dst` holds what it held. -/
def GroupAfter (s t : State) (c : Ctx) (pc : U64) (dst : List Reg) (sp : Specials) : Prop :=
  ∃ g r, s.issuer = some g ∧ t.group c.blk c.gid = some r ∧ r.pc = pc ∧ r.slotNo = g.slotNo + 1
    ∧ r.bundle = Bundle.empty pc ∧ r.specials = sp ∧ ∀ x, x ∉ dst → ∀ l < 32, r.lane x l = g.lane x l

/-- The effect of a word on registers alone: the issuing group as `GroupAfter` says, and everything else as before. -/
def RegistersOnly (s t : State) (c : Ctx) (pc : U64) (dst : List Reg) (sp : Specials) : Prop :=
  GroupAfter s t c pc dst sp ∧ OthersKept s t c ∧ OutsideKept s t ∧ ∀ n, (t.core n).clock = (s.core n).clock

/-- A register of the issuing group after a word. -/
def State.regAfter (t : State) (c : Ctx) (x : Reg) (l : Nat) : U64 :=
  ((t.group c.blk c.gid).map fun r => r.lane x l).getD 0

/-- A register of the issuing group before a word. -/
def State.regBefore (s : State) (x : Reg) (l : Nat) : U64 := (s.issuer.map fun g => g.lane x l).getD 0

/-! ## How words complete -/

/-- The word `i` completes and changes registers alone: the scalar register of field F1, which then holds `v`; s0 stays
zero, whatever is written to it (R45). -/
def WritesScalar (i : Instr) (s : State) (c : Ctx) (v : U64) : Prop :=
  ∃ t, exec i s = .next t ∧ RegistersOnly s t c (c.g.pc + 4) [.s c.n1] c.g.specials
    ∧ ∀ l, t.regAfter c (.s c.n1) l = if c.n1 = 0 then 0 else v

/-- The word `i` completes and changes registers alone: the vector register of field F1, which then holds `f l` in each
active lane l and what it held in every other lane (R109). -/
def WritesLanes (i : Instr) (s : State) (c : Ctx) (f : Nat → U64) : Prop :=
  ∃ t, exec i s = .next t ∧ RegistersOnly s t c (c.g.pc + 4) [.v c.n1] c.g.specials
    ∧ ∀ l < 32, t.regAfter c (.v c.n1) l = if c.mask.getLsbD l then f l else s.regBefore (.v c.n1) l

/-- As `WritesLanes`, element by element: an active lane then holds the elements `f l e`, modulo 2^w (R53). -/
def WritesElems (i : Instr) (s : State) (c : Ctx) (f : Nat → Nat → Nat) : Prop :=
  ∃ t, exec i s = .next t ∧ RegistersOnly s t c (c.g.pc + 4) [.v c.n1] c.g.specials
    ∧ ∀ l < 32,
      (c.mask.getLsbD l = true → ∀ e < typeElems c.ty,
        elem (typeWidth c.ty) e (t.regAfter c (.v c.n1) l) = f l e % 2 ^ typeWidth c.ty)
      ∧ (c.mask.getLsbD l = false → t.regAfter c (.v c.n1) l = s.regBefore (.v c.n1) l)

/-- The word `i` completes and changes registers alone: predicate register n, which then holds `v`; p15 is read-only. -/
def WritesPredicate (i : Instr) (s : State) (c : Ctx) (n : Nat) (v : BitVec 32) : Prop :=
  ∃ t, exec i s = .next t ∧ RegistersOnly s t c (c.g.pc + 4) [.p n] c.g.specials
    ∧ (n < 15 → ∀ l, t.regAfter c (.p n) l = v.setWidth 64)

/-- The word `i` completes and changes registers alone: index register n, which then holds `v`. -/
def WritesIndex (i : Instr) (s : State) (c : Ctx) (n : Nat) (v : BitVec 8) : Prop :=
  ∃ t, exec i s = .next t ∧ RegistersOnly s t c (c.g.pc + 4) [.x n] c.g.specials
    ∧ ∀ l, t.regAfter c (.x n) l = v.setWidth 64

/-- The word `i` completes, changes no register and goes on at `pc`. -/
def GoesTo (i : Instr) (s : State) (c : Ctx) (pc : U64) : Prop :=
  ∃ t, exec i s = .next t ∧ RegistersOnly s t c pc [] c.g.specials

/-- The word `i` completes, and the issuing group alone changes: its registers stand, its special registers are `sp`, and
it goes on at `pc`. -/
def Steers (i : Instr) (s : State) (c : Ctx) (pc : U64) (sp : Specials) : Prop :=
  ∃ t, exec i s = .next t ∧ RegistersOnly s t c pc [] sp

/-! ## Traps (R88, R89) -/

/-- The address of the trap handler of the issuing group's kernel. -/
def State.handlerOf (s : State) (c : Ctx) : U64 := BitVec.ofNat 64 (s.kernelBase c.k + c.h.trap)

/-- The issuing group has entered its trap handler: TRAPCAUSE, TRAPINFO, TRAPPC (the bundle's first word) and the resume
register (the word after the one that trapped) are written, handler state holds, and fetching goes on at the handler; every
numbered register and everything outside the group stand as before; `count` is CMIXCNT where the observation that raises the
trap has counted others (R243). -/
def EntersHandler (s t : State) (c : Ctx) (cause : BitVec 8) (info : U64) (count : Option (BitVec 32) := none) : Prop :=
  ∃ g r, s.issuer = some g ∧ t.group c.blk c.gid = some r
    ∧ r.specials = { g.specials with
        cmixcnt := count.getD g.cmixcnt, cause := cause, trapPc := g.bundle.entry, trapInfo := info, resume := g.pc + 4, handler := true }
    ∧ r.pc = s.handlerOf c ∧ r.bundle = Bundle.empty (s.handlerOf c)
    ∧ (∀ x, ∀ l < 32, r.lane x l = g.lane x l)
    ∧ OthersKept s t c ∧ OutsideKept s t

/-- The issuing group's block is gone, and its grid has failed with the cause and TRAPINFO unless it had failed before. -/
def Aborts (s t : State) (c : Ctx) (cause : BitVec 8) (info : U64) : Prop :=
  t.block c.blk = none
    ∧ ∀ g, s.issuer = some g → t.grids.find c.k.grid = (s.grids.find c.k.grid).map fun k =>
        if k.failed.isSome then k else { k with failed := some (1, cause, info, g.core) }

/-- The word `i` traps with a cause and a TRAPINFO: the group enters its handler or, in handler state or without a handler,
its block is aborted. -/
def Traps (i : Instr) (s : State) (c : Ctx) (cause : BitVec 8) (info : U64) (count : Option (BitVec 32) := none) : Prop :=
  (c.g.handler = false ∧ c.h.trap ≠ 0 → ∃ t, exec i s = .next t ∧ EntersHandler s t c cause info count)
  ∧ (c.g.handler = true ∨ c.h.trap = 0 → ∃ t, exec i s = .next t ∧ Aborts s t c cause info)

/-- The word `i` completes, changes no register, goes on at `pc`, and leaves its group parked as `p` says: the group issues
nothing more until that park ends (R35, R36, R85, R189). -/
def ParksAt (i : Instr) (s : State) (c : Ctx) (pc : U64) (p : Park) : Prop :=
  ∃ t, exec i s = .next t ∧ RegistersOnly s t c pc [] c.g.specials ∧ (t.group c.blk c.gid).map Group.park = some p

/-- The word `i` completes: its group is as `GroupAfter` says, every other group stands, and so does the machine but for
what `drop` leaves out of it and `dropB` leaves out of its blocks; `say` holds of the state after. -/
def Completes (i : Instr) (s : State) (c : Ctx) (pc : U64) (dst : List Reg) (sp : Specials) (drop : State → State)
    (dropB : Block → Block) (say : State → Prop) : Prop :=
  ∃ t, exec i s = .next t ∧ GroupAfter s t c pc dst sp ∧ OthersKept s t c ∧ drop t.outer = drop s.outer
    ∧ (∀ n, (t.core n).rest = (s.core n).rest)
    ∧ (∀ b, (t.block b).map (fun k => dropB k.rest) = (s.block b).map fun k => dropB k.rest) ∧ say t

/-- The state in which the effect of a word runs: `s` with the issuing group's bookkeeping of its issue, which changes no
register of it. -/
def Begun (s u : State) (c : Ctx) : Prop :=
  ∃ g g0 free, s.issuer = some g ∧ u = s.withGroup c.blk c.gid g0 free ∧ (∀ x l, g0.lane x l = g.lane x l)
    ∧ g0.specials = c.g.specials

/-- The word `i` waits: nothing changes, and the group issues it again. -/
def Waits (i : Instr) (s : State) : Prop := exec i s = .next s

/-! ## Engine operations (R210, R211) -/

/-- The machine without its engine operations. -/
def State.lessOps (s : State) : State := { s with ops := [] }

/-- The issuing group's special registers after it has launched an operation: the counter of its class is one higher. -/
def Ctx.launched (c : Ctx) (cls : EngClass) : Specials :=
  { c.g.specials with oc := c.g.oc.set cls (c.g.oc.get cls + 1) }

/-- An operation numbered `id` has been launched: it is the group's next of its class, `o` describes it, no other operation
changes, and the status register, if there is one, waits for it. -/
def Launched (s t : State) (c : Ctx) (cls : EngClass) (id : Nat) (o : EngOp) : Prop :=
  t.ops.find id = some o ∧ (∀ j, j ≠ id → t.ops.find j = s.ops.find j)
    ∧ o.blk = c.blk ∧ o.gid = c.gid ∧ o.cls = cls ∧ o.seq = c.g.issued.get cls + 1
    ∧ (t.group c.blk c.gid).map Group.issued = some (c.g.issued.set cls (c.g.issued.get cls + 1))
    ∧ ∀ r, o.status = some r → ∃ q, t.group c.blk c.gid = some q ∧ ⟨id, .s r, 0xFFFFFFFF, id, 0⟩ ∈ q.pend

/-! ## Memory -/

/-- The machine without the bytes behind windows and their poison. -/
def State.lessMem (s : State) : State := { s with mem := [], memBad := [] }

/-- A block without its shared memory and its poison. -/
def Block.lessShared (k : Block) : Block := { k with shared := [], sharedBad := [] }

/-- The address of an access in its space. -/
def Spot.at_ (p : Spot) : Nat :=
  match p with
  | .shared off => off
  | .const off => off
  | .pad _ key => key

/-- A place of a barrier object in its space. -/
def State.barSpot (s : State) (l : BarLoc) : Spot :=
  match l with
  | .shared _ o => .shared o
  | .pad ia => .pad ia (s.padKeyOf ia)

/-- One byte of the space of an access: of the shared memory of block `b`, or of memory. -/
def State.spaceByte (s : State) (b : Nat) (p : Spot) (a : Nat) : Byte :=
  match p with
  | .shared _ => ((s.block b).map fun k => k.shared.get a).getD 0
  | .const _ => 0
  | .pad _ _ => Memory.get s.mem a

/-- The armed barrier objects of that space that a write of `n` bytes touches (R183). -/
def State.armedAt (s : State) (b : Nat) (p : Spot) (n : Nat) : List Nat :=
  let keys := (List.range n).map fun i => p.at_ + i
  match p with
  | .shared _ => armedHits (((s.block b).map Block.bars).getD []) keys fun o => (BarObj.of (s.barGet (.shared b o))).armed
  | .const _ => []
  | .pad _ _ => armedHits s.padBars keys fun a => (s.barAt a).armed

/-- An ordinary write of `bs` at `p` (R183): the bytes are written, the error bit of each armed barrier object that they
touch is set, and every other byte of memory and of every block's shared memory stands. -/
def Stored (s t : State) (b : Nat) (p : Spot) (bs : List Byte) : Prop :=
  (∀ a, t.spaceByte b p a = (if p.at_ ≤ a ∧ a < p.at_ + bs.length then bs.getD (a - p.at_) 0 else s.spaceByte b p a)
    ||| (if ∃ o ∈ s.armedAt b p bs.length, a = o + 12 then 1 else 0))
  ∧ match p with
    | .shared _ => t.mem = s.mem ∧ ∀ b', b' ≠ b → (t.block b').map Block.shared = (s.block b').map Block.shared
    | .const _ => t.mem = s.mem ∧ ∀ b', (t.block b').map Block.shared = (s.block b').map Block.shared
    | .pad _ _ => ∀ b', (t.block b').map Block.shared = (s.block b').map Block.shared

/-- The issuing group's special registers after an access: an SC operation takes its core's next timestamp (R318), which is above
those of all cores (log entry 23). -/
def Ctx.scSpecials (c : Ctx) (s : State) : Specials :=
  if c.m.order = 3 then { c.g.specials with scClock := s.topClock + 1 } else c.g.specials

/-- A state after the records of a denial (R330, R345, R346) have been sent. -/
def State.recorded (s : State) (c : Ctx) (f : AccFault) : State :=
  f.records.foldl (fun s r => s.fault c.k.part c.g.core r.1 r.2.1 0 r.2.2 f.src 0xFF c.g.slot) s

/-- The word `i` traps as an access fault says, after the record of its denial. -/
def AccessTraps (i : Instr) (s : State) (c : Ctx) (f : AccFault) : Prop :=
  let u := s.recorded c f
  let info : U64 := BitVec.ofNat 64 f.addr
  (c.g.handler = false ∧ c.h.trap ≠ 0 → ∃ t, exec i s = .next t ∧ EntersHandler u t c f.cause info)
  ∧ (c.g.handler = true ∨ c.h.trap = 0 → ∃ t, exec i s = .next t ∧ Aborts u t c f.cause info)

/-! ## Steps of the device -/

/-- The machine without its blocks. -/
def State.lessBlocks (s : State) : State := { s with blocks := [] }

/-- A group alone changes: it is now `r`; every other group, every block but for its groups, and everything else stand. -/
def GroupBecomes (s t : State) (b gid : Nat) (r : Group) : Prop :=
  t.group b gid = some r ∧ (∀ b' g', ¬(b' = b ∧ g' = gid) → t.group b' g' = s.group b' g')
    ∧ t.lessBlocks = s.lessBlocks ∧ ∀ b', (t.block b').map Block.rest = (s.block b').map Block.rest

/-- A group that has observed deferred conditions at the end of its park (R243) enters its handler at the word that parked
(R88), or its block is aborted. -/
def ParkTraps (s t : State) (b gid : Nat) (k : Block) (g : Group) (cause : BitVec 8) (info : U64) : Prop :=
  (g.handler = false ∧ (s.hdr k).trap ≠ 0 → ∃ r, t.group b gid = some r
    ∧ r.pc = BitVec.ofNat 64 (s.kernelBase k + (s.hdr k).trap)
    ∧ r.specials = { g.specials with cause := cause, trapPc := g.parkPc, trapInfo := info, resume := g.parkAt + 4,
                                      handler := true }
    ∧ (∀ x l, r.lane x l = g.lane x l)
    ∧ ∀ b' g', ¬(b' = b ∧ g' = gid) → t.group b' g' = s.group b' g')
  ∧ (g.handler = true ∨ (s.hdr k).trap = 0 → t.block b = none)

/-! ## The invariant -/

/-- A table lists its keys in order, each once. -/
def Rises {α : Type} (t : Table α) : Prop := (t.map Prod.fst).Pairwise (· < ·)


/-- Memory stands in its canonical form: addresses strictly rising, no entry equal to what an unlisted address reads as. -/
def State.MemoryWf (s : State) : Prop := Memory.wf s.mem = true

end Sys2Proof.Machine
end

