-- ==== Sys2Proof/Certificates/Slice0/Obligations.lean ====
section
/-! DEFINITION. The statements about the machine. Each says in its docstring which rules of spec/ it formalises. -/

open Sys2Proof Sys2Proof.Machine

/-! ## Encodings and malformed words, shared by the statements -/

/-- The word of an instruction: switch marker, major and three fields of 8 bits (R20). -/
def Sys2Proof.Encodes (i : Instr) (major : BitVec 7) (f1 f2 f3 : BitVec 8) : Prop :=
  ∀ m : Bool, encode ⟨m, i⟩ = some (BitVec.ofBool m ++ major ++ f1 ++ f2 ++ f3)

/-- The word `i`, in a bundle without a prefix, raises ILLEGAL with the word as TRAPINFO once its group is ready for it (R25,
R26, R201). -/
def Sys2Proof.RaisesIllegal (i : Instr) : Prop :=
  ∀ (s : State) (c : Ctx) (n : Nat), encodeLow i = some n → s.cur = some (c.blk, c.gid) → s.curGroup = some (c.k, c.g) →
    c.h = s.hdr c.k → c.g.bundle = Bundle.empty c.g.pc → Ready i s c.k c.g →
    Traps i s c 0x01 (BitVec.ofNat 64 (n + if s.mark = true then 2 ^ 31 else 0))

/-! ## Scalar words -/

/-- The two-operand scalar words with their results (R97). -/
def Sys2Proof.scalarBinary : List ((BitVec 8 → BitVec 8 → BitVec 8 → Instr) × (U64 → U64 → U64)) := [
  (.sadd, fun a b => a + b),
  (.ssub, fun a b => a - b),
  (.smul, fun a b => a * b),
  (.smulh, fun a b => (a.signExtend 128 * b.signExtend 128).extractLsb' 64 64),
  (.smulhn, fun a b => (a.setWidth 128 * b.setWidth 128).extractLsb' 64 64),
  (.sdiv, fun a b => if b = 0 then -1 else a.sdiv b),
  (.sdivn, fun a b => if b = 0 then -1 else a / b),
  (.srem, fun a b => if b = 0 then a else a.srem b),
  (.sremn, fun a b => if b = 0 then a else a % b),
  (.sand, fun a b => a &&& b),
  (.sor, fun a b => a ||| b),
  (.sxor, fun a b => a ^^^ b),
  (.sshl, fun a b => a <<< (b.toNat % 64)),
  (.sshr, fun a b => a >>> (b.toNat % 64)),
  (.ssar, fun a b => a.sshiftRight (b.toNat % 64)),
  (.smin, fun a b => if a.toInt ≤ b.toInt then a else b),
  (.smax, fun a b => if a.toInt ≤ b.toInt then b else a),
  (.sminn, fun a b => if a.toNat ≤ b.toNat then a else b),
  (.smaxn, fun a b => if a.toNat ≤ b.toNat then b else a)]

/-- R97: each two-operand scalar word completes with its result in sd and changes nothing else. -/
def Sys2Proof.ScalarWordResults : Prop :=
  ∀ p ∈ scalarBinary, ∀ (d a b : BitVec 8) (s : State) (c : Ctx), Issues (p.1 d a b) s c →
    WritesScalar (p.1 d a b) s c (p.2 (c.g.getS c.n2) (c.g.getS c.n3))

/-- The one-operand scalar words with their results (R100). -/
def Sys2Proof.scalarUnary : List ((BitVec 8 → BitVec 8 → Instr) × (U64 → U64)) := [
  (.sunPopc, fun a => BitVec.ofNat 64 ((List.range 64).countP fun k => a.getLsbD k)),
  (.sunClz, fun a => BitVec.ofNat 64 (((List.range 64).find? fun k => a.getLsbD (63 - k)).getD 64)),
  (.sunCtz, fun a => BitVec.ofNat 64 (((List.range 64).find? fun k => a.getLsbD k).getD 64)),
  (.sunBrev, fun a => a.reverse),
  (.sunNot, fun a => ~~~a),
  (.sunNeg, fun a => -a),
  (.sunAbs, fun a => if a.toInt < 0 then -a else a)]

/-- R98 to R100: the immediate, comparing and one-operand scalar words, and SSEL, complete with their results. -/
def Sys2Proof.ScalarMoveResults : Prop :=
  (∀ p ∈ scalarUnary, ∀ (d a : BitVec 8) (s : State) (c : Ctx), Issues (p.1 d a) s c →
    WritesScalar (p.1 d a) s c (p.2 (c.g.getS c.n2)))
  ∧ (∀ (d a : BitVec 8) (s : State) (c : Ctx), Issues (.sunBswap d a) s c →
    ∃ v, WritesScalar (.sunBswap d a) s c v ∧ ∀ k < 8, elem 8 k v = elem 8 (7 - k) (c.g.getS c.n2))
  ∧ (∀ (d a b : BitVec 8) (s : State) (c : Ctx), Issues (.ssel d a b) s c →
    WritesScalar (.ssel d a b) s c (if c.g.getS c.n1 = 0 then c.g.getS c.n3 else c.g.getS c.n2))
  ∧ (∀ (d a n : BitVec 8) (s : State) (c : Ctx), Issues (.saddi d a n) s c →
    WritesScalar (.saddi d a n) s c (c.g.getS c.n2 + c.imm))
  ∧ (∀ (d : BitVec 8) (n : BitVec 16) (s : State) (c : Ctx), Issues (.sli d n) s c → WritesScalar (.sli d n) s c c.imm)
  ∧ (∀ (d : BitVec 8) (n : BitVec 16) (s : State) (c : Ctx), Issues (.slih d n) s c →
    WritesScalar (.slih d n) s c (c.imm.extractLsb' 0 32 ++ (c.g.getS c.n1).extractLsb' 0 32))
  ∧ (∀ (d a f : BitVec 8) (s : State) (c : Ctx), Issues (.scmp d a f) s c →
    WritesScalar (.scmp d a f) s c (
      let x := (c.g.getS c.n1).toInt
      let y := (c.g.getS c.n2).toInt
      if [x == y, x != y, decide (x < y), decide (x ≤ y), decide (y < x), decide (y ≤ x)].getD f.toNat false then 1 else 0))
  ∧ (∀ (d a f : BitVec 8) (s : State) (c : Ctx), Issues (.scmpn d a f) s c →
    WritesScalar (.scmpn d a f) s c (
      let x := (c.g.getS c.n1).toNat
      let y := (c.g.getS c.n2).toNat
      if [x == y, x != y, decide (x < y), decide (x ≤ y), decide (y < x), decide (y ≤ x)].getD f.toNat false then 1 else 0))

/-- R99: SCMP and SCMPN have majors 0x27 and 0x28 and the SF format, and fn 6 to 255 raise ILLEGAL. -/
def Sys2Proof.CompareWordFormats : Prop :=
  ∀ d a f : BitVec 8, Encodes (.scmp d a f) 0x27 d a f ∧ Encodes (.scmpn d a f) 0x28 d a f
    ∧ (6 ≤ f.toNat → RaisesIllegal (.scmp d a f) ∧ RaisesIllegal (.scmpn d a f))

/-- R97 to R100: every scalar integer word completes with its result in sd and changes nothing else; a relation that SCMP
does not have is ILLEGAL. -/
def Obligations.ScalarIntegerWords : Prop := ScalarWordResults ∧ ScalarMoveResults ∧ CompareWordFormats

/-- The value of a code of type `t` as arithmetic reads it: under FLUSH a subnormal counts as a zero of its sign (R74). -/
def Sys2Proof.readAs (flush : Bool) (t x : Nat) : Val :=
  if flush = true ∧ (fmtOf t).subnormal x = true then .fin ((fmtOf t).val x).isNeg 0 0 else (fmtOf t).val x

/-- The code of an exact result: rounded once to type `t` and, under FLUSH, a subnormal F32 result replaced by a zero of its
sign (R74). -/
def Sys2Proof.roundedTo (flush : Bool) (t rm : Nat) (sat : Bool) (v : Val) : Nat :=
  let r := (fmtOf t).round rm sat v
  if flush = true ∧ t = 0x11 ∧ (fmtOf t).subnormal r = true then (fmtOf t).signed (r.testBit 31) 0 else r

/-- The lesser or greater of two codes (R129): −0 is below +0. -/
def Sys2Proof.pick (f : Fmt) (greater strict : Bool) (x y : Nat) : Nat :=
  if (f.val x).isNan = true ∧ (f.val y).isNan = true then f.nanCode
  else if (f.val x).isNan = true ∨ (f.val y).isNan = true then
    (if strict then f.nanCode else if (f.val x).isNan = true then y else x)
  else if greater then (if orderKey f y ≤ orderKey f x then x else y)
  else (if orderKey f x ≤ orderKey f y then x else y)

/-- A finite value m · 2^e rounded to an integer (R69, R72). -/
def Sys2Proof.integerOf (rm : Nat) (neg : Bool) (m : Nat) (e : Int) : Int :=
  let k := 2 ^ (-e).toNat
  let q := m * 2 ^ e.toNat / k
  let r := m * 2 ^ e.toNat % k
  let up : Bool := match rm with
    | 0 => decide (k < 2 * r) || (decide (2 * r = k) && decide (q % 2 = 1))
    | 1 => false
    | 2 => neg && decide (r ≠ 0)
    | 3 => !neg && decide (r ≠ 0)
    | _ => decide (r ≠ 0 ∧ k ≤ 2 * r)
  let u : Int := if up then q + 1 else q
  if neg then -u else u

/-- A relation between the values of two codes, as a number; 0 when either is NaN. -/
def Sys2Proof.holds (t : Nat) (os : List Ordering) (x y : Nat) : Nat :=
  let a := (fmtOf t).val x
  let b := (fmtOf t).val y
  if a.isNan = false ∧ b.isNan = false ∧ a.cmp b ∈ os then 1 else 0

/-- The scalar floating-point words on codes of a type, given the subnormal policy, the type and rm (R101). -/
def Sys2Proof.scalarFloat : List ((BitVec 8 → BitVec 8 → BitVec 2 → Instr) × (Bool → Nat → Nat → Nat → Nat → Nat)) := [
  (.sfpAdd, fun fl t rm x y => roundedTo fl t rm false (Val.add (rm == 2) (readAs fl t x) (readAs fl t y))),
  (.sfpSub, fun fl t rm x y => roundedTo fl t rm false (Val.add (rm == 2) (readAs fl t x) (readAs fl t y).neg)),
  (.sfpMul, fun fl t rm x y => roundedTo fl t rm false (Val.mul (readAs fl t x) (readAs fl t y))),
  (.sfpDiv, fun fl t rm x y => roundedTo fl t rm false (Val.div (readAs fl t x) (readAs fl t y))),
  (.sfpSqrt, fun fl t rm _ y => roundedTo fl t rm false (Val.sqrt (readAs fl t y))),
  (.sfpMin, fun _ t _ x y => pick (fmtOf t) false false x y),
  (.sfpMax, fun _ t _ x y => pick (fmtOf t) true false x y),
  (.sfpEq, fun _ t _ x y => holds t [.eq] x y),
  (.sfpLt, fun _ t _ x y => holds t [.lt] x y),
  (.sfpLe, fun _ t _ x y => holds t [.lt, .eq] x y),
  (.sfpCvti, fun _ t rm _ y => match (fmtOf t).val y with
    | .nan => 0
    | .inf neg => if neg then 2 ^ 63 else 2 ^ 63 - 1
    | .fin neg m e => (max (-2 ^ 63) (min (2 ^ 63 - 1) (integerOf rm neg m e)) % 2 ^ 64).toNat)]

/-- The values that R101 states of a division and of a square root, and that a sum takes its sign from RDN (R126). -/
def Sys2Proof.ValueCorners : Prop :=
  ∀ (a b : Bool) (m : Nat) (e : Int), let zero (n : Bool) : Val := .fin n 0 0
    let fin (n : Bool) : Val := .fin n (m + 1) e
    Val.div (fin a) (zero b) = .inf (a != b) ∧ Val.div (zero a) (zero b) = .nan ∧ Val.div (.inf a) (.inf b) = .nan
    ∧ Val.mul (zero a) (.inf b) = .nan ∧ Val.sqrt (fin true) = .nan ∧ Val.sqrt (.inf true) = .nan
    ∧ Val.sqrt (zero a) = zero a ∧ Val.add a (.inf b) (.inf (!b)) = .nan
    ∧ (Val.add a (fin b) (fin (!b))).isZero = true ∧ (Val.add a (fin b) (fin (!b))).isNeg = a

/-- R101: each scalar floating-point word reads codes of its type from the low bits of its registers, and completes with
the function's code, zero-extended, in sd: one rounding of the exact result; a comparison is 0 with a NaN; SFP.cvti rounds to an
integer and saturates, and SFP.cvtf converts the 64-bit integer of sa. That SFP.cvti of a NaN leaves AMAXNAN as it is, is the
model's choice (log entry 54, DESIGN CHOICE). -/
def Obligations.ScalarFloatResults : Prop :=
  ValueCorners ∧ (∀ p ∈ scalarFloat, ∀ (d a : BitVec 8) (y : BitVec 2) (s : State) (c : Ctx), Issues (p.1 d a y) s c →
    let t := 0x10 + y.toNat
    let w := [64, 32, 16, 16].getD y.toNat 0
    WritesScalar (p.1 d a y) s c (BitVec.ofNat 64 (p.2 (ctFlush c.eff) t (c.g.mode.extractLsb' 5 3).toNat
      ((c.g.getS c.n1).toNat % 2 ^ w) ((c.g.getS c.n2).toNat % 2 ^ w))))
  ∧ ∀ (d a : BitVec 8) (y : BitVec 2) (s : State) (c : Ctx), Issues (.sfpCvtf d a y) s c →
    WritesScalar (.sfpCvtf d a y) s c
      (BitVec.ofNat 64 ((fmtOf (0x10 + y.toNat)).round (c.g.mode.extractLsb' 5 3).toNat false
        (.fin (decide ((c.g.getS c.n2).toInt < 0)) (c.g.getS c.n2).toInt.natAbs 0)))

/-! ## Control -/

/-- R32, R81, R82: NOP and the branches change no register; a branch goes to its own address plus four times its signed
offset when its condition holds, otherwise to the next word. -/
def Sys2Proof.BranchTargets : Prop :=
  (∀ (s : State) (c : Ctx), Issues .nop s c → GoesTo .nop s c (c.g.pc + 4))
  ∧ (∀ (o : BitVec 24) (s : State) (c : Ctx), Issues (.bra o) s c →
      GoesTo (.bra o) s c (c.g.pc + 4 * o.signExtend 64))
  ∧ (∀ (a : BitVec 8) (o : BitVec 16) (s : State) (c : Ctx), Issues (.brs a o) s c →
      GoesTo (.brs a o) s c (if c.g.getS c.n1 = 0 then c.g.pc + 4 else c.g.pc + 4 * o.signExtend 64))
  ∧ ∀ (p k : BitVec 4) (o : BitVec 16) (s : State) (c : Ctx), Issues (.brm p k o) s c →
      let m := c.g.getP p.toNat &&& c.g.live
      let holds := [m != 0, m == c.g.live, m == 0, m != c.g.live].getD k.toNat false
      GoesTo (.brm p k o) s c (if holds then c.g.pc + 4 * o.signExtend 64 else c.g.pc + 4)

/-- R82: BRM may name any of p0 to p15, and its conditions are 0 to 3; 4 to 15 raise ILLEGAL. -/
def Sys2Proof.BranchConditions : Prop :=
  ∀ (p k : BitVec 4) (o : BitVec 16), ((Instr.brm p k o).wellFormed = true ↔ k.toNat < 4)
    ∧ (4 ≤ k.toNat → RaisesIllegal (.brm p k o))

/-- R81, R83: CALL writes the address of the next word; JMPI and RET go to the address in their register, and trap with
MISALIGN and that address when it is no multiple of 4. -/
def Sys2Proof.CallsAndJumps : Prop :=
  (∀ (d : BitVec 8) (o : BitVec 16) (s : State) (c : Ctx), Issues (.call d o) s c →
    ∃ t, exec (.call d o) s = .next t
      ∧ RegistersOnly s t c (c.g.pc + 4 * o.signExtend 64) [.s c.n1] c.g.specials
      ∧ t.regAfter c (.s c.n1) 0 = if c.n1 = 0 then 0 else c.g.pc + 4)
  ∧ ∀ f ∈ [Instr.jmpi, Instr.ret], ∀ (a : BitVec 8) (s : State) (c : Ctx), Issues (f a) s c →
    let v := c.g.getS c.n2
    (v.toNat % 4 = 0 → GoesTo (f a) s c v) ∧ (v.toNat % 4 ≠ 0 → Traps (f a) s c 0x05 v)

/-- R32, R81 to R83: NOP, and every branch, call and jump, complete at their targets; a condition that BRM does not have
is ILLEGAL. -/
def Obligations.BranchesAndJumps : Prop := BranchTargets ∧ BranchConditions ∧ CallsAndJumps

/-- The word stands in no split region and begins none (R190, R195). -/
def Sys2Proof.NoRegion (s : State) : Prop :=
  ∀ g, s.issuer = some g → g.bundle.split = none ∧ (g.handler = true ∨ g.split = none)

/-- R84, R85, R189: EXIT, the YIELDs and WAITC change no register and park their group; a YIELD goes on, once it wakes, at
its own address plus four times its signed offset. The region of a PFX.SPLIT holds none of them (R191). -/
def Obligations.ParkingWords : Prop :=
  ∀ (s : State) (c : Ctx), NoRegion s →
    (Issues .exit s c → ParksAt .exit s c (c.g.pc + 4) .exiting)
    ∧ (∀ o, Issues (.yieldNow o) s c → ParksAt (.yieldNow o) s c (c.g.pc + 4 * o.signExtend 64) .yieldNow)
    ∧ (∀ r o, Issues (.yieldReg r o) s c →
        ParksAt (.yieldReg r o) s c (c.g.pc + 4 * o.signExtend 64) (.yieldReg r.toNat))
    ∧ (∀ k n o e, Issues (.yieldOc k n o) s c → EngClass.ofCode k.toNat = some e →
        ParksAt (.yieldOc k n o) s c (c.g.pc + 4 * o.signExtend 64) (.yieldOc e n.toNat))
    ∧ (∀ k o, Issues (.yieldSleep k o) s c →
        ParksAt (.yieldSleep k o) s c (c.g.pc + 4 * o.signExtend 64) (.yieldSleep (s.cycle + 64 * k.setWidth 64)))
    ∧ (∀ k n e, Issues (.waitc k n) s c → EngClass.ofCode k.toNat = some e →
        ParksAt (.waitc k n) s c (c.g.pc + 4) (.waitc e n.toNat))

/-- R88, R91: TRAP and BKPT trap with causes 0x16 and 0x15 and their code as TRAPINFO. -/
def Sys2Proof.SoftwareTraps : Prop :=
  ∀ (n : BitVec 8) (s : State) (c : Ctx),
    (Issues (.trap n) s c → Traps (.trap n) s c 0x16 (n.setWidth 64))
    ∧ (Issues (.bkpt n) s c → Traps (.bkpt n) s c 0x15 (n.setWidth 64))

/-- R89, R91: in handler state trap.ret retry goes on at TRAPPC and trap.ret next at the resume register, both leaving
handler state; trap.ret abort aborts the block with the trap registers; outside handler state each is ILLEGAL. -/
def Sys2Proof.TrapReturns : Prop :=
  ∀ (s : State) (c : Ctx),
    (Issues .trapRetRetry s c →
      (c.g.handler = true → Steers .trapRetRetry s c c.g.trapPc { c.g.specials with handler := false })
      ∧ (c.g.handler = false → Traps .trapRetRetry s c 0x01 (c.word.setWidth 64)))
    ∧ (Issues .trapRetNext s c →
      (c.g.handler = true → Steers .trapRetNext s c c.g.resume { c.g.specials with handler := false })
      ∧ (c.g.handler = false → Traps .trapRetNext s c 0x01 (c.word.setWidth 64)))
    ∧ (Issues .trapRetAbort s c →
      (c.g.handler = true → ∃ t, exec .trapRetAbort s = .next t ∧ Aborts s t c c.g.cause c.g.trapInfo)
      ∧ (c.g.handler = false → Traps .trapRetAbort s c 0x01 (c.word.setWidth 64)))

/-- R95: IFENCE completes, changes no register and discards every word fetched ahead. -/
def Sys2Proof.FetchFence : Prop :=
  ∀ (s : State) (c : Ctx), Issues .ifence s c →
    ∃ t, exec .ifence s = .next t ∧ RegistersOnly s t c (c.g.pc + 4) [] c.g.specials
      ∧ (t.group c.blk c.gid).map Group.ahead = some []

/-- R88, R89, R91, R95: the words of traps, and the fetch fence. -/
def Obligations.TrapWords : Prop := SoftwareTraps ∧ TrapReturns ∧ FetchFence

/-! ## Predicates, index registers, the mode register, moves into the lanes -/

/-- The functions of PLOG by its op field (R103). -/
def Sys2Proof.predicateLogic : List (BitVec 32 → BitVec 32 → BitVec 32) := [
  fun a b => a &&& b, fun a b => a ||| b, fun a b => a ^^^ b, fun a b => a &&& ~~~b, fun a b => a ||| ~~~b,
  fun a b => ~~~(a &&& b), fun a b => ~~~(a ||| b), fun a b => ~~~(a ^^^ b)]

/-- R47, R102, R103: the predicate and index words complete with their results; p15 reads as the live mask, and no word
writes it. -/
def Sys2Proof.PredicateWordResults : Prop :=
  ∀ (s : State) (c : Ctx) (d a : BitVec 8),
    (Issues (.pset d a) s c → WritesPredicate (.pset d a) s c d.toNat ((c.g.getS c.n2).setWidth 32))
    ∧ (Issues (.psetLive d a) s c →
        WritesPredicate (.psetLive d a) s c d.toNat ((c.g.getS c.n2).setWidth 32 &&& c.g.live))
    ∧ (∀ b o : BitVec 4, Issues (.plog d a b o) s c → WritesPredicate (.plog d a b o) s c d.toNat
        ((predicateLogic.getD o.toNat fun _ _ => 0) (c.g.getP a.toNat) (c.g.getP b.toNat)))
    ∧ (Issues (.pget d a) s c → WritesScalar (.pget d a) s c ((c.g.getP a.toNat).setWidth 64))
    ∧ (Issues (.pfirst d a) s c → WritesScalar (.pfirst d a) s c
        (BitVec.ofNat 64 (((List.range 32).find? fun k => (c.g.getP a.toNat).getLsbD k).getD 32)))
    ∧ (Issues (.plast d a) s c → WritesScalar (.plast d a) s c
        (BitVec.ofNat 64 (((List.range 32).reverse.find? fun k => (c.g.getP a.toNat).getLsbD k).getD 32)))
    ∧ (Issues (.pcnt d a) s c → WritesScalar (.pcnt d a) s c
        (BitVec.ofNat 64 ((List.range 32).countP fun k => (c.g.getP a.toNat).getLsbD k)))
    ∧ (Issues (.xset d a) s c → WritesIndex (.xset d a) s c d.toNat ((c.g.getS c.n2).setWidth 8))
    ∧ (Issues (.xadd d a) s c →
        WritesIndex (.xadd d a) s c d.toNat (c.g.getX d.toNat + (c.g.getS c.n2).setWidth 8))
    ∧ (Issues (.xget d a) s c → WritesScalar (.xget d a) s c ((c.g.getX a.toNat).setWidth 64))

/-- R54, R104: MODE writes the old mode register to sd and takes from sa the fields that its fn bits select; a forbidden
element type or rounding mode is ILLEGAL and changes nothing. -/
def Sys2Proof.ModeWordResults : Prop :=
  ∀ (s : State) (c : Ctx) (d a : BitVec 8) (f : BitVec 3), Issues (.mode d a f) s c →
    let v := c.g.getS c.n2
    let vt := if f.getLsbD 0 then v.extractLsb' 0 5 else c.g.mode.extractLsb' 0 5
    let rm := if f.getLsbD 1 then v.extractLsb' 5 3 else c.g.mode.extractLsb' 5 3
    let cm := if f.getLsbD 2 then v.extractLsb' 8 1 else c.g.mode.extractLsb' 8 1
    let bad := (f.getLsbD 0 ∧ ¬(vt.toNat ≤ 9 ∨ (16 ≤ vt.toNat ∧ vt.toNat ≤ 24))) ∨ (f.getLsbD 1 ∧ 5 ≤ rm.toNat)
    (bad → Traps (.mode d a f) s c 0x01 (c.word.setWidth 64))
    ∧ (¬bad → ∃ t, exec (.mode d a f) s = .next t
        ∧ RegistersOnly s t c (c.g.pc + 4) [.s c.n1] { c.g.specials with mode := (cm ++ rm ++ vt).setWidth 32 }
        ∧ t.regAfter c (.s c.n1) 0 = if c.n1 = 0 then 0 else c.g.mode.setWidth 64)

/-- R45, R47: p15 reads as the live mask, and a word that names it as its destination raises ILLEGAL: as every trap does, it
leaves each register of its group as it was, p15 among them. -/
def Sys2Proof.LiveMaskReadOnly : Prop :=
  (∀ (g : Group) (v : BitVec 32), g.getP 15 = g.live ∧ (g.setP 15 v).getP 15 = g.live)
  ∧ ∀ (a : BitVec 8) (b o k : BitVec 4) (y : BitVec 8), RaisesIllegal (.pset 15 a) ∧ RaisesIllegal (.psetLive 15 a)
    ∧ RaisesIllegal (.plog 15 a b o) ∧ RaisesIllegal (.vcmpp 15 k a y) ∧ RaisesIllegal (.mxacq 15)

/-- R45, R47, R54, R102 to R104: the words of predicates and index registers, MODE, and the live mask as p15. -/
def Obligations.PredicateAndModeWords : Prop := PredicateWordResults ∧ ModeWordResults ∧ LiveMaskReadOnly

/-- R102, R105, R223: the words that move values into the lanes, and SMOVV, which reads one lane whatever the mask and
raises UNCORRECTABLE when that lane is poisoned. -/
def Obligations.LaneMoveResults : Prop :=
  ∀ (s : State) (c : Ctx) (d a : BitVec 8),
    (Issues (.vlane d) s c → WritesLanes (.vlane d) s c fun l => BitVec.ofNat 64 l)
    ∧ (Issues (.vlaneBlk d) s c → WritesLanes (.vlaneBlk d) s c fun l => BitVec.ofNat 64 (32 * c.gid + l))
    ∧ (Issues (.vlaneQuad d) s c → WritesLanes (.vlaneQuad d) s c fun l => BitVec.ofNat 64 (l % 4))
    ∧ (Issues (.vmovs d a) s c → WritesLanes (.vmovs d a) s c fun _ => c.g.getS c.n2)
    ∧ (Issues (.vmov d a) s c → WritesLanes (.vmov d a) s c fun l => c.g.getV c.n2 l)
    ∧ (∀ n : BitVec 16, Issues (.vseti d n) s c → WritesLanes (.vseti d n) s c fun _ => c.imm)
    ∧ (∀ n : BitVec 5, Issues (.vmovsLane d a n) s c →
        WritesLanes (.vmovsLane d a n) s c fun l =>
          if l = n.toNat then c.g.getS c.n2 else s.regBefore (.v c.n1) l)
    ∧ (∀ n : BitVec 8, Issues (.smovv d a n) s c →
        ((.v c.n2, n.toNat) ∉ c.g.poison → WritesScalar (.smovv d a n) s c (c.g.getV c.n2 n.toNat))
        ∧ ((.v c.n2, n.toNat) ∈ c.g.poison → Traps (.smovv d a n) s c 0x14 (-1)))

/-! ## Vector integer words -/

/-- The code of an exact integer result in an element of type t: saturated to the type, or modulo 2^w (R116). -/
def Sys2Proof.intCode (sat : Bool) (t : Nat) (r : Int) : Nat :=
  ((if sat then max (intMin t) (min (intMax t) r) else r) % 2 ^ typeWidth t).toNat

/-- The code of element e of field F2 in lane l, and that of field F3, which bcast makes a scalar register (R111). -/
def Sys2Proof.codeA (c : Ctx) (l e : Nat) : Nat := elem (typeWidth c.ty) e (c.g.getV c.n2 l)
/-- The code of element e of field F3. -/
def Sys2Proof.codeB (c : Ctx) (l e : Nat) : Nat :=
  elem (typeWidth c.ty) e (if c.m.bcast then c.g.getS c.n3 else c.g.getV c.n3 l)
/-- The code of element e of field F1, where it is a source. -/
def Sys2Proof.codeD (c : Ctx) (l e : Nat) : Nat := elem (typeWidth c.ty) e (c.g.getV c.n1 l)

/-- The two-operand integer vector words: result code by sat, type and the two codes (R116, R117). -/
def Sys2Proof.vectorInteger : List ((BitVec 8 → BitVec 8 → BitVec 8 → Instr) × (Bool → Nat → Nat → Nat → Nat)) := [
  (.vadd, fun sat t x y => intCode sat t (intVal t x + intVal t y)),
  (.vsub, fun sat t x y => intCode sat t (intVal t x - intVal t y)),
  (.vadds, fun _ t x y => intCode true t (intVal t x + intVal t y)),
  (.vsubs, fun _ t x y => intCode true t (intVal t x - intVal t y)),
  (.vmul, fun sat t x y => intCode sat t (intVal t x * intVal t y)),
  (.vmulh, fun _ t x y => intCode false t (intVal t x * intVal t y / 2 ^ typeWidth t)),
  (.vmin, fun sat t x y => intCode sat t (min (intVal t x) (intVal t y))),
  (.vmax, fun sat t x y => intCode sat t (max (intVal t x) (intVal t y))),
  (.vabsd, fun _ t x y => (intVal t x - intVal t y).natAbs),
  (.vshl, fun sat t x y => intCode sat t (intVal t x * 2 ^ (y % typeWidth t))),
  (.vshr, fun _ t x y => x / 2 ^ (y % typeWidth t)),
  (.vsar, fun _ t x y => intCode false t (sext (typeWidth t) x / 2 ^ (y % typeWidth t)))]

/-- R109, R111, R116, R117: the two-operand integer vector words, VMAD and the bitwise words complete with their results in
the active lanes and leave inactive lanes unchanged. -/
def Sys2Proof.VectorIntegerResults : Prop :=
  ∀ (s : State) (c : Ctx) (d a b : BitVec 8),
    (∀ p ∈ vectorInteger, Issues (p.1 d a b) s c →
      WritesElems (p.1 d a b) s c fun l e => p.2 c.m.sat c.ty (codeA c l e) (codeB c l e))
    ∧ (Issues (.vmad d a b) s c → WritesElems (.vmad d a b) s c fun l e =>
        intCode c.m.sat c.ty (intVal c.ty (codeD c l e) + intVal c.ty (codeA c l e) * intVal c.ty (codeB c l e)))
    ∧ (Issues (.vand d a b) s c → WritesLanes (.vand d a b) s c fun l =>
        c.g.getV c.n2 l &&& if c.m.bcast then c.g.getS c.n3 else c.g.getV c.n3 l)
    ∧ (Issues (.vor d a b) s c → WritesLanes (.vor d a b) s c fun l =>
        c.g.getV c.n2 l ||| if c.m.bcast then c.g.getS c.n3 else c.g.getV c.n3 l)
    ∧ (Issues (.vxor d a b) s c → WritesLanes (.vxor d a b) s c fun l =>
        c.g.getV c.n2 l ^^^ if c.m.bcast then c.g.getS c.n3 else c.g.getV c.n3 l)

/-- The one-operand integer vector words: result code by sat, type and code (R119). -/
def Sys2Proof.vectorBits : List ((BitVec 8 → BitVec 8 → Instr) × (Bool → Nat → Nat → Nat)) := [
  (.vbitPopc, fun _ t x => (List.range (typeWidth t)).countP fun k => x.testBit k),
  (.vbitClz, fun _ t x => ((List.range (typeWidth t)).find? fun k => x.testBit (typeWidth t - 1 - k)).getD (typeWidth t)),
  (.vbitCtz, fun _ t x => ((List.range (typeWidth t)).find? fun k => x.testBit k).getD (typeWidth t)),
  (.vbitNot, fun _ t x => 2 ^ typeWidth t - 1 - x),
  (.vbitNeg, fun sat t x => intCode sat t (-intVal t x)),
  (.vbitAbs, fun sat t x => intCode sat t (intVal t x).natAbs)]

/-- The integer vector words with an immediate: result code by sat, type, code and immediate (R118). -/
def Sys2Proof.vectorImmediate : List ((BitVec 8 → BitVec 8 → BitVec 8 → Instr) × (Bool → Nat → Nat → U64 → Nat)) := [
  (.vaddi, fun sat t x n => intCode sat t (intVal t x + n.toInt)),
  (.vmuli, fun sat t x n => intCode sat t (intVal t x * n.toInt)),
  (.vshli, fun sat t x n => intCode sat t (intVal t x * 2 ^ (n.toNat % typeWidth t))),
  (.vshri, fun _ t x n => x / 2 ^ (n.toNat % typeWidth t)),
  (.vsari, fun _ t x n => intCode false t (sext (typeWidth t) x / 2 ^ (n.toNat % typeWidth t)))]

/-- R118, R119: the one-operand and immediate integer vector words complete with their results in the active lanes. -/
def Sys2Proof.VectorBitResults : Prop :=
  ∀ (s : State) (c : Ctx) (d a : BitVec 8),
    (∀ p ∈ vectorBits, Issues (p.1 d a) s c →
      WritesElems (p.1 d a) s c fun l e => p.2 c.m.sat c.ty (codeA c l e))
    ∧ (Issues (.vbitBrev d a) s c → ∃ f, WritesElems (.vbitBrev d a) s c f ∧ ∀ l e k, k < typeWidth c.ty →
        (f l e).testBit k = (codeA c l e).testBit (typeWidth c.ty - 1 - k))
    ∧ ∀ p ∈ vectorImmediate, ∀ n, Issues (p.1 d a n) s c →
      WritesElems (p.1 d a n) s c fun l e => p.2 c.m.sat c.ty (codeA c l e) c.imm

/-- R117: the majors of the vector shifts. -/
def Sys2Proof.ShiftFormats : Prop :=
  ∀ d a b : BitVec 8, Encodes (.vshl d a b) 0x4A d a b ∧ Encodes (.vshr d a b) 0x4B d a b ∧ Encodes (.vsar d a b) 0x4C d a b

/-- R109, R111, R116 to R119: every vector integer word completes with its result, element by element. -/
def Obligations.VectorIntegerWords : Prop := VectorIntegerResults ∧ VectorBitResults ∧ ShiftFormats

/-- R120 to R122: VCMPP writes the bit of each active lane by its relation over the lane's elements, all of them or any of
them, and keeps the other bits; VLTM and VEQM write masks; VSEL takes each element by the top bit of vd's. -/
def Sys2Proof.ComparisonResults : Prop :=
  ∀ (s : State) (c : Ctx) (d a b : BitVec 8),
    (∀ p k : BitVec 4, Issues (.vcmpp p k a b) s c → ∃ v, WritesPredicate (.vcmpp p k a b) s c p.toNat v ∧
      ∀ l < 32, v.getLsbD l = if c.mask.getLsbD l then
          (let r := (List.range (typeElems c.ty)).map fun e => relElem c.ty (k.toNat % 8) (codeA c l e) (codeB c l e)
           if k.toNat < 8 then r.all id else r.any id)
        else (s.regBefore (.p p.toNat) 0).getLsbD l)
    ∧ (Issues (.vltm d a b) s c → WritesElems (.vltm d a b) s c fun l e =>
        if relElem c.ty 2 (codeA c l e) (codeB c l e) then 2 ^ typeWidth c.ty - 1 else 0)
    ∧ (Issues (.veqm d a b) s c → WritesElems (.veqm d a b) s c fun l e =>
        if relElem c.ty 0 (codeA c l e) (codeB c l e) then 2 ^ typeWidth c.ty - 1 else 0)
    ∧ (Issues (.vsel d a b) s c → WritesElems (.vsel d a b) s c fun l e =>
        if (codeD c l e).testBit (typeWidth c.ty - 1) then codeA c l e else codeB c l e)

/-- The order of two values that are not NaN (R122): −∞ lies below and +∞ above every number, and two numbers are compared as
integers in units of the lower of their exponents; both zeros are 0. -/
def Sys2Proof.Below (x y : Val) : Prop :=
  let num (neg : Bool) (m : Nat) (k : Int) : Int := (if neg then -1 else 1) * (m * 2 ^ k.toNat)
  match x, y with
  | .inf true, .inf true => False
  | .inf true, _ => True
  | .inf false, _ => False
  | _, .inf neg => neg = false
  | .fin n m a, .fin n' m' b => num n m (a - min a b) < num n' m' (b - min a b)
  | _, _ => False

/-- R120: the relations of two integer elements are those of their values, and those of two floating-point elements are
those of theirs, but that all are false when either is NaN, except ne and un, which then hold. -/
def Sys2Proof.RelationMeaning : Prop :=
  (∀ t a b, typeInt t = true →
    (relElem t 0 a b = true ↔ intVal t a = intVal t b) ∧ (relElem t 1 a b = true ↔ intVal t a ≠ intVal t b)
    ∧ (relElem t 2 a b = true ↔ intVal t a < intVal t b) ∧ (relElem t 3 a b = true ↔ intVal t a ≤ intVal t b)
    ∧ (relElem t 4 a b = true ↔ intVal t b < intVal t a) ∧ (relElem t 5 a b = true ↔ intVal t b ≤ intVal t a)
    ∧ relElem t 6 a b = false ∧ relElem t 7 a b = true)
  ∧ (∀ t a b, typeInt t = false → (typeVal t a).isNan = true ∨ (typeVal t b).isNan = true →
    relElem t 1 a b = true ∧ relElem t 6 a b = true ∧ ∀ k ∈ [0, 2, 3, 4, 5, 7], relElem t k a b = false)
  ∧ ∀ t a b, typeInt t = false → (typeVal t a).isNan = false → (typeVal t b).isNan = false →
    let lt := Below (typeVal t a) (typeVal t b)
    let gt := Below (typeVal t b) (typeVal t a)
    (relElem t 0 a b = true ↔ ¬lt ∧ ¬gt) ∧ (relElem t 1 a b = true ↔ lt ∨ gt) ∧ (relElem t 2 a b = true ↔ lt)
    ∧ (relElem t 3 a b = true ↔ ¬gt) ∧ (relElem t 4 a b = true ↔ gt) ∧ (relElem t 5 a b = true ↔ ¬lt)
    ∧ relElem t 6 a b = false ∧ relElem t 7 a b = true

/-- R120 to R122: comparisons, masks and selection, and what the relations of two elements mean. -/
def Obligations.ComparisonWords : Prop :=
  ComparisonResults ∧ RelationMeaning ∧ ∀ d a b : BitVec 8, Encodes (.vsel d a b) 0x58 d a b

/-- R123: the words that rearrange elements within a lane, by the element of va that each element takes; a k at or above
the number of elements is ILLEGAL. -/
def Sys2Proof.SwizzleResults : Prop :=
  ∀ (s : State) (c : Ctx) (d a : BitVec 8) (k : BitVec 4),
    let n := typeElems c.ty
    (∀ p ∈ [(Instr.vswzXor, fun e => e ^^^ k.toNat), (Instr.vswzBcst, fun _ => k.toNat),
        (Instr.vswzRot, fun e => (e + k.toNat) % n)], Issues (p.1 d a k) s c →
      (k.toNat < n → WritesElems (p.1 d a k) s c fun l e => codeA c l (p.2 e))
      ∧ (n ≤ k.toNat → Traps (p.1 d a k) s c 0x01 (c.word.setWidth 64)))
    ∧ (Issues (.vswzRev d a) s c → WritesElems (.vswzRev d a) s c fun l e => codeA c l (n - 1 - e))

/-- R124, R125: VPACK narrows the elements of va, then those of vb, to half their width, saturated or not; VUNPK widens
the lower or the upper half of va's elements. -/
def Sys2Proof.PackResults : Prop :=
  ∀ (s : State) (c : Ctx) (d a b : BitVec 8),
    let w := typeWidth c.ty
    let n := typeElems c.ty
    (Issues (.vpack d a b) s c → ∃ f, WritesLanes (.vpack d a b) s c f ∧ ∀ l, ∀ e < n,
      elem (w / 2) e (f l) = intCode c.m.sat (halfType c.ty) (intVal c.ty (codeA c l e)) % 2 ^ (w / 2)
      ∧ elem (w / 2) (n + e) (f l) = intCode c.m.sat (halfType c.ty) (intVal c.ty (codeB c l e)) % 2 ^ (w / 2))
    ∧ ∀ p ∈ [(Instr.vunpkLo, 0), (Instr.vunpkHi, 1)], Issues (p.1 d a) s c → ∃ f, WritesLanes (p.1 d a) s c f ∧
      ∀ l, ∀ e < n / 2, elem (2 * w) e (f l) = ((intVal c.ty (codeA c l (n / 2 * p.2 + e))) % 2 ^ (2 * w)).toNat

/-- R123 to R125: swizzles and packs move elements as their rules say. -/
def Obligations.ByteWords : Prop := SwizzleResults ∧ PackResults

/-! ## Vector floating point -/

/-- An element's value as an arithmetic instruction reads it: a subnormal counts as a zero of its sign under FLUSH (R74). -/
def Sys2Proof.operand (c : Ctx) (x : Nat) : Val := readAs (ctFlush c.eff) c.ty x

/-- The code of an exact result: rounded once to the element type and, under FLUSH, a subnormal F32 result replaced by a
zero of its sign (R74, R126). -/
def Sys2Proof.rounded (c : Ctx) (rm : Nat) (sat : Bool) (v : Val) : Nat := roundedTo (ctFlush c.eff) c.ty rm sat v

/-- The exact results of the two-operand floating-point words; the flag is that of RDN (R126, R127, R131). -/
def Sys2Proof.vectorFloat : List ((BitVec 8 → BitVec 8 → BitVec 8 → Instr) × (Bool → Val → Val → Val)) := [
  (.vfadd, fun rdn x y => Val.add rdn x y),
  (.vfsub, fun rdn x y => Val.add rdn x y.neg),
  (.vfmul, fun _ x y => Val.mul x y),
  (.vfdiv, fun _ x y => Val.div x y)]

/-- The multiply-adds on a product and an addend (R128). -/
def Sys2Proof.multiplyAdd : List ((BitVec 8 → BitVec 8 → BitVec 8 → Instr) × (Bool → Val → Val → Val)) := [
  (.vfma, fun rdn p z => Val.add rdn p z),
  (.vfms, fun rdn p z => Val.add rdn p z.neg),
  (.vfnma, fun rdn p z => Val.add rdn z p.neg)]

/-- R126 to R129, R131, R132: the two-operand floating-point words complete with their results in the active lanes: one
rounding of the exact result; under a split contract a multiply-add rounds its product first. -/
def Sys2Proof.VectorFloatResults : Prop :=
  ∀ (s : State) (c : Ctx) (d a b : BitVec 8),
    (∀ p ∈ vectorFloat, Issues (p.1 d a b) s c → WritesElems (p.1 d a b) s c fun l e =>
      rounded c c.g.rm c.m.sat (p.2 (c.g.rm == 2) (operand c (codeA c l e)) (operand c (codeB c l e))))
    ∧ (∀ p ∈ multiplyAdd, Issues (p.1 d a b) s c → WritesElems (p.1 d a b) s c fun l e =>
        let x := Val.mul (operand c (codeA c l e)) (operand c (codeB c l e))
        let x := if ctFused c.eff = true then x else (fmtOf c.ty).val (rounded c c.g.rm c.m.sat x)
        rounded c c.g.rm c.m.sat (p.2 (c.g.rm == 2) x (operand c (codeD c l e))))
    ∧ (∀ p ∈ [(Instr.vfmin, false, false), (Instr.vfmax, true, false), (Instr.vfminm, false, true),
          (Instr.vfmaxm, true, true)], Issues (p.1 d a b) s c → WritesElems (p.1 d a b) s c fun l e =>
        pick (fmtOf c.ty) p.2.1 p.2.2 (codeA c l e) (codeB c l e))
    ∧ (Issues (.vfscl d a b) s c → WritesElems (.vfscl d a b) s c fun l e =>
        match (fmtOf c.ty).val (codeA c l e) with
        | .inf _ => codeA c l e
        | v => (fmtOf c.ty).round c.g.rm c.m.sat (v.scale (sext (typeWidth c.ty) (codeB c l e))))

/-- The functions of VFUN on an element's value, given rm, before their rounding (R130). -/
def Sys2Proof.unaryFloat : List ((BitVec 8 → BitVec 8 → Instr) × (Nat → Val → Val)) := [
  (.vfunNeg, fun _ x => x.neg),
  (.vfunAbs, fun _ x => x.abs),
  (.vfunRint, fun rm x => x.integral rm),
  (.vfunFloor, fun _ x => x.integral 2),
  (.vfunCeil, fun _ x => x.integral 3),
  (.vfunTrunc, fun _ x => x.integral 1),
  (.vfunFract, fun rm x => Val.add (rm == 2) x (x.integral 2).neg),
  (.vfunRelu, fun _ x => if x = .nan then .nan else if x.cmp Val.zero = .gt then x else Val.zero),
  (.vfunSign, fun _ x => if x = .nan then .nan else if x.isZero = true then x else .fin x.isNeg 1 0)]

/-- The functions of VFSPEC with their fn values (R133). -/
def Sys2Proof.specialFloat : List ((BitVec 8 → BitVec 8 → Instr) × Nat) := [
  (.vfspecRcp, 0), (.vfspecRsqrt, 1), (.vfspecSqrt, 2), (.vfspecExp2, 3), (.vfspecLog2, 4), (.vfspecSinpi, 5),
  (.vfspecCospi, 6), (.vfspecTanh, 7), (.vfspecSilu, 8), (.vfspecErf, 9)]

/-- R130, R133 to R135, R141: VFUN, VFSPEC and VFKEY complete with their results in the active lanes; VFSPEC rounds to
nearest even whatever rm holds. -/
def Sys2Proof.FunctionResults : Prop :=
  ∀ (s : State) (c : Ctx) (d a : BitVec 8),
    (∀ p ∈ unaryFloat, Issues (p.1 d a) s c → WritesElems (p.1 d a) s c fun l e =>
      rounded c c.g.rm false (p.2 c.g.rm (operand c (codeA c l e))))
    ∧ (∀ p ∈ specialFloat, Issues (p.1 d a) s c → WritesElems (p.1 d a) s c fun l e =>
        rounded c 0 false (specVal (s.core c.g.core) c.eff p.2 (operand c (codeA c l e))))
    ∧ (∀ p ∈ [(Instr.vfkeyMax, 0), (Instr.vfkeyMin, 1)], Issues (p.1 d a) s c → WritesElems (p.1 d a) s c fun l e =>
        if ((fmtOf c.ty).val (codeA c l e)).isNan = true then p.2 * (2 ^ typeWidth c.ty - 1)
        else orderKey (fmtOf c.ty) (codeA c l e))
    ∧ (Issues (.vfkeyInv d a) s c → WritesElems (.vfkeyInv d a) s c fun l e => keyInv c.ty (codeA c l e))

/-- R134, R135: the results that VFSPEC's functions give under every revision: at zeros, at infinities, below zero and at 1;
cospi of a zero is 1 under FT4. -/
def Sys2Proof.SpecialValues : Prop :=
  ∀ (k : CoreSt) (ct : Nat) (n : Bool) (m : Nat) (e : Int),
    (∀ p ∈ specialFloat, specVal k ct p.2 .nan = .nan)
    ∧ specVal k ct 0 (.fin n 0 e) = .inf n ∧ (specVal k ct 0 (.inf n)).cmp Val.zero = .eq ∧ (specVal k ct 0 (.inf n)).isNeg = n
    ∧ specVal k ct 1 (.fin n 0 e) = .inf n ∧ specVal k ct 1 (.fin true (m + 1) e) = .nan
    ∧ specVal k ct 1 (.inf true) = .nan ∧ specVal k ct 1 (.inf false) = Val.zero
    ∧ specVal k ct 2 (.fin n 0 e) = .fin n 0 0 ∧ specVal k ct 2 (.fin true (m + 1) e) = .nan
    ∧ specVal k ct 2 (.inf true) = .nan ∧ specVal k ct 2 (.inf false) = .inf false
    ∧ specVal k ct 3 (.fin n 0 e) = .fin false 1 0 ∧ specVal k ct 3 (.inf true) = Val.zero
    ∧ specVal k ct 3 (.inf false) = .inf false
    ∧ specVal k ct 4 (.fin n 0 e) = .inf true ∧ specVal k ct 4 (.fin true (m + 1) e) = .nan
    ∧ specVal k ct 4 (.inf true) = .nan ∧ specVal k ct 4 (.inf false) = .inf false
    ∧ ((Val.fin false (m + 1) e).cmp (.fin false 1 0) = .eq → specVal k ct 4 (.fin false (m + 1) e) = Val.zero)
    ∧ specVal k ct 5 (.inf n) = .nan ∧ specVal k ct 6 (.inf n) = .nan ∧ specVal k ct 5 (.fin n 0 e) = .fin n 0 e
    ∧ (ctFt ct = 4 → specVal k ct 6 (.fin n 0 e) = .fin false 1 0)
    ∧ (∀ f ∈ [7, 9], specVal k ct f (.fin n 0 e) = .fin n 0 e ∧ specVal k ct f (.inf n) = .fin n 1 0)
    ∧ specVal k ct 8 (.fin n 0 e) = .fin n 0 e ∧ specVal k ct 8 (.inf false) = .inf false
    ∧ specVal k ct 8 (.inf true) = .fin true 0 0

/-- One F32 operation, rounded to nearest even; no subnormal is flushed. -/
def Sys2Proof.rnd (v : Val) : Val := fF32.val (fF32.round 0 false v)

/-- An F32 operation of a contract that flushes. -/
def Sys2Proof.flushed (v : Val) : Val := readAs true 0x11 (fF32.round 0 false v)

/-- R136: the table value y for q, in units of segments: its segment's coefficients stand in the almanac image that the core
holds, at the place that R218 gives the table of the revision. -/
def Sys2Proof.tableValue (k : CoreSt) (ft table : Nat) (m : Nat) (e : Int) : Val :=
  let n := 16 * 2 ^ ft
  let i := min (m * 2 ^ e.toNat / 2 ^ (-e).toNat) (n - 1)
  let base := match ft with | 1 => 0x80 | 2 => 0xE00 | _ => 0x2900
  let coef (j : Nat) : Val :=
    let at_ := base + 12 * (n * table + i) + 4 * j
    fF32.val ((k.almImage.get (at_ / 8)).toNat / 2 ^ (8 * (at_ % 8)) % 2 ^ 32)
  let f := rnd (Val.add false (.fin false m e) (Val.ofInt i).neg)
  let sum (a b : Val) : Val := Val.add false a b
  if ft = 1 then flushed (sum (coef 0) (rnd (Val.mul f (rnd (sum (coef 1) (rnd (Val.mul f (coef 2))))))))
  else rnd (sum (coef 0) (Val.mul f (rnd (sum (coef 1) (Val.mul f (coef 2))))))

/-- R136, R137: the functions under FT1 to FT3 at an input that R134 does not list, by its reduction, its table and its
reconstruction; ±m · 2^e with b the number of the leading bit of m, and g = log2 S. -/
def Sys2Proof.TableValues : Prop :=
  ∀ (k : CoreSt) (ct : Nat), ctFt ct ∈ [1, 2, 3] → ∀ (neg : Bool) (n : Nat) (e : Int),
    let m := n + 1
    let x : Val := .fin neg m e
    let ft := ctFt ct
    let g : Int := ft + 4
    let b := Nat.log2 m
    let ex : Int := b + e
    let y (table : Nat) (m : Nat) (e : Int) : Val := tableValue k ft table m (e + g)
    let mant (table : Nat) : Val := y table (m - 2 ^ b) (-b)
    let sign (s : Bool) (v : Val) : Val := if s then v.neg else v
    let is (fn : Nat) (v : Val) : Prop :=
      specVal k ct fn x = if v.isZero then .fin (if fn = 5 then neg else if fn = 6 then false else v.isNeg) 0 0 else v
    is 0 (sign neg ((mant 0).scale (-ex)))
    ∧ (neg = false → is 1 ((mant (1 + (ex % 2).toNat)).scale (-(ex / 2))))
    ∧ (Below (.fin false m e) (.fin false 1 12) → is 3 (
        let u : Int := if neg then -m else m
        let j := 2 ^ (-e).toNat
        (y 3 (u * 2 ^ e.toNat % j).toNat (-(-e).toNat)).scale (u * 2 ^ e.toNat / j)))
    ∧ (neg = false → x.cmp (.fin false 1 0) ≠ .eq → is 4 (Val.add false (Val.ofInt ex) (mant 4)))
    ∧ (∀ j : Nat, e = -j →
        let one := 2 ^ j
        let u := m % (2 * one)
        let r := if u ≤ one then u else 2 * one - u
        let a := if one < 2 * r then one - r else r
        let z := if 2 * r ≤ one then one - 2 * r else 2 * r - one
        is 5 (if a = 0 then Val.zero else sign (neg != decide (one < u)) (y 5 a (1 - j)))
        ∧ is 6 (if z = 0 then Val.zero else sign (decide (one < 2 * r)) (y 5 z (-j))))
    ∧ (0 < e → is 5 Val.zero ∧ is 6 (y 5 1 0))
    ∧ (let mag : Val := .fin false m e
      (Below mag (Val.ofInt 8) → is 7 (sign neg (y 6 m (e - 3)))) ∧ (¬Below mag (Val.ofInt 8) → specVal k ct 7 x = .fin neg 1 0)
      ∧ (Below mag (Val.ofInt 4) → is 9 (sign neg (y 8 m (e - 2)))) ∧ (¬Below mag (Val.ofInt 4) → specVal k ct 9 x = .fin neg 1 0))
    ∧ (let under := Below x (Val.ofInt (-16))
      let within := Below x (Val.ofInt 16)
      let j := (-e).toNat
      let u : Int := if neg then -m else m
      (under → specVal k ct 8 x = .fin true 0 0) ∧ (¬within → specVal k ct 8 x = x)
      ∧ (¬under → within → is 8 (y 7 (16 * 2 ^ j + u * 2 ^ e.toNat).toNat (-j - 5))))

/-- A value that stands for an exact one in a rounding: r units of 2^(q + 1), and one sticky unit of 2^q where the exact one lies
between them and the next; `test` compares a value with the exact one. -/
def Sys2Proof.StandsFor (neg : Bool) (v : Val) (test : Val → Ordering) : Prop :=
  ∃ (r b : Nat) (q : Int), v = .fin neg (2 * r + b) q ∧ 2 ^ 79 ≤ r
    ∧ (b = 0 → test (.fin false (2 * r) q) = .eq)
    ∧ (b ≠ 0 → b = 1 ∧ test (.fin false (2 * r) q) = .lt ∧ test (.fin false (2 * r + 2) q) = .gt)

/-- R135: sqrt under every revision, and 1/x and 1/√x under FT4, by the product that defines each, to more bits than any format
holds; the other functions of FT4 where their value is exact, by their symmetry, and at an input of each. That the series behind
them suffices for every input is log entry 14 (DEDUCED), and no statement. -/
def Sys2Proof.ExactFunctions : Prop :=
  ∀ (k : CoreSt) (ct n : Nat) (e : Int) (neg : Bool),
    let x (s : Bool) : Val := .fin s (n + 1) e
    let one : Val := .fin false 1 0
    StandsFor false (specVal k ct 2 (x false)) (fun v => (Val.mul v v).cmp (x false))
    ∧ (ctFt ct = 4 →
      StandsFor neg (specVal k ct 0 (x neg)) (fun v => (Val.mul v (x false)).cmp one)
      ∧ StandsFor false (specVal k ct 1 (x false)) (fun v => (Val.mul (Val.mul v v) (x false)).cmp one)
      ∧ (∀ i : Int, i ≠ 0 → i.natAbs < 4096 → specVal k ct 3 (Val.ofInt i) = .fin false 1 i)
      ∧ (∀ i : Int, i ≠ 0 → specVal k ct 4 (.fin false 1 i) = Val.ofInt i)
      ∧ (∀ i : Nat, specVal k ct 5 (.fin neg (2 * i + 1) (-1)) = .fin (neg != decide (i % 2 = 1)) 1 0
        ∧ specVal k ct 5 (.fin neg (i + 1) 0) = .fin neg 0 0
        ∧ specVal k ct 6 (.fin neg (2 * i + 1) (-1)) = Val.zero
        ∧ specVal k ct 6 (.fin neg (i + 1) 0) = .fin (decide (i % 2 = 0)) 1 0)
      ∧ (∀ f ∈ [5, 7, 9], specVal k ct f (x true) = (specVal k ct f (x false)).neg)
      ∧ specVal k ct 6 (x true) = specVal k ct 6 (x false)
      ∧ ∀ p ∈ ([(3, one.scale (-1), 0x3FB504F3), (4, Val.ofInt 3, 0x3FCAE00D), (5, one.scale (-2), 0x3F3504F3),
          (7, one, 0x3F42F7D6), (8, one, 0x3F3B26A8), (9, one, 0x3F57BB3D)] : List (Nat × Val × Nat)),
        fF32.round 0 false (specVal k ct p.1 p.2.1) = p.2.2)

/-- The one-operand floating-point words, and the values of the approximated functions. -/
def Obligations.FunctionWords : Prop := FunctionResults ∧ SpecialValues ∧ TableValues ∧ ExactFunctions

/-- R141: the keys of the codes of a type are in the order of their values, −0 below +0, and vfkey.inv takes a key back to
its code. -/
def Sys2Proof.KeysFollowValues : Prop :=
  ∀ t ∈ [0x10, 0x11, 0x12, 0x13, 0x14, 0x15], ∀ x y : Nat, x < 2 ^ typeWidth t → y < 2 ^ typeWidth t →
    ((fmtOf t).val x).isNan = false → ((fmtOf t).val y).isNan = false →
    keyInv t (orderKey (fmtOf t) x) = x
    ∧ orderKey (fmtOf t) ((fmtOf t).signed true 0) < orderKey (fmtOf t) ((fmtOf t).signed false 0)
    ∧ (((fmtOf t).val x).cmp ((fmtOf t).val y) = .lt → orderKey (fmtOf t) x < orderKey (fmtOf t) y)
    ∧ (orderKey (fmtOf t) x < orderKey (fmtOf t) y → ((fmtOf t).val x).cmp ((fmtOf t).val y) ≠ .gt)

/-- R62, R69: rounding the value of a code gives the code back, in every format and rounding mode; a NaN gives the
canonical NaN. -/
def Sys2Proof.RoundingKeepsCodes : Prop :=
  ∀ t ∈ [0x10, 0x11, 0x12, 0x13, 0x14, 0x15, 0x16, 0x17, 0x18], ∀ x : Nat, x < 2 ^ ((fmtOf t).low + 1) →
    ∀ mode < 5, (fmtOf t).round mode false ((fmtOf t).val x) =
      if ((fmtOf t).val x).isNan = true then (fmtOf t).nanCode else x

/-- The value next above the greatest finite one of a type, were its exponent unbounded (R70). -/
def Sys2Proof.beyondMax (t : Nat) : Val :=
  let f := fmtOf t
  Val.add false ((f.val f.maxCode).scale 1) (f.val (f.maxCode - 1)).neg

/-- The code that an overflow, or with `src` an infinite source, gives (R70). -/
def Sys2Proof.overflowCode (t mode : Nat) (sat src neg : Bool) : Nat :=
  let f := fmtOf t
  match t with
  | 0x14 => if sat then f.signed neg 0x7E else 0x7F
  | 0x16 => f.signed neg 0x1F
  | 0x17 => f.signed neg 0x1F
  | 0x18 => f.signed neg 0x07
  | _ =>
    let stays := sat || mode == 1 || (mode == 2 && !neg) || (mode == 3 && neg)
    f.signed neg (if stays && !src then f.maxCode else f.infCode)

/-- R69, R70: a finite value that is not zero rounds to one of the two neighbours of its magnitude, as the mode says; the
magnitude above the greatest finite one overflows. -/
def Sys2Proof.RoundingNeighbours : Prop :=
  ∀ t ∈ [0x10, 0x11, 0x12, 0x13, 0x14, 0x15, 0x16, 0x17, 0x18], ∀ mode < 5, ∀ (sat neg : Bool) (m : Nat) (e : Int),
    let f := fmtOf t
    let x : Val := .fin false (m + 1) e
    (∀ c ≤ f.maxCode,
      let above := if c = f.maxCode then beyondMax t else f.val (c + 1)
      let mid := Val.add false (f.val c) above
      let twice := x.scale 1
      ¬Below x (f.val c) → Below x above →
      let up : Prop := match mode with
        | 0 => Below mid twice ∨ (¬Below twice mid ∧ c % 2 = 1)
        | 1 => False
        | 2 => neg = true ∧ Below (f.val c) x
        | 3 => neg = false ∧ Below (f.val c) x
        | _ => ¬Below twice mid
      (¬up → f.round mode sat (.fin neg (m + 1) e) = f.signed neg c)
      ∧ (up → f.round mode sat (.fin neg (m + 1) e) =
          if c = f.maxCode then overflowCode t mode sat false neg else f.signed neg (c + 1)))
    ∧ (¬Below x (beyondMax t) → f.round mode sat (.fin neg (m + 1) e) = overflowCode t mode sat false neg)

/-- R68, R70 to R72: a conversion, by the kinds of its types. An integer type takes an integer's low bits or, with sat, its
clamped value, and a floating-point value rounded and clamped; a floating-point type takes the value rounded once, an infinity by
the overflow table, a NaN as its canonical NaN or as +0 where it has none, and a zero with its sign. That an integer goes to an
unsigned type of its own width or wider in the same way is the model's choice (log entry 45, DESIGN CHOICE). -/
def Sys2Proof.ConversionMeaning : Prop :=
  ∀ t ∈ tALL, ∀ d ∈ tALL, ∀ mode < 5, ∀ (sat : Bool) (c : Nat), c < 2 ^ typeWidth t →
    let lo : Int := if typeSigned d then -2 ^ (typeWidth d - 1) else 0
    let hi : Int := if typeSigned d then 2 ^ (typeWidth d - 1) - 1 else 2 ^ typeWidth d - 1
    let clamp (x : Int) : Int := max lo (min hi x)
    let code (x : Int) : Nat := (x % 2 ^ typeWidth d).toNat
    (typeInt t = true → typeInt d = true → convert t d mode sat c = code (if sat then clamp (intVal t c) else intVal t c))
    ∧ (typeInt t = false → typeInt d = true → convert t d mode sat c = match typeVal t c with
        | .nan => 0
        | .inf neg => code (if neg then lo else hi)
        | .fin neg m e => code (clamp (integerOf mode neg m e)))
    ∧ (typeInt d = false → convert t d mode sat c = match (if typeInt t then Val.ofInt (intVal t c) else typeVal t c) with
        | .nan => (match d with
          | 0x10 => 0x7FF8000000000000 | 0x11 => 0x7FC00000 | 0x12 => 0x7E00 | 0x13 => 0x7FC0 | 0x14 => 0x7F | 0x15 => 0x7E
          | _ => 0)
        | .inf neg => overflowCode d mode sat true neg
        | .fin neg 0 _ => (fmtOf d).signed neg 0
        | .fin neg m e => (fmtOf d).round mode sat (.fin neg m e))

/-- R55: a fold into AMAX and AMAXNAN. -/
def Sys2Proof.FoldMeaning : Prop :=
  ∀ (a : BitVec 32) (n : Bool), foldAmax (a, n) .nan = (a, true)
    ∧ (∀ s, foldAmax (a, n) (.inf s) = (if 0x7F800000 ≤ a.toNat then a else 0x7F800000, n))
    ∧ ∀ s m e, (foldAmax (a, n) (.fin s m e)).2 = n
      ∧ (foldAmax (a, n) (.fin s m e)).1.toNat = max a.toNat (fF32.round 3 false (.fin false m e))

/-- R55, R62, R68 to R72, R141: the order of codes follows their values; rounding takes a value to a neighbour, and a value of the
format to its code; conversions and folds are made of it. -/
def Obligations.OrderingOfCodes : Prop :=
  KeysFollowValues ∧ RoundingKeepsCodes ∧ RoundingNeighbours ∧ ConversionMeaning ∧ FoldMeaning

/-! ## Dot products, conversions -/

/-- R138 to R140: VDOT forms two sums of products in each active lane, VDOTS one, with zero in the upper half; integer
types sum exactly and wrap or saturate once, floating-point types follow DOT and leave as F32. -/
def Sys2Proof.DotResults : Prop :=
  ∀ (s : State) (c : Ctx) (d a b : BitVec 8),
    let n := typeElems c.ty
    let acc (l k : Nat) : Nat := elem 32 k (c.g.getV c.n1 l)
    let ity := if typeSigned c.ty = true then 2 else 6
    let sum (l k lo hi : Nat) : Nat :=
      let es := (List.range (hi - lo)).map fun e => (codeA c l (lo + e), codeB c l (lo + e))
      if typeInt c.ty = true then
        intCode c.m.sat ity (intVal ity (acc l k) + ((es.map fun p => intVal c.ty p.1 * intVal c.ty p.2).sum))
      else dotOut c.eff (dot c.eff (dotIn c.eff (acc l k)) (es.map fun p => Val.mul (factor c.eff c.ty p.1) (factor c.eff c.ty p.2)))
    (Issues (.vdot d a b) s c → ∃ f, WritesLanes (.vdot d a b) s c f ∧ ∀ l,
      elem 32 0 (f l) = sum l 0 0 (n / 2) % 2 ^ 32 ∧ elem 32 1 (f l) = sum l 1 (n / 2) n % 2 ^ 32)
    ∧ (Issues (.vdots d a b) s c → ∃ f, WritesLanes (.vdots d a b) s c f ∧ ∀ l,
        elem 32 0 (f l) = sum l 0 0 n % 2 ^ 32 ∧ elem 32 1 (f l) = 0)

/-- The parameters of DOT under each contract (R75): g, T (none for exact), ACCIN, ACCW and whether SUBN is FLUSH. -/
def Sys2Proof.dotRows : List (Nat × Nat × Option Nat × Bool × Nat × Bool) := [
  (0, 16, none, false, 32, false), (1, 4, some 24, true, 24, true), (2, 8, some 27, false, 24, false),
  (3, 16, none, false, 24, false), (4, 16, none, false, 32, false)]

/-- The largest floor(log2 |x|) of the nonzero finite members of a group. -/
def Sys2Proof.topOf : List Val → Option Int
  | [] => none
  | .fin _ (m + 1) e :: l => some (match topOf l with
    | some x => max x (Nat.log2 (m + 1) + e)
    | none => Nat.log2 (m + 1) + e)
  | _ :: l => topOf l

/-- A member truncated toward zero to a multiple of 2^q. -/
def Sys2Proof.truncated (q : Int) : Val → Val
  | .fin n m e => if m = 0 then .fin n m e
    else (let u := if q ≤ e then m * 2 ^ (e - q).toNat else m / 2 ^ (q - e).toNat; .fin n u (if u = 0 then 0 else q))
  | v => v

/-- One group of DOT (R77): the sum of its members, truncated where the contract truncates, is added and rounded once. -/
def Sys2Proof.dotGroup (T : Option Nat) (accin : Bool) (f : Fmt) (flush : Bool) (a : Val) (ts : List Val) : Nat :=
  let M := if accin then a :: ts else ts
  let infinite := M.any fun v => match v with
    | .fin .. => false
    | _ => true
  let M := match T, topOf M with
    | some T, some E => if infinite then M else M.map (truncated (E - T))
    | _, _ => M
  let s := M.tail.foldl (Val.add false) (M.headD Val.zero)
  let r := f.round 0 false (if accin then s else Val.add false a s)
  if flush = true ∧ f.subnormal r = true then f.signed (r.testBit f.low) 0 else r

/-- R75, R77 to R79: DOT takes its terms in groups of g, one after another, each as `dotGroup` says; a NaN among the accumulator and
the terms gives the canonical NaN; what leaves the unit is rounded to F32. -/
def Sys2Proof.DotMeaning : Prop :=
  ∀ ct g T accin accw flush, (ct, g, T, accin, accw, flush) ∈ dotRows → let f : Fmt := ⟨8, accw - 1, 127, .ieee⟩
    (∀ x t, factor ct t x = if typeInt t = true then typeVal t x else readAs flush t (typeCode t x))
    ∧ (∀ x, dotIn ct x = f.round 0 false (readAs flush 0x11 x)) ∧ (∀ x, dotOut ct x = fF32.round 0 false (f.val x))
    ∧ ∀ (acc : Nat) (ts : List Val), acc < 2 ^ (f.low + 1) →
      ((f.val acc).isNan = true ∨ (∃ t ∈ ts, t.isNan = true) → dot ct acc ts = f.nanCode)
      ∧ ((f.val acc).isNan = false → dot ct acc [] = acc)
      ∧ ((f.val acc).isNan = false → (∀ t ∈ ts, t.isNan = false) → ts ≠ [] → ts.length ≤ g →
        dot ct acc ts = dotGroup T accin f flush (f.val acc) ts)
      ∧ (dot ct acc ts = dot ct (dot ct acc (ts.take g)) (ts.drop g))

/-- The worked examples of R77 to R79 under contracts 1 to 4: what a VDOT over four pairs and a sum of ten terms leave. -/
def Sys2Proof.DotExamples : Prop :=
  let small (m : Nat) (e : Int) : List Val := .fin false 1 0 :: List.replicate 3 (.fin false m e)
  let ten : List Val := .fin false 1 0 :: (List.replicate 6 Val.zero ++ List.replicate 2 (.fin false 1 (-24)) ++ [Val.zero])
  let of (ct : Nat) (ts : List Val) : Nat := dotOut ct (dot ct (dotIn ct 0) ts)
  ([1, 2, 3, 4].map fun ct => of ct (small 3 (-25))) = [0x3F800002, 0x3F800002, 0x3F800002, 0x3F800002]
  ∧ ([1, 2, 3, 4].map fun ct => of ct (small 3 (-26))) = [0x3F800000, 0x3F800001, 0x3F800001, 0x3F800001]
  ∧ ([1, 2, 3, 4].map fun ct => of ct ten) = [0x3F800000, 0x3F800000, 0x3F800001, 0x3F800001]

/-- The two- and three-operand floating-point words, and DOT. -/
def Obligations.FloatWords : Prop := VectorFloatResults ∧ DotResults ∧ DotMeaning ∧ DotExamples

/-- The code of a converted element (R143): with equal types it stays, a NaN becoming canonical. -/
def Sys2Proof.converted (c : Ctx) (dst rnd : Nat) (x : Nat) : Nat :=
  if c.ty = dst then (if (typeVal c.ty x).isNan = true then (fmtOf c.ty).nanCode else typeCode c.ty x)
  else convert c.ty dst rnd c.m.sat x

/-- The special registers after a conversion: a NaN of an active live lane that goes to a type without NaN sets AMAXNAN
(R71, R143). -/
def Sys2Proof.convertedSpecials (c : Ctx) (dst : Nat) : Specials :=
  let lost := (List.range 32).any fun l => c.mask.getLsbD l && c.g.live.getLsbD l
    && (List.range (typeElems c.ty)).any fun e => (typeVal c.ty (codeA c l e)).isNan && !typeHasNan dst
  { c.g.specials with amaxNan := c.g.amaxNan || lost }

/-- The word `i` completes, changing registers and AMAX alone: element j of va, converted, becomes element j mod Ed of
register vd + j / Ed in the active lanes, and the elements that are left become zero. -/
def Sys2Proof.ConvertsTo (i : Instr) (s : State) (c : Ctx) (dst rnd : Nat) (sp : Specials) : Prop :=
  let n := typeElems c.ty
  let m := typeElems dst
  let run := max 1 (n / m)
  ∃ u, exec i s = .next u ∧ RegistersOnly s u c (c.g.pc + 4) ((List.range run).map fun k => .v (c.n1 + k)) sp
    ∧ ∀ l < 32, ∀ k < run,
      (c.mask.getLsbD l = true → ∀ e < m, elem (typeWidth dst) e (u.regAfter c (.v (c.n1 + k)) l) =
        if m * k + e < n then converted c dst rnd (codeA c l (m * k + e)) % 2 ^ typeWidth dst else 0)
      ∧ (c.mask.getLsbD l = false → u.regAfter c (.v (c.n1 + k)) l = s.regBefore (.v (c.n1 + k)) l)

/-- R71, R142 to R144: VCVT and VCVTA complete with the converted elements; VCVTA also folds the source elements of the
active live lanes into AMAX and AMAXNAN. -/
def Sys2Proof.ConversionResults : Prop :=
  ∀ (s : State) (c : Ctx) (d a : BitVec 8) (r : BitVec 3) (t : BitVec 5),
    (Issues (.vcvt d a r t) s c → ConvertsTo (.vcvt d a r t) s c t.toNat r.toNat (convertedSpecials c t.toNat))
    ∧ (Issues (.vcvta d a r t) s c → ConvertsTo (.vcvta d a r t) s c t.toNat r.toNat (
        let sp := convertedSpecials c t.toNat
        let q := (((List.range 32).filter fun l => c.mask.getLsbD l && c.g.live.getLsbD l).flatMap fun l =>
          (List.range (typeElems c.ty)).map fun e => typeVal c.ty (codeA c l e)).foldl foldAmax (sp.amax, sp.amaxNan)
        { sp with amax := q.1, amaxNan := q.2 }))

/-- R145: vf6.split and vf6.join move the bits of FP6 codes between containers and planes, and join reverses split. -/
def Sys2Proof.PlaneResults : Prop :=
  ∀ (s : State) (c : Ctx) (d a : BitVec 8),
    (Issues (.vf6Split d a) s c → ∃ f, WritesLanes (.vf6Split d a) s c f ∧ ∀ l, ∀ i < 8, ∀ j < 4,
      (f l).getLsbD (4 * i + j) = (c.g.getV c.n2 l).getLsbD (8 * i + 2 + j)
      ∧ (j < 2 → (f l).getLsbD (32 + 2 * i + j) = (c.g.getV c.n2 l).getLsbD (8 * i + j)) ∧ (f l).extractLsb' 48 16 = 0)
    ∧ (Issues (.vf6Join d a) s c → ∃ f, WritesLanes (.vf6Join d a) s c f ∧ ∀ l, ∀ i < 8, ∀ j < 4,
        (f l).getLsbD (8 * i + 2 + j) = (c.g.getV c.n2 l).getLsbD (4 * i + j)
        ∧ (j < 2 → (f l).getLsbD (8 * i + j) = (c.g.getV c.n2 l).getLsbD (32 + 2 * i + j))
        ∧ (f l).extractLsb' (8 * i + 6) 2 = 0)

/-- The conversions, and the words of bit planes. -/
def Obligations.ConversionWords : Prop := ConversionResults ∧ PlaneResults

/-! ## Cross-lane words -/

/-- Lane l is active and live. -/
def Sys2Proof.liveIn (c : Ctx) (l : Nat) : Prop := c.mask.getLsbD l = true ∧ c.g.live.getLsbD l = true

/-- Lane l is in the contributing set C (R146). -/
def Sys2Proof.inC (c : Ctx) (l : Nat) : Prop := c.mask.getLsbD l = true ∧ (c.m.scope.getLsbD 0 = true ∨ c.g.live.getLsbD l = true)

/-- A register holds no poison in any lane of a set (R150, R223). -/
def Sys2Proof.Clean (c : Ctx) (x : Reg) (P : Nat → Prop) : Prop := ∀ l, P l → (x, l) ∉ c.g.poison

/-- Element number i of va (R53). -/
def Sys2Proof.numbered (c : Ctx) (i : Nat) : Nat := codeA c (i / typeElems c.ty) (i % typeElems c.ty)

/-- The word `i` completes as `ok` says if its sources are clean, and raises UNCORRECTABLE otherwise. -/
def Sys2Proof.IfClean (i : Instr) (s : State) (c : Ctx) (clean ok : Prop) : Prop := (clean → ok) ∧ (¬clean → Traps i s c 0x14 (-1))

/-- R146, R150, R152 to R154, R160: the words that move elements or whole lanes across lanes complete with the elements
that they name, from active lanes or not, unless a lane is poisoned from which an element moves into an active lane, helper
lanes included. That VSHFL's control vb is consumed by live lanes alone is the model's choice (log entry 22, DEDUCED from R223),
and so is that an element of an FP6 type moves with all eight bits of its container (log entry 54). -/
def Obligations.LaneShuffleResults : Prop :=
  ∀ (s : State) (c : Ctx) (d a : BitVec 8),
    let n := typeElems c.ty
    let va := Reg.v c.n2
    (∀ b, Issues (.vshfl d a b) s c → IfClean (.vshfl d a b) s c
      (Clean c va (fun m => ∃ l, c.mask.getLsbD l = true ∧ ∃ e < n, codeB c l e < 32 * n ∧ codeB c l e / n = m)
        ∧ (c.m.bcast = true ∨ Clean c (.v c.n3) (liveIn c)))
      (WritesElems (.vshfl d a b) s c fun l e => if codeB c l e < 32 * n then numbered c (codeB c l e) else 0))
    ∧ (∀ k, Issues (.vrot d a k) s c → IfClean (.vrot d a k) s c
        (Clean c va fun m => ∃ l, c.mask.getLsbD l = true ∧ ∃ e < n, (l * n + e + c.imm.toNat) % (32 * n) / n = m)
        (WritesElems (.vrot d a k) s c fun l e => numbered c ((l * n + e + c.imm.toNat) % (32 * n))))
    ∧ (∀ k : BitVec 5, Issues (.vbcst d a k) s c → IfClean (.vbcst d a k) s c
        (Clean c va fun m => m = k.toNat ∧ ∃ l, c.mask.getLsbD l = true)
        (WritesLanes (.vbcst d a k) s c fun _ => c.g.getV c.n2 k.toNat))
    ∧ (Issues (.vbcstFirst d a) s c →
        ((∀ l < 32, ¬inC c l) → GoesTo (.vbcstFirst d a) s c (c.g.pc + 4))
        ∧ ∀ k < 32, inC c k → (∀ l < k, ¬inC c l) → IfClean (.vbcstFirst d a) s c (Clean c va (inC c))
            (WritesLanes (.vbcstFirst d a) s c fun _ => c.g.getV c.n2 k))
    ∧ (∀ k : BitVec 2, Issues (.vqxSwap d a k) s c → IfClean (.vqxSwap d a k) s c
        (Clean c va fun m => ∃ l, c.mask.getLsbD l = true ∧ l ^^^ k.toNat = m)
        (WritesLanes (.vqxSwap d a k) s c fun l => c.g.getV c.n2 (l ^^^ k.toNat)))
    ∧ ∀ k : BitVec 2, Issues (.vqxBcst d a k) s c → IfClean (.vqxBcst d a k) s c
        (Clean c va fun m => ∃ l, c.mask.getLsbD l = true ∧ l / 4 * 4 + k.toNat = m)
        (WritesLanes (.vqxBcst d a k) s c fun l => c.g.getV c.n2 (l / 4 * 4 + k.toNat))

/-- The elements of the lanes of C with their numbers, in increasing order (R146). -/
def Sys2Proof.contributed (c : Ctx) : List (Nat × Nat) :=
  ((List.range (32 * typeElems c.ty)).filter fun i => c.mask.getLsbD (i / typeElems c.ty)
    && (c.m.scope.getLsbD 0 || c.g.live.getLsbD (i / typeElems c.ty))).map fun i => (i, numbered c i)

/-- A code of the element type extended to 64 bits (R155). -/
def Sys2Proof.extended (c : Ctx) (x : Nat) : U64 := if typeInt c.ty = true then ofInt64 (intVal c.ty x) else BitVec.ofNat 64 x

/-- The code of a floating-point element with NaN canonical. -/
def Sys2Proof.canonical (c : Ctx) (x : Nat) : Nat := if (typeVal c.ty x).isNan = true then (fmtOf c.ty).nanCode else x

/-- The reductions to a scalar, of the codes of the elements of C in order (R155, R156). -/
def Sys2Proof.reductions : List ((BitVec 8 → BitVec 8 → Instr) × (Ctx → List Nat → U64)) := [
  (.vredAdd, fun c l => extended c (intCode false c.ty (l.map (intVal c.ty)).sum)),
  (.vredAdds, fun c l => ofInt64 (max (intMin c.ty) (min (intMax c.ty) (l.map (intVal c.ty)).sum))),
  (.vredAddw, fun c l => ofInt64 (l.map (intVal c.ty)).sum),
  (.vredMin, fun c l => ofInt64 (l.foldl (fun m x => min m (intVal c.ty x)) (intMax c.ty))),
  (.vredMax, fun c l => ofInt64 (l.foldl (fun m x => max m (intVal c.ty x)) (intMin c.ty))),
  (.vredAnd, fun c l => extended c (l.foldl (fun m x => m &&& x) (2 ^ typeWidth c.ty - 1))),
  (.vredOr, fun c l => extended c (l.foldl (fun m x => m ||| x) 0)),
  (.vredXor, fun c l => extended c (l.foldl (fun m x => m ^^^ x) 0)),
  (.vredFadd, fun c l => BitVec.ofNat 64 (dotOut c.eff (dot c.eff 0 (l.map (factor c.eff c.ty))))),
  (.vredFmin, fun c l => extended c (match l with
    | [] => (fmtOf c.ty).infCode
    | x :: r => r.foldl (pick (fmtOf c.ty) false false) (canonical c x))),
  (.vredFmax, fun c l => extended c (match l with
    | [] => (fmtOf c.ty).signed true (fmtOf c.ty).infCode
    | x :: r => r.foldl (pick (fmtOf c.ty) true false) (canonical c x)))]

/-- R146, R150, R155, R156: each reduction completes with its value over the elements of C in sd, or raises UNCORRECTABLE
where a lane of C is poisoned. -/
def Sys2Proof.ReductionResults : Prop :=
  ∀ p ∈ reductions, ∀ (s : State) (c : Ctx) (d a : BitVec 8), Issues (p.1 d a) s c →
    IfClean (p.1 d a) s c (Clean c (.v c.n2) (inC c))
      (WritesScalar (p.1 d a) s c (p.2 c ((contributed c).map Prod.snd)))

/-- A code comes before another as the greatest or the least (R157): −0 lies below +0. -/
def Sys2Proof.Outranks (t : Nat) (greatest : Bool) (x y : Nat) : Prop :=
  if typeInt t = true then (if greatest then intVal t y < intVal t x else intVal t x < intVal t y)
  else if greatest then orderKey (fmtOf t) y < orderKey (fmtOf t) x else orderKey (fmtOf t) x < orderKey (fmtOf t) y

/-- R157: VREDI writes to sd an extreme of the elements of C that are not NaN and to sd + 1 its number, the least among
equals; with C empty, the identity and 0xFFFFFFFF; with every element NaN, the canonical NaN and the first number. -/
def Sys2Proof.ExtremeResults : Prop :=
  ∀ p ∈ [(Instr.vrediMin, false), (Instr.vrediMax, true)], ∀ (s : State) (c : Ctx) (d a : BitVec 8),
    Issues (p.1 d a) s c → IfClean (p.1 d a) s c (Clean c (.v c.n2) (inC c))
      (∃ t x n, exec (p.1 d a) s = .next t ∧ RegistersOnly s t c (c.g.pc + 4) [.s c.n1, .s (c.n1 + 1)] c.g.specials
        ∧ t.regAfter c (.s c.n1) 0 = (if c.n1 = 0 then 0 else extended c x)
        ∧ t.regAfter c (.s (c.n1 + 1)) 0 = BitVec.ofNat 64 n
        ∧ let vs := (contributed c).filter fun q => !(typeVal c.ty q.2).isNan
          (vs ≠ [] → (n, x) ∈ vs ∧ ∀ q ∈ vs, ¬Outranks c.ty p.2 q.2 x ∧ (¬Outranks c.ty p.2 x q.2 → n ≤ q.1))
          ∧ (vs = [] → contributed c ≠ [] → x = (fmtOf c.ty).nanCode ∧ ((contributed c).map Prod.fst).head? = some n)
          ∧ (contributed c = [] → n = 0xFFFFFFFF ∧ x =
              if typeInt c.ty = true then intCode false c.ty (if p.2 then intMin c.ty else intMax c.ty)
              else (fmtOf c.ty).signed p.2 (fmtOf c.ty).infCode))

/-- The reductions over lanes. -/
def Obligations.ReductionWords : Prop := ReductionResults ∧ ExtremeResults

/-- The combinations of VSCAN by op (R159): what one element alone gives, a step, and the value of none. Under FLUSH a subnormal
running value counts as a zero in the next step (log entry 54, DESIGN CHOICE). -/
def Sys2Proof.scanning (c : Ctx) : List ((Nat → Nat) × (Nat → Nat → Nat) × Nat) :=
  let f := fmtOf c.ty
  let v := intVal c.ty
  [(id, fun a x => intCode false c.ty (v a + v x), 0),
   (id, fun a x => intCode false c.ty (min (v a) (v x)), intCode false c.ty (intMax c.ty)),
   (id, fun a x => intCode false c.ty (max (v a) (v x)), intCode false c.ty (intMin c.ty)),
   (id, fun a x => a &&& x, 2 ^ typeWidth c.ty - 1),
   (id, fun a x => a ||| x, 0),
   (id, fun a x => a ^^^ x, 0),
   (fun x => if ctFlush c.eff = true ∧ f.subnormal x = true then f.signed (x.testBit f.low) 0 else canonical c x,
     fun a x => rounded c 0 false (Val.add false (operand c a) (operand c x)), 0),
   (canonical c, pick f false false, f.infCode),
   (canonical c, pick f true false, f.signed true f.infCode)]

/-- R159, R160: VSCAN gives each element the running combination of the elements of C up to it (below it, if exclusive);
the quad words give each element the combination over the lanes of its quad that are in C. -/
def Sys2Proof.ScanAndQuadResults : Prop :=
  ∀ (s : State) (c : Ctx) (d a : BitVec 8),
    let n := typeElems c.ty
    let clean := Clean c (.v c.n2) (inC c)
    let quad (l e : Nat) : List Nat := ((List.range 4).map fun j => l / 4 * 4 + j).filterMap fun m =>
      if c.mask.getLsbD m && (c.m.scope.getLsbD 0 || c.g.live.getLsbD m) then some (codeA c m e) else none
    (∀ (x : BitVec 1) (o : BitVec 4), Issues (.vscan d a x o) s c → IfClean (.vscan d a x o) s c clean
      (WritesElems (.vscan d a x o) s c fun l e =>
        let upTo := (contributed c).filter fun q => if x = 1 then decide (q.1 < l * n + e) else decide (q.1 ≤ l * n + e)
        let op := (scanning c).getD o.toNat (id, fun a _ => a, 0)
        match upTo.map Prod.snd with
        | [] => op.2.2
        | y :: r => r.foldl op.2.1 (op.1 y)))
    ∧ (Issues (.vqxAdd d a) s c → IfClean (.vqxAdd d a) s c clean (WritesElems (.vqxAdd d a) s c fun l e =>
        if typeInt c.ty = true then intCode false c.ty ((quad l e).map (intVal c.ty)).sum
        else match (quad l e).map (operand c) with
          | [] => 0
          | v :: r => rounded c c.g.rm false (r.foldl (Val.add (c.g.rm == 2)) v)))
    ∧ ∀ p ∈ [(Instr.vqxMin, false), (Instr.vqxMax, true)], Issues (p.1 d a) s c → IfClean (p.1 d a) s c clean
        (WritesElems (p.1 d a) s c fun l e =>
          if typeInt c.ty = true then
            (if p.2 then intCode false c.ty ((quad l e).foldl (fun m x => max m (intVal c.ty x)) (intMin c.ty))
             else intCode false c.ty ((quad l e).foldl (fun m x => min m (intVal c.ty x)) (intMax c.ty)))
          else match quad l e with
            | [] => (fmtOf c.ty).signed p.2 (fmtOf c.ty).infCode
            | x :: r => r.foldl (pick (fmtOf c.ty) p.2 false) (canonical c x))

/-- R161: the votes of the lanes of C, of the nonzero values of va. -/
def Sys2Proof.VoteResults : Prop :=
  ∀ (s : State) (c : Ctx) (d a : BitVec 8),
    let clean := Clean c (.v c.n2) (inC c)
    let yes (l : Nat) : Prop := inC c l ∧ c.g.getV c.n2 l ≠ 0
    (Issues (.vvoteAny d a) s c → IfClean (.vvoteAny d a) s c clean
      (∃ v, WritesScalar (.vvoteAny d a) s c v ∧ (v = 0 ∨ v = 1) ∧ (v = 1 ↔ ∃ l, yes l)))
    ∧ (Issues (.vvoteAll d a) s c → IfClean (.vvoteAll d a) s c clean
        (∃ v, WritesScalar (.vvoteAll d a) s c v ∧ (v = 0 ∨ v = 1) ∧ (v = 1 ↔ ∀ l, inC c l → yes l)))
    ∧ (Issues (.vvoteBallot d a) s c → IfClean (.vvoteBallot d a) s c clean
        (∃ v, WritesScalar (.vvoteBallot d a) s c v ∧ ∀ l < 64, v.getLsbD l = true ↔ yes l))
    ∧ (Issues (.vvoteUniform d a) s c → IfClean (.vvoteUniform d a) s c clean
        (∃ v, WritesScalar (.vvoteUniform d a) s c v ∧ (v = 0 ∨ v = 1)
          ∧ (v = 1 ↔ (∀ l, inC c l → yes l) ∨ ∀ l, inC c l → ¬yes l)))

/-- R162: in VVOTEM every lane of C names its membership mask, which must name the lane itself and only lanes of C that
name the same mask; otherwise MEMBER_MASK with the lanes that disagree. Each lane then holds the vote of its members by the
bits of ps, and active lanes outside C hold zero. That a poisoned mask raises UNCORRECTABLE ahead of the check of the masks is
the model's choice (log entry 42, DESIGN CHOICE). -/
def Sys2Proof.MemberVoteResults : Prop :=
  ∀ (s : State) (c : Ctx) (d a : BitVec 8) (p : BitVec 4) (o : BitVec 2), Issues (.vvotem d a p o) s c →
    let i := Instr.vvotem d a p o
    let member (l : Nat) : BitVec 32 := (c.g.getV c.n2 l).setWidth 32
    let agrees (l : Nat) : Prop := (member l).getLsbD l = true ∧ ∀ m, (member l).getLsbD m = true → inC c m ∧ member m = member l
    let yes (l : Nat) : BitVec 32 := c.g.getP p.toNat &&& member l
    IfClean i s c (Clean c (.v c.n2) (inC c))
      (((∀ l, inC c l → agrees l) → ∃ f, WritesLanes i s c f ∧ ∀ l < 32, c.mask.getLsbD l = true →
          (¬inC c l → f l = 0)
          ∧ (inC c l → f l = [if yes l ≠ 0 then 1 else 0, if yes l = member l then 1 else 0, (yes l).setWidth 64,
              if yes l = 0 ∨ yes l = member l then 1 else 0].getD o.toNat 0))
        ∧ ((∃ l, inC c l ∧ ¬agrees l) → ∃ b : BitVec 32, (∀ l, b.getLsbD l = true ↔ inC c l ∧ ¬agrees l)
          ∧ Traps i s c 0x0E (b.setWidth 64)))

/-- The votes over lanes and members. -/
def Sys2Proof.VoteWords : Prop := VoteResults ∧ MemberVoteResults

/-- The votes, scans and quad words. -/
def Obligations.LaneVoteAndScanWords : Prop := VoteWords ∧ ScanAndQuadResults

/-! ## Accesses -/

/-- The other groups stand as before, but that those which wait on a barrier object may find it done from then on, where a write
has set its error bit (R182, R183); without barrier objects they all stand. -/
def Sys2Proof.OthersWoken (s t : State) (c : Ctx) : Prop :=
  (∃ hit : BarLoc → Bool, ∀ b g, ¬(b = c.blk ∧ g = c.gid) → t.group b g = (s.group b g).map (Group.barPoke hit))
    ∧ (s.padBars = [] → c.k.bars = [] → OthersKept s t c)

/-- The state after the accesses of the word, seen from outside its group: as `Completes` says, but for groups that wait on
barrier objects. An SC operation moves its core's clock to one above those of all cores (R318; log entry 23, DESIGN CHOICE). -/
def Sys2Proof.Accesses (i : Instr) (s : State) (c : Ctx) (pc : U64) (dst : List Reg) (sp : Specials) (say : State → Prop) : Prop :=
  ∃ t, exec i s = .next t ∧ GroupAfter s t c pc dst sp ∧ OthersWoken s t c ∧ t.outer.lessMem = s.outer.lessMem
    ∧ (∀ n, (t.core n).rest = (s.core n).rest)
    ∧ (∀ b, (t.block b).map (fun k => k.rest.lessShared) = (s.block b).map fun k => k.rest.lessShared) ∧ say t
    ∧ ∀ n, (t.core n).clock = if c.m.order = 3 ∧ n = c.g.core then s.topClock + 1 else (s.core n).clock

/-- `Accesses` for an access by lanes, after which a split region may go on elsewhere (R192). -/
def Sys2Proof.LaneAccesses (i : Instr) (s : State) (c : Ctx) (dst : List Reg) (say : State → Prop) : Prop :=
  ∃ pc, (NoRegion s → pc = c.g.pc + 4) ∧ Accesses i s c pc dst (c.scSpecials s) say

/-- No byte of memory and of any block's shared memory changes. -/
def Sys2Proof.BytesKept (s t : State) : Prop :=
  t.mem = s.mem ∧ t.memBad = s.memBad
    ∧ ∀ b, (t.block b).map (fun k => (k.shared, k.sharedBad)) = (s.block b).map fun k => (k.shared, k.sharedBad)

/-- The value of loaded bytes (R10, R168): little-endian, zero- or sign-extended. -/
def Sys2Proof.loaded (sx : Bool) (bs : List Byte) : U64 :=
  let v := leNat bs
  BitVec.ofInt 64 (if sx ∧ 2 ^ (8 * bs.length) ≤ 2 * v then (v : Int) - 2 ^ (8 * bs.length) else v)

/-- R163 to R166, R170: when an access of n bytes faults, and with what: MISALIGN for an address that is no multiple of n; then the
space's own checks; then UNCORRECTABLE, at the first poisoned byte that it would read. -/
def Sys2Proof.AccessChecks : Prop :=
  ∀ (s : State) (k : Block) (h : Header) (n va : Nat) (r w : Bool), 0 < n →
    let access (space : Nat) := s.checkAcc k h space n va r w
    let fails (space rank : Nat) (cause : BitVec 8) : Prop := access space = .error ⟨rank, cause, va, [], 4⟩
    let first (bad : Nat → Prop) (a : Nat) : Prop := va ≤ a ∧ a < va + n ∧ bad a ∧ ∀ b, va ≤ b → b < a → ¬bad b
    let sound (bad : Nat → Prop) : Prop := ∀ a, va ≤ a → a < va + n → ¬bad a
    (va % n ≠ 0 → ∀ space < 3, fails space 1 0x05)
    ∧ (va % n = 0 →
      (let bound := (h.shared + 4095) / 4096 * 4096
       let bad (a : Nat) : Prop := r = true ∧ a / 8 ∈ k.sharedBad
       (bound < va + n → fails 0 2 0x06) ∧ (va + n ≤ bound → sound bad → access 0 = .ok (.shared va))
       ∧ (va + n ≤ bound → ∀ a, first bad a → access 0 = .error ⟨6, 0x14, a, [], 4⟩))
      ∧ (h.constSize < va + n → fails 2 2 0x06) ∧ (va + n ≤ h.constSize → access 2 = .ok (.const va))
      ∧ (s.mapVa k.part k.ctx va = none → fails 1 2 0x07)
      ∧ ∀ x ia, s.mapVa k.part k.ctx va = some (x, ia) →
        let open_ : Prop := x.ctl.toNat % 8 = 2 ∧ (r = true → x.canR = true) ∧ (w = true → x.canW = true) ∧ x.kindOk ia = true
        (¬open_ → fails 1 3 0x08)
        ∧ (open_ → s.padNames ia n = false → fails 1 4 0x06)
        ∧ (open_ → s.padNames ia n = true →
          (s.padSide k.part ia r w = .deny 5 → access 1 = .error ⟨5, 0x0A, va, [(va, ia, 5)], 4⟩)
          ∧ (∀ kind, kind ≠ 5 → s.padSide k.part ia r w = .deny kind → fails 1 5 0x0A)
          ∧ ∀ key stamp dirty, s.padSide k.part ia r w = .ok key stamp dirty →
            let bad (a : Nat) : Prop := r = true ∧ s.bad (key + (a - va)) = true
            (sound bad → access 1 = .ok (.pad ia key)) ∧ ∀ a, first bad a → access 1 = .error ⟨6, 0x14, a, [], 4⟩))

/-- R106, R164 to R166, R170, R318: SLD reads 2^z bytes at sa + imm into sd, or 16 bytes into sd and sd + 1, and changes no
byte; where the checks of the access find a fault it traps with it and changes nothing else. -/
def Sys2Proof.ScalarLoadResults : Prop :=
  ∀ (s : State) (c : Ctx) (d a : BitVec 8) (x : BitVec 1) (p : BitVec 2) (z : BitVec 3),
    let i := Instr.sld d a x p z
    let n := 2 ^ z.toNat
    let access := s.checkAcc c.k c.h p.toNat n (c.g.getS c.n2 + c.imm).toNat true false
    Issues i s c →
      (∀ q, access = .ok q → Accesses i s c (c.g.pc + 4) (if z = 4 then [.s c.n1, .s (c.n1 + 1)] else [.s c.n1]) (c.scSpecials s) fun t =>
        OthersKept s t c ∧ BytesKept s t ∧
        let bs := s.spotRead c.blk q n
        if z = 4 then t.regAfter c (.s c.n1) 0 = (if c.n1 = 0 then 0 else loaded false (bs.take 8))
          ∧ t.regAfter c (.s (c.n1 + 1)) 0 = loaded false (bs.drop 8)
        else t.regAfter c (.s c.n1) 0 = if c.n1 = 0 then 0 else loaded (x == 1) bs)
      ∧ ∀ f, access = .error f → AccessTraps i s c f

/-- R106, R164 to R166, R170, R183: SST writes the low 2^z bytes of sd at sa + imm, or the 16 of sd and sd + 1, and changes
no register and no other byte; where the checks of the access find a fault it traps with it and writes nothing. -/
def Sys2Proof.ScalarStoreResults : Prop :=
  ∀ (s : State) (c : Ctx) (d a : BitVec 8) (p : BitVec 2) (z : BitVec 3),
    let i := Instr.sst d a p z
    let access := s.checkAcc c.k c.h p.toNat (2 ^ z.toNat) (c.g.getS c.n2 + c.imm).toNat false true
    Issues i s c →
      (∀ q, access = .ok q → Accesses i s c (c.g.pc + 4) [] (c.scSpecials s) fun t => Stored s t c.blk q
        (if z = 4 then leBytes 8 (c.g.getS c.n1).toNat ++ leBytes 8 (c.g.getS (c.n1 + 1)).toNat
         else leBytes (2 ^ z.toNat) (c.g.getS c.n1).toNat))
      ∧ ∀ f, access = .error f → AccessTraps i s c f

/-- The number that an atomic of `w` bits writes, from the old number, the operand and the new number of cas; none where it
writes nothing (R172, R173). -/
def Sys2Proof.atomicResult (flush : Bool) (o w x v n : Nat) : Option Nat :=
  let u := v % 2 ^ w
  [some ((x + u) % 2 ^ w),
   some ((max (-(2 ^ (w - 1) : Int)) (min (2 ^ (w - 1) - 1) (sext w x + sext w u)) % 2 ^ w).toNat),
   some (if sext w u < sext w x then u else x),
   some (if sext w x < sext w u then u else x),
   some (x &&& u), some (x ||| u), some (x ^^^ u), some u,
   (if x = u then some (n % 2 ^ w) else none),
   some (fpAdd flush (if w = 32 then 0x11 else 0x10) 0 false x u)].getD o (some (max x u))

/-- R107, R172 to R175: SATOM reads the number at sa + imm, writes the operation's result there (a cas that fails writes
nothing), and with r = 1 gives the old number to sd; the access is checked as a read and a write. -/
def Sys2Proof.ScalarAtomicResults : Prop :=
  ∀ (s : State) (c : Ctx) (d a : BitVec 8) (p r w : BitVec 1) (o : BitVec 4),
    let i := Instr.satom d a p r w o
    let bits := if w = 1 then 64 else 32
    let access := s.checkAcc c.k c.h p.toNat (bits / 8) (c.g.getS c.n2 + c.imm).toNat true true
    Issues i s c →
      (∀ q, access = .ok q → Accesses i s c (c.g.pc + 4) (if r = 1 then [.s c.n1] else []) (c.scSpecials s) fun t =>
        let old := leNat (s.spotRead c.blk q (bits / 8))
        (r = 1 → t.regAfter c (.s c.n1) 0 = if c.n1 = 0 then 0 else BitVec.ofNat 64 old)
        ∧ match atomicResult (ctFlush c.eff) o.toNat bits old (c.g.getS c.n1).toNat (c.g.getS (c.n1 + 1)).toNat with
          | some v => Stored s t c.blk q (leBytes (bits / 8) v)
          | none => BytesKept s t)
      ∧ ∀ f, access = .error f → AccessTraps i s c f

/-- The scalar loads, stores and atomics. The value of an SC timestamp is log entry 23 (DESIGN CHOICE). -/
def Obligations.ScalarMemoryWords : Prop := AccessChecks ∧ ScalarLoadResults ∧ ScalarStoreResults ∧ ScalarAtomicResults

/-- The access of lane l (R168). -/
def Sys2Proof.laneAccess (s : State) (c : Ctx) (p n : Nat) (r w : Bool) (l : Nat) : Except AccFault Spot :=
  s.checkAcc c.k c.h p n (c.g.getV c.n2 l + c.imm).toNat r w

/-- What the partition filter records of the denied lanes of an access (R330), in lane order. -/
def Sys2Proof.deniedLanes (s : State) (c : Ctx) (p n : Nat) (r w : Bool) : List (Nat × Nat × Nat) :=
  (List.range 32).flatMap fun l => if c.mask.getLsbD l && c.g.live.getLsbD l then
    (match laneAccess s c p n r w l with
     | .ok _ => []
     | .error e => e.records) else []

/-- The fault that the lanes of an access raise: of the first kind in the order of R170 that any active live lane has, that
of the lowest of those lanes; where they are denied at the memory side (rank 5), with one record of each page that the
partition filter denied to one of them (R330). -/
def Sys2Proof.RaisedBy (s : State) (c : Ctx) (p n : Nat) (r w : Bool) (f : AccFault) : Prop :=
  ∃ l e, liveIn c l ∧ laneAccess s c p n r w l = .error e
    ∧ (∀ m x, liveIn c m → laneAccess s c p n r w m = .error x → e.rank < x.rank ∨ (e.rank = x.rank ∧ l ≤ m))
    ∧ { f with records := e.records } = e
    ∧ (e.rank ≠ 5 → f.records = [])
    ∧ (e.rank = 5 → f.records.Sublist (deniedLanes s c p n r w) ∧ (f.records.map fun x => x.2.1 / 2 ^ 16).Nodup
      ∧ ∀ x ∈ deniedLanes s c p n r w, ∃ y ∈ f.records, y.2.1 / 2 ^ 16 = x.2.1 / 2 ^ 16)

/-- The word `i` completes and leaves its accesses for later (R194; log entry 3, DESIGN CHOICE): no byte and no register changes, the registers of `rs` wait
for them in the lanes of `mask`, and they stand behind those that the group has left before. -/
def Sys2Proof.LeftForLater (i : Instr) (s : State) (c : Ctx) (kind : LateKind) (n : Nat) (rs : List Reg) (mask : BitVec 32)
    (lanes : List (Nat × Option Spot × U64 × U64)) : Prop :=
  ∃ id, Completes i s c (c.g.pc + 4) [] c.g.specials (fun u => u) (fun k => k) fun t =>
    (∀ m, (t.core m).clock = (s.core m).clock)
    ∧ ∃ q, t.group c.blk c.gid = some q ∧ q.posted = c.g.posted ++ [⟨id, kind, n, c.n1, c.m.order == 3, lanes⟩]
      ∧ (mask ≠ 0 → ∀ r ∈ rs, ⟨id, r, mask, id, 0⟩ ∈ q.pend)

/-- The lanes of a set with their places and data, as a late access holds them. -/
def Sys2Proof.laneData (s : State) (c : Ctx) (p n : Nat) (r w : Bool) (on : Nat → Bool) (f : Nat → U64 × U64) :
    List (Nat × Option Spot × U64 × U64) :=
  ((List.range 32).filter on).map fun l => (l, (match laneAccess s c p n r w l with
    | .ok q => some q
    | .error _ => none), f l)

/-- R52, R168 to R170: LD gives each active lane the bytes at its own address, va.l + imm; an active helper lane whose access
would fault receives zero; no byte changes. A fault of an active live lane traps, and then no lane receives anything. In a hit
pass whose accesses are performed later, it completes and leaves the access for later (R194; log entry 3, DESIGN CHOICE). That a
helper lane which reads poison receives zero is log entry 22 (DEDUCED), an SC timestamp log entry 23 (DESIGN CHOICE). -/
def Sys2Proof.VectorLoadResults : Prop :=
  ∀ (s : State) (c : Ctx) (d a : BitVec 8) (x : BitVec 1) (p : BitVec 2) (z : BitVec 3),
    let i := Instr.ld d a x p z
    let n := 2 ^ z.toNat
    let got (l : Nat) : List Byte := match laneAccess s c p.toNat n true false l with
      | .ok q => s.spotRead c.blk q n
      | .error _ => []
    Issues i s c →
      ((∀ l, liveIn c l → ∃ q, laneAccess s c p.toNat n true false l = .ok q) → c.g.postpones = true →
        LeftForLater i s c (.ld (x == 1)) n (if z = 4 then [.v c.n1, .v (c.n1 + 1)] else [.v c.n1]) c.mask
          (laneData s c p.toNat n true false (fun l => c.mask.getLsbD l) fun _ => (0, 0)))
      ∧ ((∀ l, liveIn c l → ∃ q, laneAccess s c p.toNat n true false l = .ok q) → c.g.postpones = false →
        LaneAccesses i s c (if z = 4 then [.v c.n1, .v (c.n1 + 1)] else [.v c.n1]) fun t =>
          OthersKept s t c ∧ BytesKept s t ∧ ∀ l < 32,
            (c.mask.getLsbD l = true →
              if z = 4 then t.regAfter c (.v c.n1) l = loaded false ((got l).take 8)
                ∧ t.regAfter c (.v (c.n1 + 1)) l = loaded false ((got l).drop 8)
              else t.regAfter c (.v c.n1) l = loaded (x == 1) (got l))
            ∧ (c.mask.getLsbD l = false → t.regAfter c (.v c.n1) l = s.regBefore (.v c.n1) l
              ∧ t.regAfter c (.v (c.n1 + 1)) l = s.regBefore (.v (c.n1 + 1)) l))
      ∧ ∀ f, RaisedBy s c p.toNat n true false f → AccessTraps i s c f

/-- What lane l of an ST stores (R168). -/
def Sys2Proof.stored (c : Ctx) (z : BitVec 3) (l : Nat) : List Byte :=
  if z = 4 then leBytes 8 (c.g.getV c.n1 l).toNat ++ leBytes 8 (c.g.getV (c.n1 + 1) l).toNat
  else leBytes (2 ^ z.toNat) (c.g.getV c.n1 l).toNat

/-- The places of the active live lanes with a payload, in lane order. -/
def Sys2Proof.placed {α : Type} (s : State) (c : Ctx) (p n : Nat) (r w : Bool) (f : Nat → α) : List (Spot × α) :=
  (List.range 32).filterMap fun l => if c.mask.getLsbD l && c.g.live.getLsbD l then
    (match laneAccess s c p n r w l with
     | .ok q => some (q, f l)
     | .error _ => none) else none

/-- Bytes outside some places, and outside every barrier object that they touch (R183), are as before. -/
def Sys2Proof.KeptOutside (s t : State) (b n : Nat) (qs : List Spot) : Prop :=
  (∀ q ∈ qs, ∀ a, (∀ q' ∈ qs, (a < q'.at_ ∨ q'.at_ + n ≤ a)
      ∧ ∀ o ∈ (match q' with | .pad _ _ => s.padBars | _ => ((s.block b).map Block.bars).getD []), a ≠ o + 12 ∨
        o + 16 ≤ q'.at_ ∨ q'.at_ + n ≤ o) → t.spaceByte b q a = s.spaceByte b q a)
  ∧ ((∀ q ∈ qs, ∃ o, q = .shared o) → t.mem = s.mem)
  ∧ ((∀ q ∈ qs, ∃ ia k, q = .pad ia k) → ∀ b', (t.block b').map Block.shared = (s.block b').map Block.shared)

/-- Two accesses go to the same space. -/
def Sys2Proof.SameSpace (p q : Spot) : Prop :=
  match p, q with
  | .shared _, .shared _ => True
  | .pad _ _, .pad _ _ => True
  | _, _ => False

/-- The writes `ws` of `n` bytes each have been made one after another in some order, and then the error bit of each barrier
object stands that was armed before the first of them and that one of them touches (R171, R183). Which places are barrier objects
to an ordinary write is the model's choice (log entry 55, DESIGN CHOICE). -/
def Sys2Proof.StoredInOrder (s t : State) (b n : Nat) (ws : List (Spot × List Byte)) : Prop :=
  ∃ order : List (Spot × List Byte), order.Perm ws ∧
    let u := order.foldl (fun u q => u.spotWrite b q.1 q.2) s
    ∀ q ∈ ws, ∀ a,
      let armed := ∃ w ∈ ws, SameSpace q.1 w.1 ∧ ∃ o ∈ s.armedAt b w.1 n, a = o + 12
      (armed → t.spaceByte b q.1 a = u.spaceByte b q.1 a ||| 1) ∧ (¬armed → t.spaceByte b q.1 a = u.spaceByte b q.1 a)

/-- R168 to R171, R183: ST writes what each active live lane holds at that lane's address, lane by lane in some order, and
changes no register and no other byte; a fault of one of those lanes traps, and then nothing is written. In a hit pass whose
accesses are performed later, it completes and leaves the access for later (R194; log entry 3, DESIGN CHOICE). An SC timestamp is
log entry 23 (DESIGN CHOICE). -/
def Sys2Proof.VectorStoreResults : Prop :=
  ∀ (s : State) (c : Ctx) (d a : BitVec 8) (p : BitVec 2) (z : BitVec 3),
    let i := Instr.st d a p z
    let n := 2 ^ z.toNat
    let ws := placed s c p.toNat n false true (stored c z)
    Issues i s c →
      ((∀ l, liveIn c l → ∃ q, laneAccess s c p.toNat n false true l = .ok q) → c.g.postpones = true →
        LeftForLater i s c .st n [] 0 (laneData s c p.toNat n false true (fun l => c.mask.getLsbD l && c.g.live.getLsbD l)
          fun l => (c.g.getV c.n1 l, c.g.getV (c.n1 + 1) l)))
      ∧ ((∀ l, liveIn c l → ∃ q, laneAccess s c p.toNat n false true l = .ok q) → c.g.postpones = false →
        LaneAccesses i s c [] fun t => StoredInOrder s t c.blk n ws ∧ KeptOutside s t c.blk n (ws.map Prod.fst))
      ∧ ∀ f, RaisedBy s c p.toNat n false true f → AccessTraps i s c f

/-- One read-modify-write of `n` bytes: `num` gives the number that it writes, none where it writes nothing. -/
def Sys2Proof.modifies {α : Type} (b n : Nat) (place : α → Spot) (num : State → α → Option Nat) (u : State) (q : α) : State :=
  match num u q with
  | some v => u.spotWrite b (place q) (leBytes n v)
  | none => u

/-- The read-modify-writes of `order` have been made one after another, and then the error bit of each barrier object stands that
was armed before the first of them and to which one of them has written (R176, R183). Which places are barrier objects to an
ordinary write is the model's choice (log entry 55, DESIGN CHOICE). -/
def Sys2Proof.ModifiedInOrder {α : Type} (s t : State) (b n : Nat) (place : α → Spot) (num : State → α → Option Nat)
    (order : List α) : Prop :=
  ∀ q ∈ order, ∀ a,
    let u := order.foldl (modifies b n place num) s
    let armed := ∃ before x after, order = before ++ x :: after
      ∧ (num (before.foldl (modifies b n place num) s) x).isSome = true ∧ SameSpace (place q) (place x)
      ∧ ∃ o ∈ s.armedAt b (place x) n, a = o + 12
    (armed → t.spaceByte b (place q) a = u.spaceByte b (place q) a ||| 1)
    ∧ (¬armed → t.spaceByte b (place q) a = u.spaceByte b (place q) a)

/-- R172 to R176, R183: ATOM performs the operation of each active live lane at that lane's address, one at a time in some order,
and with r = 1 gives each of those lanes the number that it found; a fault of one of those lanes traps, and nothing is done. In
a hit pass whose accesses are performed later, it completes and leaves the access for later (R194; log entry 3, DESIGN CHOICE). An
SC timestamp is log entry 23 (DESIGN CHOICE). -/
def Sys2Proof.VectorAtomicResults : Prop :=
  ∀ (s : State) (c : Ctx) (d a : BitVec 8) (p r w : BitVec 1) (o : BitVec 4),
    let i := Instr.atom d a p r w o
    let bits := if w = 1 then 64 else 32
    let ws := placed s c p.toNat (bits / 8) true true fun l => l
    let num (u : State) (q : Spot × Nat) : Option Nat :=
      atomicResult (ctFlush c.eff) o.toNat bits (leNat (u.spotRead c.blk q.1 (bits / 8))) (c.g.getV c.n1 q.2).toNat
        (c.g.getV (c.n1 + 1) q.2).toNat
    let one := modifies c.blk (bits / 8) Prod.fst num
    Issues i s c →
      ((∀ l, liveIn c l → ∃ q, laneAccess s c p.toNat (bits / 8) true true l = .ok q) → c.g.postpones = true →
        LeftForLater i s c (.atom o.toNat (r == 1) (ctFlush c.eff)) (bits / 8) (if r = 1 then [.v c.n1] else []) (c.mask &&& c.g.live)
          (laneData s c p.toNat (bits / 8) true true (fun l => c.mask.getLsbD l && c.g.live.getLsbD l)
            fun l => (c.g.getV c.n1 l, c.g.getV (c.n1 + 1) l)))
      ∧ ((∀ l, liveIn c l → ∃ q, laneAccess s c p.toNat (bits / 8) true true l = .ok q) → c.g.postpones = false →
        LaneAccesses i s c (if r = 1 then [.v c.n1] else []) fun t =>
          (∃ order : List (Spot × Nat), order.Perm ws ∧ ModifiedInOrder s t c.blk (bits / 8) Prod.fst num order
            ∧ (r = 1 → ∀ before q after, order = before ++ q :: after → t.regAfter c (.v c.n1) q.2 =
                BitVec.ofNat 64 (leNat ((before.foldl one s).spotRead c.blk q.1 (bits / 8)))))
          ∧ (∀ l < 32, ¬liveIn c l → t.regAfter c (.v c.n1) l = s.regBefore (.v c.n1) l)
          ∧ KeptOutside s t c.blk (bits / 8) (ws.map Prod.fst))
      ∧ ∀ f, RaisedBy s c p.toNat (bits / 8) true true f → AccessTraps i s c f

/-- R171, R176, R183, R194: when the oldest late access of a group is performed, it is gone and its registers wait no longer; a
store writes its lanes in some order; a load changes no byte, and gives each of its lanes the bytes at its place, or zero without
one, unless a later instruction has written the lane (R17); an atomic performs the operation of each lane, one at a time in some
order, and gives it the number that it found. That accesses of a hit pass may be performed after their issue, oldest first, is the
model's choice (log entry 3). -/
def Sys2Proof.LateAccessResults : Prop :=
  ∀ (s : State) (b gid : Nat) (g : Group) (a : Late) (r : List Late), s.group b gid = some g → g.posted = a :: r →
    let t := s.land b gid
    (∃ q, t.group b gid = some q ∧ q.posted = r ∧ (∀ e ∈ q.pend, e.id = a.id → e.op = 0)
      ∧ ∀ sx, a.kind = .ld sx → (a.lanes.map Prod.fst).Nodup → (∀ x ∈ a.lanes, x.1 < 32) → ∀ x ∈ a.lanes,
        let bs := (x.2.1.map fun p => s.spotRead b p a.n).getD []
        (∀ v, (∀ e ∈ g.pend, e.id = a.id → e.reg = .v v → e.ovr.getLsbD x.1 = false) →
          (a.n ≠ 16 → v = a.vd → q.getV v x.1 = loaded sx bs)
          ∧ (a.n = 16 → v = a.vd → q.getV v x.1 = loaded false (bs.take 8))
          ∧ (a.n = 16 → v = a.vd + 1 → q.getV v x.1 = loaded false (bs.drop 8))))
    ∧ (∀ sx, a.kind = .ld sx → BytesKept s t)
    ∧ (a.kind = .st → StoredInOrder s t b a.n (a.lanes.filterMap fun x => x.2.1.map fun p =>
        (p, if a.n = 16 then leBytes 8 x.2.2.1.toNat ++ leBytes 8 x.2.2.2.toNat else leBytes a.n x.2.2.1.toNat)))
    ∧ ∀ o ret flush, a.kind = .atom o ret flush → a.n = 4 ∨ a.n = 8 →
      let num (u : State) (x : Nat × Spot × U64 × U64) : Option Nat :=
        atomicResult flush o (8 * a.n) (leNat (u.spotRead b x.2.1 a.n)) x.2.2.1.toNat x.2.2.2.toNat
      ∃ order : List (Nat × Spot × U64 × U64),
        order.Perm (a.lanes.filterMap fun x => x.2.1.map fun p => (x.1, p, x.2.2))
        ∧ ModifiedInOrder s t b a.n (fun x => x.2.1) num order
        ∧ ∃ q, t.group b gid = some q ∧
          (ret = true → (a.lanes.map Prod.fst).Nodup → (∀ x ∈ a.lanes, x.1 < 32) → ∀ before x after,
            order = before ++ x :: after → (∀ e ∈ g.pend, e.id = a.id → e.reg = .v a.vd → e.ovr.getLsbD x.1 = false) →
            q.getV a.vd x.1 = BitVec.ofNat 64 (leNat ((before.foldl (modifies b a.n (fun x => x.2.1) num) s).spotRead b x.2.1 a.n)))

/-- The vector loads, stores and atomics, and those that are performed after their issue. That some are, in which order, and when
they are performed at the latest, is log entry 3 (DESIGN CHOICE); a helper lane that reads poison is log entry 22 (DEDUCED); the
value of an SC timestamp log entry 23 (DESIGN CHOICE). -/
def Obligations.VectorMemoryWords : Prop :=
  VectorLoadResults ∧ VectorStoreResults ∧ VectorAtomicResults ∧ LateAccessResults

/-- A block without the poison of its stacks. -/
def Sys2Proof.lessStackBad (k : Block) : Block := { k with stackBad := [] }

/-- R177, R52: STK writes vd of the active live lanes into a slot of the group's stack and LDK reads a slot into the active
lanes of vd; every other slot and register stands. A slot at or above the header's is STACK_BOUND. That LDK of poisoned stack
state raises UNCORRECTABLE with all ones in TRAPINFO is the model's choice (log entry 22, DEDUCED). -/
def Obligations.StackResults : Prop :=
  ∀ (s : State) (c : Ctx) (d : BitVec 8) (k : BitVec 16),
    (Issues (.ldk d k) s c →
      (c.h.stack ≤ k.toNat → Traps (.ldk d k) s c 0x18 (k.setWidth 64))
      ∧ (k.toNat < c.h.stack → IfClean (.ldk d k) s c (∀ l, liveIn c l → (c.gid, 32 * k.toNat + l) ∉ c.k.stackBad)
          (WritesLanes (.ldk d k) s c fun l => c.g.stack.get (32 * k.toNat + l))))
    ∧ (Issues (.stk d k) s c →
      (c.h.stack ≤ k.toNat → Traps (.stk d k) s c 0x18 (k.setWidth 64))
      ∧ (k.toNat < c.h.stack → ∃ m, Completes (.stk d k) s c (c.g.pc + 4) [] { c.g.specials with stack := m } id
          lessStackBad fun t => (∀ n, (t.core n).clock = (s.core n).clock)
            ∧ ∀ q l, l < 32 → m.get (32 * q + l) =
              if q = k.toNat ∧ c.mask.getLsbD l = true ∧ c.g.live.getLsbD l = true then c.g.getV c.n1 l
              else c.g.stack.get (32 * q + l)))

/-- R94, R96, R318: FENCE changes no register and no byte, and takes a timestamp if it is SC (one above every clock: log entry 23,
DESIGN CHOICE); ICINV parks its group until the
instruction caches of its partition have dropped the lines of its range, or traps at the first byte that no window maps. -/
def Obligations.FenceResults : Prop :=
  ∀ (s : State) (c : Ctx),
    (Issues .fence s c → Accesses .fence s c (c.g.pc + 4) [] (c.scSpecials s) (BytesKept s))
    ∧ ∀ a b : BitVec 8, Issues (.icinv a b) s c → NoRegion s →
      (∀ va, s.vaPieces c.k.part c.k.ctx (c.g.getS c.n1).toNat (c.g.getS c.n2).toNat = .error va →
        Traps (.icinv a b) s c 0x07 (BitVec.ofNat 64 va))
      ∧ (s.vaPieces c.k.part c.k.ctx (c.g.getS c.n1).toNat (c.g.getS c.n2).toNat = .ok [] →
        GoesTo (.icinv a b) s c (c.g.pc + 4))
      ∧ ∀ r, r ≠ [] → s.vaPieces c.k.part c.k.ctx (c.g.getS c.n1).toNat (c.g.getS c.n2).toNat = .ok r →
        ParksAt (.icinv a b) s c (c.g.pc + 4) (.icinv r)

/-! ## Special registers -/

/-- The special registers of a group, a block, a core and a partition with their values (R58 to R60, R338, R347). -/
def Sys2Proof.specialValues (s : State) (c : Ctx) : List (Nat × U64) :=
  let w (n : Nat) : U64 := BitVec.ofNat 64 n
  let k := s.core c.g.core
  [(0x000, w c.gid), (0x001, w (c.k.idx.1 + c.k.idx.2.1 * 2 ^ 21 + c.k.idx.2.2 * 2 ^ 42)), (0x002, w c.g.core),
   (0x003, w (c.g.core / 8 % 16)), (0x004, w (c.g.core / 128)), (0x005, w (c.h.contract + c.eff * 2 ^ 16)),
   (0x006, 0x16D), (0x007, 0x3F), (0x008, s.cycle), (0x009, c.g.amax.setWidth 64),
   (0x00A, if c.g.amaxNan then 1 else 0),
   (0x00B, w (c.g.oc.cp + c.g.oc.gt * 2 ^ 6 + c.g.oc.mx * 2 ^ 12 + c.g.oc.sp * 2 ^ 18 + c.g.oc.cl * 2 ^ 24)),
   (0x00C, w (c.g.replay.length + c.g.oldestReplay.toNat * 2 ^ 32)), (0x00D, c.g.cmixcnt.setWidth 64), (0x00E, w c.k.grid),
   (0x00F, w (((s.grids.find c.k.grid).map Grid.tree).getD 0)), (0x010, c.g.cause.setWidth 64), (0x011, c.g.trapPc),
   (0x012, c.g.trapInfo), (0x8F0, w k.dvsize), (0x8F1, k.padattr.setWidth 64), (0x901, w c.k.ctx),
   (0x900, w (c.k.part + ((s.quadsOf c.k.part).map fun q => 2 ^ q).foldl (· + ·) 0 * 2 ^ 32)),
   (0x902, k.eccCnt.setWidth 64), (0xD00, (s.pre (c.g.core / 128) c.k.part).rplrel), (0xD01, (s.pre (c.g.core / 128) c.k.part).rplmask.setWidth 64)]

/-- R58 to R60, R102, R219, R338, R342, R347, R369: SRD completes with the register's value at its issue (log entry 44) in sd and
changes nothing else; an index that names no register, or none that may be read, is ILLEGAL. -/
def Sys2Proof.SpecialReadResults : Prop :=
  ∀ (s : State) (c : Ctx) (d : BitVec 8) (i : BitVec 12), Issues (.srd d i) s c →
    (∀ p ∈ specialValues s c, i.toNat = p.1 → WritesScalar (.srd d i) s c p.2)
    ∧ (∀ w j : Nat, w < 16 → j < 4 → i.toNat = 0x800 + 4 * w + j →
        WritesScalar (.srd d i) s c ((s.window c.k.part c.k.ctx w).read j))
    ∧ (∀ v, c.special s i.toNat = some v → WritesScalar (.srd d i) s c v)
    ∧ (∀ v, (s.core c.g.core).almRead i.toNat = some v → WritesScalar (.srd d i) s c v)
    ∧ (∀ n k : Nat, n < 2 → k < 6 → i.toNat = 0xB00 + 8 * n + k →
        WritesScalar (.srd d i) s c ((s.queue (c.g.core / 128) c.k.part n).read k))
    ∧ (∀ n q k : Nat, (s.quadsOf c.k.part)[n]? = some q → k < 4 → i.toNat = 0xB40 + 8 * n + k →
        WritesScalar (.srd d i) s c ((s.quad q).mtuRead k))
    ∧ (∀ k < 5, i.toNat = 0xC00 + k → WritesScalar (.srd d i) s c ((s.pre (c.g.core / 128) c.k.part).read k))
    ∧ (c.special s i.toNat = none → Traps (.srd d i) s c 0x01 (c.word.setWidth 64))
    ∧ ((0x013 ≤ i.toNat ∧ i.toNat < 0x800) ∨ (0x840 ≤ i.toNat ∧ i.toNat < 0x8F0) ∨ 0xD02 ≤ i.toNat →
        c.special s i.toNat = none)

/-- The word `i` writes a special register: sd then holds the old value, the machine outside the group is that of `u`, and
the group's special registers are `sp`. -/
def Sys2Proof.WritesSpecial (i : Instr) (s : State) (c : Ctx) (u : State) (old : U64) (sp : Specials) (say : State → Prop) : Prop :=
  ∃ t, exec i s = .next t ∧ GroupAfter s t c (c.g.pc + 4) [.s c.n1] sp ∧ OthersKept s t c ∧ t.outer = u.outer
    ∧ (∀ n, (t.core n).rest = (u.core n).rest) ∧ (∀ b, (t.block b).map Block.rest = (s.block b).map Block.rest)
    ∧ t.regAfter c (.s c.n1) 0 = (if c.n1 = 0 then 0 else old) ∧ say t

/-- The word `i` writes a special register whose write starts something: sd then holds the old value, and everything else,
the other groups too, is as in `f` of the state in which the word runs. -/
def Sys2Proof.StartsBy (i : Instr) (s : State) (c : Ctx) (f : State → State) (old : U64) : Prop :=
  ∃ u t, Begun s u c ∧ exec i s = .next t ∧ t.outer = (f u).outer ∧ (∀ n, (t.core n).rest = ((f u).core n).rest)
    ∧ (∀ b, (t.block b).map Block.rest = ((f u).block b).map Block.rest)
    ∧ (∀ b gid, ¬(b = c.blk ∧ gid = c.gid) → t.group b gid = (f u).group b gid)
    ∧ ∀ r, t.group c.blk c.gid = some r → r.lane (.s c.n1) 0 = if c.n1 = 0 then 0 else old

/-- R57 to R59, R102, R219, R337, R338, R342, R347, R369: SWR writes sd to the register and gives the register's old value to sd:
AMAX (any code as it is, log entry 44), AMAXNAN and CMIXCNT change in the group alone; the core's, window, almanac, queue, MTU
and pre-emption registers change outside it; a write of WCTL or MTUINV also parks the group; a write of RPLREL releases a
record and one of PREQ starts a request; a register that the program may only read, or an index that names none, is
ILLEGAL. -/
def Sys2Proof.SpecialWriteResults : Prop :=
  ∀ (s : State) (c : Ctx) (d : BitVec 8) (i : BitVec 12), Issues (.swr d i) s c →
    let v := c.g.getS c.n1
    let j := i.toNat
    let sp := c.g.specials
    (j = 0x009 → WritesSpecial (.swr d i) s c s (c.g.amax.setWidth 64) { sp with amax := v.setWidth 32 } fun _ => True)
    ∧ (j = 0x00A → WritesSpecial (.swr d i) s c s (if c.g.amaxNan then 1 else 0) { sp with amaxNan := v.getLsbD 0 }
        fun _ => True)
    ∧ (j = 0x00D → WritesSpecial (.swr d i) s c s (c.g.cmixcnt.setWidth 64) { sp with cmixcnt := v.setWidth 32 }
        fun _ => True)
    ∧ (j = 0x8F0 → s.occupied c.g.core = true → WritesSpecial (.swr d i) s c s (BitVec.ofNat 64 (s.core c.g.core).dvsize) sp
        fun _ => True)
    ∧ (j = 0x8F0 → StartsBy (.swr d i) s c (fun u => u.setDvsize c.g.core v) (BitVec.ofNat 64 (s.core c.g.core).dvsize))
    ∧ (j = 0x902 → WritesSpecial (.swr d i) s c (s.modCore c.g.core fun k => { k with eccCnt := 0 })
        ((s.core c.g.core).eccCnt.setWidth 64) sp fun _ => True)
    ∧ (∀ w k : Nat, w < 16 → k < 3 → j = 0x800 + 4 * w + k →
        WritesSpecial (.swr d i) s c (s.modWindow c.k.part c.k.ctx w fun x => x.write k v)
          ((s.window c.k.part c.k.ctx w).read k) sp fun _ => True)
    ∧ (∀ w < 16, j = 0x803 + 4 * w → NoRegion s →
        WritesSpecial (.swr d i) s c s ((s.window c.k.part c.k.ctx w).read 3) sp fun t =>
          (t.group c.blk c.gid).map Group.park = some (.wctl c.k.ctx w v))
    ∧ (∀ n k : Nat, n < 2 → k < 6 → j = 0xB00 + 8 * n + k →
        WritesSpecial (.swr d i) s c (s.queueWrite (c.g.core / 128) c.k.part n k v)
          ((s.queue (c.g.core / 128) c.k.part n).read k) sp fun _ => True)
    ∧ (∀ k < 3, j = 0xC00 + k → WritesSpecial (.swr d i) s c (s.preWrite (c.g.core / 128) c.k.part k v)
        ((s.pre (c.g.core / 128) c.k.part).read k) sp fun _ => True)
    ∧ (∀ n q, (s.quadsOf c.k.part)[n]? = some q → j = 0xB42 + 8 * n → NoRegion s →
        WritesSpecial (.swr d i) s c (s.mtuInv q v) ((s.quad q).mtuRead 2) sp fun t =>
          (t.group c.blk c.gid).map Group.park = some (.mtuinv q))
    ∧ (j = 0x8F1 → ∃ p : BitVec 48, (∀ k, p.getLsbD k = (decide (k < 48 ∧ k % 8 < 6) && v.getLsbD k))
        ∧ WritesSpecial (.swr d i) s c (s.modCore c.g.core fun k => { k with padattr := p })
            ((s.core c.g.core).padattr.setWidth 64) sp fun _ => True)
    ∧ (∀ old, (s.core c.g.core).almRead j = some old →
        WritesSpecial (.swr d i) s c (s.almWrite c.g.core j v) old sp fun _ => True)
    ∧ (∀ n q k : Nat, (s.quadsOf c.k.part)[n]? = some q → k ∈ [0, 1, 3] → j = 0xB40 + 8 * n + k →
        WritesSpecial (.swr d i) s c (s.mtuWrite q k v) ((s.quad q).mtuRead k) sp fun _ => True)
    ∧ (j = 0xC03 → StartsBy (.swr d i) s c (fun u => u.request (c.g.core / 128) c.k.part (v.toNat % 4) (v.toNat / 2 ^ 32))
        ((s.pre (c.g.core / 128) c.k.part).read 3))
    ∧ (j = 0xD00 → StartsBy (.swr d i) s c (fun u => u.release (c.g.core / 128) c.k.part v)
        (s.pre (c.g.core / 128) c.k.part).rplrel)
    ∧ (∀ old, c.special s j = some old → j ∈ [0x900, 0x901, 0x903, 0xC04, 0xD01] →
        WritesSpecial (.swr d i) s c s old sp fun _ => True)
    ∧ (j < 0x013 → j ≠ 0x009 → j ≠ 0x00A → j ≠ 0x00D → Traps (.swr d i) s c 0x01 (c.word.setWidth 64))
    ∧ (c.special s j = none → Traps (.swr d i) s c 0x01 (c.word.setWidth 64))

/-- R337, R338: a write of WBASE, WLIMIT or WOFF is ignored while the window's kind is nonzero and otherwise keeps the bits
that the register has; WCTL keeps kind and rights and makes kinds 5 to 7 zero; DVSIZE is ignored while a block is resident on
the core. -/
def Sys2Proof.ConfigurationRegisters : Prop :=
  (∀ (x : Window) (j : Nat) (v : U64), x.kind ≠ 0 → x.write j v = x)
  ∧ (∀ (x : Window) (v : U64), x.kind = 0 →
      (x.write 0 v).base = v &&& 0x01FFFFFFFFE00000 ∧ (x.write 1 v).limit = v &&& 0x03FFFFFFFFFFF000
      ∧ (x.write 2 v).off = v &&& 0x000FFFFFFFFF0000)
  ∧ (∀ v : U64, (wctlOf v).toNat % 8 = (if v.toNat % 8 < 5 then v.toNat % 8 else 0)
      ∧ ∀ k, 4 ≤ k → k < 7 → (wctlOf v).getLsbD k = v.getLsbD k)
  ∧ ∀ (s : State) (core : Nat) (v : U64),
      (s.occupied core = true → s.setDvsize core v = s)
      ∧ (s.occupied core = false → ((s.setDvsize core v).core core).dvsize = min 96 (v.toNat % 128))

/-- R219, R220: the almanac registers. While the almanac is locked or a block is resident on the core, ALMADDR, ALMDATA and
a commit are ignored; otherwise ALMDATA stores 8 bytes of the image at ALMADDR, whose low three bits do not count, and ALMADDR
advances by 8; nothing is stored beyond the image; a commit measures the image and compares it with the fused digest; a lock
closes the almanac. The other registers ignore writes. That a stored word ends valid is read from valid's meaning (log entry 56,
DEDUCED); what ALMADDR[2:0] read as, and that a commit comes before a lock of the same write, are the model's choices (log entry
56, DESIGN CHOICE). -/
def Sys2Proof.AlmanacRegisters : Prop :=
  ∀ (s : State) (n : Nat) (v : U64),
    let k := s.core n
    let k' (i : Nat) : CoreSt := (s.almWrite n i v).core n
    (∀ i, s.almClosed n = true → i ≠ 0xA01 → s.almWrite n i v = s)
    ∧ (s.almClosed n = false →
      k' 0xA02 = { k with almAddr := v.toNat % 2 ^ 15 }
      ∧ (k.almAddr < 24320 → (∀ q, (k' 0xA03).almImage.get q = if q = k.almAddr / 8 then v else k.almImage.get q)
          ∧ (k' 0xA03).almAddr = (k.almAddr + 8) % 2 ^ 15 ∧ (k' 0xA03).almValid = false)
      ∧ (24320 ≤ k.almAddr → s.almWrite n 0xA03 v = s)
      ∧ (v.getLsbD 0 = true → (k' 0xA01).almMeas = BitVec.ofNat 512 (wordsNat ((shake256 k.imageBytes).take 8))
          ∧ (k' 0xA01).almValid = decide ((k' 0xA01).almMeas = Config.fusedDigest)
          ∧ (k' 0xA01).almMis = !(k' 0xA01).almValid))
    ∧ ((k' 0xA01).almLock = (k.almLock || v.getLsbD 1))
    ∧ ((s.almClosed n = true ∨ v.getLsbD 0 = false) → (k' 0xA01).almValid = k.almValid ∧ (k' 0xA01).almMeas = k.almMeas)
    ∧ ∀ i, i ∉ [0xA01, 0xA02, 0xA03] → s.almWrite n i v = s

/-- R342, R347, R369: what a write leaves in the registers of a queue, an MTU and a pre-emption set: the bits that the register
has; a queue's size is 2^7 to 2^20 records, another one is written as 7; QWR, QSTAT, MTUSTAT and PSTAT ignore writes; a write of
MTUINV starts an invalidation. -/
def Sys2Proof.PrivilegedRegisters : Prop :=
  (∀ (q : EvQueue) (v : U64),
    (q.write 0 v).read 0 = v &&& 0x000FFFFFFFFFF000
    ∧ (q.write 1 v).read 1 = (if 7 ≤ v.toNat % 32 ∧ v.toNat % 32 ≤ 20 then BitVec.ofNat 64 (v.toNat % 32) else 7)
    ∧ (q.write 3 v).read 3 = v &&& 0xFFFFFFFF ∧ (q.write 4 v).read 4 = v &&& 0x1FFFF
    ∧ (∀ j ∈ [2, 5], q.write j v = q) ∧ ∀ j ∈ [0, 1, 3, 4], (q.write j v).wr = q.wr ∧ (q.write j v).waiting = q.waiting)
  ∧ (∀ (s : State) (n : Nat) (v : U64),
    ((s.mtuWrite n 0 v).quad n).mtuRead 0 = v &&& 0x000FFFFFFFFFF000
    ∧ ((s.mtuWrite n 1 v).quad n).mtuRead 1 = v &&& 0x07FFFFFF ∧ s.mtuWrite n 3 v = s
    ∧ (s.mtuWrite n 2 v).quad n = { s.quad n with
        invVal := v &&& 0x000FFFFFFFFFFFFF, busy := true, inv := (s.quad n).inv ++ [v &&& 0x000FFFFFFFFFFFFF] })
  ∧ ∀ (s : State) (d p : Nat) (v : U64),
    ((s.preWrite d p 0 v).pre d p).read 0 = v &&& 0x000FFFFFFFFFF000
    ∧ ((s.preWrite d p 1 v).pre d p).read 1 = v &&& 0xFFFFFFFFFF
    ∧ ((s.preWrite d p 2 v).pre d p).read 2 = v &&& 0xFFFFFFFF ∧ s.preWrite d p 4 v = s
    ∧ ((v.toNat % 4 = 0 ∨ (s.pre d p).busy = true) → s.preWrite d p 3 v = s)

/-- Every special register as it reads and as it is written, the registers of an application's configuration, of the
almanac, of the queues, the MTUs and pre-emption. -/
def Obligations.SpecialRegisterWords : Prop :=
  SpecialReadResults ∧ SpecialWriteResults ∧ ConfigurationRegisters ∧ AlmanacRegisters ∧ PrivilegedRegisters

/-! ## Barriers -/

/-- A block without its shared memory and its list of barrier objects. -/
def Sys2Proof.lessBars (k : Block) : Block := { k.lessShared with bars := [] }
/-- The machine without its memory and its list of pad barrier objects. -/
def Sys2Proof.lessPadBars (s : State) : State := { s.lessMem with padBars := [] }

/-- What a BARINIT or an arrival in error leaves of the other groups: those that wait by BARWAIT on the object find it done from
then on (R182, R185, R186). -/
def Sys2Proof.OthersPoked (s t : State) (c : Ctx) (l : BarLoc) : Prop :=
  ∀ b g, ¬(b = c.blk ∧ g = c.gid) → t.group b g = (s.group b g).map (Group.barPoke (s.sameBar l))

/-- A barrier word on the object at `l`: it completes with the object's sixteen bytes those of `v`; every other byte stands. -/
def Sys2Proof.OnBarrier (i : Instr) (s : State) (c : Ctx) (l : BarLoc) (dst : List Reg) (v : Nat) (say : State → Prop) : Prop :=
  Completes i s c (c.g.pc + 4) dst c.g.specials lessPadBars lessBars fun t => say t ∧ t.barGet l = v
    ∧ (∀ a, ¬((s.barSpot l).at_ ≤ a ∧ a < (s.barSpot l).at_ + 16) → t.spaceByte c.blk (s.barSpot l) a = s.spaceByte c.blk (s.barSpot l) a)
    ∧ (match l with
      | .shared _ _ => t.mem = s.mem
      | .pad _ => ∀ b', (t.block b').map Block.shared = (s.block b').map Block.shared)

/-- R178, R184 to R186, R243: with a handle that names an object, BARINIT writes the object with its expected count, BARARR
arrives on it and, in error, wakes the groups that wait on it (R182), and BARTRY and BARWAIT test its phase: the result word holds the phase, the error and whether it is done; found
done, they observe the failed collectives that arrived on the object, and trap with the oldest that raises (R436); a BARWAIT that
finds it not done parks. A wrong handle traps with its fault. That a count above 16 bits is ILLEGAL before the handle is checked
is the model's choice (log entry 24, DEDUCED). -/
def Sys2Proof.BarrierResults : Prop :=
  ∀ (s : State) (c : Ctx) (a b : BitVec 8),
    let at2 := (s.handle c.k c.h (c.g.getS c.n2)).map (BarLoc.inBlock · c.blk)
    let at3 := (s.handle c.k c.h (c.g.getS c.n3)).map (BarLoc.inBlock · c.blk)
    let word (phase : Nat) (e w : Bool) : U64 := BitVec.ofNat 64 (phase + (if e then 2 ^ 32 else 0) + (if w then 2 ^ 33 else 0))
    let dst := Reg.s c.n2
    let holds (v : U64) (t : State) : Prop := t.regAfter c dst 0 = if c.n2 = 0 then 0 else v
    (Issues (.bararr a b) s c →
      (∀ f, at3 = .error f → AccessTraps (.bararr a b) s c f)
      ∧ ∀ l, at3 = .ok l →
        let o := BarObj.of (s.barGet l)
        let n := o.arrive true (sext 32 (c.g.getS c.n2).toNat)
        (n.error = false → OnBarrier (.bararr a b) s c l [dst] n.num (holds (word o.phase false false)))
        ∧ (n.error = true → ∃ t, exec (.bararr a b) s = .next t ∧ GroupAfter s t c (c.g.pc + 4) [dst] c.g.specials
          ∧ holds (word o.phase true false) t ∧ t.barGet l = n.num
          ∧ (∀ q, ¬((s.barSpot l).at_ ≤ q ∧ q < (s.barSpot l).at_ + 16) → t.spaceByte c.blk (s.barSpot l) q = s.spaceByte c.blk (s.barSpot l) q)
          ∧ (match l with
            | .shared _ _ => t.mem = s.mem
            | .pad _ => ∀ b', (t.block b').map Block.shared = (s.block b').map Block.shared)
          ∧ OthersPoked s t c l ∧ lessPadBars t.outer = lessPadBars s.outer ∧ ∀ n, (t.core n).rest = (s.core n).rest))
    ∧ (∀ i ∈ [Instr.bartry a b, Instr.barwait a b], Issues i s c →
      (∀ f, at3 = .error f → AccessTraps i s c f)
      ∧ ∀ l, at3 = .ok l →
        let o := BarObj.of (s.barGet l)
        let p := (c.g.getS c.n2).toNat % 2 ^ 32
        (∀ cause info r, observe c.g (fun e => e.bar == some l) = (some (cause, info), r) → o.phase ≠ p ∨ o.error = true →
          Traps i s c cause info (some r.cmixcnt))
        ∧ ((∀ e ∈ c.g.deferred, e.bar ≠ some l) → (o.phase ≠ p ∨ o.error = true → OnBarrier i s c l [dst] (s.barGet l) (holds (word o.phase o.error true)))
        ∧ (o.phase = p → o.error = false →
            (i = .bartry a b → OnBarrier i s c l [dst] (s.barGet l) (holds (word o.phase false false)))
            ∧ (i = .barwait a b → NoRegion s → OnBarrier i s c l [] (s.barGet l) fun t =>
                (t.group c.blk c.gid).map Group.park = some (.barwait c.n2 l (BitVec.ofNat 32 p) false)))))
    ∧ (Issues (.barinit a b) s c →
      (2 ^ 16 ≤ (c.g.getS c.n3).toNat → Traps (.barinit a b) s c 0x01 (c.word.setWidth 64))
      ∧ ((c.g.getS c.n3).toNat < 2 ^ 16 →
        (∀ f, at2 = .error f → AccessTraps (.barinit a b) s c f)
        ∧ ∀ l, at2 = .ok l → ∃ t, exec (.barinit a b) s = .next t
          ∧ GroupAfter s t c (c.g.pc + 4) [] c.g.specials
          ∧ t.barGet l = (c.g.getS c.n3).toNat * (1 + 2 ^ 16)
          ∧ (∀ q, ¬((s.barSpot l).at_ ≤ q ∧ q < (s.barSpot l).at_ + 16) → t.spaceByte c.blk (s.barSpot l) q = s.spaceByte c.blk (s.barSpot l) q)
          ∧ (match l with
            | .shared _ _ => t.mem = s.mem
            | .pad _ => ∀ b', (t.block b').map Block.shared = (s.block b').map Block.shared)
          ∧ OthersPoked s t c l
          ∧ lessPadBars t.outer = lessPadBars s.outer ∧ ∀ n, (t.core n).rest = (s.core n).rest))

/-- R179 to R182: an arrival lowers the count and adds the bytes; it sets the error bit and changes no count when the object
is not armed, the count is already zero or the bytes leave their range; and the phase that then has neither count nor bytes
left completes: the phase advances by one modulo 2^32 and the count returns to the expected one. -/
def Sys2Proof.ArrivalMeaning : Prop :=
  ∀ (o : BarObj) (dec : Bool) (add : Int),
    let n := o.arrive dec add
    let bytes := o.bytes + add
    let count := if dec then o.count - 1 else o.count
    let bad := o.expected = 0 ∨ (dec = true ∧ o.count = 0) ∨ bytes < -(2 ^ 31) ∨ 2 ^ 31 ≤ bytes
    (bad → n = { o with error := true })
    ∧ (¬bad → n.error = o.error ∧ n.expected = o.expected
      ∧ (count = 0 ∧ bytes = 0 → n.phase = (o.phase + 1) % 2 ^ 32 ∧ n.count = o.expected ∧ n.bytes = 0)
      ∧ (count ≠ 0 ∨ bytes ≠ 0 → n.phase = o.phase ∧ n.count = count ∧ n.bytes = bytes))

/-- The barrier words on a shared object, and what one arrival does to its counts. -/
def Obligations.BarrierWords : Prop := BarrierResults ∧ ArrivalMeaning

/-- R188, R297, R298: BSYNC (in a block of one core; otherwise ILLEGAL) and CSYNC change no register and no byte; the group
parks at its block's generation unless it is the last to arrive: then the generation advances and every group of the block
runs on. -/
def Obligations.BlockBarrierResults : Prop :=
  ∀ i ∈ [Instr.bsync, Instr.csync], ∀ (s : State) (c : Ctx), Issues i s c → NoRegion s →
    (i = .bsync ∧ 1 < c.k.cores.length → Traps i s c 0x01 (c.word.setWidth 64))
    ∧ (¬(i = .bsync ∧ 1 < c.k.cores.length) → ∃ t, exec i s = .next t
      ∧ GroupAfter s t c (c.g.pc + 4) [] c.g.specials ∧ t.outer = s.outer ∧ (∀ n, (t.core n).rest = (s.core n).rest)
      ∧ (∀ b, b ≠ c.blk → t.block b = s.block b)
      ∧ ((t.block c.blk).map fun k => { k with gen := 0, groups := [] }) = some { c.k with gen := 0, groups := [] }
      ∧ let last := ∀ e ∈ c.k.groups, e.1 ≠ c.gid → e.2.park = .bsync c.k.gen
        (last → (t.block c.blk).map Block.gen = some (c.k.gen + 1)
          ∧ (s.mark = false → (t.group c.blk c.gid).map Group.park = s.issuer.map fun g => g.wake.park)
          ∧ ∀ gid, gid ≠ c.gid → t.group c.blk gid = (s.group c.blk gid).map Group.wake)
        ∧ (¬last → (t.block c.blk).map Block.gen = some c.k.gen
          ∧ (t.group c.blk c.gid).map Group.park = some (.bsync c.k.gen)
          ∧ ∀ gid, gid ≠ c.gid → t.group c.blk gid = s.group c.blk gid))

/-! ## Copies -/

/-- The tensor copies with what the engine does for them. -/
def Sys2Proof.tensorCopies : List ((BitVec 8 → BitVec 8 → Instr) × CopyKind) :=
  [(.cpt, .cpt), (.cpm, .cpm), (.cpred, .cpred), (.rld, .rld), (.rst, .rst), (.rred, .rred)]

/-- Register k of the run of registers that holds a descriptor (R226). -/
def Sys2Proof.descriptor (c : Ctx) (k : Nat) : U64 := c.g.getS (c.n3 + k)
/-- The extents of a descriptor (R226). -/
def Sys2Proof.extents (c : Ctx) : List Nat :=
  (List.range ((descriptor c 2).toNat / 32 % 8 + 1)).map fun k => (descriptor c (4 + k / 2)).toNat / 2 ^ (32 * (k % 2)) % 2 ^ 32
/-- The strides of a side of a descriptor, from register b on (R226). -/
def Sys2Proof.strides (c : Ctx) (b : Nat) : List Int := (extents c).zipIdx.map fun k => (descriptor c (b + k.2)).toInt
/-- The source type and the destination type of a descriptor (R226). -/
def Sys2Proof.sourceType (c : Ctx) : Nat := (descriptor c 2).toNat % 32
/-- The destination type: the source's, where the field holds 0x1F. -/
def Sys2Proof.targetType (c : Ctx) : Nat :=
  if (descriptor c 2).toNat / 256 % 32 = 0x1F then sourceType c else (descriptor c 2).toNat / 256 % 32
/-- The footprint checks of the source side (R229). -/
def Sys2Proof.sourceSide (kind : CopyKind) (s : State) (c : Ctx) : SideRes :=
  s.sideCheck c.k c.h c.blk (descriptor c 0) (sideSpan (four (sourceType c)) (extents c) (strides c 8))
    (elemSize (sourceType c)) ((extents c).contains 0) false (sideKinds kind).1 (kind != .rld)
/-- The footprint checks of the destination side (R229). -/
def Sys2Proof.targetSide (kind : CopyKind) (s : State) (c : Ctx) : SideRes :=
  s.sideCheck c.k c.h c.blk (descriptor c 1) (sideSpan (four (targetType c)) (extents c) (strides c 16))
    (elemSize (targetType c)) ((extents c).contains 0) true (sideKinds kind).2
    (kind != .cpm && kind != .rst && kind != .rred)

/-- The first fault of a descriptor in the order of R229, with its TRAPINFO. That its barrier handle is checked after these,
that a slot number above 63 is ILLEGAL, and that a CPM's destination in shared memory is WINDOW_PERM are the model's choices
(log entry 20). -/
def Sys2Proof.copyFault (kind : CopyKind) (s : State) (c : Ctx) : Option (BitVec 8 × U64) :=
  let v := (descriptor c 2).toNat
  let a := sourceSide kind s c
  let b := targetSide kind s c
  if c.gid ≠ c.h.producer then some (0x0C, 0)
  else if ctlBad kind v (descriptor c 3) ((extents c).headD 0) ((c.k.channels.find (v / 2 ^ 44 % 16)).isNone
      && !s.channelTaken (c.g.core / 8) (v / 2 ^ 44 % 16) c.blk) = true then
    some (0x01, c.word.setWidth 64)
  else ((typeBad kind v).map fun t => ((0x02 : BitVec 8), BitVec.ofNat 64 t))
    <|> (sideAlign (descriptor c 0) (sourceType c) (strides c 8)).map (fun x => (0x05, x))
    <|> (sideAlign (descriptor c 1) (targetType c) (strides c 16)).map (fun x => (0x05, x))
    <|> (a.bound <|> b.bound).map (fun x => (0x06, x)) <|> (a.miss <|> b.miss).map (fun x => (0x07, x))
    <|> (a.perm <|> b.perm).map fun x => (0x08, x)

/-- The copy that a descriptor without fault describes. -/
def Sys2Proof.copyOf (kind : CopyKind) (s : State) (c : Ctx) : Copy :=
  ⟨kind, descriptor c 2, extents c, descriptor c 0, (sourceSide kind s c).loc, strides c 8, descriptor c 1,
    (targetSide kind s c).loc, strides c 16, c.g.core / 8⟩

/-- The barrier object of a descriptor: none without its barrier bit. -/
def Sys2Proof.copyBarrier (s : State) (c : Ctx) : Except AccFault (Option BarLoc) :=
  if (descriptor c 2).getLsbD 18 then
    (s.handle c.k c.h (descriptor c 3)).map fun l => some (l.inBlock c.blk)
  else .ok none

/-- A block without its multicast channels. -/
def Sys2Proof.lessChannels (k : Block) : Block := { k with channels := [] }

/-- R208, R225 to R232, R240, R433: a tensor copy whose descriptor has no fault is launched and changes no register and no
byte at its issue: the operation holds its resolved descriptor, its status register, its barrier object and its planned
bytes, and has its segments before it (none if it is empty, has 2^40 bytes or more, or its channel is another block's: then
it has finished, with code 3 unless it is empty). A CPM also takes a slot of its channel from each receiving core. -/
def Sys2Proof.CopyIssueResults : Prop :=
  ∀ p ∈ tensorCopies, ∀ (s : State) (c : Ctx) (a b : BitVec 8), Issues (p.1 a b) s c → copyFault p.2 s c = none →
    ∀ bar, copyBarrier s c = .ok bar →
      let y := copyOf p.2 s c
      let dests := if p.2 = .cpm then y.cores.length else 1
      let planned := plannedBytes y.ext y.dt dests
      let empty := y.ext.contains 0
      let ch := y.ctl.toNat / 2 ^ 44 % 16
      let taken := p.2 = .cpm ∧ s.channelTaken y.cluster ch c.blk = true
      let slots := c.k.channel ch (y.ctl.toNat / 2 ^ 48 % 256) y.cores
      let off := empty = true ∨ 2 ^ 40 ≤ planned ∨ taken
      Completes (p.1 a b) s c (c.g.pc + 4) [] (c.launched p.2.cls) State.lessOps lessChannels fun t =>
          (∃ id o, Launched s t c p.2.cls id o ∧ o.kind = .copy y ∧ o.status = (if c.n2 = 0 then none else some c.n2)
            ∧ o.barrier = bar ∧ o.planned = planned ∧ (o.finished = true ↔ off) ∧ (off → o.todo = [])
            ∧ (¬off → o.todo = y.segments)
            ∧ o.code = (if taken ∨ (2 ^ 40 ≤ planned ∧ ¬empty = true) then 3 else 0))
          ∧ ∀ h, ((t.block c.blk).map fun k => k.channels.find h) =
              some (if p.2 = .cpm ∧ ¬taken ∧ h = ch then some (takeSlots slots y.cores) else c.k.channels.find h)

/-- R208, R229: a tensor copy with a faulty descriptor traps with its first fault, in the order of R229, and launches
nothing; its barrier handle is checked last. -/
def Sys2Proof.CopyFaults : Prop :=
  ∀ p ∈ tensorCopies, ∀ (s : State) (c : Ctx) (a b : BitVec 8), Issues (p.1 a b) s c →
    (∀ f, copyFault p.2 s c = some f → Traps (p.1 a b) s c f.1 f.2)
    ∧ (copyFault p.2 s c = none → ∀ e, copyBarrier s c = .error e → AccessTraps (p.1 a b) s c e)

/-- The tensor copies at their issue, and the faults of their descriptors; what log entry 20 chooses among these faults is the
model's. -/
def Obligations.TensorCopyIssue : Prop := CopyIssueResults ∧ CopyFaults

/-- The lanes of a lane copy that is checked, with their intermediate addresses, their addresses and their data. -/
def Sys2Proof.laneTargets (s : State) (c : Ctx) : List (Nat × Nat × U64 × U64) :=
  (List.range 32).filterMap fun l => if c.mask.getLsbD l && c.g.live.getLsbD l then
    (s.mapVa c.k.part c.k.ctx (c.g.getV c.n3 l).toNat).map fun w => (l, w.2, c.g.getV c.n3 l, c.g.getV c.n2 l) else none

/-- R208, R242: a CPG or CPS of the producer whose lanes are aligned and mapped with the right that they need takes up their
verdicts: the group stands at the word, parked until the verdicts have returned, and no register and no byte changes. Another
group raises COPY_ROLE. The copy follows the accesses that its group has issued before it, but for those of the hit pass where it
belongs to the miss pass (R194, R323): that they may still be to come is log entry 3 (DESIGN CHOICE). -/
def Sys2Proof.LaneCopyIssue : Prop :=
  ∀ p ∈ [(Instr.cpg, false), (Instr.cps, true)], ∀ (s : State) (c : Ctx) (a b : BitVec 8), Issues (p.1 a b) s c →
    let n := typeWidth c.ty / 8
    let bad (w : Window × Nat) : Prop :=
      ¬(w.1.kind = 1 ∨ w.1.kind = 2 ∨ w.1.kind = 3) ∨ (if p.2 then w.1.canW else w.1.canR) = false ∨ w.1.kindOk w.2 = false
    let unaligned (l : Nat) : Prop := (c.g.getV c.n3 l).toNat % n ≠ 0
    let at_ (l : Nat) : Option (Window × Nat) := s.mapVa c.k.part c.k.ctx (c.g.getV c.n3 l).toNat
    (c.gid ≠ c.h.producer → Traps (p.1 a b) s c 0x0C 0)
    ∧ (c.gid = c.h.producer →
      (∀ l, liveIn c l → unaligned l → (∀ m < l, liveIn c m → ¬unaligned m) → Traps (p.1 a b) s c 0x05 (c.g.getV c.n3 l))
      ∧ ((∀ l, liveIn c l → ¬unaligned l) →
        (∀ l, liveIn c l → at_ l = none → (∀ m < l, liveIn c m → at_ m ≠ none) → Traps (p.1 a b) s c 0x07 (c.g.getV c.n3 l))
        ∧ ((∀ l, liveIn c l → at_ l ≠ none) →
          (∀ l w, liveIn c l → at_ l = some w → bad w → (∀ m < l, ∀ x, liveIn c m → at_ m = some x → ¬bad x) →
            Traps (p.1 a b) s c 0x08 (c.g.getV c.n3 l))
          ∧ ((∀ l w, liveIn c l → at_ l = some w → ¬bad w) → ∃ t r g id o x, exec (p.1 a b) s = .next t
            ∧ s.issuer = some g ∧ t.group c.blk c.gid = some r ∧ r.park = .verdict id ∧ r.pc = g.pc ∧ r.bundle = g.bundle
            ∧ r.specials = g.specials ∧ (∀ y l, r.lane y l = g.lane y l)
            ∧ OthersKept s t c ∧ t.outer.lessOps = s.outer.lessOps ∧ (∀ k, (t.core k).rest = (s.core k).rest)
            ∧ (∀ k, (t.block k).map Block.rest = (s.block k).map Block.rest)
            ∧ t.ops.find id = some o ∧ (∀ j, j ≠ id → t.ops.find j = s.ops.find j) ∧ o.kind = .lane x ∧ x.put = p.2
            ∧ x.word = c.word ∧ x.vd = c.n2 ∧ x.size = n ∧ x.lanes = laneTargets s c ∧ x.mask = c.mask ∧ x.todo = c.mask &&& c.g.live
            ∧ x.asked = true ∧ x.late = false ∧ x.ready = [] ∧ x.landed = [] ∧ x.hits = [] ∧ o.finished = false
            ∧ x.after = if c.g.handler = false ∧ c.g.split.map Split.pass = some .miss then [] else c.g.posted.map Late.id))))

/-- R241, R244: SLOTRET gives slots of a channel back to the issuing core's counter in every resident block of its cluster,
to at most the initial number; CPCAN ends each of its group's tensor copies that has neither begun nor finished, with code 3. -/
def Sys2Proof.CopyControlResults : Prop :=
  (∀ (s : State) (c : Ctx) (a b : BitVec 8), Issues (.slotret a b) s c →
    let ch := (c.g.getS c.n2).toNat
    let n := (c.g.getS c.n3).toNat
    (16 ≤ ch ∨ 64 ≤ n → Traps (.slotret a b) s c 0x01 (c.word.setWidth 64))
    ∧ (ch < 16 → n < 64 → Completes (.slotret a b) s c (c.g.pc + 4) [] c.g.specials id lessChannels fun t =>
        ∀ bk k k', s.block bk = some k → t.block bk = some k' → ∀ h q,
          let mine := k.st = .resident ∧ ∃ x ∈ k.cores, x / 8 = c.g.core / 8
          (k'.channels.find h).bind (fun u => u.find q) = ((k.channels.find h).bind fun u => u.find q).map fun v =>
            if mine ∧ h = ch ∧ q = c.g.core % 8 then (min v.2 (v.1 + n), v.2) else v))
  ∧ ∀ (s : State) (c : Ctx), Issues .cpcan s c →
    (c.gid ≠ c.h.producer → Traps .cpcan s c 0x0C 0)
    ∧ (c.gid = c.h.producer → Completes .cpcan s c (c.g.pc + 4) [] c.g.specials State.lessOps id fun t =>
        ∀ j, t.ops.find j = (s.ops.find j).map fun o =>
          if o.blk = c.blk ∧ o.gid = c.gid ∧ o.cls = .cp ∧ o.started = false ∧ o.finished = false then
            { o with todo := [], fixups := [], waiting := [], finished := true, code := 3 }
          else o)

/-- The instruction word `i` of a group that parks on no replay record. -/
def Sys2Proof.Unparked (i : Instr) (s : State) (kb : Block) (g : Group) : Prop :=
  replayPark i s.mark (s.hdr kb).checked (readOperands i s g).reads (readOperands i s g).pass g = none

/-- The words that enter the queue of an abacus (R256): MXACQ does not. -/
def Sys2Proof.QueueWord (i : Instr) : Prop :=
  i = .mxrel ∨ i = .spref ∨ (∃ a, i ∈ [Instr.mxfmt a, .mxzero a, .mxst a, .spknot a, .spaff a, .spldc a, .spstc a, .spgrad a,
      .spdx a]) ∨ (∃ a n, i ∈ [Instr.mxldw a n, .mxldws a n]) ∨ (∃ t n a h y, i = .mxmma t n a h y)
    ∨ (∃ d t k, i ∈ [Instr.mxrd d t k, .mxwr d t k]) ∨ (∃ a p t, i = .speval a p t) ∨ ∃ d a, i = .spcnt d a

/-- The words that an engine's class counts (R210). -/
def Sys2Proof.Counted (i : Instr) (cls : EngClass) : Prop :=
  (cls = .cp ∧ ∃ x y, i ∈ [Instr.cpt x y, .cpm x y, .cpred x y]) ∨ (cls = .gt ∧ ∃ x y, i ∈ [Instr.cpg x y, .cps x y])
  ∨ (cls = .mx ∧ (i = .mxrel ∨ (∃ a, i ∈ [Instr.mxfmt a, .mxzero a, .mxst a]) ∨ (∃ a n, i ∈ [Instr.mxldw a n, .mxldws a n])
      ∨ (∃ t n a h y, i = .mxmma t n a h y) ∨ ∃ d t k, i = .mxwr d t k))
  ∨ (cls = .sp ∧ (i = .spref ∨ (∃ a, i ∈ [Instr.spknot a, .spaff a, .spldc a, .spstc a, .spgrad a, .spdx a])
      ∨ (∃ a p t, i = .speval a p t) ∨ ∃ d a, i = .spcnt d a))
  ∨ (cls = .cl ∧ ∃ x y, i ∈ [Instr.coll x y, .rld x y, .rst x y, .rred x y])

/-- R199, R201, R210, R240, R256, R261, R363: a group whose engine is not ready for its word waits: while its class counts 63
operations; for a replay record of its own, of four; for a slot of its channel in each receiving core; for a place in the abacus's
queue, of eight; for the end of its gather and of those queued; and for a place among the 1,024 grids of the partition without a
block. That it waits whatever faults the word has is the order that the model reads in R201 and R26 (log entry 24, DEDUCED); that
an MXRD waits for a place in the queue, and takes one, is log entry 60 (DESIGN CHOICE). -/
def Sys2Proof.EngineReadiness : Prop :=
  ∀ (s : State) (b gid : Nat) (kb : Block) (g : Group), s.cur = some (b, gid) → s.curGroup = some (kb, g) →
    let queue := (kb.abacus (kb.member g.core)).queue
    let waiting := queue.filter fun o => match o.kind with | .grads .. => false | _ => true
    (∀ i cls, Counted i cls → Unparked i s kb g → 63 ≤ g.oc.get cls → Waits i s) ∧
    (∀ x y, ∀ i ∈ [Instr.cpg x y, .cps x y], Unparked i s kb g → 4 ≤ g.replay.length → Waits i s)
    ∧ (∀ x y, let i := Instr.cpm x y
        Unparked i s kb g →
        let m := g.bundle.mods
        let r := readOperands i s g
        let ctl := (r.view.getS (y.toNat + (if fieldBit m.bank 3 then 256 else 0) + (if fieldBit m.ind 3 then r.x else 0) + 2)).toNat
        let ch := ctl / 2 ^ 44 % 16
        s.channelTaken (g.core / 8) ch b = false →
        (∃ k < 8, ctl.testBit (32 + k) = true ∧ ∃ u n, kb.channels.find ch = some u ∧ u.find k = some (0, n)) → Waits i s)
    ∧ (∀ i, QueueWord i → Unparked i s kb g → 8 ≤ waiting.length → Waits i s)
    ∧ (∀ i, ((∃ t n a h y, i = .mxmma t n a h y) ∨ ∃ a p t, i = .speval a p t) → Unparked i s kb g →
        ((∃ o ∈ queue, o.gathered = true) ∨ ∃ x, g.gather = some x ∧ x.done = false) → Waits i s)
    ∧ ∀ x y, let i := Instr.spawn x y
        Unparked i s kb g →
        1024 ≤ (s.grids.filter fun e => e.2.part == kb.part && e.2.next == 0 && e.2.failed.isNone).length → Waits i s

/-- The lane copies at their issue, the words that control copies, and the words that wait for their engine, whatever faults they
have (log entry 24, DEDUCED). -/
def Obligations.LaneCopyAndEngineWords : Prop := LaneCopyIssue ∧ CopyControlResults ∧ EngineReadiness

/-! ## The abacus -/

/-- The number of the issuing core in its block, and its abacus. -/
def Sys2Proof.member (c : Ctx) : Nat := c.k.member c.g.core
/-- The abacus of the issuing core in its block. -/
def Sys2Proof.abacus (c : Ctx) : Abacus := c.k.abacus (member c)

/-- A block without its abaci. -/
def Sys2Proof.lessAbaci (k : Block) : Block := { k with abaci := [] }

/-- The abacus of the issuing core is `v` after a word; those of the block's other members stand. -/
def Sys2Proof.AbacusIs (t : State) (c : Ctx) (v : Abacus) : Prop :=
  ∃ k, t.block c.blk = some k ∧ k.abacus (member c) = v ∧ ∀ m, m ≠ member c → k.abacus m = c.k.abacus m

/-- The word `i` puts an operation of a kind at the end of its abacus's queue and changes no register and no byte (R256). `view` is
what the word changes in the abacus at its issue, and the registers of `awaits` become outstanding. -/
def Sys2Proof.Enqueues (i : Instr) (s : State) (c : Ctx) (cls : EngClass) (kind : MxKind) (view : Abacus → Abacus)
    (awaits : List Reg := []) : Prop :=
  Completes i s c (c.g.pc + 4) [] (c.launched cls) State.lessOps lessAbaci fun t =>
    ∃ id o, Launched s t c cls id o ∧ o.kind = .abacus (kind = .rel) ∧ o.finished = false
      ∧ (∀ x ∈ awaits, ∃ q, t.group c.blk c.gid = some q ∧ ⟨id, x, 0xFFFFFFFF, id, 0⟩ ∈ q.pend)
      ∧ AbacusIs t c (view { abacus c with queue := (abacus c).queue ++ [⟨id, c.gid, kind⟩] })

/-- R255, R276: every abacus word but MXACQ raises MX_NOT_HELD in a group that does not hold the abacus of its core. -/
def Sys2Proof.AbacusRight : Prop :=
  ∀ (s : State) (c : Ctx) (i : Instr), Issues i s c → (abacus c).holder ≠ some c.gid →
    (i = .mxrel ∨ i = .spref ∨ (∃ a, i ∈ [Instr.mxfmt a, .mxzero a, .mxst a, .spknot a, .spaff a, .spldc a, .spstc a,
        .spgrad a, .spdx a]) ∨ (∃ a n, i ∈ [Instr.mxldw a n, .mxldws a n]) ∨ (∃ t n a h y, i = .mxmma t n a h y)
      ∨ (∃ d t k, i ∈ [Instr.mxrd d t k, .mxwr d t k]) ∨ (∃ a p t, i = .speval a p t) ∨ ∃ d a, i = .spcnt d a) →
    Traps i s c 0x0D 0

/-- R255, R276: where the group holds the abacus, a word of it that consumes a poisoned register raises UNCORRECTABLE and does
nothing; but a sparse MXMMA without a sparse format is ILLEGAL before (R261). -/
def Sys2Proof.AbacusPoison : Prop :=
  ∀ (s : State) (c : Ctx) (i : Instr), Issues i s c → (abacus c).holder = some c.gid → c.bad = true →
    ((i = .mxrel ∨ i = .spref ∨ (∃ a, i ∈ [Instr.mxfmt a, .mxzero a, .mxst a, .spknot a, .spaff a, .spldc a, .spstc a,
        .spgrad a, .spdx a]) ∨ (∃ a n, i ∈ [Instr.mxldw a n, .mxldws a n]) ∨ (∃ t n a h, i = .mxmma t n a h 0)
      ∨ (∃ d t k, i ∈ [Instr.mxrd d t k, .mxwr d t k]) ∨ (∃ a p t, i = .speval a p t) ∨ ∃ d a, i = .spcnt d a) →
      Traps i s c 0x14 (-1))
    ∧ ∀ t n a h, i = .mxmma t n a h 1 → ((abacus c).fmtView.n = 0 → Traps i s c 0x01 (c.word.setWidth 64))
        ∧ ((abacus c).fmtView.n ≠ 0 → Traps i s c 0x14 (-1))

/-- The checks of an image at the address in field F2 (R259, R277): a fault, or its place. That MISALIGN holds bits [56:0] of the
address is the model's choice (log entry 20, DEDUCED). -/
def Sys2Proof.imageAt (s : State) (c : Ctx) (n : Nat) (r w : Bool) : Except AccFault BarLoc :=
  if (c.g.getS c.n2).toNat % 32 ≠ 0 then .error ⟨1, 0x05, (c.g.getS c.n2).toNat % 2 ^ 57, [], 4⟩
  else s.checkDesc c.k c.h c.blk (c.g.getS c.n2) n r w

/-- The words whose operation works on an image in memory: bytes, whether they are read or written, class and kind. -/
def Sys2Proof.imageWords : List ((BitVec 8 → BitVec 4 → Instr) × Nat × Bool × EngClass × (BarLoc → Nat → MxKind)) := [
  (.mxldw, 18432, false, .mx, fun l n => .ldw l n 1),
  (.mxldws, 36864, false, .mx, fun l n => .ldw l n 2),
  (fun a _ => .spaff a, 1152, false, .sp, fun l _ => .aff l),
  (fun a _ => .spldc a, 294912, false, .sp, fun l _ => .ldc l),
  (fun a _ => .spstc a, 294912, true, .sp, fun l _ => .stc l)]

/-- R253, R254, R256, R259, R260, R263, R267, R271, R277: MXACQ takes the abacus if no group holds it and no release is
pending, and writes all ones to its predicate register, otherwise zero, and naming p15 it is ILLEGAL (R47); MXREL gives it up; the words that load or store an
image, zero state or write a column are enqueued, after the checks of their image. -/
def Sys2Proof.AbacusQueueResults : Prop :=
  ∀ (s : State) (c : Ctx) (a : BitVec 8),
    (Issues (.mxacq a) s c → a.toNat < 15 →
      let got := (abacus c).holder = some c.gid ∨ ((abacus c).holder = none ∧ (abacus c).relPend = false)
      Completes (.mxacq a) s c (c.g.pc + 4) [.p a.toNat] c.g.specials id lessAbaci fun t =>
        (got → t.regAfter c (.p a.toNat) 0 = 0xFFFFFFFF ∧ AbacusIs t c { abacus c with holder := some c.gid })
        ∧ (¬got → t.regAfter c (.p a.toNat) 0 = 0 ∧ AbacusIs t c (abacus c)))
    ∧ (15 ≤ a.toNat → RaisesIllegal (.mxacq a))
    ∧ ((abacus c).holder = some c.gid → c.bad = false →
      (Issues .mxrel s c → Enqueues .mxrel s c .mx .rel fun x => { x with holder := none, relPend := true })
      ∧ (Issues (.mxzero a) s c →
        let v := (c.g.getS c.n2).toNat
        (2 ^ 32 ≤ v → Traps (.mxzero a) s c 0x01 (c.word.setWidth 64))
        ∧ (v < 2 ^ 32 → Enqueues (.mxzero a) s c .mx (.zero (BitVec.ofNat 16 v) (BitVec.ofNat 16 (v / 2 ^ 16))) id))
      ∧ (∀ p ∈ imageWords, ∀ n, Issues (p.1 a n) s c →
        (∀ f, imageAt s c p.2.1 (!p.2.2.1) p.2.2.1 = .error f → AccessTraps (p.1 a n) s c f)
        ∧ ∀ l, imageAt s c p.2.1 (!p.2.2.1) p.2.2.1 = .ok l → Enqueues (p.1 a n) s c p.2.2.2.1 (p.2.2.2.2 l n.toNat) id)
      ∧ ∀ t k, Issues (.mxwr a t k) s c → Enqueues (.mxwr a t k) s c .mx (.wr t.toNat k.toNat
          (((List.range 32).filter fun i => c.mask.getLsbD i && c.g.live.getLsbD i).flatMap fun i =>
            [(2 * i, (c.g.getV c.n1 i).extractLsb' 0 32), (2 * i + 1, (c.g.getV c.n1 i).extractLsb' 32 32)])) id)

/-- R258, R269, R270, R283, R285 to R287: the words that set formats and knots, and the spline words without a gather, are
enqueued with the fields of their registers, and sd and sd + 1 of an SPCNT are outstanding (R276); a reserved field or value is ILLEGAL, a type that MXFMT does not take is
ILLEGAL_TYPE, and SPGRAD and SPDX check the alignment and the footprint of their buffer (that a misaligned stride reports the
base is log entry 26). -/
def Sys2Proof.AbacusSettingResults : Prop :=
  ∀ (s : State) (c : Ctx) (a : BitVec 8), (abacus c).holder = some c.gid → c.bad = false →
    let r (k : Nat) : U64 := c.g.getS (c.n2 + k)
    let illegal (i : Instr) : Prop := Traps i s c 0x01 (c.word.setWidth 64)
    (Issues (.mxfmt a) s c →
      let v := (r 0).toNat
      let f : MxFmt := ⟨v / 2 ^ 20 % 16, (r 0).getLsbD 16, v / 2 ^ 8 % 32, v % 32, r 1⟩
      let ok (t : Nat) : Prop := t ∈ [0x12, 0x13, 0x14, 0x15, 0x16, 0x17, 0x18, 0, 4, 8, 9]
      (2 ^ 24 ≤ v ∨ v / 2 ^ 17 % 8 ≠ 0 ∨ v / 2 ^ 13 % 8 ≠ 0 ∨ v / 2 ^ 5 % 8 ≠ 0 ∨ 2 ^ 57 ≤ (r 1).toNat
        ∨ f.n ∉ [0, 3, 4, 6] ∨ f.atype ∉ tALL ∨ f.btype ∉ tALL → illegal (.mxfmt a))
      ∧ (v < 2 ^ 24 → v / 2 ^ 17 % 8 = 0 → v / 2 ^ 13 % 8 = 0 → v / 2 ^ 5 % 8 = 0 → (r 1).toNat < 2 ^ 57 →
        f.n ∈ [0, 3, 4, 6] → f.atype ∈ tALL → f.btype ∈ tALL →
        let alike := typeWidth f.atype = typeWidth f.btype ∧ typeInt f.atype = typeInt f.btype ∧ f.accI32 = typeInt f.btype
        let both := contractAllows c.eff f.atype = true ∧ contractAllows c.eff f.btype = true
        let wrong (t : Nat) : Prop := Traps (.mxfmt a) s c 0x02 (BitVec.ofNat 64 t)
        (¬ok f.atype → wrong f.atype) ∧ (ok f.atype → ¬ok f.btype ∨ ¬alike → wrong f.btype)
        ∧ (ok f.atype → ok f.btype → alike → (contractAllows c.eff f.atype = false → wrong f.atype)
          ∧ (contractAllows c.eff f.atype = true → contractAllows c.eff f.btype = false → wrong f.btype)
          ∧ (both → f.n ≠ 0 → ctSparse c.eff = false → wrong (0x100 + f.n))))
      ∧ (v < 2 ^ 24 → v / 2 ^ 17 % 8 = 0 → v / 2 ^ 13 % 8 = 0 → v / 2 ^ 5 % 8 = 0 → (r 1).toNat < 2 ^ 57 →
        f.n ∈ [0, 3, 4, 6] → ok f.atype → ok f.btype → typeWidth f.atype = typeWidth f.btype →
        typeInt f.atype = typeInt f.btype → f.accI32 = typeInt f.btype → contractAllows c.eff f.atype = true →
        contractAllows c.eff f.btype = true → (f.n = 0 ∨ ctSparse c.eff = true) →
        Enqueues (.mxfmt a) s c .mx (.fmt f) fun x => { x with fmtView := f }))
    ∧ (Issues (.spknot a) s c →
      (knotOf (r 0).toNat (r 1).toNat (r 2).toNat = none → illegal (.spknot a))
      ∧ ∀ k, knotOf (r 0).toNat (r 1).toNat (r 2).toNat = some k →
        Enqueues (.spknot a) s c .sp (.knot k) fun x => { x with knotView := k })
    ∧ (Issues .spref s c →
      let k := (abacus c).knotView
      let too := 15 < 2 * k.g + (if k.cubic then 3 else 1) ∨ 253 ≤ k.kinv.toNat / 2 ^ 23 % 256
      (too → illegal .spref) ∧ (¬too → Enqueues .spref s c .sp .refine fun x => { x with knotView := x.knotView.refined }))
    ∧ (Issues (.spgrad a) s c →
      let v := (r 1).toNat
      let j := v / 2 ^ 16 % 128
      let j0 := v / 2 ^ 8 % 64
      let cs := (r 2).toNat / 2 ^ 32
      let rs := (r 2).toNat % 2 ^ 32
      let bad := 2 ^ 23 ≤ v ∨ v / 2 ^ 14 % 4 ≠ 0 ∨ v / 2 ^ 4 % 16 ≠ 0 ∨ j = 0 ∨ 64 < j ∨ 64 < j0 + j
      (bad → illegal (.spgrad a))
      ∧ (¬bad → ((r 0).toNat % 4 ≠ 0 ∨ cs % 4 ≠ 0 ∨ rs % 4 ≠ 0 →
          Traps (.spgrad a) s c 0x05 (BitVec.ofNat 64 ((r 0).toNat % 2 ^ 57)))
        ∧ ((r 0).toNat % 4 = 0 → cs % 4 = 0 → rs % 4 = 0 →
          let place := s.checkDesc c.k c.h c.blk (r 0) ((j - 1) * cs + 143 * rs + 64) true true
          (∀ f, place = .error f → AccessTraps (.spgrad a) s c f)
          ∧ ∀ l, place = .ok l → Enqueues (.spgrad a) s c .sp (.grad l (r 1) (r 2)) id)))
    ∧ (Issues (.spdx a) s c →
      let v := (r 1).toNat
      let st := v / 2 ^ 32 % 2 ^ 16
      let bad := 2 ^ 48 ≤ v ∨ v / 2 ^ 4 % 2 ^ 28 ≠ 0
      (bad → illegal (.spdx a))
      ∧ (¬bad → ((r 0).toNat % 4 ≠ 0 ∨ st % 4 ≠ 0 → Traps (.spdx a) s c 0x05 (BitVec.ofNat 64 ((r 0).toNat % 2 ^ 57)))
        ∧ ((r 0).toNat % 4 = 0 → st % 4 = 0 →
          let place := s.checkDesc c.k c.h c.blk (r 0) (63 * st + 576) false true
          (∀ f, place = .error f → AccessTraps (.spdx a) s c f)
          ∧ ∀ l, place = .ok l → Enqueues (.spdx a) s c .sp (.dx l (r 1)) id)))
    ∧ ∀ d, Issues (.spcnt d a) s c →
      let v := (c.g.getS c.n3).toNat
      (143 < v % 256 ∨ 512 ≤ v → illegal (.spcnt d a))
      ∧ (v % 256 ≤ 143 → v < 512 → Enqueues (.spcnt d a) s c .sp (.cnt (v % 256) ((c.g.getS c.n3).getLsbD 8) c.n2) id
          (([c.n2, c.n2 + 1].filter (· ≠ 0)).map .s))

/-- The right to the abacus, its queued operations and its settings; MISALIGN of an image or buffer with bits [56:0], and of a
stride with the base, are the model's choices (log entries 20 and 26). -/
def Obligations.AbacusWords : Prop := AbacusRight ∧ AbacusPoison ∧ AbacusQueueResults ∧ AbacusSettingResults

/-- The fault of a list of checks made together: that of the first in rank (R170), of the first in order among equals; where it
is a denial at the memory side (rank 5), with one record of each page that the partition filter denied to one of them (R330). -/
def Sys2Proof.RaisedIn {α : Type} (l : List (Except AccFault α)) (f : AccFault) : Prop :=
  let denied := l.flatMap fun x => match x with
    | .ok _ => []
    | .error e => e.records
  ∃ pre e post, l = pre ++ .error e :: post ∧ (∀ x, .error x ∈ pre → e.rank < x.rank) ∧ (∀ x, .error x ∈ post → e.rank ≤ x.rank)
    ∧ { f with records := e.records } = e ∧ (e.rank ≠ 5 → f.records = [])
    ∧ (e.rank = 5 → f.records.Sublist denied ∧ (f.records.map fun x => x.2.1 / 2 ^ 16).Nodup
      ∧ ∀ x ∈ denied, ∃ y ∈ f.records, y.2.1 / 2 ^ 16 = x.2.1 / 2 ^ 16)

/-- The checks of a gathered row of n bytes (R261): aligned to 32, in its space, not poisoned. -/
def Sys2Proof.rowAt (s : State) (c : Ctx) (pad : Bool) (n va : Nat) : Except AccFault BarLoc :=
  if va % 32 ≠ 0 then .error ⟨1, 0x05, va, [], 3⟩
  else match s.checkRange c.k c.h c.blk (if pad then 1 else 0) va n true false with
    | .error f => .error f
    | .ok l => match (List.range n).find? fun i => s.engBad l i with
      | some i => .error ⟨6, 0x14, va + i, [], 3⟩
      | none => .ok l

/-- A word with a gather (R261, R279), of rows 2i and 2i + 1 of each live lane i, whose addresses are the halves of vi in that
lane, from `base` on in the pad. Before the gather its rows are checked, and a fault traps; otherwise the rows are read, the
group stands at the word, and its data are outstanding. Once they have arrived the operation is enqueued with the rows. A gather
of no row is enqueued at once. -/
def Sys2Proof.Gathers (i : Instr) (s : State) (c : Ctx) (cls : EngClass) (pad : Bool) (base : U64) (n : Nat)
    (kind : List (Nat × List Byte) → MxKind) : Prop :=
  let rows : List (Nat × Nat) := ((List.range 32).filter fun l => c.mask.getLsbD l && c.g.live.getLsbD l).flatMap fun l =>
    [0, 1].map fun h => (2 * l + h, (if pad then base.toNat else 0) + elem 32 h (c.g.getV c.n2 l))
  let checks := rows.map fun r => rowAt s c pad n r.2
  (∀ r, c.g.gather = some r → Enqueues i s c cls (kind r.rows) id)
  ∧ (c.g.gather = none → (∀ f, RaisedIn checks f → AccessTraps i s c f)
    ∧ (rows = [] → Enqueues i s c cls (kind []) id)
    ∧ (rows ≠ [] → (∀ x ∈ checks, ∃ l, x = .ok l) → ∃ t g r id, exec i s = .next t ∧ s.issuer = some g
      ∧ t.group c.blk c.gid = some r
      ∧ r.gather = some ⟨id, c.word, g.pc, false, rows.map fun x => (x.1, match rowAt s c pad n x.2 with
          | .ok l => s.engRead l 0 n
          | .error _ => [])⟩
      ∧ r.pc = g.pc ∧ r.bundle = g.bundle ∧ r.park = g.park ∧ r.specials = g.specials ∧ (∀ x l, r.lane x l = g.lane x l)
      ∧ OthersKept s t c ∧ OutsideKept s t))

/-- R261, R263 to R265, R279: MXMMA and SPEVAL check their rows, where a fault traps, gather them and are enqueued with them;
MXRD gives each active lane the two entries of its rows while the queue is empty, unless an entry that a live lane reads is
poisoned, and otherwise takes its place in the queue, its result outstanding; where some poison could reach the tile through the
queue, it traps if an entry of a live lane will be poisoned once the queue has run (log entry 15). MXST is enqueued with its control word and the rows of the live lanes, after the checks of its
alignment and footprint; that a misaligned stride reports the base is log entry 26, and that TRAPINFO holds an address modulo
2^57 log entry 20 (both DEDUCED). -/
def Obligations.AbacusDataResults : Prop :=
  ∀ (s : State) (c : Ctx), (abacus c).holder = some c.gid → c.bad = false →
    let live : List Nat := (List.range 32).filter fun i => c.mask.getLsbD i && c.g.live.getLsbD i
    (∀ (t n : BitVec 4) (a : BitVec 8) (h y : BitVec 1), Issues (.mxmma t n a h y) s c →
      (y = 1 → (abacus c).fmtView.n = 0 → Traps (.mxmma t n a h y) s c 0x01 (c.word.setWidth 64))
      ∧ ((y = 0 ∨ (abacus c).fmtView.n ≠ 0) → Gathers (.mxmma t n a h y) s c .mx (h == 1) (abacus c).fmtView.padbase
          (if y = 1 then 288 * 12 / (abacus c).fmtView.n else 288) (.mma t.toNat n.toNat (y == 1))))
    ∧ (∀ (a : BitVec 8) (p : BitVec 1) (t : BitVec 4), Issues (.speval a p t) s c →
        Gathers (.speval a p t) s c .sp (p == 1) (abacus c).knotView.padbase
          (if (abacus c).knotView.xtype = 0 then 576 else 288) (.eval t.toNat))
    ∧ (∀ d t k : BitVec 8, Issues (.mxrd d t k) s c →
      let carries := (abacus c).tileBad ≠ [] ∨ (abacus c).cellBad ≠ [] ∨ s.memBad ≠ [] ∨ c.k.sharedBad ≠ []
      let queued : Prop :=
        Completes (.mxrd d t k) s c (c.g.pc + 4) [] c.g.specials id lessAbaci fun u => ∃ id,
          AbacusIs u c { abacus c with
            queue := (abacus c).queue ++ [⟨id, c.gid, .rd t.toNat k.toNat c.n1 c.mask c.g.live⟩] }
          ∧ (c.mask ≠ 0 → ∃ q, u.group c.blk c.gid = some q ∧ ⟨id, .v c.n1, c.mask, id, 0⟩ ∈ q.pend)
      ((abacus c).queue ≠ [] → ¬carries → queued)
      ∧ ((abacus c).queue ≠ [] → carries → ∃ u, Begun s u c ∧ IfClean (.mxrd d t k) s c
          (∀ b, (u.runQueue c.blk (member c) c.g.core (abacus c).queue).block c.blk = some b →
            ∀ i ∈ live, ∀ h < 2, tileKey t.toNat (2 * i + h) k.toNat ∉ (b.abacus (member c)).tileBad) queued)
      ∧ ((abacus c).queue = [] → IfClean (.mxrd d t k) s c
          (∀ i ∈ live, ∀ h < 2, tileKey t.toNat (2 * i + h) k.toNat ∉ (abacus c).tileBad)
          (∃ f, WritesLanes (.mxrd d t k) s c f ∧ ∀ l, ∀ h < 2, elem 32 h (f l) =
            outEntry (abacus c).fmt.accI32 ((abacus c).entry t.toNat (2 * l + h) k.toNat) % 2 ^ 32)))
    ∧ ∀ a : BitVec 8, Issues (.mxst a) s c →
      let dst := c.g.getS c.n2
      let ctl := c.g.getS (c.n2 + 1)
      let v := ctl.toNat
      let d := v / 2 ^ 8 % 32
      let t := if d = 0x1F then (if (abacus c).fmtView.accI32 then 2 else 0x11) else d
      let st := v / 2 ^ 32 % 2 ^ 16
      let rows := live.flatMap fun i => [2 * i, 2 * i + 1]
      let bad := 2 ^ 48 ≤ v ∨ v / 2 ^ 18 % 2 ^ 14 ≠ 0 ∨ v / 2 ^ 4 % 16 ≠ 0 ∨ 5 ≤ v / 2 ^ 13 % 8 ∨ (d ≠ 0x1F ∧ d ∉ tALL)
      (bad → Traps (.mxst a) s c 0x01 (c.word.setWidth 64))
      ∧ (¬bad → d = 0x16 ∨ d = 0x17 → Traps (.mxst a) s c 0x02 (BitVec.ofNat 64 d))
      ∧ (¬bad → d ≠ 0x16 → d ≠ 0x17 → dst.toNat % 2 ^ 57 % elemSize t ≠ 0 ∨ st % elemSize t ≠ 0 →
          Traps (.mxst a) s c 0x05 (BitVec.ofNat 64 (dst.toNat % 2 ^ 57)))
      ∧ (¬bad → d ≠ 0x16 → d ≠ 0x17 → dst.toNat % 2 ^ 57 % elemSize t = 0 → st % elemSize t = 0 →
        (rows = [] → ∃ l, Enqueues (.mxst a) s c .mx (.st l ctl []) id)
        ∧ (rows ≠ [] →
          let place := s.checkDesc c.k c.h c.blk (dst + BitVec.ofNat 64 (rows.headD 0 * st))
            ((rows.getLastD 0 - rows.headD 0) * st + 64 * typeWidth t / 8) false true
          (∀ f, place = .error f → AccessTraps (.mxst a) s c f)
          ∧ ∀ l, place = .ok l → Enqueues (.mxst a) s c .mx (.st l ctl rows) id))

/-! ## Tiles and schedules -/

/-- The words of the tile dispenser. -/
def Sys2Proof.scheduleWord (i : Instr) : Prop :=
  (∃ d, i ∈ [Instr.tnext d, .tstat d, .schcom d]) ∨ (∃ a b, i ∈ [Instr.tdone a b, .trel a b, .covr a b])
    ∨ (∃ d x n, i = .schr d x n) ∨ ∃ a n, i = .schw a n

/-- The word `i` completes with scalar results from register n2 on, and the machine outside the blocks is that of `u`. -/
def Sys2Proof.Answers (i : Instr) (s : State) (c : Ctx) (u : State) (dropB : Block → Block) (vs : List U64) (say : State → Prop) : Prop :=
  ∃ t, exec i s = .next t ∧ GroupAfter s t c (c.g.pc + 4) ((List.range vs.length).map fun k => .s (c.n2 + k)) c.g.specials
    ∧ OthersKept s t c ∧ t.outer = u.outer ∧ (∀ n, (t.core n).rest = (u.core n).rest)
    ∧ (∀ b, (t.block b).map (fun k => dropB k.rest) = (s.block b).map fun k => dropB k.rest)
    ∧ (∀ k < vs.length, t.regAfter c (.s (c.n2 + k)) 0 = if c.n2 + k = 0 then 0 else vs.getD k 0) ∧ say t

/-- `Answers` for a word whose dispenser step may write the map, with what that write may wake. -/
def Sys2Proof.MapAnswers (i : Instr) (s : State) (c : Ctx) (u : State) (vs : List U64) : Prop :=
  ∃ t, exec i s = .next t ∧ GroupAfter s t c (c.g.pc + 4) ((List.range vs.length).map fun k => .s (c.n2 + k)) c.g.specials
    ∧ OthersWoken s t c ∧ t.outer = u.outer ∧ (∀ n, (t.core n).rest = (u.core n).rest)
    ∧ (∀ b, (t.block b).map Block.rest = (s.block b).map Block.rest)
    ∧ ∀ k < vs.length, t.regAfter c (.s (c.n2 + k)) 0 = if c.n2 + k = 0 then 0 else vs.getD k 0

/-- A block without its staged schedule. -/
def Sys2Proof.lessStaged (k : Block) : Block := { k with staged := [] }

/-- R377, R380, R381: each word of the dispenser is ILLEGAL in a grid that has none; TDONE and TREL of a handle that the block
does not hold raise TILE_OWNER; SCHW and SCHCOM of a group that may not schedule raise SCHED_RIGHT. -/
def Sys2Proof.ScheduleRights : Prop :=
  ∀ (s : State) (c : Ctx) (i : Instr), Issues i s c →
    (scheduleWord i → (s.gridOf c.k).bind Grid.disp = none → Traps i s c 0x01 (c.word.setWidth 64))
    ∧ ∀ d, (s.gridOf c.k).bind Grid.disp = some d →
      ((∃ a b, i ∈ [Instr.tdone a b, .trel a b]) → (d.handles.find (c.g.getS c.n2).toNat).map Handle.blk ≠ some c.blk →
        Traps i s c 0x10 (c.g.getS c.n2))
      ∧ (∀ a n, i = .schw a n → schOk n.toNat (c.g.getS c.n2) = true → c.gid ≠ c.h.tuner → Traps i s c 0x11 (n.setWidth 64))
      ∧ (∀ a n, i = .schw a n → schOk n.toNat (c.g.getS c.n2) = false → Traps i s c 0x01 (c.word.setWidth 64))
      ∧ (∀ a, i = .schcom a → c.gid ≠ c.h.tuner → Traps i s c 0x11 0x10)

/-- The word `i` completes and leaves its scalar register n2 outstanding; the machine outside the blocks is that of `u`, in which the
number `id` is that of the result to come. -/
def Sys2Proof.Owes (i : Instr) (s : State) (c : Ctx) (id : Nat) (u : State) : Prop :=
  ∃ t r, exec i s = .next t ∧ GroupAfter s t c (c.g.pc + 4) [] c.g.specials ∧ OthersKept s t c ∧ t.outer = u.outer
    ∧ t.group c.blk c.gid = some r ∧ (c.n2 ≠ 0 → ⟨id, .s c.n2, 0xFFFFFFFF, id, 0⟩ ∈ r.pend)

/-- R378 to R381, R384: TNEXT gives a status and the season, and a handle with its atoms for a tile; TDONE and TREL of a grid that
has not failed issue, and their step is the dispenser's; TSTAT gives the counts, SCHR a published or staged register and COVR 32
fields of the map; SCHW stages a value, and SCHCOM publishes every staged value as one season. None changes another group, but
that a write of the map over a barrier object wakes the groups that wait there (R183). That a step whose fields cannot be read
waits in the dispenser, in order with those before it, while its word has issued, is the model's reading (R201; log entry 33,
DEDUCED); sd of a COVR is outstanding meanwhile. -/
def Sys2Proof.ScheduleResults : Prop :=
  ∀ (s : State) (c : Ctx) (g : Grid) (d : Disp), s.gridOf c.k = some g → g.disp = some d →
    let season := BitVec.ofNat 64 (d.season.toNat * 2 ^ 32)
    (∀ a, Issues (.tnext a) s c →
      (∃ u v, Begun s u c ∧ u.nextTile c.blk c.k g d = v ∧ MapAnswers (.tnext a) s c v.2 v.1.words)
      ∧ (g.failed.isSome = true → Answers (.tnext a) s c s id [season + 1, 0, 0, 0, 0, 0] fun _ => True)
      ∧ (g.failed = none → (∃ k ∈ c.k.cores, d.place.getLsbD k = false) →
        Answers (.tnext a) s c s id [season + 2, 0, 0, 0, 0, 0] fun _ => True)
      ∧ (g.failed = none → (∀ k ∈ c.k.cores, d.place.getLsbD k = true) → d.hold = true →
        Answers (.tnext a) s c s id [season + 3, 0, 0, 0, 0, 0] fun _ => True))
    ∧ (∀ p ∈ [(Instr.tdone, 3), (Instr.trel, 0)], ∀ a b, Issues (p.1 a b) s c → ∀ x,
      d.handles.find (c.g.getS c.n2).toNat = some x → x.blk = c.blk →
      (g.failed.isSome = true → GoesTo (p.1 a b) s c (c.g.pc + 4))
      ∧ (g.failed = none → ∃ u, Begun s u c
        ∧ MapAnswers (p.1 a b) s c (u.dispStep c.k.grid (.commit p.2 c.blk (c.g.getS c.n2).toNat (c.g.getS c.n3))) []))
    ∧ (∀ a, Issues (.tstat a) s c →
      let n := d.counts
      Answers (.tstat a) s c s id
        [BitVec.ofNat 64 (n.1 * 2 ^ 32 + n.2.1), BitVec.ofNat 64 (n.2.2.1 * 2 ^ 32 + n.2.2.2)] fun _ => True)
    ∧ (∀ a x n, Issues (.schr a x n) s c →
      let now := d.reg (coreMask (s.coresOf g.part)) n.toNat
      (n = 15 → Traps (.schr a x n) s c 0x01 (c.word.setWidth 64))
      ∧ (n ≠ 15 → Answers (.schr a x n) s c s id [if x = 1 then (c.k.staged.find n.toNat).getD now else now] fun _ => True))
    ∧ (∀ a n, Issues (.schw a n) s c → schOk n.toNat (c.g.getS c.n2) = true → c.gid = c.h.tuner →
      Answers (.schw a n) s c s lessStaged [] fun t => ∀ j, (t.block c.blk).map (fun k => k.staged.find j) =
        some (if j = n.toNat then some (c.g.getS c.n2) else c.k.staged.find j))
    ∧ (∀ a, Issues (.schcom a) s c → c.gid = c.h.tuner →
      Answers (.schcom a) s c (s.modDisp c.k.grid fun d =>
          { c.k.staged.foldl (fun d x => d.publish (coreMask (s.coresOf g.part)) x) d with season := d.season + 1, cursor := 0 })
        lessStaged [(d.season + 1).setWidth 64] fun t => (t.block c.blk).map Block.staged = some [])
    ∧ ∀ a b, Issues (.covr a b) s c →
      let lo := (c.g.getS c.n3).toNat
      let read := ((List.range 32).map fun i => lo + i).filter fun a => a < d.size
      ∃ u0 id u w0 w v, Begun s u0 c ∧ c.owe u0 c.n2 = (id, u) ∧ w0 = State.mapReach g.part d true false read u
        ∧ w = State.syncAtoms c.k.grid read w0.2
        ∧ (∀ i < 32, v.toNat / 4 ^ i % 4 = if lo + i < d.size then ((w.dispOf c.k.grid).getD d).codeOf (lo + i) % 4 else 3)
        ∧ (d.later = [] → w0.1 = none → Answers (.covr a b) s c w (fun k => k) [v] fun _ => True)
        ∧ (∀ e, d.later = [] → w0.1 = some e → Owes (.covr a b) s c id
            ((w0.2.mapStuck c.k.grid g e).modDisp c.k.grid fun d => { d with later := [.read c.blk c.gid id c.n2 lo] }))
        ∧ (d.later ≠ [] → Owes (.covr a b) s c id
            (u.modDisp c.k.grid fun d => { d with later := d.later ++ [.read c.blk c.gid id c.n2 lo] }))

/-- R380, R383 (log entry 33): a step of the dispenser comes behind those that wait. A step whose fields can be read is taken at
once: a TDONE or TREL makes done, or free, the named atoms that are claimed under its handle, each of which is written so to the
map and leaves the handle, and no other atom; the exit of a block frees the atoms of its handles, and its pre-emption or its
resumption makes them held, or claimed again. A step whose fields cannot be read waits on their page. -/
def Sys2Proof.DispenserSteps : Prop :=
  ∀ (s : State) (gh : Nat) (g : Grid) (d : Disp), s.grids.find gh = some g → g.disp = some d → g.failed = none →
    Rises d.handles →
    (∀ st, d.later ≠ [] → s.dispStep gh st = s.modDisp gh fun d => { d with later := d.later ++ [st] })
    ∧ (d.later = [] →
      (∀ (code b h : Nat) (mask : U64) (x : Handle), code = 0 ∨ code = 3 → d.handles.find h = some x → x.blk = b →
        let named := (x.atoms.filter fun y => mask.getLsbD y.1).map Prod.snd
        let w0 := State.mapReach g.part d true false named s
        let w := State.syncAtoms gh named w0.2
        let e := (w.dispOf gh).getD d
        let act := named.filter fun a => e.ownerOf a |>.any fun y => y.1 == h && y.2.blk == b && !y.2.held
        (∀ r, w0.1 = some r → s.dispStep gh (.commit code b h mask) =
          (w0.2.mapStuck gh g r).modDisp gh fun d => { d with later := [.commit code b h mask] })
        ∧ (w0.1 = none → (∀ y ∈ e.handles, ∀ a ∈ y.2.left, a ∉ e.done) → ∃ f m,
          s.dispStep gh (.commit code b h mask) = m.modDisp gh (fun d => { d with later := [] })
          ∧ m = act.foldl (fun w a => w.fieldWrite gh a code) (w.modDisp gh fun _ => f)
          ∧ (∀ a, f.codeOf a = if a ∈ act then code else e.codeOf a)
          ∧ ∀ n, f.handles.find n = (e.handles.find n).bind fun y =>
              let left := y.left.filter fun a => !act.contains a
              if left = [] then none else some { y with left := left }))
      ∧ ∀ (code b : Nat) (hs : List Nat), code < 3 →
        let mine (h : Nat × Handle) : Prop := h.1 ∈ hs ∧ h.2.blk = b
        let atoms := (d.handles.filter fun h => hs.contains h.1 && h.2.blk == b).flatMap fun h => h.2.left
        let w0 := State.mapReach g.part d true false atoms s
        let w := State.syncAtoms gh atoms w0.2
        let e := (w.dispOf gh).getD d
        (∀ r, w0.1 = some r → s.dispStep gh (.owner code b hs) =
          (w0.2.mapStuck gh g r).modDisp gh fun d => { d with later := [.owner code b hs] })
        ∧ (w0.1 = none → ∃ f m,
          s.dispStep gh (.owner code b hs) = m.modDisp gh (fun d => { d with later := [] })
          ∧ m = (e.reads (.owner code b hs)).foldl (fun w a => w.fieldWrite gh a code) (w.modDisp gh fun _ => f)
          ∧ f.done = e.done ∧ ∀ n, f.handles.find n = (e.handles.find n).bind fun y =>
              if mine (n, y) then (if code = 0 then none else some { y with held := code == 2 }) else some y))

/-- Where the bytes of the map's atoms stand that the dispenser can read and write. -/
def Sys2Proof.MapAt (s : State) (part : Nat) (d : Disp) (a key : Nat) : Prop :=
  key < peerBase ∧ (∃ stamp dirty ia, (s.mapTarget part d a true false).1 = [(.key key stamp dirty, ia, 1)])
    ∧ ∃ stamp dirty ia, (s.mapTarget part d a false true).1 = [(.key key stamp dirty, ia, 1)]

/-- R383: how the dispenser acts on a field that it reads. A claimed atom whose field reads 01, or 10 while its block is held,
and a done one whose field reads 11, stand; any other atom of a handle leaves it without a transition, and a handle that keeps
none is retired; the atom is then done if its field reads 11 and free otherwise. The fields are read from the map: two bits of
its bytes. -/
def Sys2Proof.MapReads : Prop :=
  (∀ (d : Disp) (a code h : Nat) (x : Handle), code < 4 → Rises d.handles →
    (∀ e ∈ d.handles, e.2.left ≠ [] ∧ (e.1 ≠ h → a ∉ e.2.left)) → a ∉ d.done →
    d.handles.find h = some x → a ∈ x.left →
    let keeps := code = 1 ∨ (code = 2 ∧ x.held = true)
    let left := x.left.filter fun y => y != a
    (keeps → d.adjust a code = d)
    ∧ (¬keeps → (d.adjust a code).codeOf a = (if code = 3 then 3 else 0)
      ∧ (d.adjust a code).handles.find h = (if left = [] then none else some { x with left := left })
      ∧ ∀ n, n ≠ h → (d.adjust a code).handles.find n = d.handles.find n))
  ∧ (∀ (d : Disp) (a code : Nat), code < 4 → (∀ e ∈ d.handles, a ∉ e.2.left) →
    (d.adjust a code).codeOf a = (if code = 3 then 3 else 0) ∧ (d.adjust a code).handles = d.handles
    ∧ ∀ x, x ≠ a → ((d.adjust a code).done.contains x ↔ d.done.contains x))
  ∧ ∀ (s : State) (gh : Nat) (g : Grid) (d : Disp) (atoms : List Nat) (key : Nat → Nat), s.grids.find gh = some g →
    g.disp = some d → d.pending = [] → (∀ a ∈ atoms, MapAt s g.part d a (key a)) →
    State.mapReach g.part d true false atoms s = (none, s)
    ∧ (State.syncAtoms gh atoms s).dispOf gh =
        some (atoms.foldl (fun d a => d.adjust a ((Memory.get s.mem (key a)).toNat / 4 ^ (a % 4) % 4)) d)
    ∧ (State.syncAtoms gh atoms s).mem = s.mem
    ∧ ∀ n, n ≠ gh → (State.syncAtoms gh atoms s).grids.find n = s.grids.find n

/-- R383: a transition changes its field's two bits alone in the map, where the byte can be written; it then stands in memory at once, on a page that is DIRTY already and outside barrier objects. -/
def Sys2Proof.MapWrites : Prop :=
  ∀ (s : State) (gh : Nat) (g : Grid) (d : Disp) (a code key stamp ia : Nat), s.grids.find gh = some g → g.disp = some d →
    d.pending = [] → code < 4 → key < peerBase →
    (s.mapTarget g.part d a false true).1 = [(.key key stamp none, ia, 1)] → (∀ o ∈ s.padBars, key < o ∨ o + 16 ≤ key) →
    let t := s.fieldWrite gh a code
    (∀ i < 4, (Memory.get t.mem key).toNat / 4 ^ i % 4 = if i = a % 4 then code else (Memory.get s.mem key).toNat / 4 ^ i % 4)
    ∧ (∀ x, x ≠ key → Memory.get t.mem x = Memory.get s.mem x) ∧ t.grids = s.grids

/-- R382: under an ORDER that is a permutation, tile `w` stands at the coordinates whose mixed-radix number is w, slot 0
fastest; it reaches t_k atoms along dimension k, or to the grid's end; and its atoms come in the order of the mask (R378). -/
def Sys2Proof.TileNumbers : Prop :=
  ∀ (d : Disp) (w : Nat), w < d.tileCount → ((List.range 4).map d.slot).Perm [0, 1, 2, 3] →
    let m (j : Nat) := d.tilesAlong (d.slot j)
    let x (j : Nat) := d.coord w (d.slot j)
    let at_ (k i : Nat) := d.coord w k * d.tileAt k + i
    w = x 0 + m 0 * (x 1 + m 1 * (x 2 + m 2 * x 3)) ∧ (∀ k < 4, d.coord w k < d.tilesAlong k)
    ∧ (∀ k < 4, d.extent w k = min (d.tileAt k) (d.along k - d.coord w k * d.tileAt k))
    ∧ ∀ i0 < d.extent w 0, ∀ i1 < d.extent w 1, ∀ i2 < d.extent w 2, ∀ i3 < d.extent w 3,
      (d.tileAtoms w)[i0 + d.extent w 0 * (i1 + d.extent w 1 * (i2 + d.extent w 2 * i3))]? =
        some (at_ 0 i0 + d.along 0 * (at_ 1 i1 + d.along 1 * (at_ 2 i2 + d.along 2 * at_ 3 i3)))

/-- No agent but the dispenser has written the map, and every byte of it can be reached: each field reads as the dispenser
left it (R383). -/
def Sys2Proof.MapAgrees (s : State) (part : Nat) (d : Disp) : Prop :=
  d.pending = [] ∧ ∀ a < d.size, ∃ key, MapAt s part d a key ∧ (Memory.get s.mem key).toNat / 4 ^ (a % 4) % 4 = d.codeOf a

/-- R378, R379, R382: TNEXT of a grid that has not failed and does not hold, by a block in PLACE with fewer than 16 live
handles: with no atom free it answers none left; with a free atom in the walk it gives the first tile with one from the cursor
on, under a handle that is not live (the next number, where it is not), with its origin, its extents and the mask of its free
atoms, which are the block's from then on; the fields of those atoms are written 01; and the cursor moves past the tile. -/
def Sys2Proof.TileResults : Prop :=
  ∀ (s : State) (c : Ctx) (g : Grid) (d : Disp) (a : BitVec 8), s.gridOf c.k = some g → g.disp = some d →
    Issues (.tnext a) s c → g.failed = none → (∀ k ∈ c.k.cores, d.place.getLsbD k = true) → d.hold = false →
    let season := BitVec.ofNat 64 (d.season.toNat * 2 ^ 32)
    let mine := (d.handles.filter fun h => h.2.blk == c.blk).length
    let at_ (k : Nat) := (d.cursor + k) % d.tileCount
    (16 ≤ mine → Answers (.tnext a) s c s id [season + 3, 0, 0, 0, 0, 0] fun _ => True)
    ∧ (mine < 16 → d.counts.2.1 = 0 → Answers (.tnext a) s c s id [season + 1, 0, 0, 0, 0, 0] fun _ => True)
    ∧ (mine < 16 → d.counts.2.1 ≠ 0 → d.cursor < d.tileCount → MapAgrees s g.part d →
      ((∀ k < d.tileCount, ∀ x ∈ d.tileAtoms (at_ k), d.codeOf x ≠ 0) →
        Answers (.tnext a) s c s id [season + 1, 0, 0, 0, 0, 0] fun _ => True)
      ∧ ∀ k < d.tileCount, (∀ j < k, ∀ x ∈ d.tileAtoms (at_ j), d.codeOf x ≠ 0) →
        (∃ x ∈ d.tileAtoms (at_ k), d.codeOf x = 0) →
        let w := at_ k
        let atoms := d.tileAtoms w
        let free := ((List.range atoms.length).zip atoms).filter fun x => d.codeOf x.2 == 0
        let org (i : Nat) := d.coord w i * d.tileAt i * d.atom.getD i 1 % 2 ^ 32
        ∃ t h, exec (.tnext a) s = .next t
          ∧ GroupAfter s t c (c.g.pc + 4) ((List.range 6).map fun k => .s (c.n2 + k)) c.g.specials ∧ OthersWoken s t c
          ∧ (d.handles.length < 2 ^ 32 - 1 → h ≠ 0 ∧ h < 2 ^ 32 ∧ d.handles.find h = none)
          ∧ (d.nextH < 2 ^ 32 → d.nextH ≠ 0 → d.handles.find d.nextH = none → h = d.nextH)
          ∧ (∀ i < 6, t.regAfter c (.s (c.n2 + i)) 0 = if c.n2 + i = 0 then 0 else
            [season, BitVec.ofNat 64 h, BitVec.ofNat 64 (org 1 * 2 ^ 32 + org 0), BitVec.ofNat 64 (org 3 * 2 ^ 32 + org 2),
              BitVec.ofNat 64 (d.extent w 0 + d.extent w 1 * 2 ^ 16 + d.extent w 2 * 2 ^ 32 + d.extent w 3 * 2 ^ 48),
              BitVec.ofNat 64 (free.map fun x => 2 ^ x.1).sum].getD i 0)
          ∧ (t.dispOf c.k.grid).map (fun e => { e with wait := [], pending := [] }) = some { d with
              handles := d.handles.put h ⟨c.blk, free, free.map Prod.snd, false⟩, nextH := h % (2 ^ 32 - 1) + 1,
              cursor := (w + 1) % d.tileCount, wait := [], pending := [] }
          ∧ (∃ u, Begun s u c ∧ t.outer = ((free.map Prod.snd).foldl (fun v x => v.fieldWrite c.k.grid x 1)
              (u.modDisp c.k.grid fun d => { d with
                handles := d.handles.put h ⟨c.blk, free, free.map Prod.snd, false⟩, nextH := h % (2 ^ 32 - 1) + 1,
                cursor := (w + 1) % d.tileCount })).outer)
          ∧ ∀ n, n ≠ c.k.grid → t.grids.find n = s.grids.find n)

/-- The words of a tuner and a producer: who may issue them, and what they do. What waits in the dispenser, and how, is log entry 33
(DEDUCED). -/
def Obligations.ScheduleWords : Prop :=
  ScheduleRights ∧ ScheduleResults ∧ DispenserSteps ∧ TileResults ∧ TileNumbers ∧ MapReads ∧ MapWrites

/-! ## Launches and collectives -/

/-- R363: a SPAWN whose record can be read accepts the record as a grid of the next depth of its tree, with the group's
rights and its lane's priority, and gives its handle with bit 63 to sd; in a tree that counts 65535 grids or at depth 15 it
raises SPAWN_LIMIT. A record on a page that is not present is read once the page is there: the word has issued, the tree counts the
child already, and sd is outstanding until then (R201, R345; log entry 21, DEDUCED). -/
def Obligations.SpawnResults : Prop :=
  ∀ (s : State) (c : Ctx) (d a : BitVec 8) (g : Grid), Issues (.spawn d a) s c → s.gridOf c.k = some g →
    ∃ u r id w, Begun s u c ∧ r = u.spawnRead c (c.g.getS c.n3)
      ∧ c.owe { r.2 with trees := r.2.trees.adj g.tree fun t => { t with counter := t.counter + 1 } } c.n2 = (id, w)
      ∧ (∀ cause info, r.1 = .error (cause, info) → Traps (.spawn d a) s c cause (BitVec.ofNat 64 info))
      ∧ (∀ x, r.1 = .ok x →
        let full := (s.trees.find g.tree).map Tree.counter = some 65535
        (full → Traps (.spawn d a) s c 0x12 1)
        ∧ (¬full → 15 ≤ g.depth → Traps (.spawn d a) s c 0x12 2)
        ∧ (¬full → g.depth < 15 → ∀ kind ia, x = .wait kind ia → ∃ t y, exec (.spawn d a) s = .next t
          ∧ Owes (.spawn d a) s c id t
          ∧ t.spawns.find id = some y ∧ y.blk = c.blk ∧ y.gid = c.gid ∧ y.reg = c.n2 ∧ y.tree = g.tree
          ∧ y.depth = g.depth + 1 ∧ y.va = (c.g.getS c.n3).toNat ∧ y.wait = ia
          ∧ t.trees = w.trees ∧ t.grids = s.grids)
        ∧ (¬full → g.depth < 15 → (∀ kind ia, x ≠ .wait kind ia) →
          let bytes := match x with | .ok bs => bs | _ => []
          let prio := ((s.trees.find g.tree).bind fun t => (s.lanes.find t.lane).map Lane.prio).getD g.prio
          let n := w.accept g.tree (g.depth + 1) c.k.part c.k.ctx (dieOf c.g.core) prio g.privileged false (some bytes) none
          ∃ t, exec (.spawn d a) s = .next t
            ∧ GroupAfter s t c (c.g.pc + 4) [.s c.n2] c.g.specials ∧ OthersKept s t c
            ∧ t.outer = n.2.outer
            ∧ t.regAfter c (.s c.n2) 0 = if c.n2 = 0 then 0 else BitVec.ofNat 64 (2 ^ 63 + n.1)))

/-- The fields of COLL's descriptor and what its checks find, in the order of R429. -/
def Sys2Proof.collFault (s : State) (c : Ctx) : Option (BitVec 8 × U64) :=
  let d := (List.range 8).map (descriptor c)
  let y := CollDesc.of d
  let comm := s.openComm (commKey c.k.part y.handle)
  let p := (comm.map Comm.count).getD 1
  if collReserved d = true ∨ y.n = 0 ∨ (comm.isSome = true ∧ p ≤ y.root) ∨ y.overlaps p = true then
    some (0x01, c.word.setWidth 64)
  else if y.typeOk (comm.map Comm.contract) = false then some (0x02, BitVec.ofNat 64 y.ty)
  else none

/-- The footprints of COLL (R429). -/
def Sys2Proof.collPlaces (s : State) (c : Ctx) : Except (BitVec 8 × Nat) Nat × Except (BitVec 8 × Nat) Nat :=
  let y := CollDesc.of ((List.range 8).map (descriptor c))
  let p := ((s.openComm (commKey c.k.part y.handle)).map Comm.count).getD 1
  (s.footprint c.k.part c.k.ctx y.src (y.srcBytes p) false, s.footprint c.k.part c.k.ctx y.dst (y.dstBytes p) true)

/-- R429: COLL without a fault launches an operation of its communicator in class CL, joins its group to its block's
collective, and changes no register and no byte; a communicator of another contract raises CMIX at the source, or counts it
while mode.cmixm is set. The barrier handle, misaligned footprints and footprints that miss the windows raise their faults, the
source's before the destination's within one of them. The lowest-numbered group gives the collective its descriptor. On a
communicator that is not open the checks that need its size take one member (log entry 34, DEDUCED), and the collective is to
end with reason 2. -/
def Sys2Proof.CollectiveIssue : Prop :=
  ∀ (s : State) (c : Ctx) (a b : BitVec 8), Issues (.coll a b) s c →
    let d := (List.range 8).map (descriptor c)
    let y := CollDesc.of d
    let key := commKey c.k.part y.handle
    let h := c.g.getS c.n2
    let mixed := ∃ k, s.openComm key = some k ∧ k.contract ≠ c.eff
    (∀ f, collFault s c = some f → Traps (.coll a b) s c f.1 f.2)
    ∧ (collFault s c = none → h ≠ 0 → ∀ f, s.handle c.k c.h h = .error f → AccessTraps (.coll a b) s c f)
    ∧ (collFault s c = none →
      ∀ bar, (if h = 0 then Except.ok none else (s.handle c.k c.h h).map fun l => some (l.inBlock c.blk)) = .ok bar →
        (y.src % elemSize y.ty ≠ 0 → Traps (.coll a b) s c 0x05 (BitVec.ofNat 64 y.src))
        ∧ (y.src % elemSize y.ty = 0 → y.dst % elemSize y.ty ≠ 0 → Traps (.coll a b) s c 0x05 (BitVec.ofNat 64 y.dst))
        ∧ (y.src % elemSize y.ty = 0 → y.dst % elemSize y.ty = 0 →
          (∀ x va, (collPlaces s c).1 = .error (x, va) → (∀ v, (collPlaces s c).2 = .error (cMISS, v) → x = cMISS) →
            Traps (.coll a b) s c x (BitVec.ofNat 64 va))
          ∧ ∀ x va, (collPlaces s c).2 = .error (x, va) →
            (∀ y v, (collPlaces s c).1 = .error (y, v) → y = cPERM ∧ x = cMISS) →
            Traps (.coll a b) s c x (BitVec.ofNat 64 va))
        ∧ (y.src % elemSize y.ty = 0 → y.dst % elemSize y.ty = 0 → ∀ src dst, collPlaces s c = (.ok src, .ok dst) →
          (mixed → c.g.mode.getLsbD 8 = false → Traps (.coll a b) s c 0x0B (BitVec.ofNat 64 y.src))
          ∧ (¬mixed ∨ c.g.mode.getLsbD 8 = true → ∃ t id o, exec (.coll a b) s = .next t
            ∧ GroupAfter s t c (c.g.pc + 4) [] { c.launched .cl with
                cmixcnt := if mixed ∧ c.g.cmixcnt ≠ 0xFFFFFFFF then c.g.cmixcnt + 1 else c.g.cmixcnt }
            ∧ OthersKept s t c ∧ Launched s t c .cl id o ∧ o.kind = .coll key 0 bar ∧ o.finished = false
            ∧ ({ t.outer.lessOps with colls := [] } : State) = { s.outer.lessOps with colls := [] }
            ∧ (∀ n, (t.core n).rest = (s.core n).rest)
            ∧ (∀ n, (t.block n).map Block.rest = (s.block n).map Block.rest)
            ∧ ∃ n k, t.colls.find n = some k ∧ k.blk = c.blk ∧ k.ops.find c.gid = some id ∧ k.started = false
              ∧ ((k.ops.headD (0, 0)).1 = c.gid → k.comm = key ∧ k.desc = d ∧ k.bar = bar ∧ k.src = src ∧ k.dst = dst)
              ∧ (s.openComm key = none → (∀ j, s.colls.find n = some j → j.failed = none ∨ j.failed = some 2) → k.failed = some 2)
              ∧ ∀ m, m ≠ n → t.colls.find m = s.colls.find m)))

/-- R431, R432: ARQPOP gives the oldest tile of a harvest queue with bit 63, or zero from an empty queue; STEPPOP gives the
next step of a communicator to a block of its carry grid (status 1 without a step, 2 once the communicator closes); STEPDONE
ends a popped step of the issuing die, unless its reduction unit has refused a contribution. -/
def Sys2Proof.CarryResults : Prop :=
  ∀ (s : State) (c : Ctx) (a b : BitVec 8),
    let q := (c.g.getS c.n3).toNat
    let die := c.g.core / 128
    (Issues (.arqpop a b) s c →
      (q = 0 ∨ 64 < q → Traps (.arqpop a b) s c 0x01 (c.word.setWidth 64))
      ∧ (q ≠ 0 → q ≤ 64 →
        let key := harvestKey die c.k.part c.k.ctx q
        ((s.harvest.find key).getD [] = [] → Answers (.arqpop a b) s c s id [0] fun _ => True)
        ∧ ∀ x r, (s.harvest.find key).getD [] = x :: r → ∃ v, Answers (.arqpop a b) s c { s with harvest := v } id
            [BitVec.ofNat 64 (2 ^ 63 + x.toNat % 2 ^ 32)] fun _ =>
              (v.find key).getD [] = r ∧ ∀ k, k ≠ key → v.find k = s.harvest.find k))
    ∧ (Issues (.steppop a b) s c →
      (c.carries s (c.g.getS c.n3) = none → Traps (.steppop a b) s c 0x01 (c.word.setWidth 64))
      ∧ ∀ k, c.carries s (c.g.getS c.n3) = some k →
        (k.closing = true → Answers (.steppop a b) s c s id [2, 0, 0, 0] fun _ => True)
        ∧ (k.closing = false →
          let mine (p : Nat × Step) : Bool := p.2.comm == commKey k.part k.handle && p.2.die == die && !p.2.popped
          (s.steps.find? mine = none → Answers (.steppop a b) s c s id [1, 0, 0, 0] fun _ => True)
          ∧ ∀ n t, s.steps.find? mine = some (n, t) →
            Answers (.steppop a b) s c { s with steps := s.steps.adj n fun t => { t with popped := true } } id
              [BitVec.ofNat 64 (n * 2 ^ 32 + t.kind * 16), t.src, t.dst, BitVec.ofNat 64 (t.ety * 2 ^ 32 + t.bytes)]
              fun _ => True))
    ∧ (Issues (.stepdone a b) s c → c.carries s (c.g.getS c.n2) = none ∨ s.steps.find q = none →
      Traps (.stepdone a b) s c 0x01 (c.word.setWidth 64))
    ∧ (Issues (.stepdone a b) s c → ∀ k t, c.carries s (c.g.getS c.n2) = some k → s.steps.find q = some t →
      let ok := q < 2 ^ 32 ∧ t.comm = commKey k.part k.handle ∧ t.die = die ∧ t.popped = true
      (¬ok → Traps (.stepdone a b) s c 0x01 (c.word.setWidth 64))
      ∧ (ok → t.refused = true → (s.colls.find t.coll).map Collective.failed = some none →
        Answers (.stepdone a b) s c { s with steps := s.steps.adj q fun t => { t with asked := true } } id [] fun _ => True)
      ∧ (ok → t.refused = false ∨ (s.colls.find t.coll).map Collective.failed ≠ some none →
        Answers (.stepdone a b) s c (s.endStep q t) id [] fun _ => True))

/-- COLL at its issue, and the words of a carry core. -/
def Obligations.CollectiveWords : Prop := CollectiveIssue ∧ CarryResults

/-! ## Prefixes, and words that are no instruction -/

/-- A prefix word of the group that issues: it is added to the bundle and takes a slot; no register and nothing else moves. -/
def Sys2Proof.AddsPrefix (i : Instr) (s : State) (rank : Nat) (set : Bundle → Bundle) : Prop :=
  ∀ k g b n, s.cur = some (b, n) → s.curGroup = some (k, g) → g.nextAt.toNat ≤ s.cycle.toNat →
    ∃ t r w, exec i s = .next t ∧ t.group b n = some r ∧ encode ⟨false, i⟩ = some w ∧ r.pc = g.pc + 4
      ∧ r.slotNo = g.slotNo + 1 ∧ r.bundle.words = g.bundle.words ++ [w] ∧ r.bundle.entry = g.bundle.entry
      ∧ r.bundle.rank = max g.bundle.rank rank
      ∧ (r.bundle.bad = if g.bundle.bad.isSome = true then g.bundle.bad
          else if i.wellFormed = false ∨ rank ≤ g.bundle.rank then some (g.bundle.words.length, w) else none)
      ∧ ({ r.bundle with words := [], rank := 0, bad := none } : Bundle) =
          { set g.bundle with words := [], rank := 0, bad := none }
      ∧ r.specials = g.specials ∧ (∀ x l, r.lane x l = g.lane x l)
      ∧ (∀ b' n', ¬(b' = b ∧ n' = n) → t.group b' n' = s.group b' n') ∧ OutsideKept s t
      ∧ ((t.core g.core).quarter g.quarter).lock = some g.slot

/-- R27 to R31, R190, R202: a prefix completes when the pace of its group allows it: its word joins the bundle with the field
that it supplies, the first word that breaks the order of R28 or R27 is kept for the fault, and the quarter is held for the
rest of the bundle. That the first of two PFX.MOD words keeps its say is the model's reading (log entry 18, DEDUCED). -/
def Sys2Proof.PrefixResults : Prop :=
  ∀ s : State,
    (∀ f : BitVec 24, AddsPrefix (.pfxImx f) s 1 (fun k => { k with imx := some f })
      ∧ AddsPrefix (.pfxImm f) s 2 (fun k => { k with imm := some f })
      ∧ AddsPrefix (.pfxPatch f) s 2 fun k => { k with patch := some f })
    ∧ (∀ b n x m t u v o p, AddsPrefix (.pfxMod b n x m t u v o p) s 3 fun k =>
        { k with mod := some (k.mod.getD ⟨b, n, x, m, t, u == 1, v == 1, o, p⟩) })
    ∧ (∀ l p, AddsPrefix (.pfxSched l p) s 4 fun k => { k with sched := some (l == 1, p) })
    ∧ ∀ n, AddsPrefix (.pfxSplit n) s 5 fun k => { k with split := some n }

/-- The group that issues has trapped (R88): as `EntersHandler`, in terms of the group alone. -/
def Sys2Proof.HandlerOf (s t : State) (b n : Nat) (k : Block) (g : Group) (cause : BitVec 8) (info : U64) : Prop :=
  (g.handler = false ∧ (s.hdr k).trap ≠ 0 → ∃ r, t.group b n = some r
    ∧ r.pc = BitVec.ofNat 64 (s.kernelBase k + (s.hdr k).trap)
    ∧ r.specials = { g.specials with cause := cause, trapPc := g.bundle.entry, trapInfo := info, resume := g.pc + 4,
                                      handler := true }
    ∧ (∀ x l, r.lane x l = g.lane x l))
  ∧ (g.handler = true ∨ (s.hdr k).trap = 0 → t.block b = none)

/-- R22 to R28, R83: a word that is no instruction raises ILLEGAL with its bundle's first malformed word as TRAPINFO, which is the
word itself after prefixes that every word can use, but one with the major of a prefix joins its bundle as malformed; a word that
cannot be fetched traps with the fault of its fetch, or with ILLEGAL after an earlier malformed word. That the resume register is
then the address of that word plus 4, and that a PFX.IMX before it does not count as malformed, are the model's choices (log entry
42, DESIGN CHOICE). -/
def Sys2Proof.UnfitWords : Prop :=
  ∀ (s : State) (b n : Nat) (k : Block) (g : Group), s.cur = some (b, n) → s.curGroup = some (k, g) →
    g.nextAt.toNat ≤ s.cycle.toNat →
    let w : Word := BitVec.ofNat 32 (s.arg 0)
    let major := w.toNat / 2 ^ 24 % 128
    (1 ≤ major → major ≤ 6 → ∃ t r, exec .illegalEncoding s = .next t ∧ t.group b n = some r ∧ r.pc = g.pc + 4
      ∧ r.bundle.words = g.bundle.words ++ [w]
      ∧ r.bundle.bad = (if g.bundle.bad.isSome = true then g.bundle.bad else some (g.bundle.words.length, w)))
    ∧ (major = 0 ∨ 6 < major → ∃ t, exec .illegalEncoding s = .next t
      ∧ (g.bundle.words = [] → g.bundle.bad = none → HandlerOf s t b n k g 0x01 (w.setWidth 64))
      ∧ ((∀ x ∈ g.bundle.words, x.toNat / 2 ^ 24 % 128 = 5) → g.bundle.imx = none → g.bundle.bad = none →
          HandlerOf s t b n k g 0x01 (w.setWidth 64))
      ∧ ∀ x, g.bundle.bad = some (0, x) → HandlerOf s t b n k g 0x01 (x.setWidth 64))
    ∧ ∃ t, exec .fetchFault s = .next t
      ∧ (∀ x, g.bundle.bad = some x → HandlerOf s t b n k g 0x01 (x.2.setWidth 64))
      ∧ (g.bundle.bad = none → HandlerOf s t b n k g (BitVec.ofNat 8 (s.arg 0)) (BitVec.ofNat 64 (s.arg 1)))


/-- The prefix words, and words that are no instruction or cannot be fetched. -/
def Obligations.PrefixAndUnfitWords : Prop := PrefixResults ∧ UnfitWords

/-! ## Steps of the device: groups -/

/-- R35, R85, R186, R189, R243: a parked group resumes when what it waits for has come, and not before; at its resumption it
observes the deferred conditions that its word covers, which may trap. -/
def Sys2Proof.ParkEnds : Prop :=
  ∀ (s : State) (k : Block) (g : Group), s.block (s.arg 0) = some k → k.st = .resident → k.groups.find (s.arg 1) = some g →
    let ends (i : Instr) (sees : Deferred → Bool) (f : Group → Group) : Prop :=
      ((observe g sees).1 = none →
        ∃ t, exec i s = .next t ∧ GroupBecomes s t (s.arg 0) (s.arg 1) (f (observe g sees).2))
      ∧ ∀ cause info, (observe g sees).1 = some (cause, info) →
        ∃ t, exec i s = .next t ∧ ParkTraps s t (s.arg 0) (s.arg 1) k (observe g sees).2 cause info
    (g.park = .sMark → if g.pend = [] then
        ∃ t, exec .switchParkWake s = .next t ∧ GroupBecomes s t (s.arg 0) (s.arg 1) { g with park := .run }
      else exec .switchParkWake s = .next s)
    ∧ (g.park = .yieldNow → ends .yieldWake (fun _ => false) fun r => { r with park := .run })
    ∧ (∀ n, g.park = .yieldReg n → if g.pending (.s n) = 0 then
        ends .yieldWake (fun d => d.reg == some (.s n)) fun r => { r with park := .run } else exec .yieldWake s = .next s)
    ∧ (∀ c n, g.park = .yieldOc c n → if g.oc.get c ≤ n then
        ends .yieldWake (g.olderThan c n) fun r => { r with park := .run } else exec .yieldWake s = .next s)
    ∧ (∀ u, g.park = .yieldSleep u → if u.toNat ≤ s.cycle.toNat then
        ends .yieldWake (fun _ => false) fun r => { r with park := .run } else exec .yieldWake s = .next s)
    ∧ (∀ c n, g.park = .waitc c n → if g.oc.get c ≤ n then ends .waitcWake (g.olderThan c n) Group.wake
      else exec .waitcWake s = .next s)
    ∧ ∀ sd l p re, g.park = .barwait sd l p re → let o := BarObj.of (s.barGet l)
      if o.phase ≠ p.toNat ∨ o.error = true ∨ re = true then
        ends .barwaitWake (fun d => d.bar == some l) fun r =>
          (r.setS sd (BitVec.ofNat 64 (o.phase + (if o.error = true ∨ re = true then 2 ^ 32 else 0) + 2 ^ 33))).wake
      else exec .barwaitWake s = .next s

/-- R16, R18, R33, R96, R193, R202: the steps that answer a group. The data of an access arrive for some of its lanes; the
oldest open fixed-latency result is written, unless a word of the group is held with its choices; the instruction caches of a partition drop the lines of an ICINV, and its
group goes on; the miss pass of a region begins once its lanes' data have arrived; and a low-class group that has stood
ready for 64 cycles counts as high class. -/
def Sys2Proof.GroupAnswers : Prop :=
  ∀ (s : State) (k : Block) (g : Group), s.block (s.arg 0) = some k → k.groups.find (s.arg 1) = some g →
    (∃ t r, exec .memoryResponse s = .next t ∧ GroupBecomes s t (s.arg 0) (s.arg 1) r
      ∧ { r with pend := g.pend, deferred := g.deferred, gather := g.gather } = g
      ∧ r.gather = g.gather.map (fun x => { x with done := x.done || decide (x.id = s.arg 2) })
      ∧ (∀ e, e ∈ r.pend ↔ e.lanes ≠ 0 ∧ ∃ o ∈ g.pend, e = { o with
          lanes := if o.id = s.arg 2 ∧ o.op = 0 then o.lanes &&& ~~~(BitVec.ofNat 32 (s.arg 3)) else o.lanes })
      ∧ r.deferred.map (fun d => { d with due := false }) = g.deferred.map (fun d => { d with due := false }))
    ∧ (∃ t, exec .fixedLatencyResultWrite s = .next t
      ∧ GroupBecomes s t (s.arg 0) (s.arg 1) (if g.held.isSome = true then g else { g with early := g.early.tail }))
    ∧ (∀ rs, k.st = .resident → g.park = .icinv rs → ∃ t, exec .icinvAcknowledged s = .next t
      ∧ t.group (s.arg 0) (s.arg 1) = some g.wake
      ∧ (∀ b n, ¬(b = s.arg 0 ∧ n = s.arg 1) → t.group b n = s.group b n)
      ∧ (∀ n ia, (t.core n).icache.find ia =
          if s.owns k.part (quadOf n) = true ∧ ∃ x ∈ rs, x.1 / 128 ≤ ia / 128 ∧ ia / 128 ≤ (x.1 + x.2 - 1) / 128 then none
          else (s.core n).icache.find ia)
      ∧ { t.outer with cores := [] } = { s.outer with cores := [] })
    ∧ (∀ r, g.park = .splitMiss → g.split = some r →
      if ∃ e ∈ g.pend, e.id = r.acc ∧ e.lanes &&& r.miss ≠ 0 then
        ∃ t, exec .splitMissPass s = .next t ∧ GroupBecomes s t (s.arg 0) (s.arg 1) g
      else ∃ t, exec .splitMissPass s = .next t ∧ GroupBecomes s t (s.arg 0) (s.arg 1) { g with
        park := .run, pc := r.after, bundle := Bundle.empty r.after, early := [],
        split := if r.after = r.base + BitVec.ofNat 64 (4 * r.len) then none else some { r with pass := .miss } })
    ∧ (k.st = .resident → g.high = false → g.park = .run →
      if g.stood < 64 then exec .lowClassPromotion s = .next s
      else ∃ t, exec .lowClassPromotion s = .next t
        ∧ GroupBecomes s t (s.arg 0) (s.arg 1) { g with promoted := true })

/-- R84, R209, R299: a group that has executed EXIT leaves its block once every result of it is written and every class
counter is zero (the handle of a SPAWN among them), and gives up the abaci that it holds; the groups that are left advance the generation if each of them
waits for it. With its last group the block leaves its cores, and its atoms become free: that may write the map, and an armed
barrier object that the write meets wakes the groups that wait there (R183). -/
def Sys2Proof.GroupExits : Prop :=
  ∀ (s : State) (k : Block) (g : Group), s.block (s.arg 0) = some k → k.st = .resident → k.groups.find (s.arg 1) = some g →
    if g.park = .exiting ∧ g.pend = [] ∧ g.oc = ⟨0, 0, 0, 0, 0⟩ ∧ (∀ x ∈ s.spawns, ¬(x.2.blk = s.arg 0 ∧ x.2.gid = s.arg 1)) then
      ∃ t, exec .groupExitComplete s = .next t
        ∧ (1 < k.groups.length ∨ s.padBars = [] → ∀ b, b ≠ s.arg 0 → t.block b = s.block b)
        ∧ (∃ hit, ∀ b, b ≠ s.arg 0 → t.block b = (s.block b).map fun x =>
            { x with groups := x.groups.mapVal fun _ y => y.barPoke hit })
        ∧ (k.groups.length ≤ 1 → t.block (s.arg 0) = none)
        ∧ (1 < k.groups.length → ∃ r, t.block (s.arg 0) = some r ∧ r.groups.find (s.arg 1) = none
          ∧ (if ∀ x ∈ k.groups, x.1 ≠ s.arg 1 → x.2.park = .bsync k.gen then
              r.gen = k.gen + 1 ∧ ∀ n, n ≠ s.arg 1 → r.groups.find n = (k.groups.find n).map Group.wake
            else r.gen = k.gen ∧ ∀ n, n ≠ s.arg 1 → r.groups.find n = k.groups.find n)
          ∧ (∀ m, r.abaci.find m = (k.abaci.find m).map fun a =>
              if a.holder = some (s.arg 1) then { a with holder := none } else a)
          ∧ r.shared = k.shared ∧ r.bars = k.bars ∧ r.channels = k.channels ∧ r.staged = k.staged)
    else exec .groupExitComplete s = .next s

/-- The steps of the device that end a group's park, answer it and end it. -/
def Obligations.GroupSteps : Prop := ParkEnds ∧ GroupAnswers ∧ GroupExits

/-! ## Steps of the device: engines -/

/-- R211: the operation `id` is finished and may be signalled: its block is resident, no record that it waits at is held by
the arbiter, and every older operation of its class and group has been signalled. -/
def Sys2Proof.maySignal (s : State) (id : Nat) (o : EngOp) : Prop :=
  o.finished = true ∧ s.held id = false ∧ s.olderOp o = false ∧ ∃ k, s.block o.blk = some k ∧ k.st = .resident

/-- R17, R182, R211, R234, R243, R254: signalling an operation writes its status word, unless a later word has written the
register, makes its barrier arrival, in error where it is a COLL's that failed (R436), and an object in error wakes the groups that wait there;
it takes one from its class's counter, and leaves a deferred CMIX with the address of its first mismatched byte; nothing is
signalled before its turn. -/
def Obligations.EngineSignalling : Prop :=
  ∀ (s : State) (o : EngOp), s.ops.find (s.arg 0) = some o →
    (¬maySignal s (s.arg 0) o → exec .engineSignal s = .next s)
    ∧ (maySignal s (s.arg 0) o → ∀ g, s.group o.blk o.gid = some g →
      let failed : Bool := match o.stamp, o.kind with
        | some _, .coll _ _ _ => true
        | _, _ => false
      let poked (q : Option Group) : Option Group := match o.barrier with
        | some l => if (s.arrive l false (-(o.planned : Int))).2.1.error = true ∨ failed = true then
            q.map (Group.barPoke (s.sameBar l)) else q
        | none => q
      ∃ t r, exec .engineSignal s = .next t
      ∧ (∀ n, t.ops.find n = if n = s.arg 0 then none else s.ops.find n)
      ∧ t.group o.blk o.gid = some r ∧ r.oc = g.oc.set o.cls (g.oc.get o.cls - 1)
      ∧ r.pend = g.pend.filter (fun e => e.id ≠ s.arg 0)
      ∧ (∀ x l, l < 32 → r.lane x l =
          if ∃ n, o.status = some n ∧ x = .s n ∧ n ≠ 0 ∧ ∀ e ∈ g.pend, e.id = s.arg 0 → e.reg = x → e.ovr = 0 then
            1#1 ++ BitVec.ofNat 7 o.code ++ BitVec.ofNat 8 (min o.fixed 255) ++ o.denied ++ BitVec.ofNat 40 (o.written / 2)
          else g.lane x l)
      ∧ (∀ b n, ¬(b = o.blk ∧ n = o.gid) → t.group b n = poked (s.group b n))
      ∧ (r.deferred.map fun d => (d.cause, d.info, d.order)) = (g.deferred.map fun d => (d.cause, d.info, d.order))
          ++ (match o.stamp, o.kind with
              | some va, .copy _ => [(0x0B, va, s.arg 0)]
              | some info, .coll _ _ _ => [(0x13, info, s.arg 0)]
              | _, _ => [])
      ∧ (o.barrier = none → t.mem = s.mem ∧ ∀ b, (t.block b).map Block.shared = (s.block b).map Block.shared)
      ∧ ∀ l, o.barrier = some l → (∀ b at_, l = .shared b at_ → (s.block b).isSome = true) →
          let arrived := (s.arrive l false (-(o.planned : Int))).2.2.barGet l
          if failed = true then BarObj.of (t.barGet l) = { BarObj.of arrived with error := true } else t.barGet l = arrived)

/-- No byte of the machine is poisoned, and what the engine reads for a segment stands in this module. -/
def Sys2Proof.Sound (s : State) (c : Copy) (es : List Elem) : Prop :=
  let atHome (t : Tgt) : Prop := ∀ a st d, t = .key a st d → a < peerBase
  s.memBad = [] ∧ (∀ b k, s.block b = some k → k.sharedBad = []) ∧ (∀ e ∈ es, atHome e.src)
    ∧ (c.kind = .cpred → ∀ e ∈ es, ∀ d ∈ e.dst, atHome d.2.1)

/-- R233, R234, R236 to R238, R433: the engine takes a segment that is left, or the head of the fix-up list once none is.
Destinations that are denied are marked. A denied source stops the copy with code 3. Otherwise a denied destination joins code 2
to the copy's code; a segment carried out leaves the code as it was, but for a retry (1), a mismatched stamp (4) and poison (5),
and that is the code with which the copy finishes. A segment without a denied place that waits on a page goes to the fix-up list, or waits there if it was retried or the copy has none; a segment with all its
pages is carried out, and counted with its destinations' bytes; one with a denied destination does not wait (its writes to the
destinations that permit it although others wait are the model's reading, log entry 20), nor does an RRED's, which sends nothing. A copy with nothing left has
finished; an RRED ends with code 3 where its step does not take it, and otherwise waits for its reduction unit. -/
def Sys2Proof.CopySegments : Prop :=
  ∀ (s : State) (o : EngOp) (c : Copy) (k : Block) (g : Group) (fix : Bool), s.ops.find (s.arg 0) = some o →
    o.kind = .copy c → s.block o.blk = some k → k.st = .resident → k.groups.find o.gid = some g →
    o.finished = false → s.held (s.arg 0) = false →
    (fix = false → s.arg 1 ∈ o.todo) → (fix = true → o.todo = [] ∧ o.fixups.head? = some (s.arg 1)) →
    let es := (s.segment k.part c (s.arg 1)).1
    let q : EngOp := if fix then { o with fixups := o.fixups.tail } else { o with todo := o.todo.erase (s.arg 1) }
    let sourceDenied : Prop := ∃ e ∈ es, e.src.denied = true
    let targetDenied : Prop := ∃ e ∈ es, ∃ d ∈ e.dst, d.2.1.denied = true
    let waits : Prop := ∃ e ∈ es, e.src.waits = true ∨ ∃ d ∈ e.dst, d.2.1.waits = true
    ∃ t r, exec .copySegment s = .next t ∧ t.ops.find (s.arg 0) = some r
      ∧ (∀ n, n ≠ s.arg 0 → t.ops.find n = s.ops.find n)
      ∧ r.blk = o.blk ∧ r.gid = o.gid ∧ r.cls = o.cls ∧ r.seq = o.seq ∧ r.status = o.status ∧ r.barrier = o.barrier
      ∧ (sourceDenied → r.finished = true ∧ r.code = codeJoin o.code 3 ∧ r.todo = [] ∧ r.fixups = [] ∧ r.waiting = []
          ∧ r.written = o.written)
      ∧ (∀ e ∈ es, ∀ d ∈ e.dst, d.2.1.denied = true → d.1 < 8 → r.denied.getLsbD d.1 = true)
      ∧ (¬sourceDenied → targetDenied → (c.kind = .rred → r.finished = false) ∧ r.todo = q.todo ∧ r.fixups = q.fixups ∧ r.waiting = q.waiting
          ∧ (r.code = codeJoin o.code 2 ∨ (¬Sound s c es ∧ r.code = 5))
          ∧ ((∃ e ∈ es, e.src.waits = true) → r.written = o.written ∧ r.started = o.started)
          ∧ (¬(∃ e ∈ es, e.src.waits = true) → r.written = o.written + typeWidth c.dt / 4 * (es.map fun e =>
              (e.dst.filter fun d => es.all fun x => x.dst.all fun y =>
                y.1 != d.1 || !(y.2.1.denied || y.2.1.waits)).length).sum))
      ∧ (¬sourceDenied → ¬targetDenied → waits → r.written = o.written ∧ r.todo = q.todo ∧ r.code = o.code
          ∧ (c.fixup = true ∧ fix = false → r.fixups = q.fixups ++ [s.arg 1] ∧ r.waiting = q.waiting)
          ∧ (c.fixup = false ∨ fix = true → r.fixups = q.fixups
              ∧ r.waiting = q.waiting ++ [(s.arg 1, (waitsOn es).headD 0)]))
      ∧ (¬sourceDenied → ¬targetDenied → ¬waits → c.kind ≠ .rred → r.todo = q.todo ∧ r.fixups = q.fixups
          ∧ r.waiting = q.waiting ∧ r.started = true ∧ r.stamp = (o.stamp <|> stampOf (s.hdr k).eff es)
          ∧ (∃ bad : Bool, (Sound s c es → bad = false) ∧ r.code = codeJoin (codeJoin (codeJoin o.code (if fix = true then 1 else 0))
              (if (stampOf (s.hdr k).eff es).isSome = true then 4 else 0)) (if bad = true then 5 else 0))
          ∧ r.finished = (q.todo.isEmpty && q.fixups.isEmpty && q.waiting.isEmpty)
          ∧ r.fixed = o.fixed + (if fix = true then 1 else 0)
          ∧ r.written = o.written + typeWidth c.dt / 4 * (es.map fun e => e.dst.length).sum)
      ∧ (¬sourceDenied → ¬targetDenied → ¬waits → c.kind = .rred →
          let serves := ∃ p, s.redStep k.part c = some p ∧ ∀ e ∈ es, p.covers e.dVa (elemSize c.dt) = true
          (¬serves → r.finished = true ∧ r.code = codeJoin o.code 3 ∧ r.written = o.written)
          ∧ (serves → r.finished = false ∧ r.todo = q.todo ∧ r.started = true))

/-- R230, R233: a copy of one element within its block's shared memory, with no type change, no poison and no barrier object
in the way, moves the element's bytes and changes no other byte. -/
def Sys2Proof.CopyMovesBytes : Prop :=
  ∀ (s : State) (o : EngOp) (c : Copy) (k : Block) (g : Group) (a b : Nat), s.ops.find (s.arg 0) = some o →
    o.kind = .copy c → s.block o.blk = some k → k.st = .resident → k.groups.find o.gid = some g → o.finished = false →
    s.held (s.arg 0) = false → s.arg 1 = 0 → 0 ∈ o.todo →
    c.kind = .cpt → c.ext = [1] → c.src = .shared o.blk a → c.dst = .shared o.blk b → c.same = true → four c.st = false →
    c.st = c.dt → c.blockOf [0] = 0 → k.sharedBad = [] → k.bars = [] →
    ∃ t r, exec .copySegment s = .next t ∧ t.block o.blk = some r
      ∧ (∀ x, r.shared.get x =
          if b ≤ x ∧ x < b + elemSize c.st then k.shared.get (a + (x - b)) else k.shared.get x)
      ∧ (∀ y, y ≠ o.blk → t.block y = s.block y) ∧ t.mem = s.mem
      ∧ ∀ n, (r.groups.find n).map (fun q => { q with amax := 0, amaxNan := false })
          = (k.groups.find n).map fun q => { q with amax := 0, amaxNan := false }

/-- The bytes of a place of this module. -/
def Sys2Proof.bytesAt (s : State) (t : Tgt) (n : Nat) : List Byte :=
  match t with
  | .shared b off => (List.range n).map fun i => ((s.block b).map fun k => k.shared.get (off + i)).getD 0
  | .key a _ _ => Memory.read s.mem a n
  | _ => []

/-- The number of an element of a type whose byte or bytes are given; of a 4-bit type the half that its index names (R65). -/
def Sys2Proof.elemIn (t : Nat) (e : Elem) (bs : List Byte) : Nat :=
  if four t then leNat bs / 16 ^ (e.idx.headD 0 % 2) % 16 else leNat bs

/-- Two places of `n` bytes share none. -/
def Sys2Proof.Apart (n : Nat) (p q : Tgt) : Prop :=
  match p, q with
  | .shared b x, .shared b' y => b ≠ b' ∨ x + n ≤ y ∨ y + n ≤ x
  | .key x _ _, .key y _ _ => x + n ≤ y ∨ y + n ≤ x
  | _, _ => True

/-- R226, R240: the elements of a segment: each index of the copy in it, with the intermediate addresses of its source and of its
destination, each the side's start and the strides' offset; a CPM has one destination in each core of its mask, at the place of
the core's die-visible region that has the offset of the lowest core's slice. -/
def Sys2Proof.ElementPlaces : Prop :=
  ∀ (s : State) (k : Block) (c : Copy) (seg : Nat),
    let es := (s.segment k.part c seg).1
    let offset (t : Nat) (e : Elem) (strides : List Int) : Int :=
      let terms := (e.idx.zip strides).map fun p => ((p.1 : Nat) : Int) * p.2
      if four t then ((e.idx.headD 0 / 2 : Nat) : Int) + (terms.drop 1).sum else terms.sum
    let low := 4096 * (s.core (8 * c.cluster + c.cores.headD 0)).dvsize
    c.sst.length = c.ext.length → c.dstr.length = c.ext.length →
    es.map Elem.idx = (tuples c.ext).filter (fun i => c.blockOf i == seg)
    ∧ ∀ e ∈ es, (∀ a, c.src = .ia a → (e.sIa : Int) = ((a : Int) + offset c.st e c.sst) % 2 ^ 52)
      ∧ ∀ a, c.dst = .ia a →
        let at_ := (((a : Int) + offset c.dt e c.dstr) % 2 ^ 52).toNat
        (c.kind ≠ .cpm → e.dst.map (fun d => (d.1, d.2.2)) = [(0, at_)])
        ∧ (c.kind = .cpm → e.dst.map (fun d => (d.1, d.2.2)) = c.cores.map fun n =>
            (n, 2 ^ 51 + (8 * c.cluster + n) * 2 ^ 19
              + (((at_ % 2 ^ 19 : Nat) + 4096 * (s.core (8 * c.cluster + n)).dvsize - low : Int) % 2 ^ 19).toNat))

/-- R343: the pages of memory that a segment touches are all looked up in the entries that the MTU holds of them, or all in those that
stand in memory, where the two differ. Which of them where they could mix is the model's choice (log entry 32, DESIGN CHOICE). -/
def Sys2Proof.EntriesAgree : Prop :=
  ∀ (s : State) (k : Block) (c : Copy) (seg : Nat),
    let idxs := (tuples c.ext).filter fun i => c.blockOf i == seg
    let pages := s.segPages c idxs
    let u := s.oneEntry pages
    (s.segment k.part c seg).1 = (u.probes k.part c idxs).1
    ∧ ((∀ ia ∈ pages, u.pageOld ia = true) ∨ ∀ ia ∈ pages, u.pageOld ia = false)
    ∧ { u with quads := [] } = { s with quads := [] }
    ∧ ∀ e ∈ (s.segment k.part c seg).1,
      (∀ a, c.src = .ia a → e.sIa.testBit 51 = false → e.sIa / 2 ^ 16 * 2 ^ 16 ∈ pages)
      ∧ ∀ a, c.dst = .ia a → ∀ d ∈ e.dst, d.2.2.testBit 51 = false → d.2.2 / 2 ^ 16 * 2 ^ 16 ∈ pages

/-- R226, R230, R231, R233, R235, R240, R433: a segment that is carried out, with no poison and no barrier object about, reads
each element from this module, converts it where the types differ, and leaves it at each of its destinations here that no other
element of the segment writes (combined with what stood there in a CPRED); it sends it to each destination at a peer, as a store
or, in an RRED, as a contribution to its step. Every other byte of shared memory, and of memory but for the pages' DIRTY bits,
stands. That a segment's elements are all read before any is written is the model's choice (log entry 57, DESIGN CHOICE). -/
def Sys2Proof.CopyMovesElements : Prop :=
  ∀ (s : State) (o : EngOp) (c : Copy) (k : Block) (g : Group) (fix : Bool), s.ops.find (s.arg 0) = some o →
    o.kind = .copy c → s.block o.blk = some k → k.st = .resident → k.groups.find o.gid = some g →
    o.finished = false → s.held (s.arg 0) = false →
    (fix = false → s.arg 1 ∈ o.todo) → (fix = true → o.todo = [] ∧ o.fixups.head? = some (s.arg 1)) →
    let es := (s.segment k.part c (s.arg 1)).1
    (∀ e ∈ es, e.src.denied = false ∧ e.src.waits = false ∧ ∀ d ∈ e.dst, d.2.1.denied = false ∧ d.2.1.waits = false) →
    (c.kind = .rred → ∃ p, s.redStep k.part c = some p ∧ ∀ e ∈ es, p.covers e.dVa (elemSize c.dt) = true) →
    Sound s c es → (∀ b q, s.block b = some q → q.bars = []) → s.padBars = [] →
    let n := elemSize c.dt
    let value (e : Elem) : Nat :=
      let x := elemIn c.st e (bytesAt s e.src (elemSize c.st))
      if c.same then x else convert c.st c.dt c.rnd c.sat x
    let here (d : Tgt) : Prop := (∃ b off, d = .shared b off ∧ (s.block b).isSome = true) ∨ ∃ a st y, d = .key a st y ∧ a + n ≤ peerBase
    let alone (e : Elem) (d : Nat × Tgt × Nat) : Prop := ∀ e' ∈ es, ∀ d' ∈ e'.dst, (e'.idx = e.idx ∧ d'.1 = d.1)
      ∨ Apart n d.2.1 d'.2.1 ∨ (four c.dt = true ∧ e'.idx.headD 0 % 2 ≠ e.idx.headD 0 % 2)
    let undirtied (d : Tgt) : Prop := ∀ e' ∈ es, ∀ d' ∈ e'.dst, ∀ a st z, d'.2.1 = .key a st (some z) →
      ∀ x st' y, d = .key x st' y → z + 6 < x ∨ x + n ≤ z + 6
    let sent (kind num a : Nat) (bs : List Byte) (t : State) : Prop :=
      ∃ m ∈ t.outbox, m = ⟨kind, num, (s.fabricAddr k.part (a - peerBase)).getD 0, bs⟩
    ∃ t, exec .copySegment s = .next t
      ∧ (∀ e ∈ es, ∀ d ∈ e.dst, here d.2.1 → alone e d → undirtied d.2.1 → c.kind ≠ .rred →
          (four c.dt = false → c.kind ≠ .cpred → bytesAt t d.2.1 n = leBytes n (value e))
          ∧ (four c.dt = true → c.kind ≠ .cpred → elemIn c.dt e (bytesAt t d.2.1 1) = value e % 16)
          ∧ (four c.dt = false → c.kind = .cpred → bytesAt t d.2.1 n =
              leBytes n (redElem (ctFlush (s.hdr k).eff) c.op c.dt (leNat (bytesAt s d.2.1 n)) (value e))))
      ∧ (∀ e ∈ es, ∀ d ∈ e.dst, ∀ a st y, d.2.1 = .key a st y → peerBase ≤ a →
          (c.kind = .rred → sent 3 (c.ctl.toNat / 2 ^ 32) a (leBytes n (value e)) t)
          ∧ (c.kind = .rst → four c.dt = false → sent 1 0 a (leBytes n (value e)) t))
      ∧ (∀ b off, (∀ e ∈ es, ∀ d ∈ e.dst, ∀ x, d.2.1 = .shared b x → off < x ∨ x + n ≤ off) →
          ((t.block b).map fun q => q.shared.get off) = (s.block b).map fun q => q.shared.get off)
      ∧ ∀ a, (∀ e ∈ es, ∀ d ∈ e.dst, ∀ x st y, d.2.1 = .key x st y →
            (peerBase ≤ x ∨ a < x ∨ x + n ≤ a) ∧ ∀ z, y = some z → a ≠ z + 6) →
          Memory.get t.mem a = Memory.get s.mem a

/-- R433: an element that an RLD reads from a peer is what the far end answers, a free value (log entry 2); at its destination
here it stands converted, unless the answer was poisoned. Whether the far end answers at all is a free value too, so that the
premise that it does stands in the conclusion. -/
def Sys2Proof.LoadsFromPeers : Prop :=
  ∀ (s : State) (o : EngOp) (c : Copy) (k : Block) (g : Group) (e : Elem) (d : Nat × Tgt × Nat) (b off : Nat),
    s.ops.find (s.arg 0) = some o → o.kind = .copy c → c.kind = .rld → s.block o.blk = some k → k.st = .resident →
    k.groups.find o.gid = some g → o.finished = false → s.held (s.arg 0) = false → s.arg 1 ∈ o.todo →
    (s.segment k.part c (s.arg 1)).1 = [e] → e.dst = [d] → d.2.1 = .shared b off →
    (∃ q, s.block b = some q ∧ q.bars = []) → four c.st = false → four c.dt = false →
    ∃ t, exec .copySegment s = .next t ∧ ∀ a st y, e.src = .key a st y → peerBase ≤ a → ∃ q, t.block b = some q ∧ ∃ f,
      let x := leNat ((List.range (elemSize c.st)).map fun i => Config.freeByte (f + i))
      bytesAt t d.2.1 (elemSize c.dt) = leBytes (elemSize c.dt) (if c.same then x else convert c.st c.dt c.rnd c.sat x)
        ∨ off / 8 ∈ q.sharedBad

/-- The segments of a tensor copy, and the elements that they move. -/
def Obligations.CopySegmentSteps : Prop :=
  CopySegments ∧ CopyMovesBytes ∧ ElementPlaces ∧ EntriesAgree ∧ CopyMovesElements ∧ LoadsFromPeers

/-- The lanes of a lane copy `l` that do not wait have been performed: each lane of a CPG that `open_` does not exclude holds
the bytes of its address, zero-extended, and is poisoned if they are; every other lane and register of the group stands. Each
byte that lanes of a CPS write holds what one of those lanes wrote; every other byte and every register stands. `u` is the
machine before, and `t` the machine after. -/
def Sys2Proof.LanesPerformed (u t : State) (l : LaneCopy) (ts : List LaneTgt) (open_ : Nat → Prop) (g r : Group) : Prop :=
  (l.put = false →
    (∀ y ∈ ts, open_ y.lane → ∀ a st dt, y.tgt = .key a st dt → a < peerBase →
      r.lane (.v l.vd) y.lane = BitVec.ofNat 64 (leNat (Memory.read u.mem a l.size))
      ∧ ((.v l.vd, y.lane) ∈ r.poison ↔ u.badRange a l.size = true))
    ∧ (∀ n < 32, (∀ y ∈ ts, y.lane = n → open_ n → y.tgt.waits = true ∨ y.tgt.denied = true) →
        r.lane (.v l.vd) n = g.lane (.v l.vd) n)
    ∧ ∀ x, x ≠ .v l.vd → ∀ n < 32, r.lane x n = g.lane x n)
  ∧ (l.put = true → (∀ x, ∀ n < 32, r.lane x n = g.lane x n)
    ∧ (u.padBars = [] → (∀ y ∈ ts, y.tgt.waits = true ∨ y.tgt.denied = true ∨ ∃ a st, y.tgt = .key a st none ∧ a + l.size ≤ peerBase) →
      let covers (y : LaneTgt) (a b : Nat) : Prop := (∃ st, y.tgt = .key a st none) ∧ a ≤ b ∧ b < a + l.size
      (∀ b, (∀ y ∈ ts, ∀ a, ¬covers y a b) → Memory.get t.mem b = Memory.get u.mem b)
      ∧ ∀ b, (∃ y ∈ ts, ∃ a, covers y a b) → ∃ y ∈ ts, ∃ a, covers y a b
          ∧ Memory.get t.mem b = (leBytes l.size y.data.toNat).getD (b - a) 0))

/-- R171, R197, R242, R330, R345: when the verdicts of a lane copy have returned, a pad address that names no byte traps with
SPAD_BOUND and a denied lane with PAGE_PERM at the word, with no lane performed; a denial that sends records traps once they are
sent. Otherwise the word's issue ends, the operation counts in the GT class, every lane that does not wait is performed, and the
lanes that wait stand in a replay record. That a pad address that names no byte comes before a denial is the model's choice (log
entry 20), and so are the order of lanes that meet and the time at which a CPS lands (log entry 3), and which denials send a record
(log entry 19, DEDUCED). The accesses of its group that the copy follows are performed first (R194, R323). -/
def Sys2Proof.LaneCopyVerdicts : Prop :=
  ∀ (s : State) (o : EngOp) (l : LaneCopy) (k : Block) (g : Group) (d : Decoded), s.ops.find (s.arg 0) = some o →
    o.kind = .lane l → s.block o.blk = some k → k.st = .resident → k.groups.find o.gid = some g →
    g.park = .verdict (s.arg 0) → l.asked = true → decodeWord l.word = .ok d → g.bundle.split = none → g.split = none →
    s.held (s.arg 0) = false →
    let ts := (s.verdicts k.part l l.lanes).1
    let u := (s.verdicts k.part l l.lanes).2
    let recorded : Prop := ∃ y ∈ ts, ∃ kind far, y.tgt = .deny kind far ∧ (kind = 5 ∨ far = true)
    ∃ t, exec .laneCopyVerdict s = .next t
      ∧ (o.code = 3 → HandlerOf s t o.blk o.gid k g 0x0A (o.stamp.getD 0) ∧ t.ops.find (s.arg 0) = none)
      ∧ (o.code ≠ 3 → ∀ x, (ts.find? fun y => y.out) = some x →
          HandlerOf u t o.blk o.gid k g 0x06 x.va ∧ t.ops.find (s.arg 0) = none)
      ∧ (o.code ≠ 3 → (∀ y ∈ ts, y.out = false) → ∀ x, (ts.find? fun y => y.tgt.denied) = some x →
          (¬recorded → HandlerOf u t o.blk o.gid k g 0x0A x.va ∧ t.ops.find (s.arg 0) = none)
          ∧ (recorded → t.ops.find (s.arg 0) = some { o with stamp := some x.va, code := 3 } ∧ t.blocks = s.blocks))
      ∧ (o.code ≠ 3 → (∀ y ∈ ts, y.out = false ∧ y.tgt.denied = false) → ∃ r, t.group o.blk o.gid = some r
          ∧ r.pc = g.pc + 4 ∧ r.slotNo = g.slotNo + 1 ∧ r.bundle = Bundle.empty (g.pc + 4)
          ∧ r.oc = g.oc.set .gt (g.oc.gt + 1) ∧ r.issued = g.issued.set .gt o.seq
          ∧ (∃ p, t.ops.find (s.arg 0) = some p
              ∧ (p.finished = true ↔ (∀ y ∈ ts, y.tgt.waits = false) ∧ (l.late = true → ts = []))
              ∧ ∃ m, p.kind = .lane { l with
                  asked := false, todo := m, ready := if l.late = true then ts.filter (fun y => !y.tgt.waits) else [] }
                ∧ ∀ n < 32, m.getLsbD n = true ↔ ∃ y ∈ ts, y.lane = n ∧ y.tgt.waits = true)
          ∧ ((∀ y ∈ ts, y.tgt.waits = false) → r.replay = g.replay)
          ∧ ((∃ y ∈ ts, y.tgt.waits = true) → ∃ e, r.replay.find g.freeRecord = some e ∧ e.op = s.arg 0 ∧ e.seq = o.seq
              ∧ ∀ n < 32, e.lanes.getLsbD n = true ↔ ∃ y ∈ ts, y.lane = n ∧ y.tgt.waits = true)
          ∧ (l.late = false → l.after = [] → l.landed = [] → (∀ e ∈ g.pend, e.id ≠ s.arg 0) → (l.lanes.map Prod.fst).Nodup →
              (∀ x ∈ l.lanes, x.1 < 32) → LanesPerformed u t l ts (fun _ => True) g r)
          ∧ (l.late = false → r.posted = if l.after = [] then g.posted
              else (g.posted.reverse.takeWhile fun a => !l.after.contains a.id).reverse)
          ∧ (l.late = true → t.mem = s.mem ∧ ∀ x, ∀ n < 32, r.lane x n = g.lane x n))

/-- R17, R242, R322: a lane of a lane copy that is performed after its verdict leaves what is left of the copy's lanes, and the copy
has finished once none is left and none waits; its bytes move as those of the others. -/
def Sys2Proof.LateLanes : Prop :=
  ∀ (s : State) (o : EngOp) (l : LaneCopy) (k : Block) (g : Group) (op : Nat) (y : LaneTgt), s.ops.find op = some o →
    o.kind = .lane l → s.block o.blk = some k → k.groups.find o.gid = some g →
    l.ready.filter (fun x => x.lane == y.lane) = [y] → y.lane < 32 →
    (∃ a st d, y.tgt = .key a st d ∧ a < peerBase) → (∀ a ∈ g.posted, a.id ∉ l.after) →
    let t := s.laneLand op y.lane
    ∃ r p, t.group o.blk o.gid = some r ∧ t.ops.find op = some p
      ∧ (p.finished = true ↔ l.todo = 0 ∧ ∀ x ∈ l.ready, x.lane = y.lane)
      ∧ (∃ q, p.kind = .lane q ∧ q.ready = l.ready.filter (fun x => x.lane != y.lane) ∧ q.todo = l.todo)
      ∧ ((∀ e ∈ g.pend, e.id = op → e.ovr = 0) → LanesPerformed s t l [y] (fun _ => True) g r)

/-- R192, R193, R332: a CPG that is the first access of a region, or that opens one, splits the region's mask when its verdicts have
returned: the lanes of the core's own slice hit, those of another quadrant's memory or slices miss, as do the lanes that wait, and
the lanes of one line of the quadrant's L2 slice hit together or not at all (whether they do is a free value, log entry 2). The hit
pass goes on behind the word; without a hit the group parks for the miss pass, and without either it leaves the region. -/
def Sys2Proof.SplitByCopy : Prop :=
  ∀ (s : State) (o : EngOp) (l : LaneCopy) (k : Block) (g : Group) (d : Decoded) (p : Split), s.ops.find (s.arg 0) = some o →
    o.kind = .lane l → s.block o.blk = some k → k.st = .resident → k.groups.find o.gid = some g →
    g.park = .verdict (s.arg 0) → l.asked = true → decodeWord l.word = .ok d → s.held (s.arg 0) = false → l.put = false →
    g.handler = false → (l.word.getLsbD 31 = false ∨ (s.hdr k).checked = true) → o.code ≠ 3 →
    ((g.bundle.split = none ∧ g.split = some p)
      ∨ ∃ n, g.bundle.split = some n ∧ p = ⟨g.pc, n.toNat, some l.mask, 0, 0, 0, 0, .whole, false⟩) →
    p.pass = .whole → let past := p.base + BitVec.ofNat 64 (4 * p.len)
    g.pc + 4 ≠ past →
    let ts := (s.verdicts k.part l l.lanes).1
    (∀ y ∈ ts, y.out = false ∧ y.tgt.denied = false) → (∀ y ∈ ts, y.lane < 32) →
    let own (y : LaneTgt) : Prop := y.ia.testBit 51 = true ∧ y.ia / 2 ^ 19 % 512 = g.core
    let near (y : LaneTgt) : Prop := if y.ia.testBit 51 then quadOf (y.ia / 2 ^ 19 % 512) = quadOf g.core
      else y.ia / 2 ^ 47 % 16 = quadOf g.core
    ∃ t q, ∃ hit : BitVec 32, exec .laneCopyVerdict s = .next t ∧ t.group o.blk o.gid = some q
      ∧ (∀ n < 32, hit.getLsbD n = true → ∃ y ∈ ts, y.lane = n ∧ y.tgt.waits = false ∧ (own y ∨ near y))
      ∧ (∀ y ∈ ts, y.tgt.waits = false → own y → hit.getLsbD y.lane = true)
      ∧ (∀ y ∈ ts, ∀ z ∈ ts, y.tgt.waits = false → z.tgt.waits = false → (ts.map LaneTgt.lane).Nodup → y.ia / 128 = z.ia / 128 →
          hit.getLsbD y.lane = hit.getLsbD z.lane)
      ∧ let miss := p.mask.getD 0 &&& ~~~hit
        let split := some { p with hit := hit, miss := miss, after := g.pc + 4, acc := s.arg 0, pass := .hit }
        (hit ≠ 0 → q.pc = g.pc + 4 ∧ q.park = .run ∧ q.split = split)
        ∧ (hit = 0 → miss ≠ 0 → q.pc = g.pc + 4 ∧ q.park = .splitMiss ∧ q.split = split)
        ∧ (hit = 0 → miss = 0 → q.pc = past ∧ q.park = .run ∧ q.split = none)

/-- The products that meet in an entry of a multiply-accumulate without sparsity: the row's code and the weight's code at each
position of the depth (R248, R262). -/
def Sys2Proof.dense (a : Abacus) (slot col : Nat) (row : List Byte) : List (Option (Nat × Nat)) :=
  let w := typeWidth a.fmt.btype
  (List.range (depthOf a.fmt.btype)).map fun p => some ((rowCodes a.fmt.atype (depthOf a.fmt.btype) row).getD p 0,
    slotOf (a.cells.get (64 * (p / (16 / w)) + col)) slot / 2 ^ (w * (p % (16 / w))) % 2 ^ w)

/-- The products that meet in an entry of a sparse multiply-accumulate (R249, R262): at each physical position the weight's
code meets the row's element that the position's metadata, in the next plane, names in its group of twelve; none from 12 on. -/
def Sys2Proof.sparse (a : Abacus) (slot col : Nat) (row : List Byte) : List (Option (Nat × Nat)) :=
  let w := typeWidth a.fmt.btype
  (List.range (depthOf a.fmt.btype)).map fun p =>
    let cell := a.cells.get (64 * (p / (16 / w)) + col)
    let pos := slotOf cell (slot + 1) / 16 ^ (p % (16 / w)) % 16
    if 12 ≤ pos then none
    else some ((rowCodes a.fmt.atype (depthOf a.fmt.btype * 12 / a.fmt.n) row).getD (12 * (p / a.fmt.n) + pos) 0,
      slotOf cell slot / 2 ^ (w * (p % (16 / w))) % 2 ^ w)

/-- The block whose shared memory a place names. -/
def Sys2Proof.ownerOf (l : BarLoc) : Nat :=
  match l with
  | .shared b _ => b
  | .pad _ => 0

/-- No barrier object stands where a write to a place could touch it. -/
def Sys2Proof.NoBars (s : State) (l : BarLoc) : Prop :=
  match l with
  | .shared b _ => ∃ k, s.block b = some k ∧ k.bars = []
  | .pad _ => s.padBars = []

/-- Byte `off` of a place. -/
def Sys2Proof.placeByte (s t : State) (l : BarLoc) (off : Nat) : Byte :=
  t.spaceByte (ownerOf l) (s.barSpot l) ((s.barSpot l).at_ + off)

/-- Four bytes of a place, as a number. -/
def Sys2Proof.placeWord (s t : State) (l : BarLoc) (off : Nat) : Nat :=
  leNat ((List.range 4).map fun i => placeByte s t l (off + i))

/-- A rounded sum (R272). -/
def Sys2Proof.plus (a b : Val) : Val := rnd (Val.add false a b)
/-- A rounded product. -/
def Sys2Proof.times (a b : Val) : Val := rnd (Val.mul a b)
/-- A rounded quotient by an integer. -/
def Sys2Proof.quotient (a : Val) (n : Int) : Val := rnd (Val.div a (Val.ofInt n))
/-- A multiply-add, rounded once. -/
def Sys2Proof.fma (a b c : Val) : Val := rnd (Val.add false (Val.mul a b) c)

/-- R272 to R275: the place, the weights and their derivatives of an input under the knot registers: in the grid, those of its
interval at t; a NaN has none but NaN; out of the grid the clamp mode decides. -/
def Sys2Proof.SplineInputs : Prop :=
  ∀ (k : Knot) (xp : Val), 0 < k.g →
    let i := k.input xp
    let g := Val.ofInt k.g
    let b (t : Val) : List Val × List Val :=
      let s := plus (Val.ofInt 1) t.neg
      let mid (x : Val) : Val := quotient (plus (times (times x x) (fma (Val.ofInt 3) x (Val.ofInt (-6)))) (Val.ofInt 4)) 6
      let slope (x : Val) : Val := quotient (times x (fma (Val.ofInt 3) x (Val.ofInt (-4)))) 2
      if k.cubic then ([quotient (times (times s s) s) 6, mid t, mid s, quotient (times (times t t) t) 6],
        [(quotient (times s s) 2).neg, slope t, (slope s).neg, quotient (times t t) 2])
      else ([s, t], [Val.ofInt (-1), Val.ofInt 1])
    let under := Below i.u Val.zero
    let beyond := ¬Below i.u g
    i.u = times (plus xp (fF32.val k.klo.toNat).neg) (fF32.val k.kinv.toNat)
    ∧ (i.u.isNan = true → i.m = some 0 ∧ (∀ v ∈ i.e ++ i.db, v = .nan) ∧ i.e.length = (if k.cubic then 4 else 2)
        ∧ i.db.length = i.e.length)
    ∧ (i.u.isNan = false → ¬under → ¬beyond → ∃ q, i.m = some q ∧ ¬Below i.u (Val.ofInt q) ∧ Below i.u (Val.ofInt (q + 1))
        ∧ (i.e, i.db) = b (Val.add false i.u (Val.ofInt q).neg))
    ∧ (i.u.isNan = false → under ∨ beyond → ∀ low : Bool, (low = true ↔ under) →
        let e := b (if low then Val.zero else Val.ofInt 1)
        i.db = e.2
        ∧ (k.clamp = 0 → i.m = some (if low then 0 else k.g - 1) ∧ i.e = e.1)
        ∧ (k.clamp = 1 → i.m = none)
        ∧ (k.clamp = 2 → i.m = some (if low then 0 else k.g - 1)
          ∧ i.e = (e.1.zip e.2).map fun p => fma (if low then i.u else plus i.u g.neg) p.2 p.1))

/-- R217, R256 to R263, R269, R286, R287: the head of an abacus's queue runs, alone and to its results, unless an idle interval
of its core lasts and it occupies the array; it is then finished, the next one becomes the head, and a contract of a lower rate
adds the idle interval of the operation's occupancy. An MXFMT or SPKNOT then is in force; an MXZERO has zeroed the tiles and slots
that it names; an MXWR has written its column; an MXMMA has accumulated each gathered row into its tile; an MXRD has given its
lanes their entries, but that a live lane of a poisoned entry takes none (its word could not trap, and leaves it poisoned: log entry
15); and SPCNT has read and perhaps cleared the counters of its row. Poison goes with what it feeds (R265). -/
def Sys2Proof.AbacusSteps : Prop :=
  ∀ (s : State) (k : Block) (o : MxOp) (rest : List MxOp), s.block (s.arg 0) = some k → k.st = .resident →
    let a := k.abacus (s.arg 1)
    let core := k.cores.getD (s.arg 1) 0
    a.queue = o :: rest → ((s.core core).idle = none ∨ ∃ n y d ls lv, o.kind = .rd n y d ls lv) →
    (∀ l, o.kind = .aff l → ∀ i < 1152, s.engBad l i = false) →
    ∃ t r, exec .abacusOperation s = .next t ∧ t.block (s.arg 0) = some r
      ∧ (∀ n, t.ops.find n = if n = o.id then (s.ops.find n).map fun p => { p with finished := true } else s.ops.find n)
      ∧ (∀ m, m ≠ s.arg 1 → r.abacus m = k.abacus m)
      ∧ let v := r.abacus (s.arg 1)
        let q := (rateOf (s.hdr k).eff - 1) * o.kind.busy
        (Rises a.cells → Rises v.cells) ∧ v.queue = rest ∧ v.holder = a.holder
        ∧ (t.core core).idle = (if q = 0 then (s.core core).idle else some (s.cycle.toNat + q))
        ∧ (o.kind = .rel → v = { a with queue := rest })
        ∧ (∀ f, o.kind = .fmt f → v = { a with queue := rest, fmt := f })
        ∧ (∀ n, o.kind = .knot n → v = { a with queue := rest, knot := n })
        ∧ (∀ ts ss, o.kind = .zero ts ss →
            (∀ n < 16, ∀ x < 64, ∀ y < 64, v.entry n x y = if ts.getLsbD n = true then 0 else a.entry n x y)
            ∧ (Rises a.cells → ∀ x < 9216, ∀ j < 16, slotOf (v.cells.get x) j =
                if ss.getLsbD j = true then 0 else slotOf (a.cells.get x) j)
            ∧ v.liveT = a.liveT &&& ~~~ts ∧ v.liveS = a.liveS &&& ~~~ss
            ∧ (∀ n < 16, ∀ x < 64, ∀ y < 64, tileKey n x y ∈ v.tileBad ↔ ts.getLsbD n = false ∧ tileKey n x y ∈ a.tileBad)
            ∧ (ss = 0xFFFF → ∀ x < 9216, x ∉ v.cellBad)
            ∧ (∀ x ∈ a.cellBad, ss ≠ 0xFFFF → a.cellOver = [] → x ∈ v.cellBad))
        ∧ (∀ n y vs, o.kind = .wr n y vs → n < 16 → y < 64 → (vs.map Prod.fst).Nodup → (∀ x ∈ vs, x.1 < 64) →
            (∀ x ∈ vs, (v.entry n x.1 y = if a.fmt.accI32 = true then x.2.setWidth 40 else entryIn x.2.toNat)
              ∧ tileKey n x.1 y ∉ v.tileBad)
            ∧ (∀ n' < 16, ∀ x < 64, ∀ y' < 64, ¬(n' = n ∧ y' = y ∧ x ∈ vs.map Prod.fst) → v.entry n' x y' = a.entry n' x y')
            ∧ v.liveT.getLsbD n = true)
        ∧ (∀ n slot sp rows, o.kind = .mma n slot sp rows → n < 16 → (rows.map Prod.fst).Nodup → (∀ x ∈ rows, x.1 < 64) →
            (Rises a.cells → (sp = true → a.fmt.n ≠ 0) → ∀ x ∈ rows, ∀ y < 64, v.entry n x.1 y =
              mmaEntry (s.hdr k).eff a.fmt (a.entry n x.1 y) (if sp = true then sparse a slot y x.2 else dense a slot y x.2))
            ∧ (∀ n' < 16, ∀ x < 64, ∀ y < 64, ¬(n' = n ∧ x ∈ rows.map Prod.fst) → v.entry n' x y = a.entry n' x y)
            ∧ (∀ n' < 16, ∀ x < 64, ∀ y < 64, tileKey n' x y ∈ v.tileBad ↔ tileKey n' x y ∈ a.tileBad
                ∨ (n' = n ∧ x ∈ rows.map Prod.fst ∧ ∃ z ∈ a.cellBad, z % 64 = y))
            ∧ v.liveT.getLsbD n = true ∧ v.cells = a.cells)
        ∧ (∀ n y d ls lv, o.kind = .rd n y d ls lv → v = { a with queue := rest }
            ∧ ∀ g, k.groups.find o.gid = some g → ∃ q, r.groups.find o.gid = some q
              ∧ q.pend = g.pend.filter (fun e => e.id ≠ o.id)
              ∧ ∀ l < 32, (¬(ls.getLsbD l = true ∧ ∀ e ∈ g.pend, e.id = o.id → e.ovr.getLsbD l = false) →
                  q.lane (.v d) l = g.lane (.v d) l)
                ∧ (ls.getLsbD l = true → (∀ e ∈ g.pend, e.id = o.id → e.ovr.getLsbD l = false) →
                  let bad := lv.getLsbD l = true ∧ ∃ h < 2, tileKey n (2 * l + h) y ∈ a.tileBad
                  ((.v d, l) ∈ q.poison ↔ bad) ∧ (bad → q.lane (.v d) l = g.lane (.v d) l)
                  ∧ (¬bad → ∀ h < 2, elem 32 h (q.lane (.v d) l) = outEntry a.fmt.accI32 (a.entry n (2 * l + h) y) % 2 ^ 32)))
        ∧ (o.kind = .refine → v.knot = a.knot.refined ∧ v.liveS = 0xFFFF ∧ v.cellBad = a.cellBad)
        ∧ ∀ n clear sd, o.kind = .cnt n clear sd → v.count.get n = (if clear = true then 0 else a.count.get n)
            ∧ (clear = true → v.least.find n = none ∧ v.greatest.find n = none)
            ∧ ∀ g, k.groups.find o.gid = some g → ∃ q, r.groups.find o.gid = some q
              ∧ q.pend = g.pend.filter (fun e => e.id ≠ o.id)
              ∧ ∀ x < 2, let rewritten := ∃ e ∈ g.pend, e.id = o.id ∧ e.reg = .s (sd + x) ∧ e.ovr ≠ 0
                (rewritten ∨ sd + x = 0 → q.getS (sd + x) = g.getS (sd + x))
                ∧ (¬rewritten → sd + x ≠ 0 → q.getS (sd + x) = if x = 0 then (a.count.get n).setWidth 64
                  else (a.greatest.find n).getD 0xFF800000 ++ (a.least.find n).getD 0x7F800000)

/-- R247, R259, R264, R267, R271, R277, R286: the operations that move an image or change cells. An MXLDW or MXLDWS has filled its
planes with the halfwords of its image, and SPLDC every cell; a poisoned byte poisons its cell. SPAFF has taken the pairs of its
rows, and with a poisoned one the core has faulted. SPSTC has written every cell, and MXST the entries of its rows, converted.
SPREF has replaced the coefficients of every cell, each an average rounded once. A poisoned cell or entry leaves as a poisoned word,
and MXST folds the elements that are not poisoned into AMAX, with its option (R265, R289). That a poisoned pair faults the core is
log entry 22 (DEDUCED). -/
def Sys2Proof.ImageSteps : Prop :=
  ∀ (s : State) (k : Block) (o : MxOp) (rest : List MxOp), s.block (s.arg 0) = some k → k.st = .resident →
    let a := k.abacus (s.arg 1)
    let core := k.cores.getD (s.arg 1) 0
    a.queue = o :: rest → (s.core core).idle = none →
    ∃ t, exec .abacusOperation s = .next t
      ∧ (∀ l i, o.kind = .aff l → i < 1152 → s.engBad l i = true → (t.core core).faulted = true
          ∧ (core ∈ k.cores → t.block (s.arg 0) = none))
      ∧ ∀ r, t.block (s.arg 0) = some r →
        let v := r.abacus (s.arg 1)
        (∀ l slot planes, o.kind = .ldw l slot planes → slot + planes ≤ 16 →
          (∀ p < planes, ∀ x < 9216, slotOf (v.cells.get x) (slot + p)
            = leNat (((s.engRead l (18432 * p) 18432).drop (2 * x)).take 2))
          ∧ (Rises a.cells → ∀ x < 9216, ∀ j < 16, j < slot ∨ slot + planes ≤ j →
              slotOf (v.cells.get x) j = slotOf (a.cells.get x) j)
          ∧ (∀ p < planes, v.liveS.getLsbD (slot + p) = true)
          ∧ ∀ x < 9216, ((∃ p < planes, s.engBad l (18432 * p + 2 * x) = true) → x ∈ v.cellBad)
            ∧ (x ∉ a.cellBad → (∀ p < planes, s.engBad l (18432 * p + 2 * x) = false) → x ∉ v.cellBad))
        ∧ (∀ l, o.kind = .ldc l →
          (∀ x < 9216, v.cells.get x = BitVec.ofNat 256 (leNat (((s.engRead l 0 294912).drop (32 * x)).take 32))
            ∧ (x ∈ v.cellBad ↔ ∃ j < 4, s.engBad l (32 * x + 8 * j) = true))
          ∧ v.liveS = 0xFFFF)
        ∧ (∀ l, o.kind = .aff l → (∀ i < 1152, s.engBad l i = false) → ∀ x < 144,
          v.scale.get x ^^^ 0x3F800000 = BitVec.ofNat 32 (leNat (((s.engRead l 0 1152).drop (8 * x)).take 4))
          ∧ v.bias.get x = BitVec.ofNat 32 (leNat (((s.engRead l 0 1152).drop (8 * x + 4)).take 4)))
        ∧ (∀ l, o.kind = .stc l → NoBars s l →
          (Rises a.cells → ∀ x < 9216, ∀ j < 32, placeByte s t l (32 * x + j) = (leBytes 32 (a.cells.get x).toNat).getD j 0)
          ∧ ∀ x ∈ a.cellBad, ∀ j < 4, t.engBad l (32 * x + 8 * j) = true)
        ∧ (∀ l ctl rows, o.kind = .st l ctl rows → NoBars s l →
          let c := ctl.toNat
          let src := if a.fmt.accI32 then 2 else 0x11
          let ty := stType c a.fmt.accI32
          let good := (rows.flatMap fun m => (List.range 64).map fun y => (m, y)).filter fun p =>
            !a.tileBad.contains (tileKey (c % 16) p.1 p.2)
          let vals := good.map fun p => typeVal src (outEntry a.fmt.accI32 (a.entry (c % 16) p.1 p.2))
          (∀ m ∈ rows, ∀ y < 64, tileKey (c % 16) m y ∈ a.tileBad →
            t.engBad l ((m - rows.headD 0) * (c / 2 ^ 32 % 2 ^ 16) + y * typeWidth ty / 8) = true)
          ∧ ∀ g, k.groups.find o.gid = some g → ∃ q, r.groups.find o.gid = some q
            ∧ let f := if c.testBit 17 then vals.foldl foldAmax (g.amax, g.amaxNan) else (g.amax, g.amaxNan)
              q.amax = f.1 ∧ q.amaxNan = (f.2 || (decide (c / 2 ^ 8 % 32 ≠ 0x1F) && !typeHasNan ty && vals.any Val.isNan)))
        ∧ (∀ l ctl rows, o.kind = .st l ctl rows → NoBars s l → rows.Pairwise (· < ·) →
          let c := ctl.toNat
          let ty := stType c a.fmt.accI32
          let w := typeWidth ty
          let st := c / 2 ^ 32 % 2 ^ 16
          let code (m y : Nat) : Nat :=
            let x := outEntry a.fmt.accI32 (a.entry (c % 16) m y)
            if c / 2 ^ 8 % 32 = 0x1F then x else convert (if a.fmt.accI32 then 2 else 0x11) ty (c / 2 ^ 13 % 8) (c.testBit 16) x
          8 * w ≤ st → ∀ m ∈ rows, ∀ y < 64,
            let off := (m - rows.headD 0) * st
            (w ≠ 4 → ∀ i < w / 8, placeByte s t l (off + y * (w / 8) + i) = (leBytes (w / 8) (code m y)).getD i 0)
            ∧ (w = 4 → (placeByte s t l (off + y / 2)).toNat / 16 ^ (y % 2) % 16 = code m y % 16))
        ∧ (o.kind = .refine → Rises a.cells → ∀ x < 9216, ∀ p < 16,
          let f := fmtOf (if a.knot.bf16 then 0x13 else 0x12)
          let c (j : Nat) : Val := f.val (slotOf (a.cells.get x) j)
          let q := p / 2
          let sum (u v : Val) : Val := Val.add false u v
          slotOf (v.cells.get x) p =
            if p = 15 then slotOf (a.cells.get x) 15
            else if 2 * a.knot.g + (if a.knot.cubic then 2 else 0) < p then 0
            else f.round 0 false (
              if a.knot.cubic then
                if p % 2 = 0 then (sum (c q) (c (q + 1))).scale (-1)
                else (sum (sum (c q) (Val.mul (Val.ofInt 6) (c (q + 1)))) (c (q + 2))).scale (-3)
              else if p % 2 = 0 then c q else (sum (c q) (c (q + 1))).scale (-1)))

/-- The entries of a gradient buffer have been updated, each value added to its word and rounded, one after another, and the words
of poisoned ones poisoned (R284, R289). -/
def Sys2Proof.EntriesAdded (s t : State) (l : BarLoc) (es : List (Nat × Nat × Bool)) : Prop :=
  (∀ off, off % 4 = 0 → placeWord s t l off = (es.filter fun x => x.1 == off && !x.2.2).foldl
      (fun w x => fF32.round 0 false (Val.add false (fF32.val w) (fF32.val x.2.1))) (placeWord s s l off))
  ∧ ∀ x ∈ es, x.2.2 = true → t.engBad l x.1 = true

/-- R274, R280 to R285, R289: an SPEVAL has recorded the inputs of each gathered row, and no other row, accumulated the values of
its cells into the row's entries, poisoned by what feeds them, and counted each input out of the grid once (R282); an SPGRAD has
added to each entry of its buffer the gradient that it sums over the valid rows, in any order where entries share a word, and
its turns add them a few at a time (`GradientTurns`); an SPDX has written the gradient of the inputs of each valid row. -/
def Sys2Proof.SplineSteps : Prop :=
  ∀ (s : State) (k : Block) (o : MxOp) (rest : List MxOp), s.block (s.arg 0) = some k → k.st = .resident →
    let a := k.abacus (s.arg 1)
    let core := k.cores.getD (s.arg 1) 0
    let ct := (s.hdr k).eff
    a.queue = o :: rest → (s.core core).idle = none → (∀ l, o.kind ≠ .aff l) →
    let scale (r : Nat) : Val := fF32.val (a.scale.get r ^^^ 0x3F800000).toNat
    let dY (tile n c : Nat) : Val := fF32.val (entryOut (a.entry tile n c))
    let input (n r : Nat) : Option (Val × Input) := (a.latch.find n).map fun row =>
      let xp := fF32.val (row.get r).toNat
      (xp, a.knot.input xp)
    ∃ t v, exec .abacusOperation s = .next t ∧ (∃ r, t.block (s.arg 0) = some r ∧ r.abacus (s.arg 1) = v)
      ∧ (∀ tile rows, o.kind = .eval tile rows → tile < 16 → (rows.map Prod.fst).Nodup → (∀ x ∈ rows, x.1 < 64) →
          (∀ n, (v.latch.find n).isSome = true ↔ n ∈ rows.map Prod.fst)
          ∧ (∀ x ∈ rows,
            let xp (r : Nat) : BitVec 32 := BitVec.ofNat 32 (fF32.round 0 false (Val.add false
              (Val.mul ((fmtOf a.knot.atype).val ((rowCodes a.knot.atype 144 x.2).getD r 0)) (scale r))
              (fF32.val (a.bias.get r).toNat)))
            (rowCodes a.knot.atype 144 x.2).length = 144 →
            (∀ m, v.latch.find x.1 = some m → ∀ r < 144, m.get r = xp r)
            ∧ (Rises a.cells → ∀ c < 64, v.entry tile x.1 c = accEntry ct (dotVal ct (entryAcc ct (a.entry tile x.1 c))
                ((List.range 144).map fun r =>
                  let p := fF32.val (xp r).toNat
                  let i := a.knot.input p
                  cellVal ct a.knot (a.cells.get (64 * r + c)) i.m i.e (baseVal (s.core core) ct a.knot p)))))
          ∧ (∀ n' < 16, ∀ x < 64, ∀ c < 64, (¬(n' = tile ∧ x ∈ rows.map Prod.fst) → v.entry n' x c = a.entry n' x c)
            ∧ (tileKey n' x c ∈ v.tileBad ↔ tileKey n' x c ∈ a.tileBad
                ∨ (n' = tile ∧ x ∈ rows.map Prod.fst ∧ ∃ z ∈ a.cellBad, z % 64 = c)))
          ∧ ((∀ x ∈ rows, (rowCodes a.knot.atype 144 x.2).length = 144) → ∀ r < 144,
            let us := rows.map fun x => (a.knot.input (fF32.val (fF32.round 0 false (Val.add false
              (Val.mul ((fmtOf a.knot.atype).val ((rowCodes a.knot.atype 144 x.2).getD r 0)) (scale r))
              (fF32.val (a.bias.get r).toNat))))).u
            let out := (us.filter fun u => u.isNan || u.cmp Val.zero == .lt || u.cmp (Val.ofInt a.knot.g) != .lt).map
              (fF32.round 0 false)
            (v.count.get r).toNat = min 0xFFFFFFFF ((a.count.get r).toNat + out.length)
            ∧ ((v.least.find r).getD 0x7F800000).toNat
              = out.foldl (pick fF32 false false) ((a.least.find r).getD 0x7F800000).toNat
            ∧ ((v.greatest.find r).getD 0xFF800000).toNat
              = out.foldl (pick fF32 true false) ((a.greatest.find r).getD 0xFF800000).toNat))
      ∧ (∀ l d1 d2, o.kind = .grad l d1 d2 → NoBars s l →
          let j := d1.toNat / 2 ^ 16 % 128
          let cs := d2.toNat / 2 ^ 32
          let rs := d2.toNat % 2 ^ 32
          cs % 4 = 0 → rs % 4 = 0 → ∃ es, EntriesAdded s t l es ∧
            es.Perm ((List.range j).flatMap fun ci => (List.range 144).flatMap fun r => (List.range 16).map fun q =>
              let c := d1.toNat / 2 ^ 8 % 64 + ci
              let fed (i : Input) : Bool := q == 15 || match i.m with | none => false | some m => m ≤ q && q < m + i.e.length
              let term (n : Nat) : Val := match input n r with
                | none => Val.zero
                | some (xp, i) =>
                  let y := dY (d1.toNat % 16) n c
                  if q = 15 then Val.mul y (baseVal (s.core core) ct a.knot xp)
                  else if fed i then Val.mul y (i.e.getD (q - i.m.getD 0) Val.zero) else Val.zero
              let bad := a.cellBad.contains (64 * r + c) || a.latch.any fun row =>
                fed (a.knot.input (fF32.val (row.2.get r).toNat)) && a.tileBad.contains (tileKey (d1.toNat % 16) row.1 c)
              (ci * cs + r * rs + 4 * q, fF32.round 0 false (cellSum ct ((List.range 64).map term)), bad)))
      ∧ (∀ l es met, o.kind = .grads l es met → NoBars s l → (∀ x ∈ es, x.1 % 4 = 0) → EntriesAdded s t l es)
      ∧ (∀ l d1, o.kind = .dx l d1 → NoBars s l → Rises a.latch → ∀ n row, a.latch.find n = some row → ∀ r < 144,
          (∃ x ∈ a.cellBad, x / 64 = r) ∨ (∃ c < 64, tileKey (d1.toNat % 16) n c ∈ a.tileBad) →
            t.engBad l (n * (d1.toNat / 2 ^ 32 % 2 ^ 16) + 4 * r) = true)
      ∧ ∀ l d1, o.kind = .dx l d1 → NoBars s l → Rises a.cells → Rises a.latch →
          let st := d1.toNat / 2 ^ 32 % 2 ^ 16
          576 ≤ st → ∀ n r xp i, r < 144 → input n r = some (xp, i) →
            ∀ sent : Bool, (sent = true ↔ i.u.isNan = false ∧ (Below i.u Val.zero ∨ ¬Below i.u (Val.ofInt a.knot.g))
              ∧ a.knot.clamp ≠ 2) →
            let de := i.db.map fun x => if sent then Val.zero else times x (fF32.val a.knot.kinv.toNat)
            let gam (c : Nat) : Val := cellVal ct a.knot (a.cells.get (64 * r + c)) i.m (if i.m = none then [] else de)
              (baseSlope a.knot xp)
            placeWord s t l (n * st + 4 * r) = fF32.round 0 false (Val.mul
              (cellSum ct ((List.range 64).map fun c => Val.mul (dY (d1.toNat % 16) n c) (gam c))) (scale r))

/-- R256, R284: a turn of a running SPGRAD updates its next entries and leaves it at the head of its queue with the others still to
come; a place in the queue is counted for it no longer. The entries stand in the model's order (log entry 1). -/
def Sys2Proof.GradientTurns : Prop :=
  ∀ (s : State) (b m n : Nat) (k : Block) (o : MxOp) (rest : List MxOp), s.block b = some k → k.st = .resident →
    (k.abacus m).queue = o :: rest → (s.core (k.cores.getD m 0)).idle = none →
    ∃ t r, s.turn (.gradEntries b m n) = .next t ∧ t.block b = some r
      ∧ (∀ l es met, o.kind = .grads l es met → ∃ met',
          r.abacus m = { k.abacus m with queue := { o with kind := .grads l (es.drop n) met' } :: rest }
          ∧ (NoBars s l → (∀ x ∈ es, x.1 % 4 = 0) → EntriesAdded s t l (es.take n)))
      ∧ (∀ l d1 d2, o.kind = .grad l d1 d2 → ∃ (es : List (Nat × Nat × Bool)) (met' : List Nat),
          es.Perm ((k.abacus m).gradients (s.core (k.cores.getD m 0)) (s.hdr k).eff d1 d2)
          ∧ r.abacus m = { k.abacus m with queue := { o with kind := .grads l (es.drop n) met' } :: rest }
          ∧ (NoBars s l → (∀ x ∈ es, x.1 % 4 = 0) → EntriesAdded s t l (es.take n)))
      ∧ t.ops = s.ops

/-- R217, R256: the abacus starts no operation that occupies the array while an idle interval of its core lasts, and the
interval ends when its cycles have passed. -/
def Sys2Proof.IdleIntervals : Prop :=
  (∀ (s : State) (k : Block) (n : Nat), s.block (s.arg 0) = some k → (s.core (k.cores.getD (s.arg 1) 0)).idle = some n →
    (∀ o, (k.abacus (s.arg 1)).queue.head? = some o → ∀ x y d ls lv, o.kind ≠ .rd x y d ls lv) →
    exec .abacusOperation s = .next s)
  ∧ ∀ s : State, ∃ t, exec .rateIdleIntervalEnd s = .next t
      ∧ (∀ n, (s.core (s.arg 0)).idle = some n → (t.core (s.arg 0)).idle = if n ≤ s.cycle.toNat then none else some n)
      ∧ ((s.core (s.arg 0)).idle = none → (t.core (s.arg 0)).idle = none)
      ∧ { t.core (s.arg 0) with idle := (s.core (s.arg 0)).idle } = s.core (s.arg 0)
      ∧ (∀ n, n ≠ s.arg 0 → t.core n = s.core n) ∧ { t with cores := [] } = { s with cores := [] }

/-- The operations of an abacus's queue, the spline inputs that they work on, and the idle intervals of its rate. That SPAFF of a
poisoned image faults the core is read from R223 (log entry 22, DEDUCED). -/
def Obligations.AbacusQueueSteps : Prop :=
  AbacusSteps ∧ ImageSteps ∧ SplineInputs ∧ SplineSteps ∧ GradientTurns ∧ IdleIntervals

/-! ## Steps of the device: records, memory management, configuration -/

/-- R345 to R347: the oldest record that waits at an arbiter is appended to its ring with its sequence number, unless the ring
is full; the write index advances, and a ring that turns non-empty raises its interrupt if that is enabled. What has waited at
the record then goes on, unless another record of the same origin still waits. That a ring outside the partition's own HBM is
not written is the model's reading (log entry 50, DEDUCED). -/
def Sys2Proof.RecordsAppended : Prop :=
  ∀ s : State, let q := s.queue (s.arg 0) (s.arg 1) (s.arg 2)
    (q.waiting = [] ∨ q.wr - q.rd = BitVec.ofNat 32 (2 ^ q.size) → exec .faultRecord s = .next s)
    ∧ ∀ tag bytes rest, q.waiting = (tag, bytes) :: rest → q.wr - q.rd ≠ BitVec.ofNat 32 (2 ^ q.size) →
      let lo := q.base.toNat * 4096 + 32 * (q.wr.toNat % 2 ^ q.size)
      let new := bytes ++ leBytes 4 q.wr.toNat
      ∃ t, exec .faultRecord s = .next (if tag = 0 then t else t.taken tag) ∧ (t.held tag = true → t.taken tag = t)
        ∧ t.queue (s.arg 0) (s.arg 1) (s.arg 2) = { q with wr := q.wr + 1, waiting := rest }
        ∧ (∀ k, k ≠ queueKey (s.arg 0) (s.arg 1) (s.arg 2) → t.queues.find k = s.queues.find k)
        ∧ (∀ a, Memory.get t.mem a = if s.ownsHbm (s.arg 1) lo 32 = true ∧ lo ≤ a ∧ a < lo + new.length then new.getD (a - lo) 0
            else Memory.get s.mem a)
        ∧ t.msix = s.msix ++ (if q.irq = true ∧ q.wr = q.rd then [(s.arg 1 + 1, q.vec.toNat)] else [])
        ∧ { t with mem := [], memBad := [], queues := [], msix := [] } = { s with mem := [], memBad := [], queues := [], msix := [] }

/-- Every access that a group has issued, and every lane of a lane copy that may be performed, has been performed (R17, R322). -/
def Sys2Proof.Settled (s : State) : Prop :=
  (∀ x ∈ s.blocks, ∀ y ∈ x.2.groups, y.2.posted = []) ∧ ∀ x ∈ s.ops, ∀ l, x.2.kind = .lane l → l.ready = []

/-- R342, R343: a write of MTUINV starts an invalidation of its quadrant, of the pages that it names, or of the whole quadrant
where it names none; when it is done, busy is clear, the MTU holds no entry of a page in the range, the groups parked on it wake,
and nothing that waited on such a page waits any more. -/
def Sys2Proof.InvalidationSteps : Prop :=
  ∀ s : State, let q := s.quad (s.arg 0)
    (let v : U64 := BitVec.ofNat 64 (s.arg 1 % 2 ^ 52)
      ∃ t, exec .mtuinv s = .next t
      ∧ t.quad (s.arg 0) = { q with invVal := v, busy := true, inv := q.inv ++ [v] }
      ∧ (∀ n, n ≠ s.arg 0 → t.quad n = s.quad n) ∧ { t with quads := [] } = { s with quads := [] })
    ∧ (q.busy = false → exec .mtuInvalidationDone s = .next s)
    ∧ (q.busy = true → ∃ t, exec .mtuInvalidationDone s = .next t
      ∧ (t.quad (s.arg 0)).busy = false ∧ (t.quad (s.arg 0)).inv = []
      ∧ let rs := q.inv.map (invRange (s.arg 0))
        let lies (ia n : Nat) : Prop := ∃ x ∈ rs, x.1 < (ia / n + 1) * n ∧ ia / n * n < x.2
        (∀ v ∈ q.inv, v.toNat < 2 ^ 52 → ∃ x ∈ rs, if v.toNat % 2 ^ 16 = 0 then x = (s.arg 0 * 2 ^ 47, (s.arg 0 + 1) * 2 ^ 47)
          else x = (v.toNat / 2 ^ 16 * 2 ^ 16, (v.toNat / 2 ^ 16 + v.toNat % 2 ^ 16) * 2 ^ 16))
        ∧ (∀ ia, ia / 2 ^ 47 = s.arg 0 →
          (lies ia (2 ^ 21) → (t.quad (s.arg 0)).cached.find (mtuKey ia false) = none)
          ∧ (lies ia (2 ^ 16) → (t.quad (s.arg 0)).cached.find (mtuKey ia true) = none))
        ∧ (Settled s → s.hostWaits = [] → s.spawns = [] → (∀ x ∈ s.grids, x.2.disp = none) →
        t.mem = s.mem
        ∧ (∀ n, n ≠ s.arg 0 → t.quad n = s.quad n)
        ∧ (∀ ia, ia / 2 ^ 47 = s.arg 0 →
          (¬lies ia (2 ^ 21) → (t.quad (s.arg 0)).cached.find (mtuKey ia false) = q.cached.find (mtuKey ia false))
          ∧ (¬lies ia (2 ^ 16) → (t.quad (s.arg 0)).cached.find (mtuKey ia true) = q.cached.find (mtuKey ia true)))
        ∧ (∀ b g, (t.group b g).map Group.park = (s.group b g).map fun x => (x.invWake (s.arg 0)).park)
        ∧ (∀ b g x, t.group b g = some x → ∀ a, x.fetchIa = some a → rs.any (rangesMeet (t.pageSpan a)) = false)
        ∧ (∀ n l, t.lanes.find n = some l → ∀ a, l.wait = some a → rs.any (rangesMeet (t.pageSpan a)) = false)
        ∧ (∀ n l, t.chans.find n = some l → ∀ a, l.wait = some a → rs.any (rangesMeet (t.pageSpan a)) = false)
        ∧ (∀ n l, t.mailbox.find n = some l → ∀ a, l.wait = some a → rs.any (rangesMeet (t.pageSpan a)) = false)
        ∧ (∀ n l, t.colls.find n = some l → ∀ a, l.wait = some a → rs.any (rangesMeet (t.pageSpan a)) = false)
        ∧ (∀ n l, t.grids.find n = some l → ∀ a, l.wait = some a → rs.any (rangesMeet (t.pageSpan a)) = false)
        ∧ ∀ n o, t.ops.find n = some o → ∀ x ∈ o.waiting, rs.any (rangesMeet (t.pageSpan x.2)) = false))

/-- R336, R337: a write of WCTL takes effect at once, with its reserved bits dropped and kinds 5 to 7 as 0; the groups of the
partition that parked on it wake; no other window and no other group changes. -/
def Sys2Proof.WindowControl : Prop :=
  ∀ s : State, let v : U64 := BitVec.ofNat 64 (s.arg 3)
    (16 ≤ s.arg 2 → exec .wctl s = .next s)
    ∧ (s.arg 2 < 16 → ∃ t, exec .wctl s = .next t
      ∧ t.window (s.arg 0) (s.arg 1) (s.arg 2) = { s.window (s.arg 0) (s.arg 1) (s.arg 2) with
          ctl := v.extractLsb' 4 3 ++ 0#1 ++ (if 5 ≤ v.toNat % 8 then 0 else v.extractLsb' 0 3) }
      ∧ (∀ k, k ≠ winKey (s.arg 0) (s.arg 1) (s.arg 2) → t.windows.find k = s.windows.find k)
      ∧ (∀ b k g x, s.block b = some k → k.groups.find g = some x → t.group b g = some
          (if k.part = s.arg 0 ∧ k.st = .resident ∧ x.park = .wctl (s.arg 1) (s.arg 2) v then x.wake else x))
      ∧ { t with windows := [], blocks := [] } = { s with windows := [], blocks := [] })

/-- R218 to R220: ALMDATA stores eight bytes at ALMADDR and advances it; a commit measures the image with SHAKE256 and sets
valid or mismatch by the fused digest; a lock lasts. With the lock set, or a block resident on the core, only the lock
works. That ALMADDR keeps its low three bits is the model's choice, and that a stored word ends valid its reading (log entry
56). -/
def Sys2Proof.AlmanacSteps : Prop :=
  ∀ s : State, let n := s.arg 0
    let k := s.core n
    let only (i : Instr) (k' : CoreSt) : Prop := ∃ t, exec i s = .next t ∧ t.core n = k' ∧ (∀ m, m ≠ n → t.core m = s.core m)
      ∧ { t with cores := [] } = { s with cores := [] }
    let shut : Prop := k.almLock = true ∨ ∃ x ∈ s.blocks, x.2.st = .resident ∧ n ∈ x.2.cores
    let digest : BitVec 512 := BitVec.ofNat 512 (wordsNat ((shake256 k.imageBytes).take 8))
    only .almctlLock { k with almLock := true }
    ∧ (shut → exec .almctlCommit s = .next s ∧ exec .almdata s = .next s)
    ∧ (¬shut → only .almctlCommit { k with almMeas := digest, almValid := digest == Config.fusedDigest,
                                            almMis := digest != Config.fusedDigest })
    ∧ (¬shut → k.almAddr < 24320 → only .almdata { k with
        almImage := k.almImage.set (k.almAddr / 8) (BitVec.ofNat 64 (s.arg 1)), almAddr := k.almAddr + 8, almValid := false })
    ∧ (24320 ≤ k.almAddr → exec .almdata s = .next s)

/-- R334: the lowest-numbered enabled window that holds a virtual address maps it, with its offset added modulo 2^52; where none
holds it, nothing does. -/
def Sys2Proof.WindowMapping : Prop :=
  ∀ (s : State) (part ctx va : Nat), let win (w : Nat) : Window := s.window part ctx w
    let hits (w : Nat) : Prop :=
      (win w).ctl.toNat % 8 ≠ 0 ∧ (win w).base.toNat ≤ va ∧ va < (win w).base.toNat + (win w).limit.toNat
    ((∀ w < 16, ¬hits w) → s.mapVa part ctx va = none)
    ∧ ∀ w < 16, hits w → (∀ v < w, ¬hits v) →
      s.mapVa part ctx va = some (win w, (va - (win w).base.toNat + (win w).off.toNat) % 2 ^ 52)

/-- The byte of an intermediate address that stands at `key`: where an L2 slice holds its line from an earlier mapping of the page,
the line's byte (R333). -/
def Sys2Proof.heldAt (s : State) (ia key : Nat) : Nat :=
  match s.l2.find (ia / 128) with
  | some l => if l.key = key / 128 * 128 then key else l2Base + ia
  | none => key

/-- R340, R341: how the leaf `e` of a page of `size` bytes, which stands at `a`, decides an access: a reserved home is not present, a
migrating page waits, a missing right denies; then the target must lie in the partition's quadrants and in the HBM. A write to a
page that is not DIRTY names the entry to mark (one that the partition owns: log entry 50). -/
def Sys2Proof.LeafDecides (s : State) (part ia : Nat) (r w : Bool) (a e size : Nat) : Prop :=
  let t := e / size % (2 ^ 52 / size) * size + ia % size
  let home := e / 2 ^ 57 % 4
  let v := s.hbmSide part ia r w
  let may : Prop := home ≠ 3 ∧ e.testBit 56 = false ∧ (r = true → e.testBit 1 = true) ∧ (w = true → e.testBit 2 = true)
  (home = 3 → v = .wait 1)
  ∧ (home ≠ 3 → e.testBit 56 = true → v = .wait 2)
  ∧ (home ≠ 3 → e.testBit 56 = false → r = true → e.testBit 1 = false → v = .deny 3)
  ∧ (home ≠ 3 → e.testBit 56 = false → (r = true → e.testBit 1 = true) → w = true → e.testBit 2 = false → v = .deny 4)
  ∧ (may → home = 0 → s.owns part (t / 2 ^ 35) = false → v = .deny 5)
  ∧ (may → home = 0 → s.owns part (t / 2 ^ 35) = true → 24000000000 ≤ t % 2 ^ 35 → v = .deny 11)
  ∧ ∀ key, may → (home = 0 ∧ s.owns part (t / 2 ^ 35) = true ∧ t % 2 ^ 35 < 24000000000 ∧ key = t)
      ∨ (home = 1 ∧ key = hostBase + t) ∨ (home = 2 ∧ key = peerBase + t) →
    v = .ok (heldAt s ia key) (e / 2 ^ 60 % 16) (if w = true ∧ e.testBit 55 = false ∧ s.ownsHbm part a 8 = true then some a else none)

/-- R330, R339: the walk of the table of the quadrant that an intermediate address names: what the MTU holds of an entry stands for
the entry; an address beyond the table, or an entry that cannot be read, is denied; an entry that is not present waits; and
the leaf, of 2 MiB or of 64 KiB, decides. -/
def Sys2Proof.TableWalk : Prop :=
  ∀ (s : State) (part ia : Nat) (r w : Bool), let q := ia / 2 ^ 47 % 16
    let i1 := ia / 2 ^ 21 % 2 ^ 26
    let held (leaf : Bool) := (s.quad q).cached.find (mtuKey ia leaf)
    let entry (leaf : Bool) (a : Nat) : Nat := match held leaf with
      | some e => e.2.toNat
      | none => Memory.num s.mem a 8
    let lost (leaf : Bool) (a : Nat) : Prop := held leaf = none ∧ s.badRange a 8 = true
    let a1 := (s.quad q).l1base.toNat * 4096 + 8 * i1
    let e1 := entry false a1
    let a2 := e1 / 2 ^ 8 % 2 ^ 44 * 2 ^ 8 + 8 * (ia / 2 ^ 16 % 32)
    let e2 := entry true a2
    let v := s.hbmSide part ia r w
    (s.owns part q = false → v = .deny 5)
    ∧ (s.owns part q = true →
      ((s.quad q).l1count ≤ i1 → v = .deny 6)
      ∧ (i1 < (s.quad q).l1count → lost false a1 → v = .deny 7)
      ∧ (i1 < (s.quad q).l1count → ¬lost false a1 →
        (e1.testBit 0 = false → v = .wait 1)
        ∧ (e1.testBit 0 = true → e1.testBit 54 = true → LeafDecides s part ia r w a1 e1 (2 ^ 21))
        ∧ (e1.testBit 0 = true → e1.testBit 54 = false → lost true a2 → v = .deny 7)
        ∧ (e1.testBit 0 = true → e1.testBit 54 = false → ¬lost true a2 →
          (e2.testBit 0 = false ∨ e2.testBit 54 = true → v = .wait 1)
          ∧ (e2.testBit 0 = true → e2.testBit 54 = false → LeafDecides s part ia r w a2 e2 (2 ^ 16)))))

/-- R329, R330, R338: the attributes of a page of the scratchpad decide an access to a pad address that names a byte; one that
names none is told by bits [50:28] and the core's D. -/
def Sys2Proof.PadPages : Prop :=
  ∀ (s : State) (part ia : Nat) (r w : Bool), let core := ia / 2 ^ 19 % 512
    let off := ia % 2 ^ 19
    let a := (s.core core).padattr.toNat / 2 ^ (8 * (off / 2 ^ 16)) % 256
    let v := s.padSide part ia r w
    let named := ia / 2 ^ 28 % 2 ^ 23 = 0 ∧ off < 4096 * (s.core core).dvsize
    (s.padNames ia 1 = true ↔ named) ∧ (named →
    (s.owns part (core / 32) = false → v = .deny 5)
    ∧ (s.owns part (core / 32) = true →
      (r = true → a.testBit 0 = false → v = .deny 3)
      ∧ ((r = true → a.testBit 0 = true) → w = true → a.testBit 1 = false → v = .deny 4)
      ∧ ((r = true → a.testBit 0 = true) → (w = true → a.testBit 1 = true) →
        v = .ok (2 ^ 51 + core * 2 ^ 19 + (2 ^ 19 - 4096 * (s.core core).dvsize) + off) (a / 4 % 16) none)))

/-- R341: setting DIRTY sets bit 55 of the entry in memory and in what the MTUs hold of it, and changes nothing else. -/
def Sys2Proof.DirtySet : Prop :=
  ∀ (s : State) (a : Nat), let t := s.setDirty (some a)
    (∀ x, Memory.get t.mem x = if x = a + 6 then Memory.get s.mem x ||| 0x80 else Memory.get s.mem x)
    ∧ (∀ q y e, (s.quad q).cached.find y = some e →
      (t.quad q).cached.find y = some (if e.1 = a then (a, e.2 ||| 0x80000000000000) else e))
    ∧ ({ t with mem := [], quads := [] } : State) = { s with mem := [], quads := [] }

/-- The two translations of an address: at the issuing side and at the memory side. -/
def Sys2Proof.Translations : Prop := WindowMapping ∧ TableWalk ∧ PadPages ∧ DirtySet

/-- The translation of addresses, records, the memory-management units, the windows and the almanac. -/
def Obligations.ManagementSteps : Prop :=
  Translations ∧ RecordsAppended ∧ InvalidationSteps ∧ WindowControl ∧ AlmanacSteps

/-- The group that a replay release names: the only one of its partition that is resident in that core and slot. -/
def Sys2Proof.NamedBy (s : State) (part core slot b n : Nat) (k : Block) (g : Group) : Prop :=
  s.block b = some k ∧ k.st = .resident ∧ k.part = part ∧ k.groups.find n = some g ∧ g.core = core ∧ g.slot = slot
    ∧ ∀ x ∈ s.blocks, x.2.st = .resident → x.2.part = part → ∀ y ∈ x.2.groups, y.2.core = core → y.2.slot = slot →
        x.1 = b ∧ y.1 = n

/-- R171, R197, R198, R345, R347: a write of RPLREL tries the unfinished lanes of the named record again and performs those that are
permitted now (in some order, log entry 3); a lane of a CPG that a later word has written stands; the lanes that are still refused
stand in RPLMASK and in the record, and a record with none left is free, its operation finished and its group awake. While a
record of its operation waits at the arbiter, the replay waits with it. -/
def Sys2Proof.ReplayReleases : Prop :=
  ∀ s : State, let die := s.arg 0
    let part := s.arg 1
    let v : BitVec 16 := BitVec.ofNat 16 (s.arg 2)
    let n := v.toNat % 4
    ((∀ x ∈ s.blocks, x.2.st = .resident → x.2.part = part → ∀ y ∈ x.2.groups,
        ¬(y.2.core = v.toNat / 2 ^ 7 ∧ y.2.slot = v.toNat / 4 % 32)) →
      ∃ t, exec .rplrel s = .next t ∧ t.pre die part = { s.pre die part with rplrel := v.setWidth 64, rplmask := 0 }
        ∧ { t with preempt := [] } = { s with preempt := [] })
    ∧ ∀ b gid k g r o l, NamedBy s part (v.toNat / 2 ^ 7) (v.toNat / 4 % 32) b gid k g → g.replay.find n = some r →
      s.ops.find r.op = some o → o.kind = .lane l →
      (s.held r.op = true → ∃ t, exec .rplrel s = .next t
        ∧ GroupBecomes { s with preempt := t.preempt } t b gid { g with replay := g.replay.adj n fun r => { r with asked := true } }
        ∧ t.pre die part = { s.pre die part with rplrel := v.setWidth 64, rplmask := r.lanes })
      ∧ (s.held r.op = false →
      let ts := (s.verdicts k.part l (l.lanes.filter fun x => l.todo.getLsbD x.1)).1
      let u := (s.verdicts k.part l (l.lanes.filter fun x => l.todo.getLsbD x.1)).2
      let left (i : Nat) : Prop := ∃ y ∈ ts, y.lane = i ∧ (y.tgt.waits = true ∨ y.tgt.denied = true)
      ∃ t q p, exec .rplrel s = .next t ∧ t.group b gid = some q ∧ t.ops.find r.op = some p
        ∧ (∀ i < 32, ((t.pre die part).rplmask.getLsbD i = true ↔ left i))
        ∧ (t.pre die part).rplrel = v.setWidth 64
        ∧ (p.finished = true ↔ (∀ y ∈ ts, y.tgt.waits = false ∧ y.tgt.denied = false) ∧ l.ready = [] ∧ (l.late = true → ts = []))
        ∧ ((∀ y ∈ ts, y.tgt.waits = false ∧ y.tgt.denied = false) → q.replay.find n = none
            ∧ (g.park = .replay n → q.park = .run))
        ∧ ((∃ y ∈ ts, y.tgt.waits = true ∨ y.tgt.denied = true) → q.park = g.park
            ∧ ∃ e, q.replay.find n = some e ∧ e.op = r.op ∧ ∀ i < 32, (e.lanes.getLsbD i = true ↔ left i))
        ∧ (l.late = false → (∀ a ∈ g.posted, a.id ∉ l.after) → (l.lanes.map Prod.fst).Nodup → (∀ x ∈ l.lanes, x.1 < 32) →
            LanesPerformed u t l ts
            (fun i => ∀ e ∈ g.pend, e.id = r.op → e.ovr.getLsbD i = false) g q)
        ∧ (l.late = true → ∀ x, ∀ i < 32, q.lane x i = g.lane x i))

/-- The verdicts of a lane copy, and the release of its replay record. -/
def Obligations.LaneCopySteps : Prop := LaneCopyVerdicts ∧ SplitByCopy ∧ LateLanes ∧ ReplayReleases

/-! ## Steps of the device: pre-emption -/

/-- A group has stopped (R28, R370, R372): it is parked, but for the park of a WINDOW write, or it stands between bundles, or a
page keeps it from the next word of its bundle. -/
def Sys2Proof.GroupStops (g : Group) : Prop :=
  (g.park = .run ∧ (g.bundle.words = [] ∨ g.fetchIa.isSome = true)) ∨ (g.park ≠ .run ∧ ∀ x w v, g.park ≠ .wctl x w v)

/-- A group has not stopped: its WINDOW write is still to take effect (R372), or it can go on inside a bundle (R28), whose next
word is no SPAWN that stalls. -/
def Sys2Proof.GroupGoesOn (b gid : Nat) (k : Block) (g : Group) : Prop :=
  (∃ x w v, g.park = .wctl x w v)
    ∨ (g.park = .run ∧ g.bundle.words ≠ [] ∧ g.fetchIa = none ∧ ∀ u : State, u.spawnStalls b gid k g = false)

/-- No member of a block has at the head of its queue an abacus operation with gathered rows, or an SPGRAD that has updated some
entries: such a one ends first (R266, R288). -/
def Sys2Proof.Calm (k : Block) : Prop :=
  ∀ x ∈ k.abaci, ∀ o ∈ x.2.queue.head?, o.gathered = false ∧ ∀ loc left met, o.kind ≠ .grads loc left met

/-- A block has stopped: its groups have, and its abaci. -/
def Sys2Proof.BlockStops (k : Block) : Prop := Calm k ∧ ∀ x ∈ k.groups, GroupStops x.2

/-- A block goes on: one of its groups or of its abaci does. -/
def Sys2Proof.BlockGoesOn (b : Nat) (k : Block) : Prop := ¬Calm k ∨ ∃ x ∈ k.groups, GroupGoesOn b x.1 k x.2

/-- Nothing that a block's end or save completes reaches another block: no access is left to perform, and no pad barrier object
and no step of a collective is waited for by an operation. -/
def Sys2Proof.Secluded (s : State) : Prop :=
  Settled s ∧ s.padBars = [] ∧ ∀ x ∈ s.ops, (∀ a, x.2.barrier ≠ some (.pad a)) ∧ ∀ c, x.2.kind = .copy c → c.kind ≠ .rred

/-- A block that has stopped is saved, with its groups as they are saved, its shared memory and its abaci, at a place of the save
area that no other block of the partition's die has; or, where the area has no place of its size, it stands, and the set reports
that (R370). -/
def Sys2Proof.SavedOrFull (t : State) (die part b : Nat) (k r : Block) : Prop :=
  let size := (t.pre die part).psize.toNat
  let apart (o m : Nat) (u : Nat × Nat) : Prop := o + m ≤ u.1 ∨ u.1 + u.2 ≤ o
  r.shared = k.shared ∧ r.abaci = k.abaci
  ∧ (r = k ∧ (t.pre die part).nospace = true
      ∧ (∀ o, o + t.saveSize k ≤ size → ∃ u ∈ t.savedAreas die part, ¬apart o (t.saveSize k) u)
    ∨ r.st = .saved ∧ (∀ n, r.groups.find n = (k.groups.find n).map Group.saved) ∧ r.saveOff + t.saveSize r ≤ size
      ∧ (k.part = part → k.die = die → ∀ c q, c ≠ b → t.block c = some q → q.part = part → q.die = die → q.st ≠ .resident →
          apart r.saveOff (t.saveSize r) (q.saveOff, t.saveSize q)))

/-- The set counts the blocks that a step has saved, and reports a want of room where a block that has stopped was not (R370). -/
def Sys2Proof.CountsSaved (s t : State) (die part from_ : Nat) (full : Bool) (mine : Nat → Block → Prop) : Prop :=
  (t.pre die part).blocks = from_ + (s.blocks.filter fun x =>
      x.2.st == .resident && ((t.block x.1).map Block.st == some .saved)).length
  ∧ ((t.pre die part).nospace = true → full = true ∨ ∃ b k, s.block b = some k ∧ mine b k ∧ ¬BlockGoesOn b k ∧ t.block b = some k)
  ∧ (full = true → (t.pre die part).nospace = true)

/-- R369 to R372: while a request runs, no other starts; one for a context that the partition does not know only says so. A
pre-emption suspends its target, and saves its blocks whose groups have all stopped, or reports that the save area has no
room for them; a block with a group inside a bundle, or whose WINDOW write is still to take effect, or with an abacus operation that
has gathered its rows or begun its updates, goes on and is saved later; PSTAT counts the blocks that are saved. A
resumption lifts the suspension, and the saved blocks wait for placement; an abort fails the target's grids with error 3 and ends
their blocks. When no block is left to save, the request is done and its record of kind 0x43 is sent. That a request for grid 0
lifts every suspension of its context, and that a group which waits inside a bundle goes back to its start, are the model's
choices (log entry 30, DESIGN CHOICE). -/
def Obligations.PreemptionSteps : Prop :=
  ∀ s : State, Rises s.blocks → let die := s.arg 0
    let part := s.arg 1
    let gh := s.arg 2
    let p := s.pre die part
    let target (k : Block) : Prop := s.isTarget part p.pctx gh k = true ∧ k.die = die
    (p.busy = true → exec .preemptRequest s = .next s ∧ exec .resumeRequest s = .next s ∧ exec .abortRequest s = .next s)
    ∧ (p.busy = false → s.knowsCtx part p.pctx = false →
        ∀ x ∈ [(Instr.preemptRequest, 1), (.resumeRequest, 2), (.abortRequest, 3)], ∃ t, exec x.1 s = .next t
          ∧ t.pre die part = { p with busy := true, op := x.2, ctx := p.pctx, grid := gh, blocks := 0, badctx := true,
                                      nospace := if x.2 = 1 then false else p.nospace, todo := [] }
          ∧ { t with preempt := [] } = { s with preempt := [] })
    ∧ (p.busy = false → s.knowsCtx part p.pctx = true →
      (∃ t, exec .preemptRequest s = .next t ∧ (t.pre die part).busy = true ∧ (t.pre die part).op = 1
        ∧ (t.pre die part).badctx = false ∧ (die, part, p.pctx, gh) ∈ t.susp
        ∧ (∀ n g, s.grids.find n = some g → g.part = part → g.ctx = p.pctx → (gh = 0 ∨ n = gh) →
            ∀ r, t.grids.find n = some r → t.suspended die r n = true)
        ∧ (Secluded s → ∀ b k, s.block b = some k → ∃ r, t.block b = some r
            ∧ (¬(target k ∧ k.st = .resident) ∨ BlockGoesOn b k → r = k)
            ∧ (target k → k.st = .resident → BlockStops k → SavedOrFull t die part b k r)
            ∧ (target k → k.st = .resident → BlockGoesOn b k → b ∈ (t.pre die part).todo)
            ∧ (b ∈ (t.pre die part).todo → target k ∧ k.st = .resident ∧ ¬BlockStops k))
        ∧ (Secluded s → CountsSaved s t die part 0 false fun _ k => target k ∧ k.st = .resident))
      ∧ (∃ t, exec .resumeRequest s = .next t ∧ (t.pre die part).busy = true ∧ (t.pre die part).op = 2
        ∧ (∀ b k, s.block b = some k → t.block b = some
            (if k.st = .saved ∧ s.isTarget part p.pctx gh k = true ∧ k.die = die then { k with st := .resuming } else k))
        ∧ (∀ x, x ∈ t.susp ↔ x ∈ s.susp ∧ ¬(x.1 = die ∧ x.2.1 = part ∧ x.2.2.1 = p.pctx ∧ (gh = 0 ∨ x.2.2.2 = gh)))
        ∧ ∀ n g, s.grids.find n = some g → g.part = part → g.ctx = p.pctx → (gh = 0 ∨ n = gh) →
            t.grids.find n = some g ∧ t.suspended die g n = false)
      ∧ ∃ t, exec .abortRequest s = .next t ∧ (t.pre die part).busy = true ∧ (t.pre die part).op = 3
        ∧ (∀ b k, s.block b = some k → target k → t.block b = none)
        ∧ (Secluded s → ∀ b k, s.block b = some k → ¬target k → t.block b = some k)
        ∧ ∀ n g, s.grids.find n = some g → g.part = part → g.ctx = p.pctx → (gh = 0 ∨ n = gh) →
            (t.grids.find n).map Grid.failed = some (if g.failed.isSome then g.failed else some (3, 0, 0, 0xFFFF)))
    ∧ (p.busy = false → exec .preemptRequestDone s = .next s)
    ∧ (p.busy = true → Secluded s → ∃ t, exec .preemptRequestDone s = .next t
        ∧ ((∀ b ∈ p.todo, ∀ k, s.block b = some k → BlockStops k) → (t.pre die part).busy = false
          ∧ (t.pre die part).todo = []
          ∧ ∃ w, (t.queue die part 1).waiting = (s.queue die part 1).waiting ++ [(0,
            eventBytes p.ctx p.grid 0 w 0x43 p.op 0 0xFFFF)] ∧ w = (t.pre die part).blocks)
        ∧ ((∃ b ∈ p.todo, ∃ k, s.block b = some k ∧ BlockGoesOn b k) →
          (t.pre die part).busy = true ∧ (t.queue die part 1).waiting = (s.queue die part 1).waiting)
        ∧ (∀ b k, s.block b = some k → ∃ r, t.block b = some r
          ∧ (b ∉ p.todo ∨ k.st ≠ .resident ∨ BlockGoesOn b k → r = k)
          ∧ (b ∈ p.todo → k.st = .resident → BlockStops k → SavedOrFull t die part b k r))
        ∧ CountsSaved s t die part p.blocks p.nospace fun b k => b ∈ p.todo ∧ k.st = .resident)

/-! ## Steps of the device: packets -/

/-- The lane that a step names is running for a partition and holds the loaded packet `p`, waiting neither on a page nor at the
arbiter with a record of its own. -/
def Sys2Proof.Holds (s : State) (part : Nat) (l : Lane) (p : List Byte) : Prop :=
  s.lanePart s.laneArg = some part ∧ s.lane s.laneArg = l ∧ l.state = 1 ∧ l.pkt = some p ∧ l.wait = none
    ∧ s.held (laneTag s.laneArg) = false

/-- A lane whose packet has completed: rd has advanced, and a lane asked to stop has stopped (R349, R350). -/
def Sys2Proof.completed (l : Lane) : Lane :=
  { l with rd := l.rd + 1, pkt := none, wait := none, stage := 0, state := if l.stop then 0 else l.state, stop := false }

/-- The lane that a step names becomes `l'`; what `drop` leaves of the machine without its lanes is that of `u`. -/
def Sys2Proof.LaneBecomes (u t : State) (n : Nat) (l' : Lane) (drop : State → State) : Prop :=
  t.lane n = l' ∧ (∀ k, k ≠ n → t.lane k = u.lane k) ∧ drop { t with lanes := [] } = drop { u with lanes := [] }

/-- The lane is in the error state, and its record of kind 0x42 with the reason waits at the arbiter (R355, R356). -/
def Sys2Proof.LaneFails (u t : State) (n part : Nat) (l : Lane) (p : List Byte) (reason : Nat) : Prop :=
  t.lane n = { l with state := 2, pkt := none, wait := none, stop := false, stage := 0 }
    ∧ (t.queue (n / 64) part 1).waiting = (u.queue (n / 64) part 1).waiting ++ [(laneTag n,
        eventBytes n l.rd.toNat (BitVec.ofNat 64 (recNum p 0 8)) 0 0x42 reason 0 0xFFFF)]
    ∧ (∀ k, k ≠ n → t.lane k = u.lane k) ∧ { t with lanes := [], queues := [] } = { u with lanes := [], queues := [] }

/-- The machine without memory and the L2 lines that it holds, and without what passes between it and its peers. -/
def Sys2Proof.lessLines (s : State) : State := { s.lessMem with l2 := [], outbox := [], colls := [], free := 0 }

/-- The lane waits on the page of `ia` (R350). -/
def Sys2Proof.LaneWaits (t : State) (n : Nat) (l : Lane) (ia : Nat) : Prop := t.lane n = { l with wait := some ia }

/-- R345, R349, R351 to R354: a lane whose record waits at the arbiter waits with it. Each packet that a lane holds completes, and
advances the lane, with its own effect: NOPKT none; CMAINT, if windows cover its range, that no L2 slice holds a line of it any
more (invalidate) but a dirty one whose page has no place that its partition may reach (log entry 53, DESIGN CHOICE), and that a
dirty line of a page mapped elsewhere since stands there (clean); WAITV none, once its condition holds, until which it reads its word again; SIGNAL the word
that it writes or adds to, and an interrupt (where the word's page denies it, its record, and then the completion without the word once
the arbiter has taken that record); PRIO the priority of the queue and of its grids. A packet whose address no window
maps ends in an error record with reason 4; one whose page is not present waits on it. -/
def Sys2Proof.PacketResults : Prop :=
  ∀ (s : State) (part : Nat) (l : Lane) (p : List Byte), Holds s part l p → let n := s.laneArg
    let signalled (u t : State) : Prop := LaneBecomes u t n (completed l) (fun u => { u with msix := [] })
      ∧ t.msix = u.msix ++ (if (recNum p 1 1).testBit 0 = true then [(part + 1, recNum p 4 2)] else [])
    (pktType p = 0 → ∃ t, exec .nopkt s = .next t ∧ LaneBecomes s t n (completed l) id)
    ∧ (pktType p = 2 → ∃ t, exec .cmaint s = .next t
        ∧ (if s.inWindows part l.ctx 40 (recNum p 8 8) (recNum p 16 8) = true then
            LaneBecomes s t n (completed l) (if s.l2 = [] then id else lessLines)
            ∧ (Rises s.l2 → recNum p 1 1 ≠ 1 → ∀ rs, s.vaPieces part l.ctx (recNum p 8 8) (recNum p 16 8) = .ok rs →
              ∀ k x, s.l2.find k = some x → s.owns part (k / 2 ^ 40 % 16) = true → (∃ r ∈ rs, lineHit (128 * k) r = true) →
                x.key ≠ l2Base ∨ x.dirty = false → t.l2.find k = none)
            ∧ (Rises s.l2 → ∀ rs, s.vaPieces part l.ctx (recNum p 8 8) (recNum p 16 8) = .ok rs →
              let back (k a : Nat) : Prop := (∃ x, s.l2.find k = some x ∧ x.key = l2Base ∧ x.dirty = true)
                ∧ s.owns part (k / 2 ^ 40 % 16) = true ∧ (∃ r ∈ rs, lineHit (128 * k) r = true) ∧ s.l2Target (128 * k) = some a
              ((∀ k x, s.l2.find k = some x → x.key = l2Base → x.dirty = false) → ∀ y < l2Base, Memory.get t.mem y = Memory.get s.mem y)
              ∧ ∀ k a, back k a → a + 128 ≤ l2Base ∨ hostBase ≤ a ∧ a + 128 ≤ peerBase →
                (∀ k' x, s.l2.find k' = some x → 128 * k' + 128 ≤ 2 ^ 52 ∧ (k' ≠ k → x.key = l2Base → x.dirty = false)) →
                Memory.read t.mem a 128 = Memory.read s.mem (l2Base + 128 * k) 128
                ∧ ∀ y < l2Base, y < a ∨ a + 128 ≤ y → Memory.get t.mem y = Memory.get s.mem y)
          else LaneFails s t n part l p 4))
    ∧ (pktType p = 3 → ∀ i : Instr, i = .waitv ∨ (i = .waitvPoll ∧ l.stage = 1) → ∃ t, exec i s = .next t
        ∧ (recNum p 8 8 % 8 ≠ 0 → LaneFails s t n part l p 4)
        ∧ (recNum p 8 8 % 8 = 0 → let r := s.sysRead part l.ctx (recNum p 8 8) 8
          (∀ bs, r.1 = .ok bs →
            let a := Nat.land (leNat bs) (recNum p 24 8)
            let b := Nat.land (recNum p 16 8) (recNum p 24 8)
            LaneBecomes r.2 t n (if (match recNum p 1 1 with | 0 => a == b | 1 => a != b | 2 => b ≤ a | _ => a < b) = true then
              completed l else { l with stage := 1 }) id)
          ∧ (∀ k ia, r.1 = .wait k ia → LaneWaits t n l ia)
          ∧ (r.1 = .none ∨ (∃ k ia far, r.1 = .deny k ia far) → LaneFails r.2 t n part l p 4)))
    ∧ (pktType p = 3 → l.stage ≠ 1 → exec .waitvPoll s = .next s)
    ∧ (pktType p = 4 → ∃ t, exec .signal s = .next t
        ∧ (l.stage ≠ 2 → recNum p 8 8 % 8 ≠ 0 → LaneFails s t n part l p 4)
        ∧ (l.stage ≠ 2 → recNum p 8 8 % 8 = 0 →
          let r := s.sysWord part l.ctx (recNum p 8 8) (BitVec.ofNat 64 (recNum p 16 8)) ((recNum p 1 1).testBit 1)
          (∀ bs, r.1 = .ok bs → signalled r.2 t)
          ∧ (∀ k ia, r.1 = .wait k ia → LaneWaits t n l ia)
          ∧ (∀ k ia far, r.1 = .deny k ia far → t.lane n = { l with stage := 2 } ∧ (∀ m, m ≠ n → t.lane m = s.lane m) ∧ t.msix = s.msix
            ∧ t.mem = s.mem ∧ (t.queue (n / 64) part 0).waiting = (s.queue (n / 64) part 0).waiting ++
                [(laneTag n, faultBytes 0 ia 0 k (if far = true then 5 else 2) 0xFF 0 0)])
          ∧ (r.1 = .none → LaneFails r.2 t n part l p 4))
        ∧ (l.stage = 2 → signalled s t))
    ∧ (pktType p = 5 → let new := min (recNum p 4 1) l.ceil
        ∃ t, exec .prio s = .next t ∧ LaneBecomes s t n (completed { l with prio := new }) (fun u => { u with grids := [] })
        ∧ ∀ k g, s.grids.find k = some g → t.grids.find k = some
            (if (s.trees.find g.tree).map Tree.lane = some n then { g with prio := new } else g))

/-- R345: no packet of a lane goes on while the lane's own record waits at the arbiter. -/
def Sys2Proof.LanesHeld : Prop :=
  ∀ s : State, s.held (laneTag s.laneArg) = true →
    ∀ i ∈ [Instr.nopkt, .dispatch, .cmaint, .waitv, .waitvPoll, .signal, .prio], exec i s = .next s

/-- R350, R354, R442: an 8-byte word of HBM whose page lets it be written is written, or has the value added to it, modulo 2^64,
and no other byte changes but the page's dirty bit. -/
def Sys2Proof.WordsWritten : Prop :=
  ∀ (s : State) (part ctx va ia k stamp : Nat) (v : U64) (add : Bool) (u : State), s.padBars = [] →
    s.sysMap part ctx va 8 add true false = some ia → ia % 8 = 0 → s.target part (.ia ia) 8 add true = (.key k stamp none, u) →
    k + 8 ≤ peerBase → u.padBars = [] →
    let r := s.sysWord part ctx va v add
    r.1 = .ok [] ∧ (∀ a, ¬(k ≤ a ∧ a < k + 8) → Memory.get r.2.mem a = Memory.get u.mem a)
      ∧ (add = false → Memory.num r.2.mem k 8 = v.toNat)
      ∧ (add = true → Memory.num r.2.mem k 8 = (Memory.num u.mem k 8 + v.toNat) % 2 ^ 64)

/-- R350, R353, R355: a running lane without a packet whose write index differs from rd loads the packet of slot rd: one that
breaks a rule ends in an error record with its reason, and a NOPKT completes. -/
def Sys2Proof.PacketLoading : Prop :=
  ∀ (s : State) (part : Nat), s.lanePart s.laneArg = some part → let n := s.laneArg
    let l := s.lane n
    l.state = 1 → l.pkt = none → l.wait = none → s.held (laneTag n) = false → ∀ bs u, s.sysRead part l.ctx l.wrva.toNat 8 = (.ok bs, u) → u.lanes = s.lanes →
      (BitVec.ofNat 32 (leNat bs) = l.rd → exec .nopkt s = .next u)
      ∧ ∀ p u', BitVec.ofNat 32 (leNat bs) ≠ l.rd →
        u.sysRead part l.ctx (l.ring.toNat + 64 * (l.rd.toNat % 2 ^ l.k)) 64 = (.ok p, u') → u'.lanes = s.lanes →
        (∀ reason, pktBad p l.priv = some reason → ∃ t, exec .nopkt s = .next t ∧ LaneFails u' t n part { l with stage := 0 } p reason)
        ∧ (pktBad p l.priv = none → pktType p = 0 → ∃ t, exec .nopkt s = .next t ∧ LaneBecomes u' t n (completed l) id)

/-- The rules of R359 that a launch record meets before anything that it names is read, in the order of R362: the TRAPINFO of
each, and whether the record breaks it. An iteration space and its map count by the fewest atoms that the record leaves open: what
its own fields make too large, or its map too short for, no header mends (log entry 27, DEDUCED). That y and z stand at offsets 0x11C and 0x120 of TRAPINFO is log entry 27 (DEDUCED). -/
def Sys2Proof.recordRules (s : State) (part ctx : Nat) (r : List Byte) : List (Nat × Prop) :=
  let dim (off : Nat) : Prop := recNum r off 4 = 0 ∨ 2 ^ 21 < recNum r off 4
  let away (va n : Nat) (rd wr x : Bool) : Prop := s.sysMap part ctx va n rd wr x = none
  let along (k : Nat) : Nat :=
    let atom := if recNum r (0x50 + 2 * k) 2 = 0 then 65535 else recNum r (0x50 + 2 * k) 2
    (max 1 (recNum r (0x40 + 4 * k) 4) + atom - 1) / atom
  let atoms := along 0 * along 1 * along 2 * along 3
  [(0x180, r.length < 128),
   (0x100, recNum r 0 8 % 64 ≠ 0 ∨ away (recNum r 0 8) 64 true false true),
   (0x118, dim 0x18), (0x11C, dim 0x1C), (0x120, dim 0x20),
   (0x128, 4 ≤ recNum r 0x28 4),
   (0x130, recNum r 0x30 8 ≠ 0 ∧ (recNum r 0x30 8 % 8 ≠ 0 ∨ away (recNum r 0x30 8) 8 false true false)),
   (0x140, recNum r 0x28 4 / 2 % 2 = 1 ∧ 2 ^ 24 < atoms),
   (0x158, recNum r 0x28 4 / 2 % 2 = 1 ∧ (recNum r 0x58 8 % 64 ≠ 0 ∨ away (recNum r 0x58 8) ((atoms + 3) / 4) true true false
      ∨ ∀ w ia, s.mapVa part ctx (recNum r 0x58 8) = some (w, ia) → w.kind ≠ 1 ∧ w.kind ≠ 2)),
   (0x160, recNum r 0x60 8 ≠ 0 ∧ (recNum r 0x60 8 % 64 ≠ 0 ∨ away (recNum r 0x60 8) 64 true false false)),
   (0x168, recNum r 0x60 8 = 0 ∧ recNum r 0x68 24 ≠ 0)]

/-- R352, R355, R357, R361, R362: a DISPATCH whose completion word may be written creates a tree and its seed grid, with the
launch record that it names; a record that cannot be read or breaks a rule fails the grid with error 2 and the first rule that
it breaks as TRAPINFO; one without a placement mask that breaks none does not fail it. The TRAPINFO values of y and z are read
from R362 (log entry 27, DEDUCED). -/
def Sys2Proof.DispatchResults : Prop :=
  ∀ (s : State) (part : Nat) (l : Lane) (p : List Byte), Holds s part l p → pktType p = 1 → let n := s.laneArg
    let word := recNum p 16 8
    let va := recNum p 8 8
    let made (t : State) (rec : List Byte) : Prop := t.lane n = completed l ∧ ∃ tr gh x g, t.trees.find tr = some x
      ∧ s.trees.find tr = none ∧ t.grids.find gh = some g ∧ s.grids.find gh = none
      ∧ x.part = part ∧ x.die = n / 64 ∧ x.lane = n ∧ x.seed = gh ∧ x.counter = 0 ∧ x.word = word
      ∧ x.value = BitVec.ofNat 64 (recNum p 24 8) ∧ x.flags = BitVec.ofNat 8 (recNum p 1 1)
      ∧ x.vec = BitVec.ofNat 16 (recNum p 4 2)
      ∧ g.tree = tr ∧ g.depth = 0 ∧ g.part = part ∧ g.ctx = l.ctx ∧ g.prio = l.prio ∧ g.privOk = l.priv ∧ g.record = rec
      ∧ g.started = false ∧ g.next = 0 ∧ (rec.length < 128 → g.failed = some (2, 0, 0x180, 0xFFFF))
      ∧ (∀ (k : Nat) (e : Nat × Prop), (recordRules s part l.ctx rec)[k]? = some e → e.2 →
          (∀ j < k, ∀ x : Nat × Prop, (recordRules s part l.ctx rec)[j]? = some x → ¬x.2) →
          g.failed = some (2, 0, BitVec.ofNat 64 e.1, 0xFFFF))
      ∧ ((∀ e ∈ recordRules s part l.ctx rec, ¬e.2) → recNum rec 0x60 8 = 0 → g.failed = none ∧ g.mask = some 0)
    ∃ t, exec .dispatch s = .next t
      ∧ (word ≠ 0 → word % 8 ≠ 0 ∨ s.sysMap part l.ctx word 8 false true false = none → LaneFails s t n part l p 4)
      ∧ ((word = 0 ∨ word % 8 = 0 ∧ (s.sysMap part l.ctx word 8 false true false).isSome = true) →
        s.trees.length < 2 ^ 31 → s.grids.length < 2 ^ 31 →
          (va % 64 ≠ 0 → made t [])
          ∧ (va % 64 = 0 → let r := s.sysRead part l.ctx va 128
            (∀ bs, r.1 = .ok bs → made t bs) ∧ (∀ k ia, r.1 = .wait k ia → LaneWaits t n l ia)
              ∧ (r.1 = .none ∨ (∃ k ia far, r.1 = .deny k ia far) → made t [])))

/-- R349: a stop of a running lane abandons a loaded WAITV and lets any other loaded packet complete first; a start of a lane
that is not running begins without a packet. -/
def Sys2Proof.LaneControl : Prop :=
  ∀ s : State, let n := s.laneArg
    let l := s.lane n
    (∃ t, exec .cqctlRun s = .next t ∧ LaneBecomes s t n
        (if l.state = 1 then l else { l with state := 1, pkt := none, wait := none, stage := 0 }) id)
    ∧ ∃ t, exec .cqctlStop s = .next t ∧ LaneBecomes s t n
        (if l.state ≠ 1 then { l with state := 0 }
        else match l.pkt with
          | none => { l with state := 0, wait := none }
          | some p => if pktType p = 3 then { l with state := 0, pkt := none, wait := none, stage := 0 }
            else { l with stop := true }) id

/-- The packets of the command processors, and the control of their lanes. -/
def Obligations.PacketSteps : Prop := PacketResults ∧ LanesHeld ∧ PacketLoading ∧ WordsWritten ∧ LaneControl

/-! ## Steps of the device: blocks and completion -/

/-- R49, R50, R51, R294, R365, R366: if the first block that waits is one that has never been placed, its grid's checks have all
passed, and cores have room for it, it is placed at once and whole: its groups stand at the entry point on those cores, with
zero registers, type F32 and the live masks of its grid. -/
def Sys2Proof.PlacementResults : Prop :=
  ∀ (s : State) (c : Cand) (rest : List Cand) (g : Grid) (h : Header) (cores : List Nat),
    s.waitingBlocks = c :: rest → c.resume = none → s.grids.find c.gh = some g → g.started = true → g.hdr = some h →
    s.chooseCores g c.gh h h.share (s.earlyOk g h h.share) = some cores → s.blocks.find s.nextId = none →
    ∃ t k, exec .blockPlacement s = .next t ∧ t.block s.nextId = some k
      ∧ (∀ b, b ≠ s.nextId → t.block b = s.block b)
      ∧ k.grid = c.gh ∧ k.part = g.part ∧ k.ctx = g.ctx ∧ k.cores = cores ∧ k.st = .resident ∧ k.idx = g.coords (s.nextIndex c.gh g)
      ∧ k.shared = [] ∧ k.gen = 0 ∧ k.bars = [] ∧ k.abaci = []
      ∧ (∀ i < h.groups, ∃ x, k.groups.find i = some x ∧ x.core = cores.getD (h.memberOf i) 0
          ∧ x.pc = BitVec.ofNat 64 (recNum g.record 0 8 + h.entry) ∧ x.park = .run ∧ x.stack = []
          ∧ x.live = BitVec.ofNat 32 (2 ^ min 32 (recNum g.record 0x24 4 - 32 * i) - 1)
          ∧ x.mode = 0x11 ||| (if h.flags.getLsbD 2 = true then 0x100 else 0)
          ∧ (∀ r l, l < 32 → x.lane r l = match r with
              | .p n => if n = 0 ∨ n = 15 then x.live.setWidth 64 else 0
              | _ => 0))
      ∧ (∀ i, h.groups ≤ i → k.groups.find i = none)
      ∧ ∃ g', t.grids.find c.gh = some g' ∧ g'.next = (if g.next < g.total then g.next + 1 else g.next)
        ∧ g'.passed = allOnes ∧ g'.reserving = false

/-- R366: a grid that waits with a block and has been passed over without a break for 2^20 cycles becomes reserving, and no grid
before that; a placement step ends the run of every grid that has no block waiting. That a grid which others of its partition hold
back does not become reserving is log entry 28 (DEDUCED), and no rule of R366. -/
def Sys2Proof.ReservingResults : Prop :=
  ∀ (s : State) (g : Grid), s.grids.find (s.arg 0) = some g →
    let waits : Prop := ∃ c ∈ s.waitingBlocks, c.gh = s.arg 0
    (g.passed = allOnes ∨ s.cycle.toNat < g.passed.toNat + 2 ^ 20 ∨ s.heldBack (s.arg 0) g = true ∨ ¬waits →
      exec .gridReserving s = .next s)
    ∧ (g.passed ≠ allOnes → g.passed.toNat + 2 ^ 20 ≤ s.cycle.toNat → s.heldBack (s.arg 0) g = false → waits →
      ∃ t, exec .gridReserving s = .next t
      ∧ t.grids.find (s.arg 0) = some { g with reserving := true }
      ∧ (∀ n, n ≠ s.arg 0 → t.grids.find n = s.grids.find n) ∧ { t with grids := [] } = { s with grids := [] })
    ∧ ∃ t, exec .blockPlacement s = .next t ∧ (¬waits → ∀ r, t.grids.find (s.arg 0) = some r → r.passed = allOnes)

/-- R362, R365, R366, R386: the blocks that wait for placement are the saved ones that resume, and one for each grid that has a block
to place: one that has never been placed, or a fresh one of a dispenser grid that has free atoms and fewer live blocks than its
launch asked for. They stand by priority, those that resume before others, by the acceptance of their grids, and within a grid by
BLOCKIDX, x varying fastest. -/
def Sys2Proof.WaitingOrder : Prop :=
  ∀ s : State,
    (∀ c, c ∈ s.waitingBlocks ↔
      (∃ b k g, (b, k) ∈ s.blocks ∧ k.st = .resuming ∧ s.grids.find k.grid = some g
        ∧ c = ⟨g.prio, some b, g.accepted, k.grid, k.idx⟩)
      ∨ ∃ n g, (n, g) ∈ s.grids ∧ g.failed = none ∧ 0 < g.total
        ∧ (g.next < g.total ∨ ∃ d, g.disp = some d ∧ 0 < d.counts.2.1 ∧ (s.blocks.filter fun x => x.2.grid == n).length < g.total)
        ∧ c = ⟨g.prio, none, g.accepted, n, (0, 0, 0)⟩)
    ∧ s.waitingBlocks.Pairwise fun a b => b.prio < a.prio ∨ (a.prio = b.prio ∧
        ((a.resume ≠ none ∧ b.resume = none) ∨ ((a.resume = none ↔ b.resume = none) ∧
          (a.order < b.order ∨ (a.order = b.order ∧
            (a.idx.2.2 < b.idx.2.2 ∨ (a.idx.2.2 = b.idx.2.2 ∧
              (a.idx.2.1 < b.idx.2.1 ∨ (a.idx.2.1 = b.idx.2.1 ∧ a.idx.1 ≤ b.idx.1)))))))))

/-- R293, R364, R365, R368, R370: a core is eligible for a grid that is its partition's, not closed, in the grid's placement, not
suspended, and has a valid almanac and no fault, and carries for no communicator but the grid's own. A block of one core goes to the
eligible core with room for it that has the fewest resident groups, the lowest of those; a block of more cores goes to the cluster
with the fewest resident groups that has cores with room for its members' shares, the lowest of those, and to the lowest such
cores there. `fits` tells what early launch asks of them. -/
def Sys2Proof.CoreChoice : Prop :=
  ∀ (s : State) (g : Grid) (gh : Nat) (h : Header) (share : Nat → Nat) (fits : List Nat → Bool),
    let eligible (c : Nat) : Prop := c < 512 ∧ s.owns g.part (c / 32) = true ∧ (s.part g.part).pclose.getLsbD (c / 32) = false
      ∧ (match g.disp, g.mask with
          | some d, _ => d.place.getLsbD c = true
          | none, some m => m = 0 ∨ m.getLsbD c = true
          | none, none => True)
      ∧ (s.core c).almValid = true ∧ (s.core c).faulted = false ∧ (s.core c).carry = g.carry ∧ s.suspended (c / 128) g gh = false
    let room (c n : Nat) : Prop := let u := s.usage c
      u.groups + n ≤ 32 ∧ u.blocks + 1 ≤ 16 ∧ u.granules + n * (h.allot / 8) ≤ 256
        ∧ u.kib + (h.portion + n * h.stackKib) + 4 * (s.core c).dvsize ≤ 512 ∧ u.tiles + h.tiles ≤ 16
    let one (c : Nat) : Prop := eligible c ∧ room c (share 0) ∧ fits [c] = true
    let able (k : Nat) (cs : List Nat) : Prop := cs.length = h.cores ∧ cs.Pairwise (· < ·)
      ∧ (∀ c ∈ cs, eligible c ∧ c / 8 = k) ∧ ∀ i < h.cores, room (cs.getD i 0) (share i)
    let best (k : Nat) (cs : List Nat) : Prop := able k cs ∧ (∀ ds, able k ds → ∀ i < h.cores, cs.getD i 0 ≤ ds.getD i 0)
      ∧ fits cs = true
    (h.cores = 1 → ∀ cs, s.chooseCores g gh h share fits = some cs ↔ ∃ c, cs = [c] ∧ one c ∧ ∀ d, one d →
        (s.usage c).groups < (s.usage d).groups ∨ ((s.usage c).groups = (s.usage d).groups ∧ c ≤ d))
    ∧ (2 ≤ h.cores → ∀ cs, s.chooseCores g gh h share fits = some cs ↔ ∃ k, k < 64 ∧ best k cs ∧ ∀ j < 64, ∀ ds, best j ds →
        s.clusterGroups k < s.clusterGroups j ∨ (s.clusterGroups k = s.clusterGroups j ∧ k ≤ j))

/-- The placement of blocks, their order and their cores, and the reserving of a grid (a held-back grid by log entry 28). -/
def Obligations.PlacementSteps : Prop := PlacementResults ∧ WaitingOrder ∧ CoreChoice ∧ ReservingResults

/-- R302, R345, R356, R358, R360, R362, R442: a grid of which nothing is left completes when its completion word, if it has one,
is written or lost with a record; its tree's counter falls unless it is the seed grid, and it holds no pinned line any more. A tree
whose seed grid has completed and whose counter is 0 completes in the same way, with the event record and the interrupt that its
flags ask for. A completion whose word waits on a page sends a record and waits, and goes no further while that record waits. The
source, core and slot of a far denial's record are read from R346 (log entry 19, DEDUCED). -/
def Sys2Proof.CompletionResults : Prop :=
  ∀ s : State, let n := s.arg 0 / 2
    (s.arg 0 % 2 = 0 → ∀ g, s.grids.find n = some g →
      (s.gridOver n g = false → exec .completionWrite s = .next s)
      ∧ (s.comps.find (2 * n) ≠ none ∨ s.held (compTag (2 * n)) = true → exec .completionWrite s = .next s)
      ∧ (s.gridOver n g = true → s.comps.find (2 * n) = none → s.held (compTag (2 * n)) = false → let va := s.completionVa g
        let r := s.sysWord g.part g.ctx va (BitVec.ofNat 64 (recNum g.record 0x38 8)) false
        ∃ t, exec .completionWrite s = .next t
          ∧ ((∀ k ia, va ≠ 0 → r.1 ≠ .wait k ia) → t.grids.find n = none
            ∧ (g.seed = false → ∀ x, s.trees.find g.tree = some x →
                t.trees.find g.tree = some { x with counter := x.counter - 1 })
            ∧ (g.seed = true → t.trees = s.trees)
            ∧ (∀ x ∈ t.pinned, n ∉ x.grids ∧ x.grids ≠ [])
            ∧ (va = 0 → t.mem = s.mem) ∧ (∀ bs, va ≠ 0 → r.1 = .ok bs → t.mem = r.2.mem)
            ∧ (t.queue g.die g.part 0).waiting = (s.queue g.die g.part 0).waiting ++ (match r.1 with
                | .deny k ia far => if va = 0 then [] else [(0, faultBytes 0 ia 0 k (if far = true then 5 else 2) 0xFF 0 0)]
                | _ => []))
          ∧ ∀ k ia, va ≠ 0 → r.1 = .wait k ia → t.grids = s.grids ∧ t.trees = s.trees ∧ t.comps.find (2 * n) = some ia
            ∧ (t.queue g.die g.part 0).waiting = (s.queue g.die g.part 0).waiting ++
                [(compTag (2 * n), faultBytes 0 ia 0 k 2 0xFF 0 0)]))
    ∧ (s.arg 0 % 2 = 1 → ∀ x, s.trees.find n = some x →
      (x.counter ≠ 0 ∨ (s.grids.find x.seed).isSome = true → exec .completionWrite s = .next s)
      ∧ (s.comps.find (2 * n + 1) ≠ none ∨ s.held (compTag (2 * n + 1)) = true → exec .completionWrite s = .next s)
      ∧ (x.counter = 0 → s.grids.find x.seed = none → s.comps.find (2 * n + 1) = none →
        s.held (compTag (2 * n + 1)) = false → let r := s.sysWord x.part x.ctx x.word x.value false
        ∃ t, exec .completionWrite s = .next t
        ∧ (∀ k ia, x.word ≠ 0 → r.1 = .wait k ia → t.trees = s.trees ∧ t.comps.find (2 * n + 1) = some ia
          ∧ t.msix = s.msix ∧ (t.queue x.die x.part 0).waiting = (s.queue x.die x.part 0).waiting ++
              [(compTag (2 * n + 1), faultBytes 0 ia 0 k 2 0xFF 0 0)])
        ∧ ((∀ k ia, x.word ≠ 0 → r.1 ≠ .wait k ia) → t.trees.find n = none ∧ (∀ k, k ≠ n → t.trees.find k = s.trees.find k)
          ∧ t.msix = s.msix ++ (if x.flags.getLsbD 1 = true then [(x.part + 1, x.vec.toNat)] else [])
          ∧ (t.queue x.die x.part 1).waiting = (s.queue x.die x.part 1).waiting
              ++ (if x.flags.getLsbD 0 = true then [(0, match x.failed with
                  | some (gh, err, cause, info, core) =>
                    eventBytes n gh info 0 0x41 err (if err = 1 then cause.toNat else 0) core
                  | none => eventBytes n 0 0 0 0x40 0 0 0xFFFF)] else [])
          ∧ (x.word = 0 → t.mem = s.mem) ∧ (∀ bs, x.word ≠ 0 → r.1 = .ok bs → t.mem = r.2.mem)
          ∧ (t.queue x.die x.part 0).waiting = (s.queue x.die x.part 0).waiting ++ (match r.1 with
              | .deny k ia far => if x.word = 0 then [] else [(0, faultBytes 0 ia 0 k (if far = true then 5 else 2) 0xFF 0 0)]
              | _ => []))))

/-- The launch of a tree, and the completion of grids and trees. -/
def Obligations.LaunchAndCompletion : Prop := DispatchResults ∧ CompletionResults

/-! ## Steps of the device: partitions, the host, the package -/

/-- A scrub is done (R400, R406): every byte of the quadrant is zero, nothing in it is poisoned, its L2 slice holds no line, the
almanacs of its cores are gone, and function 0 has raised a vector. -/
def Sys2Proof.Scrubbed (s t : State) (q : Nat) : Prop :=
  (∀ n, n ≠ q → t.quad n = s.quad n)
  ∧ (∀ a, Memory.get t.mem a = if inQuad q a = true then 0 else Memory.get s.mem a)
  ∧ (∀ g ∈ t.memBad, inQuad q g = false) ∧ (∀ n l, t.l2.find n = some l → n / 2 ^ 40 ≠ q)
  ∧ (∀ c, c / 32 = q → (t.core c).almImage = [] ∧ (t.core c).almValid = false ∧ (t.core c).almLock = false
      ∧ (t.core c).almMis = false)
  ∧ ∃ v, t.msix = s.msix ++ [(0, v)]

/-- What is in flight no longer reaches some quadrants (R330, R400): a barrier object of theirs that an operation will arrive on,
or that a group waits for, is replaced by an address that names no byte; no group has an access left to perform. -/
def Sys2Proof.CutOff (s t : State) (gone : Nat → Prop) : Prop :=
  let moved (l r : BarLoc) : Prop := match l with
    | .pad a => (gone (a / 2 ^ 24 % 16) → a.testBit 50 = false → r = .pad (a + 2 ^ 50))
        ∧ (¬gone (a / 2 ^ 24 % 16) ∨ a.testBit 50 = true → r = l)
    | .shared _ _ => r = l
  (∀ b n z, t.group b n = some z → z.posted = [])
  ∧ (Settled s → t.mem = s.mem
    ∧ (∀ n o, s.ops.find n = some o → ∃ r, t.ops.find n = some r ∧ (o.barrier = none → r.barrier = none)
        ∧ ∀ l, o.barrier = some l → ∃ m, r.barrier = some m ∧ moved l m)
    ∧ ∀ b n y, s.group b n = some y → ∃ z, t.group b n = some z ∧ { z with park := y.park, deferred := y.deferred } = y
        ∧ ((∀ sd l p r, y.park ≠ .barwait sd l p r) → z.park = y.park)
        ∧ ∀ sd l p r, y.park = .barwait sd l p r → ∃ m, z.park = .barwait sd m p r ∧ moved l m)

/-- R400 to R402, R406, R437: a write of PQUADS moves free quadrants into the partition and idle ones (without resident block, running
lane and busy MTU) out of it, where they wait for a scrub, or is refused as a whole, as it is under a checkpoint; what is in flight
reaches the removed ones no more (log entry 48, DEDUCED). A scrub zeroes every byte of its quadrant and frees it; a reset of a
partition ends its work and stops its lanes until it is done, and with scrub that is not before a scrub has zeroed each of its
quadrants, which stays assigned. The reset ends a mailbox command with status 4
and its vector, with the bytes that it has written as its length, sets error in a checkpoint of its quadrants, and fails with
reason 1 what runs in other partitions of the module with a member in it; its windows, event queues and pre-emption registers
return to Reset. That the partition's communicators end with it is read from R401 (log entry 37, DEDUCED). -/
def Sys2Proof.PartitionSteps : Prop :=
  ∀ s : State, let p := s.arg 0
    let x := s.part p
    let new : BitVec 16 := BitVec.ofNat 16 (s.arg 1)
    let idle (q : Nat) : Prop := (∀ k ∈ s.blocks, k.2.st = .resident → ∀ c ∈ k.2.cores, c / 32 ≠ q)
      ∧ (∀ n, n / 16 = q → (s.lane n).state ≠ 1) ∧ (s.quad q).busy = false
    let covered : Prop := s.ckpt.busy = true ∧ ∃ q < 16, s.ckpt.covers.getLsbD q = true ∧ x.pquads.getLsbD q = true
    let may : Prop := (∀ q < 16, new.getLsbD q = true → x.pquads.getLsbD q = false → (s.quad q).state = 0)
      ∧ (∀ q < 16, x.pquads.getLsbD q = true → new.getLsbD q = false → idle q)
      ∧ x.state ≠ 2 ∧ ¬covered
    (p < 16 → new = x.pquads → ∃ t, exec .pquads s = .next t ∧ t.part p = { x with refused := decide (x.state = 2) }
      ∧ { t with parts := [] } = { s with parts := [] })
    ∧ (p < 16 → new ≠ x.pquads → ¬may → ∃ t, exec .pquads s = .next t ∧ t.part p = { x with refused := true }
      ∧ { t with parts := [] } = { s with parts := [] })
    ∧ (p < 16 → new ≠ x.pquads → may → ∃ t, exec .pquads s = .next t
      ∧ t.part p = { x with pquads := new, pclose := x.pclose &&& new, refused := false, state := if new = 0 then 0 else 1 }
      ∧ (∀ q < 16, t.quad q = if new.getLsbD q = true ∧ x.pquads.getLsbD q = false then
            { Quad.reset with state := 2, part := p }
          else if x.pquads.getLsbD q = true ∧ new.getLsbD q = false then { s.quad q with state := 1, inv := [], cached := [] }
          else s.quad q)
      ∧ (∀ q < 16, new.getLsbD q = true → x.pquads.getLsbD q = false → ∀ n, n / 16 = q → t.lane n = Lane.reset)
      ∧ (∀ n, x.pquads.getLsbD (n / 16) = true → t.lane n = s.lane n)
      ∧ (new &&& x.pquads = x.pquads → t.mem = s.mem ∧ t.blocks = s.blocks ∧ t.ops = s.ops)
      ∧ (new &&& x.pquads ≠ x.pquads → CutOff s t fun q => x.pquads.getLsbD q = true ∧ new.getLsbD q = false))
    ∧ (p < 16 → ∃ t, exec .quadrantScrub s = .next t
      ∧ t.quad p = (if (s.quad p).state = 1 then { s.quad p with state := 3 } else s.quad p)
      ∧ (∀ q, q ≠ p → t.quad q = s.quad q) ∧ { t with quads := [] } = { s with quads := [] })
    ∧ (p < 16 → (s.quad p).state = 3 → ∃ t, exec .scrubDone s = .next t
      ∧ t.quad p = { s.quad p with state := 0, part := 0 } ∧ t.parts = s.parts ∧ Scrubbed s t p)
    ∧ (p < 16 → (s.quad p).state = 2 → let y := s.part (s.quad p).part
      (p ∉ y.resetWait → exec .scrubDone s = .next s)
      ∧ (p ∈ y.resetWait → ∃ t, exec .scrubDone s = .next t ∧ t.quad p = s.quad p ∧ Scrubbed s t p
        ∧ t.part (s.quad p).part = { y with resetWait := y.resetWait.erase p }
        ∧ ∀ n, n ≠ (s.quad p).part → t.part n = s.part n))
    ∧ (∀ scrub : Bool, let i : Instr := if scrub then .partitionResetScrub else .partitionReset
      (p < 16 → x.state = 2 → ∃ t, exec i s = .next t ∧ t.part p = { x with refused := true })
      ∧ (p < 16 → x.state ≠ 2 → ∃ t, exec i s = .next t
        ∧ (t.part p).state = 2 ∧ (t.part p).pquads = x.pquads ∧ (t.part p).refused = false
        ∧ (∀ q, q ∈ (t.part p).resetWait ↔ scrub = true ∧ q < 16 ∧ x.pquads.getLsbD q = true)
        ∧ (∀ b k, t.block b = some k → k.part ≠ p) ∧ (∀ n g, t.grids.find n = some g → g.part ≠ p)
        ∧ (∀ n g, t.trees.find n = some g → g.part ≠ p) ∧ (∀ n c, t.comms.find n = some c → c.part ≠ p)
        ∧ (∀ n l, t.chans.find n = some l → l.part ≠ p) ∧ (∀ x ∈ t.pinned, x.part ≠ p)
        ∧ (∀ q < 16, s.owns p q = true → t.quad q = { Quad.reset with state := (s.quad q).state, part := (s.quad q).part })
        ∧ (∀ c < 512, s.owns p (c / 32) = true → (t.core c).almValid = false ∧ (t.core c).almLock = false
          ∧ (t.core c).faulted = false ∧ (t.core c).icache = [])
        ∧ (∀ ctx < 2 ^ 32, ∀ w < 16, t.window p ctx w = ⟨0, 0, 0, 0⟩)
        ∧ (∀ d, ∀ n < 2, t.queue d p n = ⟨0, 7, 0, 0, false, 0, []⟩)
        ∧ (∀ d, t.pre d p = ⟨0, 0, 0, false, 0, 0, 0, 0, false, false, [], 0, 0⟩)
        ∧ ((s.box (p + 1)).busy = true → (t.box (p + 1)).busy = false ∧ (t.box (p + 1)).status = 4
          ∧ (∀ st off l, (s.box (p + 1)).out = some (st, off, l) → (t.box (p + 1)).len = BitVec.ofNat 32 off)
          ∧ ((s.box (p + 1)).out = none → (s.box (p + 1)).result = none → (t.box (p + 1)).len = 0)
          ∧ ∃ v, (0, v) ∈ t.msix)
        ∧ (covered → t.ckpt.error = true ∧ ∀ y ∈ t.ckpt.pend, x.pquads.getLsbD y.1 = false)
        ∧ (Rises s.comms → Rises s.colls → ∀ key c, s.comms.find key = some c → c.part ≠ p → s.running key = true →
            s.memberIn c p = true →
            (t.comms.find key).map Comm.state = some (if c.state = 2 then 3 else c.state)
            ∧ ∀ n k, s.colls.find n = some k → k.comm = key → k.part ≠ p → k.started = true → k.failed = none →
                (t.colls.find n).map Collective.failed = some (some 1))
        ∧ ∀ n, n < 256 → s.owns p (n / 16) = true → (t.lane n).state = 0 ∧ (t.lane n).pkt = none ∧ (t.lane n).rd = 0))
    ∧ (x.state = 2 → x.resetWait = [] → ∃ t, exec .partitionResetDone s = .next t
      ∧ t.part p = { x with state := if x.pquads = 0 then 0 else 1 } ∧ { t with parts := [] } = { s with parts := [] })
    ∧ (x.state ≠ 2 ∨ x.resetWait ≠ [] → exec .partitionResetDone s = .next s)

/-- R13: module reset returns every register of the module to its value at reset, and every byte of its memory to zero, which is
the model's choice (log entry 10, DESIGN CHOICE); host memory and what has left the module stand. -/
def Sys2Proof.ModuleResets : Prop :=
  ∀ s : State, ∃ t, exec .moduleReset s = .next t
    ∧ (∀ a, Memory.get t.mem a = if hostBase ≤ a then Memory.get s.mem a else 0)
    ∧ t.outbox = s.outbox ∧ t.msix = s.msix
    ∧ { t with mem := [], memBad := [], msix := [], outbox := [], free := 0, nextId := 1, rot := 0, cur := none, mark := false,
               args := [], schedule := [] } = State.reset

/-- Partitions, scrubs and resets. -/
def Obligations.PartitionAndResetSteps : Prop := PartitionSteps ∧ ModuleResets

/-- A write of the configuration space has the effect of the step `i` with these arguments. -/
def Sys2Proof.ConfigActs (s : State) (i : Instr) (args : List Nat) : Prop :=
  ∃ t u, exec .configRegisterWrite s = .next t ∧ exec i { s with args := args } = .next u ∧ t = { u with args := s.args }

/-- R404: function 0 reaches the registers of every quadrant, function p + 1 those of the quadrants of partition p. -/
def Sys2Proof.Reaches (s : State) (fn q : Nat) : Prop := fn = 0 ∨ (1 ≤ fn ∧ fn ≤ 16 ∧ s.owns (fn - 1) q = true)

/-- R404: the same for the dies. -/
def Sys2Proof.ReachesDie (s : State) (fn d : Nat) : Prop :=
  fn = 0 ∨ (1 ≤ fn ∧ fn ≤ 16 ∧ ∃ q < 4, s.owns (fn - 1) (4 * d + q) = true)

/-- R404: the writable registers of the package's own blocks: PQUADS, PCTL, QSTATE, the decoders, the mailboxes, the checkpoint
registers, and ROUTE. -/
def Sys2Proof.ConfigPackage : Prop :=
  ∀ s : State, let fn := s.arg 0
    let off := s.arg 1
    let w : U64 := BitVec.ofNat 64 (s.arg 2)
    (fn = 0 → ∀ p < 16,
      (off = 0x10000 + 0x40 * p → ConfigActs s .pquads [p, s.arg 2])
      ∧ (off = 0x10010 + 0x40 * p →
        (w.getLsbD 0 = true → ConfigActs s (if w.getLsbD 1 then .partitionResetScrub else .partitionReset) [p])
        ∧ (w.getLsbD 0 = false → ∃ t, exec .configRegisterWrite s = .next t
          ∧ t.part p = { s.part p with refused := decide ((s.part p).state = 2) } ∧ { t with parts := [] } = { s with parts := [] }))
      ∧ (off = 0x100 + 8 * p →
        if w.getLsbD 0 then ConfigActs s .quadrantScrub [p] else exec .configRegisterWrite s = .next s)
      ∧ (∀ i < 4, ∀ j < 3, off = 0x40000 + 0x100 * p + 0x20 * i + 8 * j → ∃ t, exec .configRegisterWrite s = .next t
        ∧ (let d := (s.part p).decoder i
          (t.part p).decoder i = (if j = 0 then w &&& 0xFFFFFFFFF0000000 else d.1,
            if j = 1 then w &&& 0xFFFFFFFFF0000000 else d.2.1, if j = 2 then w &&& 0x000FFFFFF0000000 else d.2.2))
        ∧ (∀ k, k ≠ i → (t.part p).decoder k = (s.part p).decoder k)
        ∧ { t.part p with decoders := [] } = { s.part p with decoders := [] }
        ∧ (∀ q, q ≠ p → t.part q = s.part q) ∧ { t with parts := [] } = { s with parts := [] })
      ∧ ∀ i < 256, off = 0x51000 + 0x800 * p + 8 * i → ∃ t, exec .configRegisterWrite s = .next t
        ∧ (∀ k, (t.part p).routes.get k = if k = i then w else (s.part p).routes.get k)
        ∧ { t.part p with routes := [] } = { s.part p with routes := [] }
        ∧ (∀ q, q ≠ p → t.part q = s.part q) ∧ { t with parts := [] } = { s with parts := [] })
    ∧ (fn = 0 →
      (off = 0x20000 → exec .configRegisterWrite s = .next { s with ckpt := { s.ckpt with dst := w } })
      ∧ (off = 0x20008 → exec .configRegisterWrite s = .next { s with ckpt := { s.ckpt with quads := w.setWidth 16 } })
      ∧ (off = 0x20010 → exec .configRegisterWrite s = .next { s with ckpt := { s.ckpt with links := w.setWidth 24 } })
      ∧ (off = 0x20018 → (w.toNat % 4 = 1 → ConfigActs s .checkpointFull []) ∧ (w.toNat % 4 = 2 → ConfigActs s .checkpointDirty [])
        ∧ (w.toNat % 4 = 0 ∨ w.toNat % 4 = 3 → exec .configRegisterWrite s = .next s)))
    ∧ (fn ≤ 16 →
      (∀ j < 2, off = 0x30000 + 8 * j → ∃ t, exec .configRegisterWrite s = .next t
        ∧ t.box fn = (if j = 0 then { s.box fn with arg0 := w } else { s.box fn with arg1 := w })
        ∧ (∀ f, f ≠ fn → t.box f = s.box f) ∧ { t with mailbox := [] } = { s with mailbox := [] })
      ∧ (off = 0x30010 → (w.toNat % 256 = 1 → ConfigActs s .mailboxReport [fn])
        ∧ (w.toNat % 256 = 2 → ConfigActs s .mailboxTranslate [fn])
        ∧ (w.toNat % 256 ≠ 1 → w.toNat % 256 ≠ 2 → exec .configRegisterWrite s = .next s)))

/-- R404: the registers of a quadrant: its MTU, its lanes (R349: ring, write index, rd, context, size and rights stand while the
lane runs), and DVSIZE, PADATTR and the almanac of its cores. -/
def Sys2Proof.ConfigQuadrant : Prop :=
  ∀ s : State, let off := s.arg 1
    let w : U64 := BitVec.ofNat 64 (s.arg 2)
    ∀ q < 16, Reaches s (s.arg 0) q → let b := 0x1000000 + 0x100000 * q
      (∀ j < 4, off = b + 8 * j → exec .configRegisterWrite s = .next (s.mtuWrite q j w))
      ∧ (∀ n < 16, let l := s.lane (16 * q + n)
        let idle (l' : Lane) : Lane := if l.state = 1 then l else l'
        let base := { (idle { l with
            ctx := w.toNat / 2 ^ 32, priv := w.getLsbD 9,
            k := if w.toNat / 2 ^ 16 % 16 = 0 then 16 else max (w.toNat / 2 ^ 16 % 16) 4 }) with
          ceil := w.toNat / 2 ^ 12 % 4, prio := w.toNat / 2 ^ 10 % 4 }
        let becomes (l' : Lane) : Prop := ∃ t, exec .configRegisterWrite s = .next t ∧ t.lane (16 * q + n) = l'
          ∧ (∀ k, k ≠ 16 * q + n → t.lane k = s.lane k)
          ∧ { t with lanes := [], grids := [] } = { s with lanes := [], grids := [] }
          ∧ ∀ k, (t.grids.find k) = (s.grids.find k).map fun g =>
              if off = b + 0x1018 + 0x20 * n ∧ (s.trees.find g.tree).map Tree.lane = some (16 * q + n) then
                { g with prio := l'.prio } else g
        (off = b + 0x1000 + 0x20 * n → becomes (idle { l with ring := w &&& 0x01FFFFFFFFFFFFC0 }))
        ∧ (off = b + 0x1008 + 0x20 * n → becomes (idle { l with wrva := w &&& 0x01FFFFFFFFFFFFF8 }))
        ∧ (off = b + 0x1010 + 0x20 * n → becomes (idle { l with rd := w.setWidth 32 }))
        ∧ (off = b + 0x1018 + 0x20 * n →
          becomes (if w.toNat % 4 = 0 then base.halt else if w.toNat % 4 = 1 then base.run else base)))
      ∧ ∀ c < 32, (off = b + 0x2000 + 0x10 * c → exec .configRegisterWrite s = .next (s.setDvsize (32 * q + c) w))
        ∧ (off = b + 0x2008 + 0x10 * c → ∃ p : BitVec 48, (∀ k, p.getLsbD k = (decide (k < 48 ∧ k % 8 < 6) && w.getLsbD k))
          ∧ exec .configRegisterWrite s = .next (s.modCore (32 * q + c) fun k => { k with padattr := p }))
        ∧ ∀ i < 32, off = b + 0x4000 + 0x100 * c + 8 * i →
          exec .configRegisterWrite s = .next (s.almWrite (32 * q + c) (0xA00 + i) w)

/-- R404: the registers of a die: the pre-emption sets and the event queues, a partition's function reaching its own alone. -/
def Sys2Proof.ConfigDie : Prop :=
  ∀ s : State, let off := s.arg 1
    let w : U64 := BitVec.ofNat 64 (s.arg 2)
    ∀ d < 4, ReachesDie s (s.arg 0) d → ∀ p < 16, (s.arg 0 = 0 ∨ p + 1 = s.arg 0) → let b := 0x2000000 + 0x100000 * d
      (∀ j < 5, off = b + 0x800 + 0x40 * p + 8 * j → exec .configRegisterWrite s = .next (s.preWrite d p j w))
      ∧ ∀ n < 2, ∀ j < 6, off = b + 0x1000 + 0x80 * p + 8 * (8 * n + j) →
        exec .configRegisterWrite s = .next (s.queueWrite d p n j w)

/-- The offsets of a function that R404 gives no register: below 0x60000, in a quadrant's region, and in a die's. -/
def Sys2Proof.NoRegister (s : State) (fn off : Nat) : Prop :=
  let o := off % 0x10000
  let r := off % 0x100000
  off % 8 ≠ 0 ∨ 16 < fn ∨ 0x2400000 ≤ off ∨ (0x60000 ≤ off ∧ off < 0x1000000)
  ∨ (off < 0x10000 ∧ (fn ≠ 0 ∨ (0x20 ≤ o ∧ o < 0x100) ∨ (0x180 ≤ o ∧ o < 0x1000) ∨ (0x17A0 ≤ o ∧ o < 0x2000)))
  ∨ (off / 0x10000 = 1 ∧ ((fn = 0 ∧ (0x400 ≤ o ∨ 0x20 ≤ o % 0x40)) ∨ (fn ≠ 0 ∧ 0x20 ≤ o)))
  ∨ (off / 0x10000 = 2 ∧ (fn ≠ 0 ∨ 0x28 ≤ o)) ∨ (off / 0x10000 = 3 ∧ 0x20 ≤ o)
  ∨ (off / 0x10000 = 4 ∧ (0x18 ≤ o % 0x20 ∨ (fn = 0 ∧ (0x1000 ≤ o ∨ 0x80 ≤ o % 0x100)) ∨ (fn ≠ 0 ∧ 0x80 ≤ o)))
  ∨ (off / 0x10000 = 5 ∧ fn = 0 ∧ ((8 ≤ o ∧ o < 0x100) ∨ (0x1C0 ≤ o ∧ o < 0x1000) ∨ 0x9000 ≤ o))
  ∨ (off / 0x10000 = 5 ∧ fn ≠ 0 ∧ (o < 0x100 ∨ (0x140 ≤ o ∧ o < 0x800) ∨ 0x1000 ≤ o))
  ∨ (0x1000000 ≤ off ∧ off < 0x2000000 ∧ (¬Reaches s fn (off / 0x100000 - 16) ∨ (0x20 ≤ r ∧ r < 0x1000)
      ∨ (0x1200 ≤ r ∧ r < 0x2000) ∨ (0x2200 ≤ r ∧ r < 0x4000) ∨ 0x6000 ≤ r))
  ∨ (0x2000000 ≤ off ∧ off < 0x2400000 ∧ (¬ReachesDie s fn (off / 0x100000 - 32) ∨ r < 0x100 ∨ (0x118 ≤ r ∧ r < 0x800)
      ∨ (0xC00 ≤ r ∧ r < 0x1000) ∨ 0x1800 ≤ r
      ∨ (0x800 ≤ r ∧ r < 0xC00 ∧ (5 ≤ r % 0x40 / 8 ∨ (fn ≠ 0 ∧ (r - 0x800) / 0x40 + 1 ≠ fn)))
      ∨ (0x1000 ≤ r ∧ r < 0x1800 ∧ (r % 0x80 / 8 ∈ [6, 7, 14, 15] ∨ (fn ≠ 0 ∧ (r - 0x1000) / 0x80 + 1 ≠ fn)))))

/-- R404: an offset without a register drops a write and reads all ones; the registers that only show something, and the blocks of
a partition in its own function, drop a write. That the public key and its certificate stand at 0x1000 and from 0x2000 on is the
model's choice (log entry 52, DESIGN CHOICE); that the ECC registers of a die drop a write is read from R411 (log entry 40,
DEDUCED). -/
def Sys2Proof.ConfigDropped : Prop :=
  ∀ s : State, let fn := s.arg 0
    let off := s.arg 1
    (NoRegister s fn off → exec .configRegisterWrite s = .next s ∧ s.cfgRead fn (s.cfgReg fn off) = 0xFFFFFFFFFFFFFFFF)
    ∧ (fn = 0 → off ∈ [0x0, 0x8, 0x18] ∨ (0x1000 ≤ off ∧ off < 0x17A0) ∨ (0x2000 ≤ off ∧ off < 0x10000)
        ∨ (0x50100 ≤ off ∧ off < 0x501C0) → exec .configRegisterWrite s = .next s)
    ∧ (1 ≤ fn → fn ≤ 16 → (0x10000 ≤ off ∧ off < 0x10020) ∨ (0x40000 ≤ off ∧ off < 0x40080) ∨ (0x50100 ≤ off ∧ off < 0x50140)
        ∨ (0x50800 ≤ off ∧ off < 0x51000) → exec .configRegisterWrite s = .next s)
    ∧ ∀ d < 4, ∀ j < 3, off = 0x2000100 + 0x100000 * d + 8 * j → exec .configRegisterWrite s = .next s

/-- R403, R404, R417, R418, R421: PWRCAP takes 600 to 2,400 W and anything else as 2,400; the clock moves by whole steps and
never above 1,100 MHz; the host port trains to 16, 8 or 4 lanes or stays down; a link trains to 8, 4 or 2; a write of the
configuration space reaches the register at its offset, and one of an offset without a register is dropped. That a write of
CQCTL changes the priority of the lane's grids is read from R365 (log entry 28, DEDUCED), that the ECC registers drop writes from
R411 (log entry 40, DEDUCED); where the public key and its certificate stand is the model's choice (log entry 52). -/
def Obligations.PackageRegisters : Prop :=
  ConfigPackage ∧ ConfigQuadrant ∧ ConfigDie ∧ ConfigDropped ∧
  ∀ s : State, let v := s.arg 0
    (∃ t, exec .pwrcap s = .next t ∧ { t with pwrCap := s.pwrCap } = s
      ∧ t.pwrCap = (if 600 ≤ v % 2 ^ 16 ∧ v % 2 ^ 16 ≤ 2400 then BitVec.ofNat 16 v else 2400))
    ∧ (if 0 < v ∧ v ≤ 1100 ∧ v % 25 = s.clkMhz.toNat % 25 then
        exec .clockStep s = .next { s with clkMhz := BitVec.ofNat 16 v } else exec .clockStep s = .next s)
    ∧ exec .hostPortTraining s = .next { s with hostLanes := if v ∈ [16, 8, 4] then v else 0 }
    ∧ (let w : U64 := BitVec.ofNat 64 (s.arg 1)
       let lanes := w.toNat / 16 % 16
       if v < 24 ∧ lanes ∈ [2, 4, 8] ∧ w.toNat / 2 ^ 16 % 2 ^ 16 ≤ 224 then
        ∃ t, exec .linkTrained s = .next t ∧ { t with links := [] } = { s with links := [] }
          ∧ t.links.find v = some (w &&& 0xFFFFFFF0 ||| 1) ∧ ∀ i, i ≠ v → t.links.find i = s.links.find i
       else exec .linkTrained s = .next s)
    ∧ (let w : U64 := BitVec.ofNat 64 (s.arg 2)
      (v = 0 → s.arg 1 = 0x10 → ∃ t, exec .configRegisterWrite s = .next t ∧ { t with pwrCap := s.pwrCap } = s
        ∧ t.pwrCap = (if 600 ≤ w.toNat % 2 ^ 16 ∧ w.toNat % 2 ^ 16 ≤ 2400 then w.setWidth 16 else 2400))
      ∧ (v = 0 → s.arg 1 = 0x50000 → exec .configRegisterWrite s = .next
          (if s.comms = [] then { s with modid := w.setWidth 8 } else s))
      ∧ (v = 0 → ∀ p < 16, s.arg 1 = 0x10000 + 0x40 * p + 8 → ∃ t, exec .configRegisterWrite s = .next t
          ∧ t.part p = { s.part p with pclose := w.setWidth 16 &&& (s.part p).pquads }
          ∧ { t with parts := [] } = { s with parts := [] })
      ∧ (v = 0 → ∀ q < 16, ∀ n < 16, s.arg 1 = 0x1001000 + 0x100000 * q + 0x20 * n + 0x10 →
          ∃ t, exec .configRegisterWrite s = .next t ∧ t.lane (16 * q + n) = (if (s.lane (16 * q + n)).state = 1 then
              s.lane (16 * q + n) else { s.lane (16 * q + n) with rd := w.setWidth 32 })
          ∧ { t with lanes := [] } = { s with lanes := [] })
      ∧ (s.arg 1 % 8 ≠ 0 ∨ 16 < v ∨ (v ≠ 0 ∧ s.arg 1 < 0x10000) ∨ 0x2400000 ≤ s.arg 1 →
          exec .configRegisterWrite s = .next s))

/-- Every line of `n` bytes at `ia` permits an access of a partition: the bytes stand from `k` on in memory. -/
def Sys2Proof.Permitted (s : State) (part ia n : Nat) (r w : Bool) (k : Nat) : Prop :=
  ia + n ≤ 2 ^ 51 ∧ 0 < n ∧ k + n ≤ peerBase
    ∧ ∀ x ∈ lineParts ia n, ∃ stamp, (s.target part (.ia x.1) x.2 r w).1 = .key (k + (x.1 - ia)) stamp none

/-- The first line of an access that does not permit it is answered with the verdict `v`. -/
def Sys2Proof.FirstStop (s : State) (part ia n : Nat) (r w : Bool) (v : Tgt) : Prop :=
  ∃ a x b, lineParts ia n = a ++ x :: b ∧ (s.target part (.ia x.1) x.2 r w).1 = v
    ∧ ∀ y ∈ a, ∃ k stamp d, k < peerBase ∧ (s.target part (.ia y.1) y.2 r w).1 = .key k stamp d

/-- An access of the host or a peer is refused: it reaches beyond the memory addresses, or a page of it is not present or
denies it. -/
def Sys2Proof.Refuses (s : State) (part ia n : Nat) (r w : Bool) : Prop :=
  2 ^ 51 < ia + n ∨ (ia + n ≤ 2 ^ 51 ∧ (FirstStop s part ia n r w (.wait 1) ∨ ∃ k, FirstStop s part ia n r w (.deny k false)))

/-- What is heard of a sender (R437): each running collective of the partition whose communicator has the sender as another member
notes the time. -/
def Sys2Proof.Hears (s t : State) (part who : Nat) : Prop :=
  t.colls.map Prod.fst = s.colls.map Prod.fst ∧ ∀ id k, s.colls.find id = some k → ∃ r, t.colls.find id = some r
    ∧ { r with seen := [] } = { k with seen := [] }
    ∧ ∀ j, let member : Prop := k.part = part ∧ k.started = true ∧ ∃ c e, s.comms.find k.comm = some c ∧ c.members[j]? = some e
        ∧ j < c.count ∧ j ≠ c.rank ∧ e.toNat / 2 ^ 52 = who
      (member → r.seen.find j = some s.cycle.toNat) ∧ (¬member → r.seen.find j = k.seen.find j)

/-- R405: a decoder whose range holds a host address, and whose intermediate address lies below 2^51, gives the address in its
partition; where none does, there is none. -/
def Sys2Proof.Decoders : Prop :=
  ∀ (s : State) (p h : Nat), let holds_ (d : Nat × U64 × U64 × U64) : Prop :=
      d.2.1.toNat ≤ h ∧ h < d.2.1.toNat + d.2.2.1.toNat ∧ d.2.2.2.getLsbD 51 = false
    (s.decode p h = none ↔ ∀ d ∈ (s.part p).decoders, ¬holds_ d)
    ∧ ∀ d ∈ (s.part p).decoders, holds_ d → (∀ e ∈ (s.part p).decoders, holds_ e → e = d) →
        s.decode p h = some (h - d.2.1.toNat + d.2.2.2.toNat)

/-- R344, R405, R411, R412: an access of the host that no decoder of its partition takes does nothing; while the partition resets a
read is answered with poison and a write dropped; one that its pages permit is performed, a read of poisoned bytes with poison;
one that is refused is answered with poison or dropped, and counted in the die's ECCUNC; one to a migrating page waits. -/
def Sys2Proof.HostAccesses : Prop :=
  ∀ s : State, let p := s.arg 0
    let bs := (s.args.drop 2).map (BitVec.ofNat 8)
    (s.decode p (s.arg 1) = none → exec .hostMemRead s = .next s ∧ exec .hostMemWrite s = .next s)
    ∧ (∀ ia, s.decode p (s.arg 1) = some ia → (s.part p).state = 2 →
      exec .hostMemRead s = .next { s with outbox := s.outbox ++ [⟨5, p, ia, [0]⟩] } ∧ exec .hostMemWrite s = .next s)
    ∧ ∀ ia, s.decode p (s.arg 1) = some ia → (s.part p).state ≠ 2 →
      (∀ k, Permitted s p ia (s.arg 2) true false k → exec .hostMemRead s = .next { s with
        outbox := s.outbox ++ [⟨5, p, ia, (if s.badRange k (s.arg 2) then 3 else 1) :: Memory.read s.mem k (s.arg 2)⟩] })
      ∧ (∀ k, Permitted s p ia bs.length false true k → s.padBars = [] → ∃ t, exec .hostMemWrite s = .next t
        ∧ t.outbox = s.outbox ∧ t.blocks = s.blocks
        ∧ ∀ a, Memory.get t.mem a = if k ≤ a ∧ a < k + bs.length then bs.getD (a - k) 0 else Memory.get s.mem a)
      ∧ (Refuses s p ia (s.arg 2) true false → ∃ t, exec .hostMemRead s = .next t
        ∧ t.outbox = s.outbox ++ [⟨5, p, ia, [0]⟩] ∧ t.mem = s.mem ∧ t.queues = s.queues
        ∧ ∀ d, t.eccUnc.get d = s.eccUnc.get d + (if d = dieOfIa ia then 1 else 0))
      ∧ (Refuses s p ia bs.length false true → ∃ t, exec .hostMemWrite s = .next t
        ∧ t.outbox = s.outbox ∧ t.mem = s.mem ∧ t.queues = s.queues
        ∧ ∀ d, t.eccUnc.get d = s.eccUnc.get d + (if d = dieOfIa ia then 1 else 0))
      ∧ (ia + s.arg 2 ≤ 2 ^ 51 → FirstStop s p ia (s.arg 2) true false (.wait 2) → ∃ t, exec .hostMemRead s = .next t
        ∧ t.hostWaits.find s.nextId = some ⟨p, ia, 0, s.arg 2, [], none, (0, 0), s.cycle⟩
        ∧ t.outbox = s.outbox ∧ t.mem = s.mem)
      ∧ (ia + bs.length ≤ 2 ^ 51 → FirstStop s p ia bs.length false true (.wait 2) → ∃ t, exec .hostMemWrite s = .next t
        ∧ t.hostWaits.find s.nextId = some ⟨p, ia, 1, bs.length, bs, none, (0, 0), s.cycle⟩
        ∧ t.outbox = s.outbox ∧ t.mem = s.mem)

/-- R411, R412, R420, R433, R434: a peer whose partition no ROUTE entry names is denied. Of any other, a read is answered with the
bytes, and with poison where they are poisoned; a write is performed, a poisoned one by poison; a contribution is taken by the
reduction unit of a running collective of its communicator, as the sender's for its element, and refused otherwise; one that
its pages refuse is denied, and one to a migrating page waits. The sender is heard by the collectives that run with it (R437). -/
def Sys2Proof.PeerAccesses : Prop :=
  ∀ s : State, let p := s.arg 2
    let ia := s.arg 4
    let n := s.arg 5
    let kind := s.arg 3 % 4
    let bs := (s.args.drop 8).map (BitVec.ofNat 8)
    let answers (l : List Byte) : List Out := s.outbox ++ [⟨4, s.arg 0 * 16 + s.arg 1, ia, l⟩]
    let only (l : List Byte) : Prop := ∃ t, exec .peerAccessIn s = .next t
      ∧ { t with colls := [] } = { s with colls := [], outbox := answers l } ∧ Hears s t p (s.arg 0 * 16 + s.arg 1)
    let accepted : Prop := ∃ r ∈ (s.part p).routes, r.2.toNat / 2 ^ 56 = s.arg 0 ∧ r.2.toNat / 2 ^ 52 % 16 = s.arg 1
    (¬accepted → only [0])
    ∧ (accepted →
      (kind = 0 → ∀ k, Permitted s p ia n true false k →
        only ((if s.badRange k n then 3 else 1) :: Memory.read s.mem k n))
      ∧ (kind = 1 → ∀ k, Permitted s p ia n false true k → bs.length = n → s.padBars = [] →
        ∃ t, exec .peerAccessIn s = .next t ∧ t.outbox = answers [1] ∧ t.blocks = s.blocks
          ∧ ∀ a, Memory.get t.mem a = if k ≤ a ∧ a < k + n then bs.getD (a - k) 0 else Memory.get s.mem a)
      ∧ (kind = 2 → ∀ k, Permitted s p ia n false true k → s.padBars = [] →
        ∃ t, exec .peerAccessIn s = .next t ∧ t.outbox = answers [1] ∧ t.blocks = s.blocks ∧ t.mem = s.mem
          ∧ ∀ g, g ∈ t.memBad ↔ g ∈ s.memBad ∨ ∃ i < n, g = (granule (k + i)).1)
      ∧ (kind = 3 → ∀ k, Permitted s p ia n false true k →
        let key := commKey p (s.arg 6)
        let mine (x : Nat × Collective) : Bool :=
          x.2.comm == key && x.2.started && x.2.failed.isNone && x.2.seq.toNat == s.arg 7
        (s.openComm key = none ∨ s.colls.find? mine = none → only [2])
        ∧ ∀ c m r e, s.openComm key = some c → s.colls.find? mine = some m →
          c.members[r]? = some e → r < c.count → r ≠ c.rank → e.toNat / 2 ^ 52 = s.arg 0 * 16 + s.arg 1 → s.arg 1 < 16 →
          (∀ q < r, ∀ x, c.members[q]? = some x → q ≠ c.rank → x.toNat / 2 ^ 52 ≠ e.toNat / 2 ^ 52) →
          let es := elemSize (CollDesc.of m.2.desc).ty
          (m.2.element ia n = none → only [2])
          ∧ ((CollDesc.of m.2.desc).reduces = true → n = es → m.2.dst ≤ ia → (ia - m.2.dst) % es = 0 →
            ia + n ≤ m.2.dst + (CollDesc.of m.2.desc).blockBytes →
            ∃ t q, exec .peerAccessIn s = .next t ∧ t.outbox = answers [1] ∧ t.mem = s.mem ∧ t.colls.find m.1 = some q
              ∧ (Rises s.colls → m.2.written ((ia - m.2.dst) / es * es, (ia - m.2.dst) / es * es + es) = false →
                q.parts.find? (fun x => x.1 == (ia - m.2.dst) / es && x.2.1 == r) =
                  some ((ia - m.2.dst) / es, r, if bs = [] then none else some (leNat bs)))))
      ∧ (Refuses s p ia n (kind == 0) (kind != 0) → s.colls = [] → ∃ t, exec .peerAccessIn s = .next t
        ∧ t.outbox = answers [0] ∧ t.mem = s.mem ∧ t.eccUnc = s.eccUnc ∧ t.hostWaits = s.hostWaits)
      ∧ (ia + n ≤ 2 ^ 51 → FirstStop s p ia n (kind == 0) (kind != 0) (.wait 2) → ∃ t, exec .peerAccessIn s = .next t
        ∧ t.hostWaits.find s.nextId = some
            ⟨p, ia, kind, n, bs, some (s.arg 0, s.arg 1), (s.arg 6, s.arg 7), s.cycle⟩
        ∧ t.outbox = s.outbox ∧ t.mem = s.mem))

/-- R344, R405, R412, R420, R437: the accesses of the host and of peers; and one that has waited on a migrating page for 10 ms is
denied. How a verdict stands in the outbox is the model's choice (log entry 8, DESIGN CHOICE), and so are the lists of what has
left the module (log entry 13, DESIGN CHOICE); 10 ms are 11,000,000 cycles of 1,100 MHz (log entry 5). -/
def Obligations.OutsideAccesses : Prop :=
  Decoders ∧ HostAccesses ∧ PeerAccesses ∧ ∀ s : State,
    ∀ w, s.hostWaits.find (s.arg 0) = some w →
      (s.cycle.toNat < w.since.toNat + 11000000 → exec .migWaitTimeout s = .next s)
      ∧ (w.since.toNat + 11000000 ≤ s.cycle.toNat → ∃ t, exec .migWaitTimeout s = .next t
        ∧ (∀ n, t.hostWaits.find n = if n = s.arg 0 then none else s.hostWaits.find n) ∧ t.mem = s.mem
        ∧ (∀ m q, w.who = some (m, q) → t.outbox = s.outbox ++ [⟨4, m * 16 + q, w.ia, [0]⟩])
        ∧ (w.who = none → t.outbox = s.outbox ++ (if w.kind = 0 then [⟨5, w.part, w.ia, [0]⟩] else [])
          ∧ t.eccUnc.get (dieOfIa w.ia) = s.eccUnc.get (dieOfIa w.ia) + 1))

/-- R239, R345, R406 to R410: a command of a mailbox that is busy is ignored; any other makes it busy with the command, which goes
on at once. An image whose header breaks a limit ends with status 2. A report whose nonce can be read and whose output can be
written ends with status 0 and its 3,629 bytes. When a command is over, and no record of its channel waits at the arbiter, the
mailbox shows its status and length, and function 0 raises its vector. -/
def Sys2Proof.MailboxSteps : Prop :=
  ∀ s : State, s.arg 0 ≤ 16 → let fn := s.arg 0
    let m := s.box fn
    let part := s.argPart fn m.arg0.toNat
    (m.busy = true → exec .mailboxReport s = .next s ∧ exec .mailboxTranslate s = .next s)
    ∧ (m.busy = false → ∀ x ∈ [(Instr.mailboxReport, 1), (.mailboxTranslate, 2)], ∃ t, exec x.1 s = .next t
        ∧ (t.box fn).busy = true ∧ (t.box fn).cmd = x.2 ∧ (t.box fn).arg0 = m.arg0
        ∧ (t.box fn).arg1 = m.arg1)
    ∧ (m.busy = false → s.held (boxTag fn) = false → ∀ head, (s.iaRead part m.arg0.toNat 64).1 = .ok head →
        (headerBad head true).isSome = true →
        ∃ t, exec .mailboxTranslate s = .next t ∧ (t.box fn).result = some (2, 0))
    ∧ (m.busy = false → s.held (boxTag fn) = false → s.padBars = [] → ∀ k k', Permitted s part m.arg0.toNat 32 true false k →
        Permitted s (s.argPart fn m.arg1.toNat) m.arg1.toNat 3629 false true k' →
        ∃ (t : State) (bs : List Byte), exec .mailboxReport s = .next t ∧ (t.box fn).result = some (0, 3629) ∧ bs.length = 3629
          ∧ (∀ a, Memory.get t.mem a = if k' ≤ a ∧ a < k' + 3629 then bs.getD (a - k') 0 else Memory.get s.mem a)
          ∧ let f (off n : Nat) : List Byte := (bs.drop off).take n
            f 0 4 = leBytes 4 1 ∧ f 4 4 = leBytes 4 (if fn = 0 then 0xFFFFFFFF else fn - 1)
            ∧ f 0x10 32 = Memory.read s.mem k 32 ∧ f 0x30 8 = leBytes 8 0x3F ∧ f 0x38 8 = leBytes 8 0x16D
            ∧ f 0x104 4 = leBytes 4 Config.mcrev.toNat ∧ f 0x108 56 = List.replicate 56 0
            ∧ (fn ≠ 0 → (∀ q < 16, (leNat (f 8 8)).testBit q = s.owns (fn - 1) q)
              ∧ f 0x100 4 = leBytes 4 ((s.coresOf (fn - 1)).filter fun c => (s.core c).almValid).length))
    ∧ (∀ status n, m.result = some (status, n) →
        (s.held (boxTag fn) = true → exec .mailboxDone s = .next s)
        ∧ (s.held (boxTag fn) = false → ∃ t, exec .mailboxDone s = .next t
          ∧ t.box fn = { m with busy := false, status := status, len := BitVec.ofNat 32 n, got := [], result := none }
          ∧ (∀ f, f ≠ fn → t.box f = s.box f) ∧ ∃ v, t.msix = s.msix ++ [(0, v)]))
    ∧ (m.busy = false → m.result = none → exec .mailboxDone s = .next s)

/-- A native image of a portable one (R408): the portable header, but for the checked flag, the code bytes, and the entry and trap
offsets, which point at the places `pos` of their words. Each word of the code stands at its place, in their order; a branch leads
to the place of the word that it led to, and a PFX.SPLIT may have another length; any other word keeps its meaning. The words between
are NOPs, or follow a PFX.SPLIT; and each word but a prefix has its S bit, or as many words before the next as its result's
distance asks for (R33 to R36). -/
def Sys2Proof.NativeOf (image out : List Byte) : Prop :=
  let n := (image.length - 64) / 4
  let old (j : Nat) : Word := BitVec.ofNat 32 (recNum image (64 + 4 * j) 4)
  let new (i : Nat) : Word := BitVec.ofNat 32 (recNum out (64 + 4 * i) 4)
  ∃ pos : Nat → Nat, pos 0 = 0 ∧ (∀ j < n, pos j < pos (j + 1)) ∧ out.length = 64 + 4 * pos n
    ∧ (∀ i < 64, i ≠ 0x0B → ¬(0x14 ≤ i ∧ i < 0x20) → out.getD i 0 = image.getD i 0)
    ∧ out.getD 0x0B 0 = image.getD 0x0B 0 &&& 0xFD ∧ recNum out 0x14 4 = 4 * pos n
    ∧ recNum out 0x18 4 = (if recNum image 0x18 4 = 0 then 0 else 64 + 4 * pos ((recNum image 0x18 4 - 64) / 4))
    ∧ recNum out 0x1C 4 = 64 + 4 * pos ((recNum image 0x1C 4 - 64) / 4)
    ∧ ∀ j < n, (∀ i, pos j < i → i < pos (j + 1) → new i = 0 ∨ ∃ d m, decodeWord (old j) = .ok d ∧ d.instr = .pfxSplit m)
      ∧ (∀ x, decodeWord (old j) = .error x → new (pos j) = old j)
      ∧ ∀ d, decodeWord (old j) = .ok d → ∃ e, decodeWord (new (pos j)) = .ok e
        ∧ (d.instr.isPrefix = true ∨ e.mark = true ∨ (shapeOf d.instr 0).lat.dist ≤ pos (j + 1) - pos j)
        ∧ ((∃ m, d.instr = .pfxSplit m ∧ ∃ m', e.instr = .pfxSplit m') ∨ (Instr.disp d.instr = none ∧ e.instr = d.instr)
          ∨ ∃ w off t, Instr.disp d.instr = some (w, off) ∧ e.instr = Instr.withDisp (t - pos j) d.instr
            ∧ (0 ≤ (j : Int) + off → (j : Int) + off ≤ n → t = pos ((j : Int) + off).toNat)
            ∧ Instr.disp e.instr = some (w, t - pos j))

/-- R408, R409: the translation of a portable image that can be read: status 2 where it is not checked or has an S bit; status 1 and
the cached image where its key is in the partition's cache; status 3 where a JMPI or RET takes a register that no CALL writes; and,
where it has no such word, status 0 and a native image, which the cache takes up. The key is the digest of the image, the translator's
version, FEAT, the microcode's revision and the contract. Which native image it is, and that one without room for a displacement
ends with status 3 and one without room for its words with status 5, are the model's choices (log entry 51, DESIGN CHOICE). -/
def Sys2Proof.TranslationResults : Prop :=
  ∀ (s : State) (k : Nat), s.arg 0 ≤ 16 → let fn := s.arg 0
    let m := s.box fn
    let part := s.argPart fn m.arg0.toNat
    let head := Memory.read s.mem k 64
    let size := 64 + recNum head 0x14 4
    let image := Memory.read s.mem k size
    let word (j : Nat) : Word := BitVec.ofNat 32 (recNum image (64 + 4 * j) 4)
    let n := recNum head 0x14 4 / 4
    let key := leBytes 32 (wordsNat ((shake256 (image ++ leBytes 4 Config.xlat.toNat ++ leBytes 8 0x3F ++ leBytes 4 Config.mcrev.toNat
      ++ leBytes 2 (Header.parse head).eff)).take 4))
    let jumps (j : Nat) (a : BitVec 8) : Prop := ∃ d, decodeWord (word j) = .ok d ∧ (d.instr = .jmpi a ∨ d.instr = .ret a)
    let portable : Prop := (recNum head 0x0B 1).testBit 1 = true ∧ ∀ j < n, (word j).getLsbD 31 = false ∨ isPrefixWord (word j) = true
    m.busy = false → s.held (boxTag fn) = false → s.padBars = [] → Permitted s part m.arg0.toNat 64 true false k →
    Permitted s part m.arg0.toNat size true false k → headerBad head true = none →
    let written (t : State) (status : Nat) (out : List Byte) : Prop :=
      ∀ k', Permitted s (s.argPart fn m.arg1.toNat) m.arg1.toNat out.length false true k' →
        (t.box fn).result = some (status, out.length)
        ∧ ∀ a, Memory.get t.mem a = if k' ≤ a ∧ a < k' + out.length then out.getD (a - k') 0 else Memory.get s.mem a
    ∃ t, exec .mailboxTranslate s = .next t
      ∧ (¬portable → (t.box fn).result = some (2, 0) ∧ t.mem = s.mem)
      ∧ (portable → ∀ out, (s.part part).xlat.find? (fun x => x.1 == key) = some (key, out) → 0 < out.length → written t 1 out)
      ∧ (portable → (s.part part).xlat.find? (fun x => x.1 == key) = none →
        ((∃ j < n, ∃ a, jumps j a ∧ ∀ i < n, ∀ d off, decodeWord (word i) = .ok d → d.instr ≠ .call a off) →
          (t.box fn).result = some (3, 0) ∧ t.mem = s.mem)
        ∧ ((∀ j < n, ∀ a, ¬jumps j a) → ((t.box fn).result = some (3, 0) ∧ ∃ j < n, ∃ d, decodeWord (word j) = .ok d
              ∧ Instr.disp d.instr ≠ none)
          ∨ ∃ out, NativeOf image out
            ∧ (2 ^ 22 < out.length → (t.box fn).result = some (5, 0))
            ∧ (out.length ≤ 2 ^ 22 → written t 0 out
              ∧ ((s.part part).xlat.length < 4096 → (t.part part).xlat = (s.part part).xlat ++ [(key, out)]))))

/-- R406, R414 to R416: a checkpoint starts unless one runs, with error set if a listed quadrant is not assigned or a listed link
is not up, or none is, and a channel for each listed quadrant that is assigned, if some link is up. A full one that goes on to its
end sends every byte of HBM that is left of each quadrant, in pieces of 2 MiB; and function 0 raises its vector. That a checkpoint
without an assigned quadrant or an up link records an error, and where a piece stands in the outbox, is read from R414 to R416
(log entry 39, DEDUCED); when it raises its vector from R406 (log entry 38). -/
def Sys2Proof.CheckpointSteps : Prop :=
  ∀ s : State, let k := s.ckpt
    let up (i : Nat) : Prop := ∃ v, s.links.find i = some v ∧ v.getLsbD 0 = true
    let anyUp : Prop := ∃ i < 24, k.links.getLsbD i = true ∧ up i
    let piece (q i : Nat) : Out := ⟨7, 0, (k.dst.toNat + q * 2 ^ 35 + i * 2 ^ 21) % 2 ^ 64,
      Memory.read s.mem (q * 2 ^ 35 + i * 2 ^ 21) (min (2 ^ 21) (hbmBytes - i * 2 ^ 21))⟩
    (k.busy = true → exec .checkpointFull s = .next s ∧ exec .checkpointDirty s = .next s)
    ∧ (k.busy = false → ∀ x ∈ [(Instr.checkpointFull, 1), (.checkpointDirty, 2)], ∃ t, exec x.1 s = .next t
        ∧ t.ckpt.busy = true ∧ t.ckpt.op = x.2 ∧ t.ckpt.dst = k.dst ∧ t.ckpt.quads = k.quads ∧ t.ckpt.links = k.links
        ∧ t.ckpt.bytes = 0 ∧ ({ t with ckpt := k } : State) = s
        ∧ (anyUp → ∀ y, y ∈ t.ckpt.pend ↔ y.1 < 16 ∧ k.quads.getLsbD y.1 = true ∧ (s.quad y.1).state = 2 ∧ y.2 = (0, 0))
        ∧ (¬anyUp → t.ckpt.pend = [])
        ∧ (∀ q < 16, t.ckpt.covers.getLsbD q = true ↔ k.quads.getLsbD q = true ∧ (s.quad q).state = 2)
        ∧ (t.ckpt.error = true ↔ (∃ q < 16, k.quads.getLsbD q = true ∧ (s.quad q).state ≠ 2)
            ∨ (∃ i < 24, k.links.getLsbD i = true ∧ ¬up i) ∨ ¬anyUp))
    ∧ (k.busy = false → exec .checkpointDone s = .next s)
    ∧ (k.busy = true → k.op = 1 → s.arg 0 = 0 → s.memBad = [] → ∃ t, exec .checkpointDone s = .next t ∧ t.mem = s.mem
        ∧ t.outbox = s.outbox ++ k.pend.flatMap (fun x => (List.range (ceilDiv hbmBytes (2 ^ 21) - x.2.1)).map fun j =>
            piece x.1 (x.2.1 + j))
        ∧ t.ckpt = (let left := (k.pend.map fun x => hbmBytes - x.2.1 * 2 ^ 21).sum
            { k with busy := false, pend := [], bytes := k.bytes + BitVec.ofNat 40 left })
        ∧ ∃ v, t.msix = s.msix ++ [(0, v)])
    ∧ (k.busy = true → k.pend = [] → ∃ t, exec .checkpointDone s = .next t ∧ t.ckpt = { k with busy := false }
        ∧ ∃ v, t.msix = s.msix ++ [(0, v)])

/-- R239, R341, R414, R415: one entry of a dirty checkpoint's channel, which stands at index i1 of level 1 and j of level 2. A leaf with
home HBM and DIRTY has DIRTY cleared, in memory and in what the MTUs hold of it, before the page's bytes are sent, and a lane of a CPS
that was permitted before and is still to be performed sets it again; a migrating one
stalls the channel; any other entry sends nothing, and neither does one whose entry or page lies outside the partition's quadrants
(R340, R397). The channel ends behind the last entry. -/
def Sys2Proof.DirtyEntries : Prop :=
  ∀ (s : State) (q i1 j : Nat), let k := s.ckpt
    k.busy = true → k.op = 2 → k.pend = [(q, i1, j)] → q < 16 → i1 < 2 ^ 26 → j < 32 → s.arg 0 = 1 → s.memBad = [] → s.l2 = [] →
    let a1 := (s.quad q).l1base.toNat * 4096 + 8 * i1
    let e1 := Memory.num s.mem a1 8
    let a2 := e1 / 2 ^ 8 % 2 ^ 44 * 2 ^ 8 + 8 * j
    let e2 := Memory.num s.mem a2 8
    let open_ : Prop := (s.quad q).state = 2 ∧ e1.testBit 0 = true
    let next := if (s.quad q).state = 2 ∧ e1.testBit 0 = true ∧ e1.testBit 54 = false ∧ j < 31 then (i1, j + 1) else (i1 + 1, 0)
    let passes (t : State) : Prop := t.outbox = s.outbox ∧ t.mem = s.mem ∧ t.ckpt = { k with pend := [(q, next)] }
    let leaf (t : State) (a e ia size : Nat) : Prop :=
      let p := (s.quad q).part
      let page := e / size % (2 ^ 52 / size) * size
      let n := min size (hbmBytes - page % 2 ^ 35)
      let reached : Prop := s.ownsHbm p a 8 = true ∧ s.owns p (page / 2 ^ 35) = true
      (e / 2 ^ 57 % 4 ≠ 0 ∨ e.testBit 55 = false ∨ ¬reached → passes t)
      ∧ (reached → e / 2 ^ 57 % 4 = 0 → e.testBit 55 = true → e.testBit 56 = true → t.outbox = s.outbox ∧ t.mem = s.mem ∧ t.ckpt = k)
      ∧ (reached → e / 2 ^ 57 % 4 = 0 → e.testBit 55 = true → e.testBit 56 = false →
        (∀ x, Memory.get t.mem x = if x = a + 6 then Memory.get s.mem x &&& 0x7F else Memory.get s.mem x)
        ∧ (∀ n y v, (t.quad n).cached.find y = some v → v.1 = a → v.2.getLsbD 55 = false)
        ∧ (∀ n o l, s.ops.find n = some o → o.kind = .lane l → l.put = true → ∃ r m, t.ops.find n = some r ∧ r.kind = .lane m
            ∧ ∀ y ∈ l.ready, ∀ key st, y.tgt = .key key st none → ia ≤ y.ia → y.ia < ia + size →
                { y with tgt := .key key st (some a) } ∈ m.ready)
        ∧ t.outbox = s.outbox ++ [⟨7, 0, (k.dst.toNat + page) % 2 ^ 64, Memory.read t.mem page n⟩]
        ∧ t.ckpt = { k with pend := [(q, next)], bytes := k.bytes + BitVec.ofNat 40 n })
    ∃ t, exec .checkpointDone s = .next t
      ∧ (i1 < (s.quad q).l1count →
        (¬open_ → passes t)
        ∧ (open_ → e1.testBit 54 = true → leaf t a1 e1 (q * 2 ^ 47 + i1 * 2 ^ 21) (2 ^ 21))
        ∧ (open_ → e1.testBit 54 = false →
          (e2.testBit 0 = false ∨ e2.testBit 54 = true → passes t)
          ∧ (e2.testBit 0 = true → e2.testBit 54 = false → leaf t a2 e2 (q * 2 ^ 47 + i1 * 2 ^ 21 + j * 2 ^ 16) (2 ^ 16))))
      ∧ ((s.quad q).l1count ≤ i1 → t.outbox = s.outbox ∧ t.mem = s.mem ∧ t.ckpt = { k with busy := false, pend := [] }
        ∧ ∃ v, t.msix = s.msix ++ [(0, v)])

/-- The commands of a mailbox, and checkpoints. What the spec leaves open of a checkpoint's errors and pieces is log entry 39, of
the vectors and statuses log entry 38. -/
def Obligations.MailboxAndCheckpointSteps : Prop := MailboxSteps ∧ TranslationResults ∧ CheckpointSteps ∧ DirtyEntries

/-- R437: a carry core of a communicator has faulted: the carry grid has failed, the communicator is in error, and its running
collectives have failed with reason 1. -/
def Sys2Proof.CarryFailed (s t : State) (core : Nat) : Prop :=
  ∀ key m, (s.core core).carry = some key → s.comms.find key = some m →
    (t.comms.find key).map Comm.state = some (if m.state = 2 then 3 else m.state)
    ∧ (∀ id x, s.colls.find id = some x → x.comm = key → x.started = true → x.failed = none →
      (t.colls.find id).map Collective.failed = some (some 1))
    ∧ ∀ gh g, m.grid = some gh → s.grids.find gh = some g → ∃ r, t.grids.find gh = some r ∧ r.failed.isSome = true

/-- R224, R303, R356, R411, R437: a faulted core stops, and every block resident on it is aborted with UNCORRECTABLE; so do the cores
of a faulted cluster and every block on any of them; a carry core takes its carry grid and its communicator with it. Its
fault record of kind 8 or 9, of source 4, names the core, for a cluster its lowest (log entry 19, DEDUCED). The failing
core that a completion record has is the faulted one where a group of the block is on it, and 0xFFFF otherwise; for a cluster, where every
group of the block fails at once, it is the core of the block's lowest group (log entry 58, DESIGN CHOICE). The patrol scrubber
counts what it corrects, and poisons what it cannot; what is poisoned already is not counted again. -/
def Obligations.FailureSteps : Prop :=
  ∀ s : State, Rises s.blocks → Rises s.colls → let n := s.arg 0
    let failed (t : State) (b : Nat) (k : Block) (core : Nat) : Prop := t.block b = none ∧ ∀ g, s.grids.find k.grid = some g →
      (t.grids.find k.grid).map Grid.failed = some (if g.failed.isSome then g.failed else some (1, 0x14, allOnes, core))
    let told (t : State) (core kind : Nat) : Prop := let die := core / 128
      let part := (s.quad (core / 32)).part
      ∃ before, (t.queue die part 0).waiting = before ++ [(0, faultBytes 0 0 0 kind 4 0xFF 0 core)]
        ∧ (Secluded s → before = (s.queue die part 0).waiting)
    (n < 512 → ∃ t, exec .coreFault s = .next t ∧ told t n 8
      ∧ (∀ c, (t.core c).faulted = if c = n then true else (s.core c).faulted)
      ∧ CarryFailed s t n
      ∧ ∀ b k, s.block b = some k →
        (k.st = .resident → n ∈ k.cores → ∃ c, failed t b k c ∧ (c = n ∨ c = 0xFFFF)
          ∧ ((∀ j x, s.block j = some x → x.grid = k.grid → x.st = .resident → n ∈ x.cores →
              ∃ y ∈ x.groups, y.2.core = n) → c = n)
          ∧ ((∀ j x, s.block j = some x → x.grid = k.grid → x.st = .resident → ∀ y ∈ x.groups, y.2.core ≠ n) → c = 0xFFFF))
        ∧ (Secluded s → ¬(k.st = .resident ∧ n ∈ k.cores) → t.block b = some k))
    ∧ (n < 64 → ∃ t, exec .clusterFault s = .next t ∧ told t (8 * n) 9
      ∧ (∀ c, (t.core c).faulted = if c / 8 = n then true else (s.core c).faulted)
      ∧ (∀ c, c / 8 = n → CarryFailed s t c)
      ∧ ∀ b k, s.block b = some k → let hit (x : Block) : Prop := x.st = .resident ∧ ∃ c ∈ x.cores, c / 8 = n
        let lowest (x : Block) : Nat := match x.groups with
          | y :: _ => y.2.core
          | [] => 0xFFFF
        (hit k → ∃ c, failed t b k c ∧ ((∀ c, c / 8 = n → (s.core c).carry = none) →
          (∀ j x, s.block j = some x → x.grid = k.grid → hit x → lowest x = lowest k) → c = lowest k))
        ∧ (Secluded s → ¬hit k → t.block b = some k))
    ∧ (n < 2 ^ 39 → n % 2 ^ 35 < hbmBytes → (s.quad (n / 2 ^ 35)).state = 2 →
      (s.arg 1 = 0 → exec .patrolScrub s = .next s)
      ∧ (s.arg 1 = 1 → exec .patrolScrub s = .next
          { s with eccCorr := s.eccCorr.set (n / 2 ^ 37) (s.eccCorr.get (n / 2 ^ 37) + 1) })
      ∧ (s.arg 1 = 2 → s.bad n = true → exec .patrolScrub s = .next s)
      ∧ (s.arg 1 = 2 → s.bad n = false → ∃ t, exec .patrolScrub s = .next t ∧ t.bad n = true ∧ t.mem = s.mem
        ∧ t.eccUnc.get (n / 2 ^ 37) = s.eccUnc.get (n / 2 ^ 37) + 1))

/-! ## Steps of the device: communicators and collectives -/

/-- The status word of a COMM packet (R424). -/
def Sys2Proof.commWord (code carry rank contract : Nat) : Nat :=
  2 ^ 63 + code * 2 ^ 56 + carry * 2 ^ 40 + rank * 2 ^ 16 + contract

/-- The packet has ended with a status word: the word is written and the lane advances, or it waits on the word's page with
the word kept, or, where the page denies the word, it waits at its record; `u` is the machine before the write. -/
def Sys2Proof.Ends (u t : State) (n part : Nat) (l : Lane) (p : List Byte) (w : Nat) : Prop :=
  let r := u.sysWord part l.ctx (recNum p 24 8) (BitVec.ofNat 64 w) false
  let sent (k ia source : Nat) : Prop := (t.queue (n / 64) part 0).waiting = (u.queue (n / 64) part 0).waiting ++
    [(laneTag n, faultBytes 0 ia 0 k source 0xFF 0 0)]
  (∀ bs, r.1 = .ok bs → t.mem = r.2.mem)
  ∧ ((∀ k ia, r.1 ≠ .wait k ia) → (∀ k ia far, r.1 ≠ .deny k ia far) → t.lane n = completed l)
  ∧ (∀ k ia, r.1 = .wait k ia → t.lane n = { l with stage := 16 + w, wait := some ia } ∧ sent k ia 2)
  ∧ (∀ k ia far, r.1 = .deny k ia far → t.lane n = { l with stage := 15 } ∧ t.mem = u.mem ∧ sent k ia (if far = true then 5 else 2))

/-- A member's message agrees with a create: its count, a rank other than the own one at which the own table names it, and the
same table (R423). -/
def Sys2Proof.SameTable (c : Comm) (m : List Nat) : Prop :=
  let r := m.getD 5 0
  m.getD 4 0 = c.count ∧ r < c.count ∧ r ≠ c.rank ∧ m.drop 7 = c.members.map BitVec.toNat
    ∧ (c.members.getD r 0).toNat / 2 ^ 52 = m.getD 2 0 * 16 + m.getD 3 0

/-- A create has failed: its carry grid, if it has one, fails with error 3, the handle is free and no core is reserved (R423). -/
def Sys2Proof.undone (u : State) (key : Nat) (grid : Option Nat) : State :=
  let w := match grid with
    | some gh => u.failGrid gh 3 0 0 0xFFFF
    | none => u
  { w with comms := w.comms.del key }.unreserve key

/-- The machine without its communicators, lanes and cores. -/
def Sys2Proof.lessComms (s : State) : State := { s with comms := [], lanes := [], cores := [] }

/-- R422 to R425, R345: the steps of a create, a destroy and a reset. A create of a handle in use ends with code 3. Otherwise it
reads the member table (code 7 where that cannot be read, code 3 where it does not name this member) and sends it, waits for the
members' answers (code 3 where a table differs) and takes the highest contract that all carry (code 1 where there is none), reserves its
carry cores, launches the carry grid (code 4 where its record or its header fails, or its contract is another), and opens with code 0.
A destroy or a reset of a communicator that is not open or
failed ends with code 6; a destroy ends its collectives, waits for the carry grid, and ends with code 0 and the handle free; a reset
opens it again with sequence number 0 and ends with code 0. A status word that waits on its page is written again; one that its page
denies completes the packet once its record has been taken. -/
def Sys2Proof.CommunicatorPackets : Prop :=
  ∀ (s : State) (part : Nat) (l : Lane) (p : List Byte), Holds s part l p → pktType p = 6 → let n := s.laneArg
    let key := commKey part (recNum p 4 1)
    let good : Prop := s.commAddrBad part l.ctx p = false
    Rises s.colls →
    (∀ i ∈ [(Instr.commCreate, 0), (.commDestroy, 1), (.commReset, 2)], recNum p 1 1 = i.2 → l.stage = 0 → ¬good →
      ∃ t, exec i.1 s = .next t ∧ LaneFails s t n part l p 4)
    ∧ (recNum p 1 1 = 0 → l.stage = 0 → good → (s.comms.find key).isSome = true →
      ∃ t, exec .commCreate s = .next t ∧ Ends s t n part l p (commWord 3 0 (recNum p 18 2) 0) ∧ t.comms = s.comms)
    ∧ (recNum p 1 1 = 0 → l.stage = 0 → good → s.comms.find key = none → ∀ bs u,
      s.sysRead part l.ctx (recNum p 8 8) (8 * recNum p 16 2) = (.ok bs, u) → u.comms = s.comms →
      let me := (tableOf bs).getD (recNum p 18 2) 0
      (∀ e ∈ tableOf bs, e.toNat % 2 ^ 52 < 8) → me.toNat / 2 ^ 52 = s.modid.toNat * 16 + part → me.toNat % 8 = recNum p 4 1 →
      ∃ t c, exec .commCreate s = .next t ∧ (t.lane n).stage = 2 ∧ (t.lane n).pkt = some p ∧ t.comms.find key = some c
        ∧ c.state = 1 ∧ c.members = tableOf bs ∧ c.rank = recNum p 18 2 ∧ c.count = recNum p 16 2 ∧ c.perDie = recNum p 5 1
        ∧ c.told = true ∧ c.since = s.cycle)
    ∧ (recNum p 1 1 = 0 → (l.stage = 0 ∧ good ∧ s.comms.find key = none ∨ l.stage = 1) →
      (∀ c, s.comms.find key = some c → c.grid = none) → ∀ r u, s.sysRead part l.ctx (recNum p 8 8) (8 * recNum p 16 2) = (r, u) →
      let fits (bs : List Byte) : Prop := (∀ e ∈ tableOf bs, e.toNat % 2 ^ 52 < 8)
        ∧ ((tableOf bs).getD (recNum p 18 2) 0).toNat / 2 ^ 52 = s.modid.toNat * 16 + part
        ∧ ((tableOf bs).getD (recNum p 18 2) 0).toNat % 8 = recNum p 4 1
      let failsWith (code : Nat) : Prop := ∃ t v, exec .commCreate s = .next t ∧ t.comms.find key = none
        ∧ lessComms v = lessComms u ∧ Ends v t n part l p (commWord code 0 (recNum p 18 2) 0)
      (∀ k ia, r = .wait k ia → ∃ t, exec .commCreate s = .next t ∧ t.lane n = { l with stage := 1, wait := some ia })
      ∧ (r = .none ∨ (∃ k ia far, r = .deny k ia far) → failsWith 7)
      ∧ (∀ bs, r = .ok bs → ¬fits bs → failsWith 3))
    ∧ (recNum p 1 1 = 0 → l.stage = 2 → ∀ c, s.comms.find key = some c → c.grid = none →
      let carriesAll (x : Nat) : Prop := carriedSet.testBit x = true ∧ ∀ m ∈ c.msgs, (m.getD 6 0).testBit x = true
      ((∃ m ∈ c.msgs, ¬SameTable c m) → ∃ t, exec .commCreate s = .next t ∧ t.comms.find key = none
        ∧ Ends (undone s key none) t n part l p (commWord 3 0 (recNum p 18 2) 0))
      ∧ ((∀ m ∈ c.msgs, SameTable c m) → (∀ r < c.count, r ≠ c.rank → ∃ m ∈ c.msgs, m.getD 5 0 = r) →
        (∀ x, 1 ≤ x → x ≤ 15 → ¬carriesAll x) → ∃ t, exec .commCreate s = .next t ∧ t.comms.find key = none
        ∧ Ends (undone s key none) t n part l p (commWord 1 0 (recNum p 18 2) 0)))
    ∧ (recNum p 1 1 = 0 → l.stage = 2 → ∀ c, s.comms.find key = some c → (∀ m ∈ c.msgs, SameTable c m) →
      ((∃ r < c.count, r ≠ c.rank ∧ ∀ m ∈ c.msgs, m.getD 5 0 ≠ r) → exec .commCreate s = .next s)
      ∧ ((∀ r < c.count, r ≠ c.rank → ∃ m ∈ c.msgs, m.getD 5 0 = r) →
        ∀ k, 1 ≤ k → k ≤ 15 → (∀ x, 1 ≤ x → x ≤ 15 →
          (carriedSet.testBit x = true ∧ ∀ m ∈ c.msgs, (m.getD 6 0).testBit x = true) → x ≤ k) →
        (carriedSet.testBit k = true ∧ ∀ m ∈ c.msgs, (m.getD 6 0).testBit k = true) →
        ∃ t, exec .commCreate s = .next t ∧ t.comms.find key = some { c with contract := k, since := s.cycle }
          ∧ t.lane n = { l with stage := 3 }))
    ∧ (recNum p 1 1 = 0 → l.stage = 3 → ∀ c, s.comms.find key = some c →
      let dies := (List.range 4).filter fun d => (s.quadsOf part).any fun q => q / 4 == d
      if ∃ d ∈ dies, (s.idleCores part l.ctx d).length < recNum p 5 1 then exec .commCreate s = .next s
      else ∃ t, exec .commCreate s = .next t ∧ t.lane n = { l with stage := 4 }
        ∧ t.comms.find key = some { c with cores := dies.flatMap fun d => (s.idleCores part l.ctx d).take (recNum p 5 1) }
        ∧ ∀ k, (t.core k).carry = if ∃ d ∈ dies, k ∈ (s.idleCores part l.ctx d).take (recNum p 5 1) then some key
            else (s.core k).carry)
    ∧ (recNum p 1 1 = 0 → l.stage = 4 → ∀ bs u, s.sysRead part l.ctx (recNum p 32 8) 128 = (.ok bs, u) → u.lanes = s.lanes →
      ∃ t, exec .commCreate s = .next t ∧ t.lane n = { l with stage := 5 }
        ∧ ∀ c, u.comms.find key = some c → ∃ gh, (t.comms.find key).map Comm.grid = some (some gh)
          ∧ ∀ g, t.grids.find gh = some g → g.mask = some (coreMask c.cores) ∧ g.carry = some key)
    ∧ (recNum p 1 1 = 0 → l.stage = 4 → ∀ c, s.comms.find key = some c → c.grid = none → ∀ r u,
      s.sysRead part l.ctx (recNum p 32 8) 128 = (r, u) → r = .none ∨ (∃ k ia far, r = .deny k ia far) →
      ∃ t, exec .commCreate s = .next t ∧ t.comms.find key = none ∧ (∀ k, (t.core k).carry ≠ some key)
        ∧ Ends (undone u key none) t n part l p (commWord 4 0 (recNum p 18 2) 0))
    ∧ (recNum p 1 1 = 0 → l.stage = 5 → ∀ c gh, s.comms.find key = some c → c.grid = some gh →
      let u := if ((s.grids.find gh).bind Grid.hdr).isNone = true then s.attempt gh else s
      ((∃ g, u.grids.find gh = some g ∧ g.failed = none ∧ g.hdr = none) → exec .commCreate s = .next u)
      ∧ ((∃ g h, u.grids.find gh = some g ∧ g.failed = none ∧ g.hdr = some h ∧ h.eff = c.contract) →
        ∃ t, exec .commCreate s = .next t ∧ t.comms.find key = some { c with state := 2, seq := 0, msgs := [] }
          ∧ Ends { u with comms := u.comms.adj key fun c => { c with state := 2, seq := 0, msgs := [] } } t n part l p
              (commWord 0 c.perDie c.rank c.contract))
      ∧ (u.grids.find gh = none ∨ (∃ g, u.grids.find gh = some g
          ∧ (g.failed ≠ none ∨ ∃ h, g.hdr = some h ∧ h.eff ≠ c.contract)) →
        ∃ t, exec .commCreate s = .next t ∧ t.comms.find key = none ∧ (∀ k, (t.core k).carry ≠ some key)
          ∧ Ends (undone u key (some gh)) t n part l p (commWord 4 0 (recNum p 18 2) 0)))
    ∧ (∀ i ∈ [(Instr.commCreate, 0), (.commDestroy, 1), (.commReset, 2)], recNum p 1 1 = i.2 →
      (l.stage = 15 → ∃ t, exec i.1 s = .next t ∧ LaneBecomes s t n (completed l) id)
      ∧ (16 ≤ l.stage → ∃ t, exec i.1 s = .next t ∧ t.comms = s.comms ∧ Ends s t n part l p (l.stage - 16)))
    ∧ (∀ i ∈ [(Instr.commDestroy, 1), (.commReset, 2)], recNum p 1 1 = i.2 → l.stage = 0 → good →
      (∀ c, s.comms.find key = some c → c.state < 2 ∨ c.closing = true) →
      ∃ t, exec i.1 s = .next t ∧ Ends s t n part l p (commWord 6 0 0 0) ∧ t.comms = s.comms)
    ∧ (∀ c, s.comms.find key = some c → 2 ≤ c.state → c.closing = false → l.stage = 0 → good →
      (recNum p 1 1 = 1 → ∃ t, exec .commDestroy s = .next t ∧ t.lane n = { l with stage := 1 }
        ∧ t.comms.find key = some { c with closing := true, lane := n }
        ∧ ∀ k x, s.colls.find k = some x → t.colls.find k = some
            (if x.comm = key ∧ x.failed = none then { x with failed := some 3 } else x))
      ∧ (recNum p 1 1 = 2 → ∃ t, exec .commReset s = .next t
        ∧ t.comms.find key = some { c with state := 2, seq := 0, early := [] }
        ∧ (∃ v, { v with comms := [], colls := [], steps := [] } = { s with comms := [], colls := [], steps := [] }
          ∧ Ends v t n part l p (commWord 0 c.perDie c.rank c.contract))
        ∧ ∀ k x, s.colls.find k = some x → t.colls.find k = some
            (if x.comm = key ∧ x.failed = none then { x with failed := some 3 } else x)))
    ∧ (recNum p 1 1 = 1 → l.stage = 1 → ∀ c, s.comms.find key = some c →
      ((∃ gh g, c.grid = some gh ∧ s.grids.find gh = some g) → exec .commDestroy s = .next s)
      ∧ ((∀ gh, c.grid = some gh → s.grids.find gh = none) → ∃ t, exec .commDestroy s = .next t
        ∧ t.comms.find key = none ∧ (∀ k, (t.core k).carry ≠ some key)
        ∧ Ends (undone s key none) t n part l p (commWord 0 0 c.rank c.contract)))

/-- R423: a member's answer to a create is kept for the create; a create that has waited 100 ms while a member has not answered ends
with code 2, and one that has waited as long while some die of the partition has too few idle cores with code 5, with its
reservations undone. -/
def Sys2Proof.CreateAnswers : Prop :=
  ∀ (s : State) (c : Comm), let key := commKey (s.arg 0) (s.arg 1)
    s.comms.find key = some c →
    (∃ t, exec .commMemberMessage s = .next t ∧ { t with comms := [], colls := [] } = { s with comms := [], colls := [] }
      ∧ Hears s t (s.arg 0) (s.arg 2 * 16 + s.arg 3)
      ∧ t.comms.find key = some (if c.state = 1 then { c with msgs := c.msgs ++ [s.args] } else c)
      ∧ ∀ k, k ≠ key → t.comms.find k = s.comms.find k)
    ∧ (∀ p, (s.lane c.lane).pkt = some p → let l := s.lane c.lane
      let due : Prop := c.state = 1 ∧ c.since.toNat + 110000000 ≤ s.cycle.toNat
        ∧ ((l.stage = 2 ∧ ∃ r < c.count, r ≠ c.rank ∧ ∀ m ∈ c.msgs, m.getD 5 0 ≠ r)
          ∨ (l.stage = 3 ∧ ∃ d < 4, (∃ q ∈ s.quadsOf c.part, q / 4 = d)
            ∧ (s.idleCores c.part c.ctx d).length < recNum p 5 1))
      (¬due → exec .commCreateTimeout s = .next s)
      ∧ (due → c.grid = none → commKey c.part (recNum p 4 1) = key → ∃ t, exec .commCreateTimeout s = .next t
        ∧ t.comms.find key = none ∧ (∀ k, (t.core k).carry ≠ some key)
        ∧ Ends (undone s key none) t c.lane c.part l p
            (commWord (if l.stage = 2 then 2 else 5) 0 (recNum p 18 2) 0)))

/-- The packets that create, destroy and reset communicators, and the answers of members. Code 6 for a communicator that closes,
the own rank in the status word of a failed create, and 100 ms counted from the sending of the table are read from R422 to R425
(log entry 35, DEDUCED); 100 ms are 110,000,000 cycles of 1,100 MHz (log entry 5). -/
def Obligations.CommunicatorSteps : Prop := CommunicatorPackets ∧ CreateAnswers

/-- What is sent to each other member of a communicator. -/
def Sys2Proof.told (c : Comm) (msg : List Byte) : List Out :=
  (((List.range c.members.length).zip c.members).filter fun m => m.1 != c.rank).map fun m => ⟨6, m.1, m.2.toNat, msg⟩

/-- R429, R430, R435, R437: when every group of a block has issued its COLL, the block's oldest collective starts: it takes the
communicator's next sequence number, and without an open communicator, or in error, it fails with reason 2; after a destroy, with reason 3. Members whose descriptions differ
fail it with reason 0, and the communicator with it; a member's failure is taken over. A collective that waits for a member
that has sent nothing for 100 ms fails with reason 1; it waits for one whose description has not come, or whose data are missing.
A collective that is over ends every COLL of it, with the COLL_MISMATCH that a failed one raises. That reasons 2 and 3 are given
at the start, with number 0 where there is no communicator, is log entry 34; that one which has failed before its start takes its
number and tells the members is log entry 36. -/
def Sys2Proof.CollectiveRuns : Prop :=
  ∀ (s : State) (k : Collective), s.colls.find (s.arg 0) = some k → let id := s.arg 0
    let y := CollDesc.of k.desc
    (k.started = false → (s.collReady k = false ∨ ∃ x ∈ s.colls, x.1 < id ∧ x.2.blk = k.blk ∧ x.2.started = false) →
      exec .collectiveStart s = .next s)
    ∧ (k.started = false → s.collReady k = true → (∀ x ∈ s.colls, x.1 < id → x.2.blk = k.blk → x.2.started = true) →
      (∀ c, s.comms.find k.comm = some c → c.state < 2) → k.failed = none →
      ∃ t, exec .collectiveStart s = .next t ∧ ∃ r, t.colls.find id = some r ∧ r.started = true ∧ r.failed = some 2
        ∧ r.seq = 0 ∧ r.left = [(0, y.dstBytes 1)])
    ∧ (∀ c, k.started = false → s.collReady k = true → (∀ x ∈ s.colls, x.1 < id → x.2.blk = k.blk → x.2.started = true) →
      s.comms.find k.comm = some c → c.state = 2 → c.closing = false → c.early = [] → k.failed = none →
      ∃ t r, exec .collectiveStart s = .next t ∧ t.colls.find id = some r ∧ r.started = true ∧ r.failed = none
        ∧ r.seq = c.seq ∧ r.left = [(0, y.dstBytes c.count)]
        ∧ (t.comms.find k.comm).map Comm.seq = some (c.seq + 1)
        ∧ t.outbox = s.outbox ++ told c (collMsg c.seq 0 y.compared))
    ∧ (∀ c, k.started = false → s.collReady k = true → (∀ x ∈ s.colls, x.1 < id → x.2.blk = k.blk → x.2.started = true) →
      s.comms.find k.comm = some c → 2 ≤ c.state → c.state ≠ 2 ∨ c.closing = true → k.failed = none →
      ∃ t r, exec .collectiveStart s = .next t ∧ t.colls.find id = some r ∧ r.started = true ∧ r.seq = c.seq
        ∧ r.failed = some (if c.closing = true then 3 else 2) ∧ (t.comms.find k.comm).map Comm.seq = some (c.seq + 1)
        ∧ t.outbox = s.outbox ++ (if c.state = 2 then told c (collMsg c.seq 1 [3]) else []) ∧ t.mem = s.mem ∧ t.steps = s.steps)
    ∧ (∀ reason, k.started = false → s.collReady k = true → (∀ x ∈ s.colls, x.1 < id → x.2.blk = k.blk → x.2.started = true) →
      k.failed = some reason → ∃ t r, exec .collectiveStart s = .next t ∧ t.colls.find id = some r ∧ r.started = true
        ∧ r.failed = some reason ∧ t.mem = s.mem ∧ t.steps = s.steps
        ∧ (∀ c, s.comms.find k.comm = some c → 2 ≤ c.state → r.seq = c.seq ∧ (t.comms.find k.comm).map Comm.seq = some (c.seq + 1)
          ∧ t.outbox = s.outbox ++ (if c.state = 2 then told c (collMsg c.seq 1 [reason]) else []))
        ∧ ((∀ c, s.comms.find k.comm = some c → c.state < 2) → r.seq = 0 ∧ t.outbox = s.outbox))
    ∧ ((k.started = true → k.failed = some 0 ∨ k.begun = true → exec .collectiveStart s = .next s)
      ∧ (s.collOver id k = false → exec .collectiveComplete s = .next s)
      ∧ (s.collOver id k = true → ∃ t, exec .collectiveComplete s = .next t ∧ t.colls.find id = none
        ∧ (∀ n, n ≠ id → t.colls.find n = s.colls.find n)
        ∧ ∀ n o, s.ops.find n = some o → t.ops.find n = some (if ∃ x ∈ k.ops, x.2 = n then
            { o with finished := true, stamp := k.failed.map fun r => BitVec.ofNat 64 (k.seq.toNat + r * 2 ^ 32) } else o)))
    ∧ ∀ c, s.comms.find k.comm = some c → let rank := s.arg 1
      (rank < c.count → rank ≠ c.rank → rank ∉ k.exch → k.waitsFor c rank = true)
      ∧ (rank = c.rank ∨ c.count ≤ rank ∨ (rank ∈ k.exch ∧ k.left = [] ∧ (y.op = 0 ∨ y.op = 2 ∨ y.op = 3)) →
          k.waitsFor c rank = false)
      ∧ (rank < c.count → rank ≠ c.rank → rank ∈ k.exch →
        (y.op = 3 → (k.waitsFor c rank = true ↔ y.root = rank ∧ k.left ≠ []))
        ∧ (y.op = 1 ∨ y.op = 4 →
          (k.waitsFor c rank = true ↔ k.written (rank * y.blockBytes, (rank + 1) * y.blockBytes) = false))
        ∧ (y.op = 0 ∨ y.op = 2 → (k.waitsFor c rank = true ↔
          (k.parts.filter fun x => x.2.1 == rank).length * elemSize y.ty < (k.left.map fun x => x.2 - x.1).sum)))
      ∧ (k.started = true → k.failed = none → k.waitsFor c rank = true →
          ((k.seen.find rank).getD 0) + 110000000 ≤ s.cycle.toNat → ∃ t, exec .memberLostTimeout s = .next t
        ∧ (t.colls.find id).map Collective.failed = some (some 1)
        ∧ (t.comms.find k.comm).map Comm.state = some (if c.state = 2 then 3 else c.state))
      ∧ (k.waitsFor c rank = false ∨ s.cycle.toNat < ((k.seen.find rank).getD 0) + 110000000 →
          exec .memberLostTimeout s = .next s)

/-- What a member sends to another member `j` of a collective (R428, R432): the kind of the steps, and where the block begins. -/
def Sys2Proof.sends (y : CollDesc) (rank j : Nat) : Option (Nat × Nat) :=
  match y.op with
  | 0 => some (2, y.src)
  | 2 => some (2, y.src + j * y.blockBytes)
  | 1 => some (1, y.src)
  | 4 => some (1, y.src + j * y.blockBytes)
  | _ => if y.root = rank then some (1, y.src) else none

/-- The block that a member keeps for itself (R428): where it begins in the source and in the destination. -/
def Sys2Proof.keeps (y : CollDesc) (rank : Nat) : Option (Nat × Nat) :=
  match y.op with
  | 1 => some (0, rank * y.blockBytes)
  | 4 => some (rank * y.blockBytes, rank * y.blockBytes)
  | 3 => if y.root = rank ∧ y.src ≠ y.dst then some (0, 0) else none
  | _ => none

/-- R428, R432: a collective whose members' descriptions all agree and whose own pages permit it begins. An all-reduce and a
reduce-scatter push reduce steps to every other member, an all-gather and an all-to-all store steps, and a broadcast store
steps at its root alone. Its own block goes straight to its destination (stated for blocks of one element), and is written. -/
def Sys2Proof.CollectiveBegins : Prop :=
  ∀ (s : State) (k : Collective), s.colls.find (s.arg 0) = some k → let id := s.arg 0
    let y := CollDesc.of k.desc
    let b := y.blockBytes
    let es := elemSize y.ty
    ∀ c ts u, k.started = true → k.begun = false → k.failed = none → k.wait = none → s.comms.find k.comm = some c →
      (∀ r < c.count, r = c.rank ∨ r ∈ k.exch) → s.collPages k c = (ts, u) →
      (∀ x ∈ ts, x.1.waits = false ∧ x.1.denied = false) → 0 < b → b ≤ 2 ^ 31 → Rises s.steps →
      (∀ x ∈ s.steps, x.2.coll ≠ id) → s.steps.length + 2 * c.count < 2 ^ 31 →
      ∃ t r, exec .collectiveStart s = .next t ∧ t.colls.find id = some r ∧ r.begun = true ∧ r.failed = none
        ∧ (∀ j < c.count, j ≠ c.rank → ∀ kind a, sends y c.rank j = some (kind, a) →
          ∃ n x, s.steps.find n = none ∧ t.steps.find n = some x ∧ x.coll = id ∧ x.comm = k.comm ∧ x.kind = kind
            ∧ x.src = BitVec.ofNat 64 a ∧ x.bytes = b ∧ x.ety = y.ty ∧ x.popped = false)
        ∧ (t.steps.filter fun x => x.2.coll == id && x.2.kind != 0).length
            = ((List.range c.count).filter fun j => j != c.rank && (sends y c.rank j).isSome).length
        ∧ ((y.op = 1 ∨ y.op = 4) → ∀ x ∈ r.left, x.2 ≤ c.rank * b ∨ (c.rank + 1) * b ≤ x.1)
        ∧ ∀ from_ upTo ks kd su sd, y.n = 1 → keeps y c.rank = some (from_, upTo) →
          u.target k.part (.ia (k.src + from_)) es true false = (.key ks su none, u) →
          u.target k.part (.ia (k.dst + upTo)) es false true = (.key kd sd none, u) →
          ks + es ≤ peerBase → kd + es ≤ peerBase → s.badRange ks es = false → s.padBars = [] →
          Memory.read t.mem kd es = Memory.read s.mem ks es

/-- R433: a collective has failed: its steps that no carry kernel has popped are gone, and so is a popped one that was refused and
whose STEPDONE was issued; another popped one stands until its own STEPDONE. -/
def Sys2Proof.StepsLeft (s t : State) (id : Nat) : Prop :=
  Rises s.steps → ∀ n x, s.steps.find n = some x → x.coll = id →
    t.steps.find n = if x.popped = true ∧ ¬(x.refused = true ∧ x.asked = true) then some x else none

/-- R433, R437: once all contributions of an RRED are sent, the unit answers: it has written their results, which ends the copy, or
it refuses one, which ends it with code 3; it refuses where the step is gone or its communicator has left state 2, and what else
may have happened at the far member is a free value (log entry 2). With its answer a refused step of which it has every element is
served, and ends if its STEPDONE was issued; contributions taken before a refusal stay taken. -/
def Sys2Proof.UnitAnswers : Prop :=
  ∀ (s : State) (op : Nat) (o : EngOp) (c : Copy) (k : Block), s.ops.find op = some o → o.kind = .copy c → s.block o.blk = some k →
    let t := s.unitDone op
    let id := c.ctl.toNat / 2 ^ 32
    let refused : EngOp := { o with code := codeJoin o.code 3, finished := true }
    (c.kind ≠ .rred ∨ o.finished = true ∨ o.todo ≠ [] ∨ o.fixups ≠ [] ∨ o.waiting ≠ [] → t = s)
    ∧ (c.kind = .rred → o.finished = false → o.todo = [] → o.fixups = [] → o.waiting = [] →
      (s.redStep k.part c = none → t.ops.find op = some refused)
      ∧ ∀ p, s.redStep k.part c = some p → let n := p.bytes / elemSize p.ety
        (∀ e ∈ p.taken, e < n) → (∀ x ∈ p.sent, x.2 < n) → Rises s.steps →
        let whole : Prop := ∀ e < n, e ∈ p.taken ∨ (op, e) ∈ p.sent
        (t.ops.find op = some { o with finished := true }
          ∧ (p.asked = true → p.refused = false ∨ whole → t.steps.find id = none)
          ∧ (p.asked = false ∨ (p.refused = true ∧ ¬whole) → ∃ q, t.steps.find id = some q
            ∧ (q.refused = true ↔ p.refused = true ∧ ¬whole) ∧ (∀ e, e ∈ q.taken ↔ e ∈ p.taken ∨ (op, e) ∈ p.sent)))
        ∨ (t.ops.find op = some refused ∧ ∃ q, t.steps.find id = some q ∧ q.refused = true ∧ q.asked = p.asked
          ∧ (∀ e ∈ p.taken, e ∈ q.taken) ∧ ∀ e ∈ q.taken, e ∈ p.taken ∨ (op, e) ∈ p.sent))

/-- R435, R436: of a running collective, a member's description that agrees is noted, one that differs fails it with reason 0 and
its communicator with it, and a member's report of a failure fails it with that reason. One that comes before the collective of
its number has started here is kept, also before the communicator is open (log entry 36); a member in error answers it with
reason 2. -/
def Sys2Proof.ExchangeResults : Prop :=
  ∀ (s : State) (c : Comm), let key := commKey (s.arg 0) (s.arg 1)
    let rank := s.arg 3
    s.comms.find key = some c →
    let who := (c.members.getD rank 0).toNat / 2 ^ 52
    let mine (x : Nat × Collective) : Bool :=
      x.2.comm == key && x.2.started && x.2.failed.isNone && x.2.seq.toNat == s.arg 2
    (c.count ≤ rank ∨ rank = c.rank → ∃ t, exec .collectiveExchange s = .next t
      ∧ { t with colls := [] } = { s with colls := [] } ∧ Hears s t (s.arg 0) who)
    ∧ (rank < c.count → rank ≠ c.rank → s.colls.find? mine = none → ∃ t, exec .collectiveExchange s = .next t
      ∧ Hears s t (s.arg 0) who
      ∧ (c.state < 2 ∨ (c.state = 2 ∧ c.seq.toNat ≤ s.arg 2) → t.outbox = s.outbox
        ∧ t.comms.find key = some { c with early := c.early ++ [s.args] } ∧ ∀ n, n ≠ key → t.comms.find n = s.comms.find n)
      ∧ (c.state = 2 → s.arg 2 < c.seq.toNat → t.comms = s.comms ∧ t.outbox = s.outbox)
      ∧ (c.state = 3 → t.comms = s.comms ∧ t.outbox = s.outbox ++
          (if s.arg 4 = 0 then told c (collMsg (BitVec.ofNat 32 (s.arg 2)) 1 [2]) else [])))
    ∧ (rank < c.count → rank ≠ c.rank → ∀ id k,
      s.colls.find? mine = some (id, k) → s.colls.find id = some k →
      (s.arg 4 = 1 → ∃ t, exec .collectiveExchange s = .next t
        ∧ (t.colls.find id).map Collective.failed = some (some (s.arg 5 % 16)) ∧ StepsLeft s t id
        ∧ (t.comms.find key).map Comm.state = some (if c.state = 2 then 3 else c.state))
      ∧ (s.arg 4 = 0 → s.args.drop 5 ≠ (CollDesc.of k.desc).compared → ∃ t, exec .collectiveExchange s = .next t
        ∧ (t.colls.find id).map Collective.failed = some (some 0) ∧ StepsLeft s t id ∧ (t.comms.find key).map Comm.state = some (if c.state = 2 then 3 else c.state))
      ∧ (s.arg 4 = 0 → s.args.drop 5 = (CollDesc.of k.desc).compared →
        (∃ r < c.count, r ≠ c.rank ∧ r ≠ rank ∧ r ∉ k.exch) → ∃ t, exec .collectiveExchange s = .next t
        ∧ ∃ r, t.colls.find id = some r ∧ rank ∈ r.exch ∧ r.seen.find rank = some s.cycle.toNat
          ∧ r.failed = none ∧ r.begun = k.begun))

/-- R431, R434: an element that has every other member's contribution is written once, with the value that the contributions
give in rank order; poison among them poisons it. A tile whose bytes all have their values is announced in its queue, if that
has room. -/
def Sys2Proof.ReductionAndHarvest : Prop :=
  ∀ (s : State) (k : Collective), s.colls.find (s.arg 0) = some k → let id := s.arg 0
    let e := s.arg 1
    let y := CollDesc.of k.desc
    let es := elemSize y.ty
    (∀ c kd ks u v su sd (xs : Nat → Option Nat), s.openComm k.comm = some c → k.begun = true → k.failed = none →
      k.wait = none → y.reduces = true → e < y.n → k.written (e * es, e * es + es) = false → s.sourceBusy id k = false →
      (∀ r < c.count, r ≠ c.rank → (k.parts.find? fun x => x.1 == e && x.2.1 == r) = some (e, r, xs r)) →
      s.target k.part (.ia (k.src + (if y.op = 2 then c.rank * (y.n * es) else 0) + e * es)) es true false =
        (.key ks su none, u) →
      u.target k.part (.ia (k.dst + e * es)) es false true = (.key kd sd none, v) →
      ks + es < peerBase → kd + es < peerBase → v.padBars = [] → v.colls = s.colls → c.rank < c.count →
      let poison : Prop := v.badRange ks es = true ∨ ∃ r < c.count, r ≠ c.rank ∧ xs r = none
      ∃ t r, exec .reductionUnitWrite s = .next t ∧ t.colls.find id = some r
        ∧ (∀ x ∈ r.parts, x.1 ≠ e) ∧ r.written (e * es, e * es + es) = true
        ∧ (poison → t.bad kd = true ∧ t.mem = v.mem)
        ∧ (¬poison → Memory.num t.mem kd es = reduceUnit c.contract y.red y.ty ((List.range c.count).map fun r =>
            if r = c.rank then Memory.num v.mem ks es else (xs r).getD 0) % 2 ^ (8 * es))
        ∧ ∀ a, ¬(kd ≤ a ∧ a < kd + es) → Memory.get t.mem a = Memory.get v.mem a)
    ∧ (k.begun = false ∨ k.failed.isSome = true ∨ y.reduces = false ∨ y.n ≤ e ∨ k.written (e * es, e * es + es) = true →
      exec .reductionUnitWrite s = .next s)
    ∧ (let n := s.collBytes k
       let key := harvestKey k.die k.part k.ctx y.queue
       let q := (s.harvest.find key).getD []
       let ready : Prop := y.queue ≠ 0 ∧ k.begun = true ∧ k.failed = none ∧ 65536 * e < n ∧ e ∉ k.tiles
         ∧ (∀ x ∈ k.left, x.2 ≤ 65536 * e ∨ min n (65536 * (e + 1)) ≤ x.1) ∧ q.length < 1024
       (¬ready → exec .harvestPush s = .next s)
       ∧ (ready → ∃ t, exec .harvestPush s = .next t
        ∧ t.harvest.find key = some (q ++ [BitVec.ofNat 64 ((y.base + e) % 2 ^ 32)])
        ∧ t.colls.find id = some { k with tiles := k.tiles ++ [e] }
        ∧ (∀ j, j ≠ key → t.harvest.find j = s.harvest.find j)
        ∧ { t with harvest := [], colls := [] } = { s with harvest := [], colls := [] }))

/-- R437: a link that goes down is no longer up; without another up link to its module, the running collectives of communicators
with members there fail with reason 1; a checkpoint that uses it records an error. -/
def Sys2Proof.LinkFailures : Prop :=
  ∀ (s : State) (v : U64), Rises s.colls → Rises s.comms → s.links.find (s.arg 0) = some v → let peer := v.toNat / 2 ^ 8 % 2 ^ 8
    ∃ t w, exec .linkDown s = .next t ∧ t.links.find (s.arg 0) = some w ∧ w.getLsbD 0 = false
      ∧ (∀ i, i ≠ s.arg 0 → t.links.find i = s.links.find i)
      ∧ (t.ckpt = if s.ckpt.busy = true ∧ s.ckpt.links.getLsbD (s.arg 0) = true then { s.ckpt with error := true } else s.ckpt)
      ∧ (t.linked peer = true → t.colls = s.colls ∧ t.comms = s.comms)
      ∧ (t.linked peer = false → ∀ id k c, s.colls.find id = some k → k.started = true → k.failed = none →
        s.comms.find k.comm = some c →
        let there : Prop := ∃ r m, c.members[r]? = some m ∧ r ≠ c.rank ∧ m.toNat / 2 ^ 56 = peer
        (there → (t.colls.find id).map Collective.failed = some (some 1))
        ∧ (¬there → (t.colls.find id).map Collective.failed = some none))

/-- Collectives from their start to their end, reduction units, harvest queues and lost links. When reasons 2 and 3 are given is
log entry 34, how many steps of which kind a block becomes, and what a collective that failed before its start does, log entry 36
(DESIGN CHOICE); 100 ms are 110,000,000 cycles of 1,100 MHz (log entry 5). -/
def Obligations.CollectiveSteps : Prop :=
  CollectiveRuns ∧ CollectiveBegins ∧ ExchangeResults ∧ ReductionAndHarvest ∧ UnitAnswers ∧ LinkFailures

/-! ## One step -/

/-- R83, R201: a step whose turn is a quarter's fetches the word at the program counter of the first group that the quarter
tries and is the meaning of the instruction that the word decodes to; the quarter goes on to its next group only when that
word stood still. Accesses of a hit pass that are still to be performed are performed before a word after the region; before a
word of the handler inside the region all of them if the word orders them, and those up to the last that touches a byte that it
accesses; none before a word of a pass (R194, R325; log entry 3, DESIGN CHOICE). A word that comes from a peer is heard of by
the collectives that run (R437). Before any step the lines that the L2 holds are brought up to date (log entry 53): `s` is `m` with that
done. -/
def Sys2Proof.TurnOfAQuarter : Prop :=
  ∀ (m : State) (core q : Nat) (rest : List Turn) (b n : Nat) (g : Group) (others : List (Nat × Nat × Group)) (k : Block)
    (w : Word) (d : Decoded), let s := m.l2Sync
    s.schedule = .issue core q :: rest → (s.core core).faulted = false →
    let u := { s with schedule := rest, cur := some (b, n), mark := false, args := [] }
    ({ s with schedule := rest } : State).tryOrder core q = (b, n, g) :: others → s.resident b n = some g →
    s.block b = some k → u.fetchWord k g g.pc.toNat true = .word w → decodeWord w = .ok d →
    let v := u.hearWords k g
    let r := v.reaches b n k g d.instr
    let meets : Bool := g.posted.any fun a => a.touches r.1 r.2
    (g.bundle.patch = none → g.bundle.split = none → (∀ w, u.answerer k g g.pc.toNat true ≠ some w) → v = u)
    ∧ (∀ w, g.bundle.patch = none → g.bundle.split = none → u.answerer k g g.pc.toNat true = some w → v = u.heard k.part w)
    ∧ ∃ x t, exec d.instr { x with mark := d.mark } = .next t
      ∧ (g.posted = [] ∨ (g.split.isSome = true ∧ g.handler = false) → x = v)
      ∧ (g.posted ≠ [] → g.split = none ∨ Instr.orders d.instr g.bundle.mods = true ∧ g.handler = true → x = v.landAll b n)
      ∧ (g.posted ≠ [] → g.split.isSome = true → g.handler = true → Instr.orders d.instr g.bundle.mods = false →
        (meets = false → x = v)
        ∧ (meets = true → x = (State.landThrough { v with free := (readOperands d.instr v g).free } b n
            fun a => a.touches r.1 r.2).modGroup b n fun q => { q with held := some (g.held.getD v.free) }))
      ∧ (g.stalled (t.group b n) = false → step m = .next t)
      ∧ (g.stalled (t.group b n) = true → step m = issueFirst others t)

/-- A group that may issue in one cycle with the group that a quarter has chosen (R204): of its block and in its quarter, ready,
at the same program counter, with a word that may issue in a gang. -/
def Sys2Proof.Ganged (s : State) (core q : Nat) (lead x : Nat × Nat × Group) : Prop :=
  x ∈ s.quarterGroups core q ∧ x.1 = lead.1 ∧ x.2.1 ≠ lead.2.1 ∧ x.2.2.pc = lead.2.2.pc ∧ s.ready x.1 x.2.1 x.2.2 = true
    ∧ s.gangWord x.1 x.2.2 = true

/-- R204: which words may issue in a gang: no prefix, no F64 word of class B or C, and none whose bundle carries the solo bit. -/
def Sys2Proof.GangWords : Prop :=
  ∀ (s : State) (b : Nat) (k : Block) (g : Group) (w : Word) (d : Decoded), s.block b = some k →
    s.fetchWord k g g.pc.toNat true = .word w → decodeWord w = .ok d →
    (s.gangWord b g = true ↔ d.instr.isPrefix = false
      ∧ f64Word (shapeOf d.instr (typeInForce g.bundle g.mode)) (typeInForce g.bundle g.mode) = false
      ∧ ∀ x, g.bundle.sched = some x → x.1 = false)

/-- R87, R204, R205: where one group may join the one that the quarter chose, both words issue in one turn, in either order, each with
the effect that it has alone; where none may, the turn is the chosen group's alone. That the quarter has issued the chosen group
last, and that a member of the gang which has yielded is tried behind the groups outside it, is log entry 49 (DEDUCED). -/
def Sys2Proof.GangTurns : Prop :=
  ∀ (m : State) (core q : Nat) (rest : List Turn) (order : List (Nat × Nat)) (lead : Nat × Nat × Group), let s := m.l2Sync
    s.schedule = .gang core q order :: rest → (s.core core).faulted = false →
    let u := { s with schedule := rest }
    (u.tryOrder core q).find? (fun x => u.ready x.1 x.2.1 x.2.2) = some lead →
    (∀ x, u.gangWord lead.1 lead.2.2 = true → Ganged u core q lead x → (∀ y, Ganged u core q lead y → y = x) →
      ∀ a b, (a, b) ∈ [((lead.1, lead.2.1), (x.1, x.2.1)), ((x.1, x.2.1), (lead.1, lead.2.1))] → order = [a, b] →
      ∀ t1 t2, u.runGroup a.1 a.2 = .next t1 → t1.runGroup b.1 b.2 = .next t2 → ∃ t, step m = .next t
        ∧ ({ t with cores := [] } : State) = { t2 with cores := [] }
        ∧ (∀ r, t2.resident lead.1 lead.2.1 = some r →
          ((t.core core).quarter q).lastSlot = r.slot ∧ ((t.core core).quarter q).lock = none
          ∧ let before := ((t2.core core).quarter q).yielded
            let outside (y : Nat × Block) (z : Nat × Group) : Prop := y ∈ t2.blocks ∧ y.2.st = .resident ∧ z ∈ y.2.groups
              ∧ z.2.core = core ∧ z.2.quarter = q ∧ (y.1, z.1) ≠ (lead.1, lead.2.1) ∧ (y.1, z.1) ≠ (x.1, x.2.1)
            (∀ e, t2.resident x.1 x.2.1 = some e → e.park = .yieldNow → (∃ y z, outside y z) →
              ∃ l, ((t.core core).quarter q).yielded = before ++ [⟨x.1, x.2.1, e.slot, l⟩]
                ∧ ∀ n, n ∈ l ↔ ∃ y z, outside y z ∧ z.2.slot = n)
            ∧ ((∀ e, t2.resident x.1 x.2.1 = some e → e.park ≠ .yieldNow) ∨ (∀ y z, ¬outside y z) →
              ((t.core core).quarter q).yielded = before)))
    ∧ (u.gangWord lead.1 lead.2.2 = false ∨ (∀ x, ¬Ganged u core q lead x) → step m = u.issueTurn core q)

/-- R10, R83, R326: the word at an executable virtual address that no cache holds is the four bytes behind its window, the
lowest address first; that of a peer's page, where no route or no up link leads to it, is denied with kind 3 (R340, R420). -/
def Sys2Proof.WordsFetched : Prop :=
  ∀ (s : State) (k : Block) (g : Group) (va ia key : Nat) (x : Window) (st : Nat) (dirty : Option Nat),
    g.ahead = [] → s.mapVa k.part k.ctx va = some (x, ia) → x.canX = true → x.kindOk ia = true → x.kind ≠ 2 →
    s.memSide k.part ia true false = .ok key st dirty → (s.core g.core).icache.find ia = none →
    (key < peerBase → s.fetchWord k g va true = .word (Memory.get s.mem (key + 3) ++ Memory.get s.mem (key + 2)
      ++ Memory.get s.mem (key + 1) ++ Memory.get s.mem key))
    ∧ (peerBase ≤ key → (∀ a, s.fabricAddr k.part (key - peerBase) = some a → s.linked (a / 2 ^ 56) = false) →
      s.fetchWord k g va true = .fault 0x0A (some (va, ia, 3)))

/-- A step runs the word that its group fetches and decodes; or the words of a gang. -/
def Obligations.StepRunsDecodedWord : Prop := TurnOfAQuarter ∧ GangWords ∧ GangTurns ∧ WordsFetched

/-- The model's own order (log entry 1): a step of the device that the schedule names runs with its arguments; an empty schedule
stands for the next turn in rotation. Before any step the lines that the L2 holds are brought up to date (log entry 53). -/
def Obligations.StepRunsScheduledEvent : Prop :=
  (∀ (s : State) (i : Instr) (args : List Nat) (rest : List Turn), s.schedule = .event i args :: rest → isStep i = true →
    step s = exec i { s.l2Sync with schedule := rest, cur := none, mark := false, args := args })
  ∧ (∀ (s : State) (n : Nat) (rest : List Turn), s.schedule = .tick n :: rest → ∃ t, step s = .next t
    ∧ t.cycle = s.cycle + BitVec.ofNat 64 n ∧ t.mem = s.l2Sync.mem ∧ ∀ b m, (t.group b m).map Group.specials = (s.group b m).map Group.specials)
  ∧ ∀ s : State, s.schedule = [] → step s = { s.l2Sync with rot := s.rot + 1 }.turn s.l2Sync.autoTurn
    ∧ (s.l2 = [] → step s = step { s with rot := s.rot + 1, schedule := [s.autoTurn] })

/-! ## Encodings -/

/-- Words written out from the tables of R20 to R24, R31, R106 and R142, with their switch markers and instructions. -/
def Sys2Proof.writtenWords : List (Word × Bool × Instr) :=
  [(0x00000000, false, .nop), (0x80000000, true, .nop), (0x03000A00, false, .pfxMod 0 0 0 0 0x14 0 0 0 0), (0x07FFFFFE, false, .bra 0xFFFFFE)]
  ++ [(0x0A1E0010, false, .call 0x1E 0x10), (0x0B000500, false, .jmpi 5), (0x0B000501, false, .ret 5), (0x10010203, false, .sadd 1 2 3)]
  ++ [(0xA40102FF, true, .saddi 1 2 0xFF), (0x2505ABCD, false, .sli 5 0xABCD), (0x2B040123, false, .srd 4 0x123), (0x3D01022A, false, .ld 1 2 1 1 2)]
  ++ [(0x40030405, false, .vadd 3 4 5), (0x510606FF, false, .vaddi 6 6 0xFF), (0x552A0405, false, .vcmpp 2 0xA 4 5), (0x5E030007, false, .ldk 3 7)]
  ++ [(0x60010203, false, .vfadd 1 2 3), (0x6C010203, false, .vfspecExp2 1 2), (0x70010211, false, .vcvt 1 2 0 0x11), (0x73010203, false, .vshfl 1 2 3)]
  ++ [(0x7C322003, false, .mxmma 3 2 0x20 1 1), (0x7D050A3F, false, .mxrd 5 10 63), (0x7F050000, false, .csync), (0x7F060102, false, .waitc 1 2)]
  ++ [(0x7F100208, false, .cpt 2 8), (0x7F310500, false, .spaff 5), (0x7F400A00, false, .tnext 10), (0x7F500203, false, .spawn 2 3)]
  ++ [(0x7F600508, false, .coll 5 8)]

/-- R20 to R25: each of these words decodes to its instruction. -/
def Obligations.DecodeWords : Prop := ∀ p ∈ writtenWords, decodeWord p.1 = .ok ⟨p.2.1, p.2.2⟩

/-- R20 to R25: decoding the word of an instruction gives the instruction back with its switch marker and every field, whatever
follows the word; and a word that decodes is the one word of its instruction, so no bit of it is dropped. -/
def Obligations.DecodeEncode : Prop :=
  (∀ (d : Decoded) (w : Word) (rest : List Byte), encode d = some w →
    decodeWord w = .ok d ∧ decode (wordBytes w ++ rest) = .ok (d, rest))
  ∧ ∀ (w : Word) (d : Decoded), decodeWord w = .ok d → encode d = some w

/-! ## Operands -/

/-- A register number by R31: the field, plus 256 under the field's bank bit, plus x(sel) under its ind bit. -/
def Sys2Proof.fieldSum (m : Mod) (g : Group) (f : BitVec 8) (pos : Nat) : Nat :=
  f.toNat + (if m.bank.getLsbD (3 - pos) then 256 else 0)
    + if m.ind.getLsbD (3 - pos) then (g.x.get m.sel.toNat).toNat else 0

/-- The register operands of the memory, predicate, barrier, copy, abacus, spline, schedule and fabric words (R80 to R108, R168 to
R176, R226 to R242, R253 to R290, R377 to R384, R429 to R433): the field F1, F2 or F3, the number in it, its file, how many registers
from that one on, and whether the word reads them. -/
def Sys2Proof.familyOperands (i : Instr) : List (Nat × Nat × RegFile × Nat × Bool) :=
  let s1 (pos : Nat) (f : BitVec 8) (read : Bool) : Nat × Nat × RegFile × Nat × Bool := (pos, f.toNat, .s, 1, read)
  let sn (pos : Nat) (f : BitVec 8) (n : Nat) (read : Bool) : Nat × Nat × RegFile × Nat × Bool := (pos, f.toNat, .s, n, read)
  let v1 (pos : Nat) (f : BitVec 8) (read : Bool) : Nat × Nat × RegFile × Nat × Bool := (pos, f.toNat, .v, 1, read)
  let vn (pos : Nat) (f : BitVec 8) (n : Nat) (read : Bool) : Nat × Nat × RegFile × Nat × Bool := (pos, f.toNat, .v, n, read)
  match i with
  | .sld d a _ _ z => [sn 1 d (if z = 4 then 2 else 1) false, s1 2 a true]
  | .sst d a _ z => [sn 1 d (if z = 4 then 2 else 1) true, s1 2 a true]
  | .satom d a _ _ _ o => [sn 1 d (if o = 8 then 2 else 1) true, s1 2 a true]
  | .ld d a _ _ z => [vn 1 d (if z = 4 then 2 else 1) false, v1 2 a true]
  | .st d a _ z => [vn 1 d (if z = 4 then 2 else 1) true, v1 2 a true]
  | .atom d a _ _ _ o => [vn 1 d (if o = 8 then 2 else 1) true, v1 2 a true]
  | .ldk d _ => [v1 1 d false]
  | .stk d _ => [v1 1 d true]
  | .pset _ a | .psetLive _ a => [s1 2 a true]
  | .pget d _ | .pfirst d _ | .plast d _ | .pcnt d _ => [s1 1 d false]
  | .barinit a b | .bararr a b | .barwait a b | .bartry a b | .slotret a b => [s1 2 a true, s1 3 b true]
  | .cpt a b | .cpm a b | .cpred a b | .rld a b | .rst a b | .rred a b => [s1 2 a false, sn 3 b 24 true]
  | .cpg a b => [v1 2 a false, v1 3 b true]
  | .cps a b => [v1 2 a true, v1 3 b true]
  | .mxmma _ _ a _ _ | .speval a _ _ => [v1 2 a true]
  | .mxrd d _ _ => [v1 1 d false]
  | .mxwr a _ _ => [v1 1 a true]
  | .mxldw a _ | .mxldws a _ => [s1 2 a true]
  | .mxzero a | .spaff a | .spldc a | .spstc a => [s1 2 a true]
  | .mxfmt a | .mxst a | .spdx a => [sn 2 a 2 true]
  | .spknot a | .spgrad a => [sn 2 a 3 true]
  | .spcnt d a => [sn 2 d 2 false, s1 3 a true]
  | .tnext d => [sn 2 d 6 false]
  | .tstat d => [sn 2 d 2 false]
  | .schr d _ _ | .schcom d => [s1 2 d false]
  | .schw a _ => [s1 2 a true]
  | .tdone a b | .trel a b | .stepdone a b => [s1 2 a true, s1 3 b true]
  | .covr d a | .spawn d a | .arqpop d a => [s1 2 d false, s1 3 a true]
  | .steppop d a => [sn 2 d 4 false, s1 3 a true]
  | .coll a b => [s1 2 a true, sn 3 b 8 true]
  | _ => []

/-- The words of those families that act per lane (R31, R47), and the predicate registers that the predicate words read. -/
def Sys2Proof.perLane (i : Instr) : Bool :=
  match i with
  | .ld .. | .st .. | .atom .. | .ldk .. | .stk .. | .cpg .. | .cps .. | .mxmma .. | .mxrd .. | .mxwr .. | .mxst .. | .speval .. => true
  | _ => false

def Sys2Proof.predicatesRead (i : Instr) : List Nat :=
  match i with
  | .pget _ a | .pfirst _ a | .plast _ a | .pcnt _ a => [a.toNat]
  | .plog _ a b _ => [a.toNat, b.toNat]
  | _ => []

/-- R31, R45, R47, R112: the register numbers of a word, its execution mask and its element type. -/
def Sys2Proof.FieldNumbers : Prop :=
  (∀ p ∈ scalarBinary, ∀ (d a b : BitVec 8) (s : State) (c : Ctx) (g : Group), Issues (p.1 d a b) s c → s.issuer = some g →
    g.early = [] → let m := g.bundle.mods
    c.n1 = fieldSum m g d 1 ∧ c.n2 = fieldSum m g a 2 ∧ c.n3 = fieldSum m g b 3
      ∧ c.n1 < 512 ∧ c.n2 < 512 ∧ c.n3 < 512)
  ∧ (∀ (d a b : BitVec 8) (s : State) (c : Ctx) (g : Group), Issues (.vadd d a b) s c → s.issuer = some g → g.early = [] →
    let m := g.bundle.mods
    c.n1 = fieldSum m g d 1 ∧ c.n2 = fieldSum m g a 2 ∧ c.n3 = fieldSum m g b 3
      ∧ ((g.bundle.mod ≠ none → ∃ w ∈ g.bundle.words, w.toNat / 2 ^ 24 % 128 = 3) →
          m.bank.getLsbD 2 = false ∧ m.bank.getLsbD 1 = false)
      ∧ c.n1 < c.h.allot ∧ c.n2 < c.h.allot ∧ (if m.bcast = true then c.n3 < 512 else c.n3 < c.h.allot)
      ∧ c.ty = (if m.type = 0x1F then g.mode.toNat % 32 else m.type.toNat) ∧ c.ty ≤ 9
      ∧ (g.split = none ∨ g.handler = true →
          c.mask = if m.mask = 15 then g.live else g.p.get m.mask.toNat))
  ∧ ∀ (i : Instr) (s : State) (c : Ctx) (g : Group), Issues i s c → s.issuer = some g → g.early = [] →
    let m := g.bundle.mods
    (∀ o ∈ familyOperands i, let n := fieldSum m g (BitVec.ofNat 8 o.2.1) o.1
      (o.1 = 1 → c.n1 = n) ∧ (o.1 = 2 → c.n2 = n) ∧ (o.1 = 3 → c.n3 = n)
      ∧ ((g.bundle.mod ≠ none → ∃ w ∈ g.bundle.words, w.toNat / 2 ^ 24 % 128 = 3) →
          if o.2.2.1 = .s then n + o.2.2.2.1 ≤ 512 else n + o.2.2.2.1 ≤ c.h.allot ∧ m.bank.getLsbD (3 - o.1) = false))
    ∧ (perLane i = true → g.split = none ∨ g.handler = true → c.mask = if m.mask = 15 then g.live else g.p.get m.mask.toNat)

/-- R30: the immediate of a word from its own field and the payloads of its bundle, sign-extended from its whole width; above
64 bits its low 64 bits. -/
def Sys2Proof.Immediates : Prop :=
  ∀ (s : State) (c : Ctx) (g : Group), s.issuer = some g →
    (∀ d a n, Issues (.saddi d a n) s c →
      (g.bundle.patch = none → c.imm = match g.bundle.imm, g.bundle.imx with
        | none, none => n.signExtend 64
        | none, some j => (j ++ n).signExtend 64
        | some k, none => (k ++ n).signExtend 64
        | some k, some j => (j ++ k ++ n).signExtend 64)
      ∧ ∀ e, s.patch c.k g c.h = .entry e → c.imm = match g.bundle.imx with
        | none => (BitVec.ofNat 32 e ++ n).signExtend 64
        | some j => j ++ BitVec.ofNat 32 e ++ n)
    ∧ (∀ d n, Issues (.sli d n) s c →
      (g.bundle.patch = none → c.imm = match g.bundle.imm, g.bundle.imx with
        | none, none => n.signExtend 64
        | none, some j => (j ++ n).signExtend 64
        | some k, none => (k ++ n).signExtend 64
        | some k, some j => j ++ k ++ n)
      ∧ ∀ e, s.patch c.k g c.h = .entry e → c.imm = match g.bundle.imx with
        | none => (BitVec.ofNat 32 e ++ n).signExtend 64
        | some j => (j ++ BitVec.ofNat 32 e ++ n).setWidth 64)
    ∧ ∀ d a u p z, Issues (.sld d a u p z) s c →
      (g.bundle.patch = none → c.imm = match g.bundle.imm, g.bundle.imx with
        | none, none => 0
        | none, some j => j.signExtend 64
        | some k, none => k.signExtend 64
        | some k, some j => (j ++ k).signExtend 64)
      ∧ ∀ e, s.patch c.k g c.h = .entry e → c.imm = match g.bundle.imx with
        | none => (BitVec.ofNat 32 e).signExtend 64
        | some j => (j ++ BitVec.ofNat 32 e).signExtend 64

/-- R16, R34, R47: a word reads a register as it stands; one whose fixed-latency result is closer than its distance is read old or
new, a vector register in all its lanes alike, and an execution mask so too; an index register that an ind bit reads has one content
for the whole word. -/
def Sys2Proof.EarlyOperands : Prop :=
  ∀ (i : Instr) (s : State) (c : Ctx) (g : Group), Issues i s c → s.issuer = some g →
    (∀ n, n ≠ 0 → ∀ e, g.early = [e] → e.reg = .s n → c.g.getS n = g.getS n ∨ c.g.getS n = e.old.get 0)
    ∧ (∀ x, (∀ e ∈ g.early, e.reg = x → e.slot + e.dist ≤ g.slotNo) → ∀ n < 32, c.g.lane x n = g.lane x n)
    ∧ (∀ x e, g.early = [e] → e.reg = x →
        (∀ n < 32, c.g.lane x n = g.lane x n) ∨ ∀ n < 32, c.g.lane x n = (g.asOld e).lane x n)
    ∧ (perLane i = true → g.split = none ∨ g.handler = true → c.mask = c.g.getP g.bundle.mods.mask.toNat)
    ∧ (g.bundle.mods.ind ≠ 0 → let r := readOperands i s g
      r.x = (r.view.getX g.bundle.mods.sel.toNat).toNat)

/-- Register numbers, masks, types, immediates, and operands read before their distance. -/
def Obligations.OperandForms : Prop := FieldNumbers ∧ Immediates ∧ EarlyOperands

/-! ## Admission -/

/-- R26, R201: the faults of a word whose group is ready and whose bundle has no prefix, in their order: malformed, or of a
family that the kernel's header does not allow (that this is ranked as malformed is log entry 42); an element type that it does
not accept; a privileged special register; a register out of bounds. -/
def Sys2Proof.WordFaults : Prop :=
  ∀ (i : Instr) (s : State) (c : Ctx) (n : Nat), encodeLow i = some n → i.isPrefix = false →
    s.cur = some (c.blk, c.gid) → s.curGroup = some (c.k, c.g) → c.h = s.hdr c.k → c.g.bundle = Bundle.empty c.g.pc →
    Ready i s c.k c.g →
    let ty := c.g.mode.toNat % 32
    let sh := shapeOf i ty
    let fine := i.wellFormed = true ∧ famOk sh c.h = true
    let typed := ∀ l, sh.types = some l → ty ∈ l ∧ (sh.byContract = true → contractAllows c.h.eff ty = true)
    let allowed := (∀ d x, i = .srd d x ∨ i = .swr d x → x.toNat < 0x800 ∨ s.privileged c.k = true)
    (¬fine → Traps i s c 0x01 (BitVec.ofNat 64 (n + if s.mark = true then 2 ^ 31 else 0)))
    ∧ (fine → ¬typed → Traps i s c 0x02 (BitVec.ofNat 64 ty))
    ∧ (∀ d x, i = .srd d x ∨ i = .swr d x → 0x800 ≤ x.toNat → s.privileged c.k = false → Traps i s c 0x04 (x.setWidth 64))
    ∧ (fine → typed → allowed → ∀ o ∈ sh.ops.head?, o.file = .v → o.run = 1 → c.h.allot ≤ o.num →
        Traps i s c 0x03 (BitVec.ofNat 64 (o.num % 512)))

/-- R31, R46: a word of one of the families of `familyOperands` whose group is ready and that has no other fault raises REG_BOUND for
the first of its operands that leaves the scalar registers or the allotment, with the number of its highest register in TRAPINFO, plus
512 for a scalar one (from the highest register of the run: log entry 54, DESIGN CHOICE). -/
def Sys2Proof.RegisterBounds : Prop :=
  ∀ (i : Instr) (s : State) (c : Ctx) (a b : List (Nat × Nat × RegFile × Nat × Bool)) (o : Nat × Nat × RegFile × Nat × Bool),
    s.cur = some (c.blk, c.gid) → s.curGroup = some (c.k, c.g) → c.h = s.hdr c.k → Ready i s c.k c.g →
    wordFault i s c.k c.g = none → c.g.early = [] → c.g.bundle.mods.bcast = false →
    let last (o : Nat × Nat × RegFile × Nat × Bool) : Nat :=
      fieldSum c.g.bundle.mods c.g (BitVec.ofNat 8 o.2.1) o.1 + o.2.2.2.1 - 1
    let inside (o : Nat × Nat × RegFile × Nat × Bool) : Prop := if o.2.2.1 = .s then last o < 512 else last o < c.h.allot
    familyOperands i = a ++ o :: b → (∀ x ∈ a, inside x) → ¬inside o →
    Traps i s c 0x03 (BitVec.ofNat 64 (last o % 512 + if o.2.2.1 = .s then 512 else 0))

/-- The faults of a word before it issues (their ranks and what REG_BOUND's TRAPINFO holds by log entries 42 and 54). -/
def Obligations.AdmissionFaults : Prop := WordFaults ∧ RegisterBounds

/-- R201: a scalar word, and a vector addition on a type that it accepts, without prefixes, issue when the pace of their group
allows it, none of the registers that they read is outstanding or poisoned, their vector registers are in bounds, and the group
has no deferred condition and no replay record; the operands are then those of the fields. So does a word of one of the families of
`familyOperands` that its kernel's header allows, whose class counts fewer than 63 operations, in a block that holds no abacus and no
channel (what engines still ask for: EngineReadiness). -/
def Obligations.PlainWordsIssue : Prop :=
  ∀ (s : State) (b n : Nat) (k : Block) (g : Group), s.cur = some (b, n) → s.curGroup = some (k, g) →
    g.bundle = Bundle.empty g.pc → g.nextAt.toNat ≤ s.cycle.toNat → g.deferred = [] → g.poison = [] → (∀ e ∈ g.early, e.bad = []) →
    g.replay = [] →
    (∀ p ∈ scalarBinary, ∀ d x y : BitVec 8, g.pending (.s x.toNat) = 0 → g.pending (.s y.toNat) = 0 →
      ∃ c, Issues (p.1 d x y) s c ∧ c.blk = b ∧ c.gid = n ∧ c.k = k ∧ c.n1 = d.toNat ∧ c.n2 = x.toNat ∧ c.n3 = y.toNat)
    ∧ (∀ i : Instr, familyOperands i ≠ [] ∨ predicatesRead i ≠ [] → i.wellFormed = true →
      famOk (shapeOf i (g.mode.toNat % 32)) (s.hdr k) = true →
      ((∃ x y, i = .cpg x y ∨ i = .cps x y) → g.mode.toNat % 32 < 8 ∨ (16 ≤ g.mode.toNat % 32 ∧ g.mode.toNat % 32 < 24)) →
      (∀ o ∈ familyOperands i, (o.2.2.1 = .v → o.2.1 + o.2.2.2.1 ≤ (s.hdr k).allot)
        ∧ (o.2.2.2.2 = true → ∀ j < o.2.2.2.1, g.pending (if o.2.2.1 = .s then .s (o.2.1 + j) else .v (o.2.1 + j)) = 0)) →
      (perLane i = true → g.pending (.p 0) = 0) → (∀ p ∈ predicatesRead i, g.pending (.p p) = 0) →
      (∀ x, (shapeOf i (g.mode.toNat % 32)).cls = some x → g.oc.get x < 63) → k.abaci = [] → k.channels = [] → g.gather = none →
      s.unplacedGrids k.part < 1024 →
      ∃ c, Issues i s c ∧ c.blk = b ∧ c.gid = n ∧ c.k = k
        ∧ ∀ o ∈ familyOperands i, (o.1 = 1 → c.n1 = o.2.1) ∧ (o.1 = 2 → c.n2 = o.2.1) ∧ (o.1 = 3 → c.n3 = o.2.1))
    ∧ ∀ d x y : BitVec 8, g.mode.toNat % 32 ≤ 9 → d.toNat < (s.hdr k).allot → x.toNat < (s.hdr k).allot →
      y.toNat < (s.hdr k).allot → g.pending (.v x.toNat) = 0 → g.pending (.v y.toNat) = 0 → g.pending (.p 0) = 0 →
      ∃ c, Issues (.vadd d x y) s c ∧ c.blk = b ∧ c.gid = n ∧ c.k = k ∧ c.n1 = d.toNat ∧ c.n2 = x.toNat ∧ c.n3 = y.toNat
        ∧ c.ty = g.mode.toNat % 32

/-- R33, R35, R36: a word that carries the switch marker parks its group until its results are written, in a kernel that is not
checked; without the marker the group goes on, and its result is early until its distance is reached. -/
def Sys2Proof.ScalarMarker : Prop :=
  ∀ p ∈ scalarBinary, ∀ (d a b : BitVec 8) (s : State) (c : Ctx) (g : Group), Issues (p.1 d a b) s c → s.issuer = some g →
    NoRegion s → g.park = .run → ∃ t r, exec (p.1 d a b) s = .next t ∧ t.group c.blk c.gid = some r
      ∧ (s.mark = true → c.h.checked = false → r.park = .sMark ∧ r.early = [])
      ∧ (s.mark = false ∨ c.h.checked = true → r.park = .run)
      ∧ (s.mark = false → c.h.checked = false → c.n1 ≠ 0 → ∃ e ∈ r.early, e.reg = .s c.n1 ∧ e.slot = g.slotNo
        ∧ e.old.get 0 = g.getS c.n1 ∧ (e.dist = 4 ∨ e.dist = 6 ∨ e.dist = 16))
      ∧ (c.h.checked = true → c.n1 ≠ 0 → ∀ e ∈ r.early, e.reg ≠ .s c.n1)

/-- R33, R35, R36: the same for the predicate words that write a predicate register: their result is early for 4 slots. -/
def Sys2Proof.PredicateMarker : Prop :=
  ∀ (i : Instr) (d : BitVec 8) (s : State) (c : Ctx) (g : Group),
    ((∃ a, i = .pset d a ∨ i = .psetLive d a) ∨ ∃ x y z, i = .plog d x y z) → Issues i s c → s.issuer = some g →
    NoRegion s → g.park = .run → ∃ t r, exec i s = .next t ∧ t.group c.blk c.gid = some r
      ∧ (s.mark = true → c.h.checked = false → r.park = .sMark ∧ r.early = [])
      ∧ (s.mark = false ∨ c.h.checked = true → r.park = .run)
      ∧ (s.mark = false → c.h.checked = false → ∃ e ∈ r.early, e.reg = .p d.toNat ∧ e.slot = g.slotNo ∧ e.dist = 4
        ∧ e.old.get 0 = (g.getP d.toNat).setWidth 64)
      ∧ (c.h.checked = true → ∀ e ∈ r.early, e.reg ≠ .p d.toNat)

/-- The switch marker, and results that are early. -/
def Obligations.SwitchMarker : Prop := ScalarMarker ∧ PredicateMarker

/-! ## Invariants -/

/-- Memory is in its canonical form, and the tables of blocks, collectives, communicators and accumulator cells list each key
once, in order. -/
def Sys2Proof.Machine.State.Forms (s : State) : Prop :=
  s.MemoryWf ∧ Rises s.blocks ∧ Rises s.colls ∧ Rises s.comms
    ∧ ∀ b k, (b, k) ∈ s.blocks → ∀ m a, (m, a) ∈ k.abaci → Rises a.cells

/-- R10, log entry 4: every step keeps the canonical form of memory and the order of the tables. -/
def Obligations.StepKeepsForms : Prop := ∀ s t : State, s.Forms → step s = .next t → t.Forms

/-- R13, R340, R349, R399, R403, R404: the machine after reset is in its canonical form, and its registers stand at the values of
their Reset columns; nothing runs, and no quadrant belongs to a partition. The clock and the power limit have no Reset column:
1100 and 2400 are the model's choice (log entry 6). -/
def Obligations.ResetState : Prop :=
  State.reset.Forms ∧ State.reset.clkMhz = 1100 ∧ State.reset.pwrCap = 2400 ∧ State.reset.modid = 0
    ∧ State.reset.blocks = [] ∧ State.reset.grids = [] ∧ State.reset.comms = []
    ∧ (∀ n, (State.reset.core n).dvsize = 0 ∧ (State.reset.core n).padattr = 0x030303030303
        ∧ (State.reset.core n).eccCnt = 0 ∧ (State.reset.core n).almValid = false ∧ (State.reset.core n).almLock = false)
    ∧ (∀ q, (State.reset.quad q).state = 0) ∧ (∀ n, (State.reset.lane n).state = 0)
    ∧ ∀ p, (State.reset.part p).pquads = 0 ∧ (State.reset.part p).state = 0

/-- R44, R57: no word of a group that is not privileged changes a window, a register of a lane, a quadrant, a partition, a
pre-emption set or an event queue, the mailbox, a register of the package, or the configuration, the count of corrected errors
and the almanac of a core with its address, its measurement and its mismatch bit. What an MTU holds of an entry is no register:
a store may set DIRTY in it (R341). -/
def Obligations.UnprivilegedWordsKeep : Prop :=
  ∀ (i : Instr) (s t : State) (k : Block) (g : Group), (encodeLow i).isSome = true → s.curGroup = some (k, g) →
    s.privileged k = false → exec i s = .next t →
    t.windows = s.windows ∧ t.lanes = s.lanes
      ∧ (∀ q, { t.quad q with cached := [] } = { s.quad q with cached := [] }) ∧ t.parts = s.parts ∧ t.preempt = s.preempt
      ∧ t.susp = s.susp ∧ t.mailbox = s.mailbox ∧ t.ckpt = s.ckpt ∧ t.links = s.links
      ∧ t.modid = s.modid ∧ t.clkMhz = s.clkMhz ∧ t.pwrCap = s.pwrCap
      ∧ (∀ die p q, { t.queue die p q with waiting := [] } = { s.queue die p q with waiting := [] })
      ∧ ∀ n, (t.core n).dvsize = (s.core n).dvsize ∧ (t.core n).padattr = (s.core n).padattr
        ∧ (t.core n).almImage = (s.core n).almImage ∧ (t.core n).almValid = (s.core n).almValid
        ∧ (t.core n).almLock = (s.core n).almLock ∧ (t.core n).almMis = (s.core n).almMis
        ∧ (t.core n).almAddr = (s.core n).almAddr ∧ (t.core n).almMeas = (s.core n).almMeas
        ∧ (t.core n).eccCnt = (s.core n).eccCnt
end

