-- ==== Sys2Proof/Laws/Registers.lean ====
section
/-! SUPPORT. Sparse registers, tables and the registers of a group: a read after a write gives the value written, and a
write leaves every other place alone. -/

namespace Sys2Proof.Machine

/-! ## Sparse registers -/

theorem SMap.get_filter_ne {w : Nat} (m : SMap w) (k : Nat) : SMap.get (m.filter fun p => p.1 != k) k = 0 := by
  induction m with
  | nil => rfl
  | cons p r ih =>
    by_cases h : p.1 = k <;> simp [h, ih, SMap.get]

theorem SMap.get_filter_of_ne {w : Nat} (m : SMap w) {j k : Nat} (h : j ≠ k) :
    SMap.get (m.filter fun p => p.1 != k) j = SMap.get m j := by
  induction m with
  | nil => rfl
  | cons p r ih =>
    obtain ⟨a, v⟩ := p
    by_cases hk : a = k
    · subst hk; simp [SMap.get, ih, Ne.symm h]
    · by_cases hj : a = j
      · subst hj; simp [hk, SMap.get]
      · simp [hk, SMap.get, hj, ih]

theorem SMap.get_insert_self {w : Nat} (m : SMap w) (k : Nat) (v : BitVec w)
    (hm : ∀ p ∈ m, p.1 ≠ k) : SMap.get (SMap.insert m k v) k = v := by
  induction m with
  | nil => simp [SMap.insert, SMap.get]
  | cons p r ih =>
    obtain ⟨a, u⟩ := p
    have ha : a ≠ k := hm (a, u) (by simp)
    by_cases hk : k < a
    · simp [SMap.insert, hk, SMap.get]
    · simp [SMap.insert, hk, SMap.get, ha, ih fun p hp => hm p (by simp [hp])]

theorem SMap.get_insert_of_ne {w : Nat} (m : SMap w) {j k : Nat} (v : BitVec w) (h : j ≠ k) :
    SMap.get (SMap.insert m k v) j = SMap.get m j := by
  induction m with
  | nil => simp [SMap.insert, SMap.get, Ne.symm h]
  | cons p r ih =>
    obtain ⟨a, u⟩ := p
    by_cases hk : k < a
    · simp [SMap.insert, hk, SMap.get, Ne.symm h]
    · simp [SMap.insert, hk, SMap.get, ih]

@[simp] theorem SMap.get_set_self {w : Nat} (m : SMap w) (k : Nat) (v : BitVec w) : SMap.get (SMap.set m k v) k = v := by
  unfold SMap.set
  by_cases h : v = 0
  · simp [h, SMap.get_filter_ne]
  · simp only [h, if_false]
    exact SMap.get_insert_self _ _ _ (by simp)

theorem SMap.get_set_of_ne {w : Nat} (m : SMap w) {j k : Nat} (v : BitVec w) (h : j ≠ k) :
    SMap.get (SMap.set m k v) j = SMap.get m j := by
  unfold SMap.set
  by_cases hv : v = 0
  · simp [hv, SMap.get_filter_of_ne _ h]
  · simp only [hv, if_false, SMap.get_insert_of_ne _ _ h, SMap.get_filter_of_ne _ h]

/-- A read of a sparse register after a write. -/
theorem SMap.get_set {w : Nat} (m : SMap w) (j k : Nat) (v : BitVec w) :
    SMap.get (SMap.set m k v) j = if j = k then v else SMap.get m j := by
  by_cases h : j = k
  · subst h; simp
  · simp [h, SMap.get_set_of_ne _ _ h]

/-! ## Tables -/

@[simp] theorem Table.find_nil {α : Type} (k : Nat) : Table.find ([] : Table α) k = none := rfl

theorem Table.find_put {α : Type} (t : Table α) (j k : Nat) (v : α) :
    (t.put k v).find j = if j = k then some v else t.find j := by
  induction t with
  | nil => by_cases h : j = k <;> simp [Table.put, Table.find, h, eq_comm]
  | cons p r ih =>
    obtain ⟨a, u⟩ := p
    unfold Table.put
    split
    · by_cases h : j = k <;> simp [Table.find, h, eq_comm]
    · split
      · rename_i _ h2; subst h2
        by_cases h : j = k <;> simp [Table.find, h, eq_comm]
      · rename_i h1 h2
        by_cases h : a = j
        · subst h; simp [Table.find, Ne.symm h2]
        · simp [Table.find, h, ih]

theorem Table.find_adj {α : Type} (t : Table α) (j k : Nat) (f : α → α) :
    (t.adj k f).find j = if j = k then (t.find j).map f else t.find j := by
  induction t with
  | nil => simp [Table.adj]
  | cons p r ih =>
    obtain ⟨a, u⟩ := p
    have ih' : Table.find (List.map (fun p => if p.1 = k then (p.1, f p.2) else p) r) j = _ := ih
    by_cases ha : a = k
    · subst ha
      by_cases h : a = j
      · subst h; simp [Table.adj, Table.find]
      · simp [Table.adj, Table.find, h, ih', Ne.symm h]
    · by_cases h : a = j
      · subst h; simp [Table.adj, Table.find, ha]
      · simp [Table.adj, Table.find, h, ih', ha]

theorem Table.find_mapVal {α : Type} (t : Table α) (j : Nat) (f : Nat → α → α) :
    (t.mapVal f).find j = (t.find j).map (f j) := by
  induction t with
  | nil => rfl
  | cons p r ih =>
    obtain ⟨a, u⟩ := p
    have ih' : Table.find (List.map (fun p => (p.1, f p.1 p.2)) r) j = _ := ih
    by_cases h : a = j
    · subst h; simp [Table.mapVal, Table.find]
    · simp [Table.mapVal, Table.find, h, ih']

theorem Table.find_del {α : Type} (t : Table α) (j k : Nat) :
    (t.del k).find j = if j = k then none else t.find j := by
  induction t with
  | nil => simp [Table.del]
  | cons p r ih =>
    obtain ⟨a, u⟩ := p
    have ih' : Table.find (List.filter (fun p => p.1 != k) r) j = _ := ih
    by_cases ha : a = k
    · subst ha
      by_cases h : j = a
      · subst h; simp [Table.del, ih']
      · simp [Table.del, ih', h, Table.find, Ne.symm h]
    · by_cases h : a = j
      · subst h; simp [Table.del, ha, Table.find]
      · simp [Table.del, ha, Table.find, h, ih']

/-! ## Registers of a group -/

@[simp] theorem Group.getS_zero (g : Group) : g.getS 0 = 0 := rfl

theorem Group.getS_setS (g : Group) (n m : Nat) (v : U64) :
    (g.setS n v).getS m = if m = n ∧ n ≠ 0 then v else g.getS m := by
  unfold Group.setS Group.getS
  by_cases hn : n = 0
  · simp [hn]
  · by_cases hm : m = 0
    · subst hm; simp [Ne.symm hn]
    · simp [hn, hm, SMap.get_set]

theorem Group.getP_setP (g : Group) (n m : Nat) (v : BitVec 32) :
    (g.setP n v).getP m = if m = n ∧ n < 15 then v else g.getP m := by
  unfold Group.setP Group.getP
  by_cases hn : n ≥ 15
  · have : ¬ n < 15 := by omega
    simp [hn, this]
  · have hn' : n < 15 := Nat.lt_of_not_le hn
    by_cases hm : m = 15
    · have : ¬ 15 = n := fun h => hn (h ▸ Nat.le_refl _)
      subst hm; simp [hn, this]
    · simp [hn, hn', hm, SMap.get_set]

theorem Group.getX_setX (g : Group) (n m : Nat) (v : BitVec 8) :
    (g.setX n v).getX m = if m = n then v else g.getX m := by
  simp [Group.setX, Group.getX, SMap.get_set]

theorem Group.getV_setV (g : Group) (n m l k : Nat) (v : U64) (hl : l < 32) (hk : k < 32) :
    (g.setV n l v).getV m k = if m = n ∧ k = l then v else g.getV m k := by
  simp only [Group.setV, Group.getV, SMap.get_set]
  by_cases h : m = n ∧ k = l
  · simp [h.1, h.2]
  · have : ¬ (32 * m + k = 32 * n + l) := by omega
    simp [h, this]

/-- Writing some lanes of a vector register: those lanes hold the values, every other lane of every register stands. -/
theorem Group.getV_setVs (g : Group) (n m k : Nat) (ls : List Nat) (f : Nat → U64) (hls : ∀ l ∈ ls, l < 32) (hk : k < 32) :
    (g.setVs n ls f).getV m k = if m = n ∧ k ∈ ls then f k else g.getV m k := by
  induction ls generalizing g with
  | nil => simp [Group.setVs]
  | cons l r ih =>
    have hl : l < 32 := hls l (by simp)
    have hr : ∀ l ∈ r, l < 32 := fun l h => hls l (by simp [h])
    have e : g.setVs n (l :: r) f = (g.setV n l (f l)).setVs n r f := rfl
    rw [e, ih _ hr, Group.getV_setV _ _ _ _ _ _ hl hk]
    by_cases hm : m = n
    · by_cases hkr : k ∈ r
      · simp [hm, hkr]
      · by_cases hkl : k = l
        · subst hkl; simp [hm]
        · simp [hm, hkr, hkl]
    · simp [hm]

/-- What writing a register keeps of a group: everything but its registers and their poison. -/
theorem Group.setVs_eq (g : Group) (n : Nat) (ls : List Nat) (f : Nat → U64) :
    ∃ v p, g.setVs n ls f = { g with v := v, poison := p } := by
  induction ls generalizing g with
  | nil => exact ⟨g.v, g.poison, rfl⟩
  | cons l r ih =>
    obtain ⟨v, p, h⟩ := ih (g.setV n l (f l))
    exact ⟨v, p, h⟩

theorem Group.setS_eq (g : Group) (n : Nat) (v : U64) :
    ∃ s p, g.setS n v = { g with s := s, poison := p } := by
  unfold Group.setS
  split
  · exact ⟨g.s, g.poison, rfl⟩
  · exact ⟨_, _, rfl⟩

theorem Group.setP_eq (g : Group) (n : Nat) (v : BitVec 32) :
    ∃ s p, g.setP n v = { g with p := s, poison := p } := by
  unfold Group.setP
  split
  · exact ⟨g.p, g.poison, rfl⟩
  · exact ⟨_, _, rfl⟩

theorem lanesOf_lt {m : BitVec 32} {l : Nat} (h : l ∈ lanesOf m) : l < 32 := by
  simp only [lanesOf, List.mem_filter, List.mem_range] at h
  exact h.1

@[simp] theorem mem_lanesOf {m : BitVec 32} {l : Nat} : l ∈ lanesOf m ↔ l < 32 ∧ m.getLsbD l = true := by
  simp [lanesOf]

end Sys2Proof.Machine
end

