-- ==== Sys2Proof/Laws/Issue.lean ====
section
/-! SUPPORT. What the issue of a word does (Machine/Ops.lean): the operands that admission hands on, and the state after
an effect on the issuing group. -/

namespace Sys2Proof.Machine

open Host (Outcome)

/-! ## Blocks and groups -/

theorem State.group_modGroup (s : State) (b g b' g' : Nat) (f : Group → Group) :
    (s.modGroup b g f).group b' g' = if b' = b ∧ g' = g then (s.group b' g').map f else s.group b' g' := by
  unfold State.modGroup State.modBlock State.group State.block
  simp only [Table.find_adj]
  by_cases hb : b' = b
  · subst hb
    cases hk : Table.find s.blocks b' with
    | none => simp
    | some k => simp [Table.find_adj]
  · simp [hb]

theorem State.block_modGroup_rest (s : State) (b g b' : Nat) (f : Group → Group) :
    ((s.modGroup b g f).block b').map Block.rest = (s.block b').map Block.rest := by
  unfold State.modGroup State.modBlock State.block
  simp only [Table.find_adj]
  by_cases hb : b' = b
  · subst hb
    cases hk : Table.find s.blocks b' <;> simp [Block.rest]
  · simp [hb]

@[simp] theorem State.modGroup_core (s : State) (b g c : Nat) (f : Group → Group) :
    (s.modGroup b g f).core c = s.core c := rfl

/-- The issuing state names its block and group. -/
theorem State.group_of_curGroup {s : State} {b gid : Nat} {k : Block} {g : Group} (hc : s.cur = some (b, gid))
    (h : s.curGroup = some (k, g)) : s.block b = some k ∧ s.group b gid = some g := by
  unfold State.curGroup at h
  rw [hc] at h
  cases hb : s.block b with
  | none => simp [hb] at h
  | some k' =>
    simp only [hb, Option.map_eq_some_iff, Prod.mk.injEq] at h
    obtain ⟨r, h1, h2, h3⟩ := h
    subst h2 h3
    exact ⟨rfl, by simp [State.group, hb, h1]⟩

/-! ## Operands as read -/

/-- Reading operands changes no register's meaning but those that are early. -/
theorem Group.specials_withContent (g : Group) (r : Reg) (c : SMap 64) :
    (g.withContent r c).specials = g.specials ∧ (g.withContent r c).pc = g.pc ∧ (g.withContent r c).core = g.core
      ∧ (g.withContent r c).handler = g.handler ∧ (g.withContent r c).mode = g.mode
      ∧ (g.withContent r c).slotNo = g.slotNo := by
  cases r <;> simp [Group.withContent, Group.specials]

/-- Nor does putting back what a register held before an early result. -/
theorem Group.specials_asOld (g : Group) (e : Early) :
    (g.asOld e).specials = g.specials ∧ (g.asOld e).pc = g.pc ∧ (g.asOld e).core = g.core
      ∧ (g.asOld e).handler = g.handler ∧ (g.asOld e).mode = g.mode ∧ (g.asOld e).slotNo = g.slotNo :=
  Group.specials_withContent g e.reg e.old

theorem readRegs_specials (rs : List Reg) (g v : Group) (free : Nat) :
    (readRegs rs g v free).1.specials = v.specials ∧ (readRegs rs g v free).1.pc = v.pc
      ∧ (readRegs rs g v free).1.core = v.core ∧ (readRegs rs g v free).1.slotNo = v.slotNo := by
  induction rs generalizing v free with
  | nil => simp [readRegs]
  | cons r rs ih =>
    unfold readRegs
    split
    · exact ih v free
    · split
      · exact ih v free
      · rename_i e _ _
        obtain ⟨h1, h2, h3, h4⟩ := ih (if (Config.free free).getLsbD 0 then v.asOld e else v) (free + 1)
        have := Group.specials_asOld v e
        refine ⟨?_, ?_, ?_, ?_⟩
        · rw [h1]; split <;> simp [this]
        · rw [h2]; split <;> simp [this]
        · rw [h3]; split <;> simp [this]
        · rw [h4]; split <;> simp [this]

theorem readRegs_of_not_early (rs : List Reg) (g v : Group) (free : Nat) (h : ∀ r ∈ rs, g.isEarly r = none) :
    readRegs rs g v free = (v, free) := by
  induction rs generalizing v free with
  | nil => rfl
  | cons r rs ih =>
    unfold readRegs
    rw [h r (by simp)]
    exact ih v free fun x hx => h x (by simp [hx])

/-- Observing changes the deferred conditions and CMIXCNT, nothing else. -/
theorem observe_group (g : Group) (p : Deferred → Bool) :
    ∃ d n, (observe g p).2 = { g with deferred := d, cmixcnt := n } := ⟨_, _, rfl⟩

/-- A word that nothing keeps from issuing is admitted with its context. -/
theorem admission_of_clear {i : Instr} {s : State} {kb : Block} {g : Group} (h : Clear i s kb g) (blk gid : Nat) :
    admission i s kb g blk gid =
      .go (wordContext i s kb g (observe g (readOperands i s g).sees).2 blk gid) (observe g (readOperands i s g).sees).2
        (opRegs (readOperands i s g).ops g.bundle.mods (readOperands i s g).x Opnd.wr) (readOperands i s g).free := by
  have hq := h.quiet
  unfold admission
  simp only [h.formed, h.bounds, h.unparked, h.ready, Bool.false_eq_true, if_false]
  generalize ho : observe g (readOperands i s g).sees = o at *
  obtain ⟨r, g'⟩ := o
  simp only at hq
  subst hq
  simp only [h.clean, Bool.false_eq_true, if_false]

theorem Group.specials_of_counted {v g : Group} (h : v.specials = g.specials) (d e : List Deferred) (n : BitVec 32) :
    ({ v with deferred := d, cmixcnt := n } : Group).specials = ({ g with deferred := e, cmixcnt := n } : Group).specials := by
  simp only [Group.specials, Specials.mk.injEq] at h ⊢
  simp [h]

theorem readOperands_view_eq (i : Instr) (s : State) (g : Group) :
    (readOperands i s g).view = (readRegs ((readOperands i s g).reads.filter fun r =>
        !(readOperands i s g).sel.contains r) g
      (readRegs (if g.bundle.mods.ind = 0 then [] else [Reg.x g.bundle.mods.sel.toNat]) g g (g.held.getD s.free)).1
      (readRegs (if g.bundle.mods.ind = 0 then [] else [Reg.x g.bundle.mods.sel.toNat]) g g (g.held.getD s.free)).2).1 := by
  unfold readOperands
  rfl

/-- The group as the operands see it differs from the issuing one only in registers that are early. -/
theorem readOperands_view (i : Instr) (s : State) (g : Group) :
    (readOperands i s g).view.specials = g.specials ∧ (readOperands i s g).view.pc = g.pc
      ∧ (readOperands i s g).view.core = g.core ∧ (readOperands i s g).view.slotNo = g.slotNo := by
  have h0 := readRegs_specials (if g.bundle.mods.ind = 0 then [] else [Reg.x g.bundle.mods.sel.toNat]) g g (g.held.getD s.free)
  have h1 := readRegs_specials ((readOperands i s g).reads.filter fun r => !(readOperands i s g).sel.contains r) g
    (readRegs (if g.bundle.mods.ind = 0 then [] else [Reg.x g.bundle.mods.sel.toNat]) g g (g.held.getD s.free)).1
    (readRegs (if g.bundle.mods.ind = 0 then [] else [Reg.x g.bundle.mods.sel.toNat]) g g (g.held.getD s.free)).2
  rw [readOperands_view_eq]
  exact ⟨h1.1.trans h0.1, h1.2.1.trans h0.2.1, h1.2.2.1.trans h0.2.2.1, h1.2.2.2.trans h0.2.2.2⟩

theorem wordContext_g (i : Instr) (s : State) (kb : Block) (g seen : Group) (blk gid : Nat) :
    (wordContext i s kb g seen blk gid).g =
      { (readOperands i s g).view with deferred := seen.deferred, cmixcnt := seen.cmixcnt } := by
  unfold wordContext
  rfl

/-- What the context of a word keeps of the issuing group: all but the deferred conditions, CMIXCNT and the registers
whose result is still early. -/
theorem wordContext_group (i : Instr) (s : State) (kb : Block) (g : Group) (p : Deferred → Bool) (blk gid : Nat) :
    (wordContext i s kb g (observe g p).2 blk gid).g.specials = (observe g p).2.specials
      ∧ (wordContext i s kb g (observe g p).2 blk gid).g.pc = g.pc
      ∧ (wordContext i s kb g (observe g p).2 blk gid).g.core = g.core
      ∧ (wordContext i s kb g (observe g p).2 blk gid).g.slotNo = g.slotNo := by
  obtain ⟨d, n, ho⟩ := observe_group g p
  obtain ⟨h1, h2, h3, h4⟩ := readOperands_view i s g
  rw [wordContext_g, ho]
  exact ⟨Group.specials_of_counted h1 _ _ _, h2, h3, h4⟩

theorem earliest_eq_none {l : List (Nat × Word)} (h : earliest l = none) : l = [] := by
  cases l with
  | nil => rfl
  | cons p r =>
    exfalso
    have : ∀ (r : List (Nat × Word)) (q : Nat × Word), r.foldl (fun m p => match m with
        | none => some p
        | some q => if p.1 < q.1 then some p else some q) (some q) ≠ none := by
      intro r
      induction r with
      | nil => intro q; simp
      | cons a r ih =>
        intro q
        simp only [List.foldl_cons]
        split <;> exact ih _
    exact this r p h

/-- A word that issues is well formed, and its kernel's header allows its family (R25). -/
theorem Issues.wellFormed {i : Instr} {s : State} {c : Ctx} (h : Issues i s c) :
    i.wellFormed = true ∧ famOk (shapeOf i c.ty) c.h = true := by
  obtain ⟨_, g, _, hclear, hc⟩ := h
  have hf := hclear.formed
  have hty : c.ty = typeInForce g.bundle g.mode := by rw [hc]; rfl
  have hh : c.h = s.hdr c.k := by rw [hc]; rfl
  rw [hty, hh]
  unfold wordFault at hf
  simp only at hf
  split at hf
  · contradiction
  · rename_i hm
    unfold malformed at hm
    have he := earliest_eq_none (Option.map_eq_none_iff.mp hm)
    have hl := (List.append_eq_nil_iff.mp he).2
    by_cases hw : (i.wellFormed && famOk (shapeOf i (typeInForce g.bundle g.mode)) (s.hdr c.k)
        && !swzOut i g.bundle) = true
    · simp only [Bool.and_eq_true] at hw
      exact hw.1
    · rw [if_neg hw] at hl; contradiction

/-! ## The state after an effect on the issuing group -/

theorem Group.claim_lane (g : Group) (sh : Shape) (dst : List Reg) (m : BitVec 32) (ck : Bool) :
    (∀ x l, (g.claim sh dst m ck).lane x l = g.lane x l) ∧ (g.claim sh dst m ck).specials = g.specials
      ∧ (g.claim sh dst m ck).slotNo = g.slotNo ∧ (g.claim sh dst m ck).pc = g.pc := by
  refine ⟨fun x l => ?_, rfl, rfl, rfl⟩
  cases x <;> rfl

/-- Two groups that differ only in what issuing moves on. -/
structure SamePlace (g r : Group) : Prop where
  lane : ∀ x l, r.lane x l = g.lane x l
  specials : r.specials = g.specials
  slotNo : r.slotNo = g.slotNo
  pc : r.pc = g.pc
  bundle : r.bundle = g.bundle

theorem SamePlace.trans {a b c : Group} (h : SamePlace a b) (k : SamePlace b c) : SamePlace a c :=
  ⟨fun x l => (k.lane x l).trans (h.lane x l), k.specials.trans h.specials, k.slotNo.trans h.slotNo, k.pc.trans h.pc,
    k.bundle.trans h.bundle⟩

theorem SamePlace.of_fields {g r : Group} (hs : r.s = g.s) (hv : r.v = g.v) (hp : r.p = g.p) (hx : r.x = g.x)
    (h : r.specials = g.specials) (h1 : r.slotNo = g.slotNo) (h2 : r.pc = g.pc) (h3 : r.bundle = g.bundle) :
    SamePlace g r := by
  refine ⟨fun x l => ?_, h, h1, h2, h3⟩
  have hl : r.live = g.live := congrArg Specials.live h
  cases x <;> simp [Group.lane, Group.getS, Group.getP, Group.getX, Group.getV, hs, hv, hp, hx, hl]

theorem SamePlace.refl (g : Group) : SamePlace g g := ⟨fun _ _ => rfl, rfl, rfl, rfl, rfl⟩

theorem Group.regionEnd_samePlace (g : Group) : SamePlace g g.regionEnd := by
  unfold Group.regionEnd
  split
  · exact SamePlace.refl g
  · split
    · exact SamePlace.refl g
    · split
      · split
        · exact SamePlace.of_fields rfl rfl rfl rfl rfl rfl rfl rfl
        · exact SamePlace.of_fields rfl rfl rfl rfl rfl rfl rfl rfl
        · split
          · exact SamePlace.of_fields rfl rfl rfl rfl rfl rfl rfl rfl
          · exact SamePlace.of_fields rfl rfl rfl rfl rfl rfl rfl rfl
      · exact SamePlace.refl g

theorem Group.sPark_samePlace (g : Group) : SamePlace g g.sPark := by
  unfold Group.sPark
  split
  · exact SamePlace.of_fields rfl rfl rfl rfl rfl rfl rfl rfl
  · split <;> exact SamePlace.of_fields rfl rfl rfl rfl rfl rfl rfl rfl

theorem Group.reclass_samePlace (g : Group) (b : Bundle) : SamePlace g (g.reclass b) := by
  unfold Group.reclass
  repeat' split
  all_goals exact SamePlace.of_fields rfl rfl rfl rfl rfl rfl rfl rfl

theorem Group.paced_samePlace (g : Group) (slow ck : Bool) (cy : U64) : SamePlace g (g.paced slow ck cy) := by
  unfold Group.paced
  repeat' split
  all_goals exact SamePlace.of_fields rfl rfl rfl rfl rfl rfl rfl rfl

theorem Group.parkedAt_samePlace (g : Group) (a b : U64) : SamePlace g (g.parkedAt a b) := by
  unfold Group.parkedAt
  split <;> exact SamePlace.of_fields rfl rfl rfl rfl rfl rfl rfl rfl

theorem Group.opened_fields (g : Group) (b : Bundle) (pc : U64) (m : BitVec 32) :
    (∀ x l, (g.opened b pc m).lane x l = g.lane x l) ∧ (g.opened b pc m).specials = g.specials
      ∧ (g.opened b pc m).slotNo = g.slotNo := by
  unfold Group.opened
  split
  · exact ⟨fun x l => by cases x <;> rfl, rfl, rfl⟩
  · exact ⟨fun _ _ => rfl, rfl, rfl⟩

/-- The end of a word's issue: one slot, the next address, an empty bundle; registers and special registers stand. -/
theorem Group.retire_spec (g : Group) (b : Bundle) (a : U64) (jump : Option U64) (mark ck slow : Bool) (cy : U64) :
    (∀ x l, (g.retire b a jump mark ck slow cy).lane x l = g.lane x l)
      ∧ (g.retire b a jump mark ck slow cy).specials = g.specials
      ∧ (g.retire b a jump mark ck slow cy).slotNo = g.slotNo + 1
      ∧ (g.retire b a jump mark ck slow cy).pc = jump.getD (a + 4)
      ∧ (g.retire b a jump mark ck slow cy).bundle = Bundle.empty (jump.getD (a + 4)) := by
  have key : SamePlace (g.advance (jump.getD (a + 4))) (g.retire b a jump mark ck slow cy) := by
    unfold Group.retire
    refine SamePlace.trans ?_ (Group.regionEnd_samePlace _)
    have h := ((Group.reclass_samePlace (g.advance (jump.getD (a + 4))) b).trans (Group.paced_samePlace _ slow ck cy)).trans
      (Group.parkedAt_samePlace _ b.entry a)
    split
    · exact h.trans (Group.sPark_samePlace _)
    · exact h
  exact ⟨fun x l => (key.lane x l).trans (by cases x <;> rfl), key.specials, key.slotNo, key.pc, key.bundle⟩

theorem State.issuedBy_rest (s : State) (core q slot n : Nat) (lock : Bool) :
    ((s.issuedBy core q slot lock).core n).rest = (s.core n).rest
      ∧ ((s.issuedBy core q slot lock).core n).clock = (s.core n).clock := by
  unfold State.issuedBy State.modCore
  simp only [State.core, Table.find_put]
  by_cases h : n = core
  · subst h; simp [CoreSt.rest]
  · simp [h]

@[simp] theorem State.issuedBy_group (s : State) (core q slot b g : Nat) (lock : Bool) :
    (s.issuedBy core q slot lock).group b g = s.group b g := rfl

@[simp] theorem State.issuedBy_block (s : State) (core q slot b : Nat) (lock : Bool) :
    (s.issuedBy core q slot lock).block b = s.block b := rfl

theorem State.withGroup_group (s : State) (b gid b' g' free : Nat) (g : Group) :
    (s.withGroup b gid g free).group b' g' = if b' = b ∧ g' = gid then (s.group b' g').map fun _ => g else s.group b' g' :=
  State.group_modGroup s b gid b' g' fun _ => g

theorem State.withGroup_block_rest (s : State) (b gid b' free : Nat) (g : Group) :
    ((s.withGroup b gid g free).block b').map Block.rest = (s.block b').map Block.rest :=
  State.block_modGroup_rest s b gid b' fun _ => g

theorem OutsideKept.refl (s : State) : OutsideKept s s := ⟨rfl, fun _ => rfl, fun _ => rfl⟩

theorem OutsideKept.trans {s t u : State} (h : OutsideKept s t) (k : OutsideKept t u) : OutsideKept s u :=
  ⟨k.1.trans h.1, fun n => (k.2.1 n).trans (h.2.1 n), fun b => (k.2.2 b).trans (h.2.2 b)⟩

theorem State.modGroup_outside (s : State) (b gid : Nat) (f : Group → Group) : OutsideKept s (s.modGroup b gid f) :=
  ⟨rfl, fun _ => rfl, fun _ => State.block_modGroup_rest _ _ _ _ _⟩

theorem State.withGroup_outside (s : State) (b gid free : Nat) (g : Group) : OutsideKept s (s.withGroup b gid g free) :=
  ⟨rfl, fun _ => rfl, fun _ => State.withGroup_block_rest _ _ _ _ _ _⟩

/-- What a word that nothing keeps from issuing works with: its group `g`, the group `g0` that its effect changes, which
has the registers of `g` and the special registers that the context shows, and the issue in terms of its effect. -/
theorem issue_of_issues {i : Instr} {s : State} {c : Ctx} (h : Issues i s c) :
    ∃ g g0 free, s.issuer = some g ∧ s.group c.blk c.gid = some g ∧ s.block c.blk = some c.k
      ∧ (∀ x l, g0.lane x l = g.lane x l) ∧ g0.specials = c.g.specials ∧ g0.slotNo = g.slotNo ∧ c.g.pc = g.pc
      ∧ c.g.core = g.core
      ∧ ∀ body s2 jump, body c (s.withGroup c.blk c.gid g0 free) = .done s2 jump →
          issue i body s = .next (s2.finish s i c g jump) := by
  obtain ⟨hcur, g, hg, hclear, hc⟩ := h
  have hadm := admission_of_clear hclear c.blk c.gid
  rw [← hc] at hadm
  obtain ⟨hsv, hpc, hcore, _⟩ := wordContext_group i s c.k g (readOperands i s g).sees c.blk c.gid
  rw [← hc] at hsv hpc hcore
  obtain ⟨hblk, hgrp⟩ := State.group_of_curGroup hcur hg
  obtain ⟨d, n, hobs⟩ := observe_group g (readOperands i s g).sees
  generalize hdst : opRegs (readOperands i s g).ops g.bundle.mods (readOperands i s g).x Opnd.wr = wr at hadm
  generalize (observe g (readOperands i s g).sees).2 = g' at *
  have hcl := Group.claim_lane g' (shapeOf i c.ty) wr (c.writeLanes i) c.h.checked
  have hop := Group.opened_fields (g'.claim (shapeOf i c.ty) wr (c.writeLanes i) c.h.checked) g.bundle g.pc c.mask
  refine ⟨g, (g'.claim (shapeOf i c.ty) wr (c.writeLanes i) c.h.checked).opened g.bundle g.pc c.mask, (readOperands i s g).free,
    by simp [State.issuer, hg], hgrp, hblk, fun x l => ?_, ?_, ?_, hpc, hcore, fun body s2 jump hb => ?_⟩
  · rw [hop.1, hcl.1, hobs]; cases x <;> rfl
  · rw [hop.2.1, hcl.2.1, hsv]
  · rw [hop.2.2, hcl.2.2.1, hobs]
  · unfold issue
    rw [hcur, hg]
    simp only [issueWord, hadm, hb]

/-- The issuing group at the end of a word, in terms of the group that its effect leaves. -/
theorem State.finish_group {s2 s : State} {i : Instr} {c : Ctx} {g r : Group} {jump : Option U64}
    (h : s2.group c.blk c.gid = some r) :
    ∃ q, (s2.finish s i c g jump).group c.blk c.gid = some q ∧ (∀ x l, q.lane x l = r.lane x l) ∧ q.specials = r.specials
      ∧ q.slotNo = r.slotNo + 1 ∧ q.pc = jump.getD (g.pc + 4) ∧ q.bundle = Bundle.empty (jump.getD (g.pc + 4)) := by
  refine ⟨_, ?_, Group.retire_spec r g.bundle g.pc jump (s.mark && Instr.heedsMark i) c.h.checked (slowWord (shapeOf i c.ty) c.ty) s.cycle⟩
  simp only [State.finish, State.issuedBy_group, State.group_modGroup, h]
  simp

/-- Every other group at the end of a word. -/
theorem State.finish_others {s2 s : State} {i : Instr} {c : Ctx} {g : Group} {jump : Option U64} {b gid : Nat}
    (h : ¬(b = c.blk ∧ gid = c.gid)) : (s2.finish s i c g jump).group b gid = s2.group b gid := by
  simp only [State.finish, State.issuedBy_group, State.group_modGroup, h, if_false]

/-- Nothing outside the blocks' groups and the quarters moves at the end of a word. -/
theorem State.finish_outside (s2 s : State) (i : Instr) (c : Ctx) (g : Group) (jump : Option U64) :
    OutsideKept s2 (s2.finish s i c g jump) ∧ ∀ n, ((s2.finish s i c g jump).core n).clock = (s2.core n).clock := by
  refine ⟨⟨rfl, fun n => ?_, fun b => ?_⟩, fun n => ?_⟩
  · exact (State.issuedBy_rest _ g.core g.quarter g.slot n false).1
  · exact State.block_modGroup_rest _ _ _ _ _
  · exact (State.issuedBy_rest _ g.core g.quarter g.slot n false).2

/-- A word whose effect changes only the issuing group, by `f`: it completes, and what follows for registers. -/
theorem issue_upd {i : Instr} {body : Ctx → State → Res} {s : State} {c : Ctx} {f : Group → Group} {jump : Option U64}
    {dst : List Reg} {sp : Specials} (h : Issues i s c)
    (hb : ∀ g0 free, body c (s.withGroup c.blk c.gid g0 free) =
      .done ((s.withGroup c.blk c.gid g0 free).modGroup c.blk c.gid f) jump)
    (hsp : ∀ g, g.specials = c.g.specials → (f g).specials = sp) (hno : ∀ g, (f g).slotNo = g.slotNo)
    (hreg : ∀ g x, x ∉ dst → ∀ l < 32, (f g).lane x l = g.lane x l) :
    ∃ t g0, issue i body s = .next t ∧ RegistersOnly s t c (jump.getD (c.g.pc + 4)) dst sp
      ∧ (∀ g, s.issuer = some g → ∀ x l, g0.lane x l = g.lane x l) ∧ g0.specials = c.g.specials
      ∧ ∀ x l, t.regAfter c x l = (f g0).lane x l := by
  obtain ⟨g, g0, free, hiss, hgrp, hblk, hlane, hsp0, hno0, hpc, hcore, hgo⟩ := issue_of_issues h
  have hr : ((s.withGroup c.blk c.gid g0 free).modGroup c.blk c.gid f).group c.blk c.gid = some (f g0) := by
    simp [State.group_modGroup, State.withGroup_group, hgrp]
  obtain ⟨q, hq, hql, hqs, hqn, hqp, hqb⟩ := State.finish_group (s := s) (i := i) (g := g) (jump := jump) hr
  have hout := State.finish_outside ((s.withGroup c.blk c.gid g0 free).modGroup c.blk c.gid f) s i c g jump
  refine ⟨_, g0, hgo _ _ _ (hb g0 free), ⟨⟨g, q, hiss, hq, ?_, ?_, ?_, ?_, ?_⟩, ?_, ?_, hout.2⟩, ?_, hsp0, ?_⟩
  · rw [hqp, hpc]
  · rw [hqn, hno, hno0]
  · rw [hqb, hpc]
  · rw [hqs, hsp g0 hsp0]
  · intro x hx l hl
    rw [hql, hreg g0 x hx l hl, hlane]
  · intro b gid hne
    rw [State.finish_others hne, State.group_modGroup, if_neg hne, State.withGroup_group, if_neg hne]
  · exact ((State.withGroup_outside s c.blk c.gid free g0).trans (State.modGroup_outside _ _ _ f)).trans hout.1
  · intro g1 h1 x l
    rw [hiss] at h1
    cases h1
    exact hlane x l
  · intro x l
    simp only [State.regAfter, hq, Option.map_some, Option.getD_some]
    exact hql x l

end Sys2Proof.Machine
end

