-- ==== Sys2Proof/Laws/State.lean ====
section
/-! SUPPORT. What each named update leaves of every field of the state: one lemma for each field, so that no proof unfolds a
record update. -/

namespace Sys2Proof.Machine

/-! `State.modCore` -/

@[simp] theorem State.modCore_cycle (s : State) (c : Nat) (f : CoreSt → CoreSt) : (s.modCore c f).cycle = s.cycle := rfl
@[simp] theorem State.modCore_modid (s : State) (c : Nat) (f : CoreSt → CoreSt) : (s.modCore c f).modid = s.modid := rfl
@[simp] theorem State.modCore_clkMhz (s : State) (c : Nat) (f : CoreSt → CoreSt) : (s.modCore c f).clkMhz = s.clkMhz := rfl
@[simp] theorem State.modCore_pwrCap (s : State) (c : Nat) (f : CoreSt → CoreSt) : (s.modCore c f).pwrCap = s.pwrCap := rfl
@[simp] theorem State.modCore_links (s : State) (c : Nat) (f : CoreSt → CoreSt) : (s.modCore c f).links = s.links := rfl
@[simp] theorem State.modCore_hostLanes (s : State) (c : Nat) (f : CoreSt → CoreSt) : (s.modCore c f).hostLanes = s.hostLanes := rfl
@[simp] theorem State.modCore_mem (s : State) (c : Nat) (f : CoreSt → CoreSt) : (s.modCore c f).mem = s.mem := rfl
@[simp] theorem State.modCore_memBad (s : State) (c : Nat) (f : CoreSt → CoreSt) : (s.modCore c f).memBad = s.memBad := rfl
@[simp] theorem State.modCore_padBars (s : State) (c : Nat) (f : CoreSt → CoreSt) : (s.modCore c f).padBars = s.padBars := rfl
@[simp] theorem State.modCore_blocks (s : State) (c : Nat) (f : CoreSt → CoreSt) : (s.modCore c f).blocks = s.blocks := rfl
@[simp] theorem State.modCore_ops (s : State) (c : Nat) (f : CoreSt → CoreSt) : (s.modCore c f).ops = s.ops := rfl
@[simp] theorem State.modCore_trees (s : State) (c : Nat) (f : CoreSt → CoreSt) : (s.modCore c f).trees = s.trees := rfl
@[simp] theorem State.modCore_grids (s : State) (c : Nat) (f : CoreSt → CoreSt) : (s.modCore c f).grids = s.grids := rfl
@[simp] theorem State.modCore_comps (s : State) (c : Nat) (f : CoreSt → CoreSt) : (s.modCore c f).comps = s.comps := rfl
@[simp] theorem State.modCore_spawns (s : State) (c : Nat) (f : CoreSt → CoreSt) : (s.modCore c f).spawns = s.spawns := rfl
@[simp] theorem State.modCore_queues (s : State) (c : Nat) (f : CoreSt → CoreSt) : (s.modCore c f).queues = s.queues := rfl
@[simp] theorem State.modCore_preempt (s : State) (c : Nat) (f : CoreSt → CoreSt) : (s.modCore c f).preempt = s.preempt := rfl
@[simp] theorem State.modCore_susp (s : State) (c : Nat) (f : CoreSt → CoreSt) : (s.modCore c f).susp = s.susp := rfl
@[simp] theorem State.modCore_lifted (s : State) (c : Nat) (f : CoreSt → CoreSt) : (s.modCore c f).lifted = s.lifted := rfl
@[simp] theorem State.modCore_lanes (s : State) (c : Nat) (f : CoreSt → CoreSt) : (s.modCore c f).lanes = s.lanes := rfl
@[simp] theorem State.modCore_quads (s : State) (c : Nat) (f : CoreSt → CoreSt) : (s.modCore c f).quads = s.quads := rfl
@[simp] theorem State.modCore_windows (s : State) (c : Nat) (f : CoreSt → CoreSt) : (s.modCore c f).windows = s.windows := rfl
@[simp] theorem State.modCore_parts (s : State) (c : Nat) (f : CoreSt → CoreSt) : (s.modCore c f).parts = s.parts := rfl
@[simp] theorem State.modCore_eccCorr (s : State) (c : Nat) (f : CoreSt → CoreSt) : (s.modCore c f).eccCorr = s.eccCorr := rfl
@[simp] theorem State.modCore_eccUnc (s : State) (c : Nat) (f : CoreSt → CoreSt) : (s.modCore c f).eccUnc = s.eccUnc := rfl
@[simp] theorem State.modCore_eccAddr (s : State) (c : Nat) (f : CoreSt → CoreSt) : (s.modCore c f).eccAddr = s.eccAddr := rfl
@[simp] theorem State.modCore_mailbox (s : State) (c : Nat) (f : CoreSt → CoreSt) : (s.modCore c f).mailbox = s.mailbox := rfl
@[simp] theorem State.modCore_ckpt (s : State) (c : Nat) (f : CoreSt → CoreSt) : (s.modCore c f).ckpt = s.ckpt := rfl
@[simp] theorem State.modCore_comms (s : State) (c : Nat) (f : CoreSt → CoreSt) : (s.modCore c f).comms = s.comms := rfl
@[simp] theorem State.modCore_colls (s : State) (c : Nat) (f : CoreSt → CoreSt) : (s.modCore c f).colls = s.colls := rfl
@[simp] theorem State.modCore_harvest (s : State) (c : Nat) (f : CoreSt → CoreSt) : (s.modCore c f).harvest = s.harvest := rfl
@[simp] theorem State.modCore_steps (s : State) (c : Nat) (f : CoreSt → CoreSt) : (s.modCore c f).steps = s.steps := rfl
@[simp] theorem State.modCore_pinned (s : State) (c : Nat) (f : CoreSt → CoreSt) : (s.modCore c f).pinned = s.pinned := rfl
@[simp] theorem State.modCore_l2 (s : State) (c : Nat) (f : CoreSt → CoreSt) : (s.modCore c f).l2 = s.l2 := rfl
@[simp] theorem State.modCore_chans (s : State) (c : Nat) (f : CoreSt → CoreSt) : (s.modCore c f).chans = s.chans := rfl
@[simp] theorem State.modCore_hostWaits (s : State) (c : Nat) (f : CoreSt → CoreSt) : (s.modCore c f).hostWaits = s.hostWaits := rfl
@[simp] theorem State.modCore_msix (s : State) (c : Nat) (f : CoreSt → CoreSt) : (s.modCore c f).msix = s.msix := rfl
@[simp] theorem State.modCore_outbox (s : State) (c : Nat) (f : CoreSt → CoreSt) : (s.modCore c f).outbox = s.outbox := rfl
@[simp] theorem State.modCore_free (s : State) (c : Nat) (f : CoreSt → CoreSt) : (s.modCore c f).free = s.free := rfl
@[simp] theorem State.modCore_nextId (s : State) (c : Nat) (f : CoreSt → CoreSt) : (s.modCore c f).nextId = s.nextId := rfl
@[simp] theorem State.modCore_rot (s : State) (c : Nat) (f : CoreSt → CoreSt) : (s.modCore c f).rot = s.rot := rfl
@[simp] theorem State.modCore_cur (s : State) (c : Nat) (f : CoreSt → CoreSt) : (s.modCore c f).cur = s.cur := rfl
@[simp] theorem State.modCore_mark (s : State) (c : Nat) (f : CoreSt → CoreSt) : (s.modCore c f).mark = s.mark := rfl
@[simp] theorem State.modCore_args (s : State) (c : Nat) (f : CoreSt → CoreSt) : (s.modCore c f).args = s.args := rfl
@[simp] theorem State.modCore_schedule (s : State) (c : Nat) (f : CoreSt → CoreSt) : (s.modCore c f).schedule = s.schedule := rfl

/-! `State.modBlock` -/

@[simp] theorem State.modBlock_cycle (s : State) (b : Nat) (f : Block → Block) : (s.modBlock b f).cycle = s.cycle := rfl
@[simp] theorem State.modBlock_modid (s : State) (b : Nat) (f : Block → Block) : (s.modBlock b f).modid = s.modid := rfl
@[simp] theorem State.modBlock_clkMhz (s : State) (b : Nat) (f : Block → Block) : (s.modBlock b f).clkMhz = s.clkMhz := rfl
@[simp] theorem State.modBlock_pwrCap (s : State) (b : Nat) (f : Block → Block) : (s.modBlock b f).pwrCap = s.pwrCap := rfl
@[simp] theorem State.modBlock_links (s : State) (b : Nat) (f : Block → Block) : (s.modBlock b f).links = s.links := rfl
@[simp] theorem State.modBlock_hostLanes (s : State) (b : Nat) (f : Block → Block) : (s.modBlock b f).hostLanes = s.hostLanes := rfl
@[simp] theorem State.modBlock_mem (s : State) (b : Nat) (f : Block → Block) : (s.modBlock b f).mem = s.mem := rfl
@[simp] theorem State.modBlock_memBad (s : State) (b : Nat) (f : Block → Block) : (s.modBlock b f).memBad = s.memBad := rfl
@[simp] theorem State.modBlock_padBars (s : State) (b : Nat) (f : Block → Block) : (s.modBlock b f).padBars = s.padBars := rfl
@[simp] theorem State.modBlock_cores (s : State) (b : Nat) (f : Block → Block) : (s.modBlock b f).cores = s.cores := rfl
@[simp] theorem State.modBlock_ops (s : State) (b : Nat) (f : Block → Block) : (s.modBlock b f).ops = s.ops := rfl
@[simp] theorem State.modBlock_trees (s : State) (b : Nat) (f : Block → Block) : (s.modBlock b f).trees = s.trees := rfl
@[simp] theorem State.modBlock_grids (s : State) (b : Nat) (f : Block → Block) : (s.modBlock b f).grids = s.grids := rfl
@[simp] theorem State.modBlock_comps (s : State) (b : Nat) (f : Block → Block) : (s.modBlock b f).comps = s.comps := rfl
@[simp] theorem State.modBlock_spawns (s : State) (b : Nat) (f : Block → Block) : (s.modBlock b f).spawns = s.spawns := rfl
@[simp] theorem State.modBlock_queues (s : State) (b : Nat) (f : Block → Block) : (s.modBlock b f).queues = s.queues := rfl
@[simp] theorem State.modBlock_preempt (s : State) (b : Nat) (f : Block → Block) : (s.modBlock b f).preempt = s.preempt := rfl
@[simp] theorem State.modBlock_susp (s : State) (b : Nat) (f : Block → Block) : (s.modBlock b f).susp = s.susp := rfl
@[simp] theorem State.modBlock_lifted (s : State) (b : Nat) (f : Block → Block) : (s.modBlock b f).lifted = s.lifted := rfl
@[simp] theorem State.modBlock_lanes (s : State) (b : Nat) (f : Block → Block) : (s.modBlock b f).lanes = s.lanes := rfl
@[simp] theorem State.modBlock_quads (s : State) (b : Nat) (f : Block → Block) : (s.modBlock b f).quads = s.quads := rfl
@[simp] theorem State.modBlock_windows (s : State) (b : Nat) (f : Block → Block) : (s.modBlock b f).windows = s.windows := rfl
@[simp] theorem State.modBlock_parts (s : State) (b : Nat) (f : Block → Block) : (s.modBlock b f).parts = s.parts := rfl
@[simp] theorem State.modBlock_eccCorr (s : State) (b : Nat) (f : Block → Block) : (s.modBlock b f).eccCorr = s.eccCorr := rfl
@[simp] theorem State.modBlock_eccUnc (s : State) (b : Nat) (f : Block → Block) : (s.modBlock b f).eccUnc = s.eccUnc := rfl
@[simp] theorem State.modBlock_eccAddr (s : State) (b : Nat) (f : Block → Block) : (s.modBlock b f).eccAddr = s.eccAddr := rfl
@[simp] theorem State.modBlock_mailbox (s : State) (b : Nat) (f : Block → Block) : (s.modBlock b f).mailbox = s.mailbox := rfl
@[simp] theorem State.modBlock_ckpt (s : State) (b : Nat) (f : Block → Block) : (s.modBlock b f).ckpt = s.ckpt := rfl
@[simp] theorem State.modBlock_comms (s : State) (b : Nat) (f : Block → Block) : (s.modBlock b f).comms = s.comms := rfl
@[simp] theorem State.modBlock_colls (s : State) (b : Nat) (f : Block → Block) : (s.modBlock b f).colls = s.colls := rfl
@[simp] theorem State.modBlock_harvest (s : State) (b : Nat) (f : Block → Block) : (s.modBlock b f).harvest = s.harvest := rfl
@[simp] theorem State.modBlock_steps (s : State) (b : Nat) (f : Block → Block) : (s.modBlock b f).steps = s.steps := rfl
@[simp] theorem State.modBlock_pinned (s : State) (b : Nat) (f : Block → Block) : (s.modBlock b f).pinned = s.pinned := rfl
@[simp] theorem State.modBlock_l2 (s : State) (b : Nat) (f : Block → Block) : (s.modBlock b f).l2 = s.l2 := rfl
@[simp] theorem State.modBlock_chans (s : State) (b : Nat) (f : Block → Block) : (s.modBlock b f).chans = s.chans := rfl
@[simp] theorem State.modBlock_hostWaits (s : State) (b : Nat) (f : Block → Block) : (s.modBlock b f).hostWaits = s.hostWaits := rfl
@[simp] theorem State.modBlock_msix (s : State) (b : Nat) (f : Block → Block) : (s.modBlock b f).msix = s.msix := rfl
@[simp] theorem State.modBlock_outbox (s : State) (b : Nat) (f : Block → Block) : (s.modBlock b f).outbox = s.outbox := rfl
@[simp] theorem State.modBlock_free (s : State) (b : Nat) (f : Block → Block) : (s.modBlock b f).free = s.free := rfl
@[simp] theorem State.modBlock_nextId (s : State) (b : Nat) (f : Block → Block) : (s.modBlock b f).nextId = s.nextId := rfl
@[simp] theorem State.modBlock_rot (s : State) (b : Nat) (f : Block → Block) : (s.modBlock b f).rot = s.rot := rfl
@[simp] theorem State.modBlock_cur (s : State) (b : Nat) (f : Block → Block) : (s.modBlock b f).cur = s.cur := rfl
@[simp] theorem State.modBlock_mark (s : State) (b : Nat) (f : Block → Block) : (s.modBlock b f).mark = s.mark := rfl
@[simp] theorem State.modBlock_args (s : State) (b : Nat) (f : Block → Block) : (s.modBlock b f).args = s.args := rfl
@[simp] theorem State.modBlock_schedule (s : State) (b : Nat) (f : Block → Block) : (s.modBlock b f).schedule = s.schedule := rfl

/-! `State.modGroup` -/

@[simp] theorem State.modGroup_cycle (s : State) (b g : Nat) (f : Group → Group) : (s.modGroup b g f).cycle = s.cycle := rfl
@[simp] theorem State.modGroup_modid (s : State) (b g : Nat) (f : Group → Group) : (s.modGroup b g f).modid = s.modid := rfl
@[simp] theorem State.modGroup_clkMhz (s : State) (b g : Nat) (f : Group → Group) : (s.modGroup b g f).clkMhz = s.clkMhz := rfl
@[simp] theorem State.modGroup_pwrCap (s : State) (b g : Nat) (f : Group → Group) : (s.modGroup b g f).pwrCap = s.pwrCap := rfl
@[simp] theorem State.modGroup_links (s : State) (b g : Nat) (f : Group → Group) : (s.modGroup b g f).links = s.links := rfl
@[simp] theorem State.modGroup_hostLanes (s : State) (b g : Nat) (f : Group → Group) : (s.modGroup b g f).hostLanes = s.hostLanes := rfl
@[simp] theorem State.modGroup_mem (s : State) (b g : Nat) (f : Group → Group) : (s.modGroup b g f).mem = s.mem := rfl
@[simp] theorem State.modGroup_memBad (s : State) (b g : Nat) (f : Group → Group) : (s.modGroup b g f).memBad = s.memBad := rfl
@[simp] theorem State.modGroup_padBars (s : State) (b g : Nat) (f : Group → Group) : (s.modGroup b g f).padBars = s.padBars := rfl
@[simp] theorem State.modGroup_cores (s : State) (b g : Nat) (f : Group → Group) : (s.modGroup b g f).cores = s.cores := rfl
@[simp] theorem State.modGroup_ops (s : State) (b g : Nat) (f : Group → Group) : (s.modGroup b g f).ops = s.ops := rfl
@[simp] theorem State.modGroup_trees (s : State) (b g : Nat) (f : Group → Group) : (s.modGroup b g f).trees = s.trees := rfl
@[simp] theorem State.modGroup_grids (s : State) (b g : Nat) (f : Group → Group) : (s.modGroup b g f).grids = s.grids := rfl
@[simp] theorem State.modGroup_comps (s : State) (b g : Nat) (f : Group → Group) : (s.modGroup b g f).comps = s.comps := rfl
@[simp] theorem State.modGroup_spawns (s : State) (b g : Nat) (f : Group → Group) : (s.modGroup b g f).spawns = s.spawns := rfl
@[simp] theorem State.modGroup_queues (s : State) (b g : Nat) (f : Group → Group) : (s.modGroup b g f).queues = s.queues := rfl
@[simp] theorem State.modGroup_preempt (s : State) (b g : Nat) (f : Group → Group) : (s.modGroup b g f).preempt = s.preempt := rfl
@[simp] theorem State.modGroup_susp (s : State) (b g : Nat) (f : Group → Group) : (s.modGroup b g f).susp = s.susp := rfl
@[simp] theorem State.modGroup_lifted (s : State) (b g : Nat) (f : Group → Group) : (s.modGroup b g f).lifted = s.lifted := rfl
@[simp] theorem State.modGroup_lanes (s : State) (b g : Nat) (f : Group → Group) : (s.modGroup b g f).lanes = s.lanes := rfl
@[simp] theorem State.modGroup_quads (s : State) (b g : Nat) (f : Group → Group) : (s.modGroup b g f).quads = s.quads := rfl
@[simp] theorem State.modGroup_windows (s : State) (b g : Nat) (f : Group → Group) : (s.modGroup b g f).windows = s.windows := rfl
@[simp] theorem State.modGroup_parts (s : State) (b g : Nat) (f : Group → Group) : (s.modGroup b g f).parts = s.parts := rfl
@[simp] theorem State.modGroup_eccCorr (s : State) (b g : Nat) (f : Group → Group) : (s.modGroup b g f).eccCorr = s.eccCorr := rfl
@[simp] theorem State.modGroup_eccUnc (s : State) (b g : Nat) (f : Group → Group) : (s.modGroup b g f).eccUnc = s.eccUnc := rfl
@[simp] theorem State.modGroup_eccAddr (s : State) (b g : Nat) (f : Group → Group) : (s.modGroup b g f).eccAddr = s.eccAddr := rfl
@[simp] theorem State.modGroup_mailbox (s : State) (b g : Nat) (f : Group → Group) : (s.modGroup b g f).mailbox = s.mailbox := rfl
@[simp] theorem State.modGroup_ckpt (s : State) (b g : Nat) (f : Group → Group) : (s.modGroup b g f).ckpt = s.ckpt := rfl
@[simp] theorem State.modGroup_comms (s : State) (b g : Nat) (f : Group → Group) : (s.modGroup b g f).comms = s.comms := rfl
@[simp] theorem State.modGroup_colls (s : State) (b g : Nat) (f : Group → Group) : (s.modGroup b g f).colls = s.colls := rfl
@[simp] theorem State.modGroup_harvest (s : State) (b g : Nat) (f : Group → Group) : (s.modGroup b g f).harvest = s.harvest := rfl
@[simp] theorem State.modGroup_steps (s : State) (b g : Nat) (f : Group → Group) : (s.modGroup b g f).steps = s.steps := rfl
@[simp] theorem State.modGroup_pinned (s : State) (b g : Nat) (f : Group → Group) : (s.modGroup b g f).pinned = s.pinned := rfl
@[simp] theorem State.modGroup_l2 (s : State) (b g : Nat) (f : Group → Group) : (s.modGroup b g f).l2 = s.l2 := rfl
@[simp] theorem State.modGroup_chans (s : State) (b g : Nat) (f : Group → Group) : (s.modGroup b g f).chans = s.chans := rfl
@[simp] theorem State.modGroup_hostWaits (s : State) (b g : Nat) (f : Group → Group) : (s.modGroup b g f).hostWaits = s.hostWaits := rfl
@[simp] theorem State.modGroup_msix (s : State) (b g : Nat) (f : Group → Group) : (s.modGroup b g f).msix = s.msix := rfl
@[simp] theorem State.modGroup_outbox (s : State) (b g : Nat) (f : Group → Group) : (s.modGroup b g f).outbox = s.outbox := rfl
@[simp] theorem State.modGroup_free (s : State) (b g : Nat) (f : Group → Group) : (s.modGroup b g f).free = s.free := rfl
@[simp] theorem State.modGroup_nextId (s : State) (b g : Nat) (f : Group → Group) : (s.modGroup b g f).nextId = s.nextId := rfl
@[simp] theorem State.modGroup_rot (s : State) (b g : Nat) (f : Group → Group) : (s.modGroup b g f).rot = s.rot := rfl
@[simp] theorem State.modGroup_cur (s : State) (b g : Nat) (f : Group → Group) : (s.modGroup b g f).cur = s.cur := rfl
@[simp] theorem State.modGroup_mark (s : State) (b g : Nat) (f : Group → Group) : (s.modGroup b g f).mark = s.mark := rfl
@[simp] theorem State.modGroup_args (s : State) (b g : Nat) (f : Group → Group) : (s.modGroup b g f).args = s.args := rfl
@[simp] theorem State.modGroup_schedule (s : State) (b g : Nat) (f : Group → Group) : (s.modGroup b g f).schedule = s.schedule := rfl

/-! `State.withGroup` -/

@[simp] theorem State.withGroup_cycle (s : State) (b g : Nat) (r : Group) (n : Nat) : (s.withGroup b g r n).cycle = s.cycle := rfl
@[simp] theorem State.withGroup_modid (s : State) (b g : Nat) (r : Group) (n : Nat) : (s.withGroup b g r n).modid = s.modid := rfl
@[simp] theorem State.withGroup_clkMhz (s : State) (b g : Nat) (r : Group) (n : Nat) : (s.withGroup b g r n).clkMhz = s.clkMhz := rfl
@[simp] theorem State.withGroup_pwrCap (s : State) (b g : Nat) (r : Group) (n : Nat) : (s.withGroup b g r n).pwrCap = s.pwrCap := rfl
@[simp] theorem State.withGroup_links (s : State) (b g : Nat) (r : Group) (n : Nat) : (s.withGroup b g r n).links = s.links := rfl
@[simp] theorem State.withGroup_hostLanes (s : State) (b g : Nat) (r : Group) (n : Nat) : (s.withGroup b g r n).hostLanes = s.hostLanes := rfl
@[simp] theorem State.withGroup_mem (s : State) (b g : Nat) (r : Group) (n : Nat) : (s.withGroup b g r n).mem = s.mem := rfl
@[simp] theorem State.withGroup_memBad (s : State) (b g : Nat) (r : Group) (n : Nat) : (s.withGroup b g r n).memBad = s.memBad := rfl
@[simp] theorem State.withGroup_padBars (s : State) (b g : Nat) (r : Group) (n : Nat) : (s.withGroup b g r n).padBars = s.padBars := rfl
@[simp] theorem State.withGroup_cores (s : State) (b g : Nat) (r : Group) (n : Nat) : (s.withGroup b g r n).cores = s.cores := rfl
@[simp] theorem State.withGroup_ops (s : State) (b g : Nat) (r : Group) (n : Nat) : (s.withGroup b g r n).ops = s.ops := rfl
@[simp] theorem State.withGroup_trees (s : State) (b g : Nat) (r : Group) (n : Nat) : (s.withGroup b g r n).trees = s.trees := rfl
@[simp] theorem State.withGroup_grids (s : State) (b g : Nat) (r : Group) (n : Nat) : (s.withGroup b g r n).grids = s.grids := rfl
@[simp] theorem State.withGroup_comps (s : State) (b g : Nat) (r : Group) (n : Nat) : (s.withGroup b g r n).comps = s.comps := rfl
@[simp] theorem State.withGroup_spawns (s : State) (b g : Nat) (r : Group) (n : Nat) : (s.withGroup b g r n).spawns = s.spawns := rfl
@[simp] theorem State.withGroup_queues (s : State) (b g : Nat) (r : Group) (n : Nat) : (s.withGroup b g r n).queues = s.queues := rfl
@[simp] theorem State.withGroup_preempt (s : State) (b g : Nat) (r : Group) (n : Nat) : (s.withGroup b g r n).preempt = s.preempt := rfl
@[simp] theorem State.withGroup_susp (s : State) (b g : Nat) (r : Group) (n : Nat) : (s.withGroup b g r n).susp = s.susp := rfl
@[simp] theorem State.withGroup_lifted (s : State) (b g : Nat) (r : Group) (n : Nat) : (s.withGroup b g r n).lifted = s.lifted := rfl
@[simp] theorem State.withGroup_lanes (s : State) (b g : Nat) (r : Group) (n : Nat) : (s.withGroup b g r n).lanes = s.lanes := rfl
@[simp] theorem State.withGroup_quads (s : State) (b g : Nat) (r : Group) (n : Nat) : (s.withGroup b g r n).quads = s.quads := rfl
@[simp] theorem State.withGroup_windows (s : State) (b g : Nat) (r : Group) (n : Nat) : (s.withGroup b g r n).windows = s.windows := rfl
@[simp] theorem State.withGroup_parts (s : State) (b g : Nat) (r : Group) (n : Nat) : (s.withGroup b g r n).parts = s.parts := rfl
@[simp] theorem State.withGroup_eccCorr (s : State) (b g : Nat) (r : Group) (n : Nat) : (s.withGroup b g r n).eccCorr = s.eccCorr := rfl
@[simp] theorem State.withGroup_eccUnc (s : State) (b g : Nat) (r : Group) (n : Nat) : (s.withGroup b g r n).eccUnc = s.eccUnc := rfl
@[simp] theorem State.withGroup_eccAddr (s : State) (b g : Nat) (r : Group) (n : Nat) : (s.withGroup b g r n).eccAddr = s.eccAddr := rfl
@[simp] theorem State.withGroup_mailbox (s : State) (b g : Nat) (r : Group) (n : Nat) : (s.withGroup b g r n).mailbox = s.mailbox := rfl
@[simp] theorem State.withGroup_ckpt (s : State) (b g : Nat) (r : Group) (n : Nat) : (s.withGroup b g r n).ckpt = s.ckpt := rfl
@[simp] theorem State.withGroup_comms (s : State) (b g : Nat) (r : Group) (n : Nat) : (s.withGroup b g r n).comms = s.comms := rfl
@[simp] theorem State.withGroup_colls (s : State) (b g : Nat) (r : Group) (n : Nat) : (s.withGroup b g r n).colls = s.colls := rfl
@[simp] theorem State.withGroup_harvest (s : State) (b g : Nat) (r : Group) (n : Nat) : (s.withGroup b g r n).harvest = s.harvest := rfl
@[simp] theorem State.withGroup_steps (s : State) (b g : Nat) (r : Group) (n : Nat) : (s.withGroup b g r n).steps = s.steps := rfl
@[simp] theorem State.withGroup_pinned (s : State) (b g : Nat) (r : Group) (n : Nat) : (s.withGroup b g r n).pinned = s.pinned := rfl
@[simp] theorem State.withGroup_l2 (s : State) (b g : Nat) (r : Group) (n : Nat) : (s.withGroup b g r n).l2 = s.l2 := rfl
@[simp] theorem State.withGroup_chans (s : State) (b g : Nat) (r : Group) (n : Nat) : (s.withGroup b g r n).chans = s.chans := rfl
@[simp] theorem State.withGroup_hostWaits (s : State) (b g : Nat) (r : Group) (n : Nat) : (s.withGroup b g r n).hostWaits = s.hostWaits := rfl
@[simp] theorem State.withGroup_msix (s : State) (b g : Nat) (r : Group) (n : Nat) : (s.withGroup b g r n).msix = s.msix := rfl
@[simp] theorem State.withGroup_outbox (s : State) (b g : Nat) (r : Group) (n : Nat) : (s.withGroup b g r n).outbox = s.outbox := rfl
@[simp] theorem State.withGroup_nextId (s : State) (b g : Nat) (r : Group) (n : Nat) : (s.withGroup b g r n).nextId = s.nextId := rfl
@[simp] theorem State.withGroup_rot (s : State) (b g : Nat) (r : Group) (n : Nat) : (s.withGroup b g r n).rot = s.rot := rfl
@[simp] theorem State.withGroup_cur (s : State) (b g : Nat) (r : Group) (n : Nat) : (s.withGroup b g r n).cur = s.cur := rfl
@[simp] theorem State.withGroup_mark (s : State) (b g : Nat) (r : Group) (n : Nat) : (s.withGroup b g r n).mark = s.mark := rfl
@[simp] theorem State.withGroup_args (s : State) (b g : Nat) (r : Group) (n : Nat) : (s.withGroup b g r n).args = s.args := rfl
@[simp] theorem State.withGroup_schedule (s : State) (b g : Nat) (r : Group) (n : Nat) : (s.withGroup b g r n).schedule = s.schedule := rfl

/-! `State.issuedBy` -/

@[simp] theorem State.issuedBy_cycle (s : State) (c q n : Nat) (k : Bool) : (s.issuedBy c q n k).cycle = s.cycle := rfl
@[simp] theorem State.issuedBy_modid (s : State) (c q n : Nat) (k : Bool) : (s.issuedBy c q n k).modid = s.modid := rfl
@[simp] theorem State.issuedBy_clkMhz (s : State) (c q n : Nat) (k : Bool) : (s.issuedBy c q n k).clkMhz = s.clkMhz := rfl
@[simp] theorem State.issuedBy_pwrCap (s : State) (c q n : Nat) (k : Bool) : (s.issuedBy c q n k).pwrCap = s.pwrCap := rfl
@[simp] theorem State.issuedBy_links (s : State) (c q n : Nat) (k : Bool) : (s.issuedBy c q n k).links = s.links := rfl
@[simp] theorem State.issuedBy_hostLanes (s : State) (c q n : Nat) (k : Bool) : (s.issuedBy c q n k).hostLanes = s.hostLanes := rfl
@[simp] theorem State.issuedBy_mem (s : State) (c q n : Nat) (k : Bool) : (s.issuedBy c q n k).mem = s.mem := rfl
@[simp] theorem State.issuedBy_memBad (s : State) (c q n : Nat) (k : Bool) : (s.issuedBy c q n k).memBad = s.memBad := rfl
@[simp] theorem State.issuedBy_padBars (s : State) (c q n : Nat) (k : Bool) : (s.issuedBy c q n k).padBars = s.padBars := rfl
@[simp] theorem State.issuedBy_blocks (s : State) (c q n : Nat) (k : Bool) : (s.issuedBy c q n k).blocks = s.blocks := rfl
@[simp] theorem State.issuedBy_ops (s : State) (c q n : Nat) (k : Bool) : (s.issuedBy c q n k).ops = s.ops := rfl
@[simp] theorem State.issuedBy_trees (s : State) (c q n : Nat) (k : Bool) : (s.issuedBy c q n k).trees = s.trees := rfl
@[simp] theorem State.issuedBy_grids (s : State) (c q n : Nat) (k : Bool) : (s.issuedBy c q n k).grids = s.grids := rfl
@[simp] theorem State.issuedBy_comps (s : State) (c q n : Nat) (k : Bool) : (s.issuedBy c q n k).comps = s.comps := rfl
@[simp] theorem State.issuedBy_spawns (s : State) (c q n : Nat) (k : Bool) : (s.issuedBy c q n k).spawns = s.spawns := rfl
@[simp] theorem State.issuedBy_queues (s : State) (c q n : Nat) (k : Bool) : (s.issuedBy c q n k).queues = s.queues := rfl
@[simp] theorem State.issuedBy_preempt (s : State) (c q n : Nat) (k : Bool) : (s.issuedBy c q n k).preempt = s.preempt := rfl
@[simp] theorem State.issuedBy_susp (s : State) (c q n : Nat) (k : Bool) : (s.issuedBy c q n k).susp = s.susp := rfl
@[simp] theorem State.issuedBy_lifted (s : State) (c q n : Nat) (k : Bool) : (s.issuedBy c q n k).lifted = s.lifted := rfl
@[simp] theorem State.issuedBy_lanes (s : State) (c q n : Nat) (k : Bool) : (s.issuedBy c q n k).lanes = s.lanes := rfl
@[simp] theorem State.issuedBy_quads (s : State) (c q n : Nat) (k : Bool) : (s.issuedBy c q n k).quads = s.quads := rfl
@[simp] theorem State.issuedBy_windows (s : State) (c q n : Nat) (k : Bool) : (s.issuedBy c q n k).windows = s.windows := rfl
@[simp] theorem State.issuedBy_parts (s : State) (c q n : Nat) (k : Bool) : (s.issuedBy c q n k).parts = s.parts := rfl
@[simp] theorem State.issuedBy_eccCorr (s : State) (c q n : Nat) (k : Bool) : (s.issuedBy c q n k).eccCorr = s.eccCorr := rfl
@[simp] theorem State.issuedBy_eccUnc (s : State) (c q n : Nat) (k : Bool) : (s.issuedBy c q n k).eccUnc = s.eccUnc := rfl
@[simp] theorem State.issuedBy_eccAddr (s : State) (c q n : Nat) (k : Bool) : (s.issuedBy c q n k).eccAddr = s.eccAddr := rfl
@[simp] theorem State.issuedBy_mailbox (s : State) (c q n : Nat) (k : Bool) : (s.issuedBy c q n k).mailbox = s.mailbox := rfl
@[simp] theorem State.issuedBy_ckpt (s : State) (c q n : Nat) (k : Bool) : (s.issuedBy c q n k).ckpt = s.ckpt := rfl
@[simp] theorem State.issuedBy_comms (s : State) (c q n : Nat) (k : Bool) : (s.issuedBy c q n k).comms = s.comms := rfl
@[simp] theorem State.issuedBy_colls (s : State) (c q n : Nat) (k : Bool) : (s.issuedBy c q n k).colls = s.colls := rfl
@[simp] theorem State.issuedBy_harvest (s : State) (c q n : Nat) (k : Bool) : (s.issuedBy c q n k).harvest = s.harvest := rfl
@[simp] theorem State.issuedBy_steps (s : State) (c q n : Nat) (k : Bool) : (s.issuedBy c q n k).steps = s.steps := rfl
@[simp] theorem State.issuedBy_pinned (s : State) (c q n : Nat) (k : Bool) : (s.issuedBy c q n k).pinned = s.pinned := rfl
@[simp] theorem State.issuedBy_l2 (s : State) (c q n : Nat) (k : Bool) : (s.issuedBy c q n k).l2 = s.l2 := rfl
@[simp] theorem State.issuedBy_chans (s : State) (c q n : Nat) (k : Bool) : (s.issuedBy c q n k).chans = s.chans := rfl
@[simp] theorem State.issuedBy_hostWaits (s : State) (c q n : Nat) (k : Bool) : (s.issuedBy c q n k).hostWaits = s.hostWaits := rfl
@[simp] theorem State.issuedBy_msix (s : State) (c q n : Nat) (k : Bool) : (s.issuedBy c q n k).msix = s.msix := rfl
@[simp] theorem State.issuedBy_outbox (s : State) (c q n : Nat) (k : Bool) : (s.issuedBy c q n k).outbox = s.outbox := rfl
@[simp] theorem State.issuedBy_free (s : State) (c q n : Nat) (k : Bool) : (s.issuedBy c q n k).free = s.free := rfl
@[simp] theorem State.issuedBy_nextId (s : State) (c q n : Nat) (k : Bool) : (s.issuedBy c q n k).nextId = s.nextId := rfl
@[simp] theorem State.issuedBy_rot (s : State) (c q n : Nat) (k : Bool) : (s.issuedBy c q n k).rot = s.rot := rfl
@[simp] theorem State.issuedBy_cur (s : State) (c q n : Nat) (k : Bool) : (s.issuedBy c q n k).cur = s.cur := rfl
@[simp] theorem State.issuedBy_mark (s : State) (c q n : Nat) (k : Bool) : (s.issuedBy c q n k).mark = s.mark := rfl
@[simp] theorem State.issuedBy_args (s : State) (c q n : Nat) (k : Bool) : (s.issuedBy c q n k).args = s.args := rfl
@[simp] theorem State.issuedBy_schedule (s : State) (c q n : Nat) (k : Bool) : (s.issuedBy c q n k).schedule = s.schedule := rfl

/-! `State.modQuad` -/

@[simp] theorem State.modQuad_cycle (s : State) (q : Nat) (f : Quad → Quad) : (s.modQuad q f).cycle = s.cycle := rfl
@[simp] theorem State.modQuad_modid (s : State) (q : Nat) (f : Quad → Quad) : (s.modQuad q f).modid = s.modid := rfl
@[simp] theorem State.modQuad_clkMhz (s : State) (q : Nat) (f : Quad → Quad) : (s.modQuad q f).clkMhz = s.clkMhz := rfl
@[simp] theorem State.modQuad_pwrCap (s : State) (q : Nat) (f : Quad → Quad) : (s.modQuad q f).pwrCap = s.pwrCap := rfl
@[simp] theorem State.modQuad_links (s : State) (q : Nat) (f : Quad → Quad) : (s.modQuad q f).links = s.links := rfl
@[simp] theorem State.modQuad_hostLanes (s : State) (q : Nat) (f : Quad → Quad) : (s.modQuad q f).hostLanes = s.hostLanes := rfl
@[simp] theorem State.modQuad_mem (s : State) (q : Nat) (f : Quad → Quad) : (s.modQuad q f).mem = s.mem := rfl
@[simp] theorem State.modQuad_memBad (s : State) (q : Nat) (f : Quad → Quad) : (s.modQuad q f).memBad = s.memBad := rfl
@[simp] theorem State.modQuad_padBars (s : State) (q : Nat) (f : Quad → Quad) : (s.modQuad q f).padBars = s.padBars := rfl
@[simp] theorem State.modQuad_cores (s : State) (q : Nat) (f : Quad → Quad) : (s.modQuad q f).cores = s.cores := rfl
@[simp] theorem State.modQuad_blocks (s : State) (q : Nat) (f : Quad → Quad) : (s.modQuad q f).blocks = s.blocks := rfl
@[simp] theorem State.modQuad_ops (s : State) (q : Nat) (f : Quad → Quad) : (s.modQuad q f).ops = s.ops := rfl
@[simp] theorem State.modQuad_trees (s : State) (q : Nat) (f : Quad → Quad) : (s.modQuad q f).trees = s.trees := rfl
@[simp] theorem State.modQuad_grids (s : State) (q : Nat) (f : Quad → Quad) : (s.modQuad q f).grids = s.grids := rfl
@[simp] theorem State.modQuad_comps (s : State) (q : Nat) (f : Quad → Quad) : (s.modQuad q f).comps = s.comps := rfl
@[simp] theorem State.modQuad_spawns (s : State) (q : Nat) (f : Quad → Quad) : (s.modQuad q f).spawns = s.spawns := rfl
@[simp] theorem State.modQuad_queues (s : State) (q : Nat) (f : Quad → Quad) : (s.modQuad q f).queues = s.queues := rfl
@[simp] theorem State.modQuad_preempt (s : State) (q : Nat) (f : Quad → Quad) : (s.modQuad q f).preempt = s.preempt := rfl
@[simp] theorem State.modQuad_susp (s : State) (q : Nat) (f : Quad → Quad) : (s.modQuad q f).susp = s.susp := rfl
@[simp] theorem State.modQuad_lifted (s : State) (q : Nat) (f : Quad → Quad) : (s.modQuad q f).lifted = s.lifted := rfl
@[simp] theorem State.modQuad_lanes (s : State) (q : Nat) (f : Quad → Quad) : (s.modQuad q f).lanes = s.lanes := rfl
@[simp] theorem State.modQuad_windows (s : State) (q : Nat) (f : Quad → Quad) : (s.modQuad q f).windows = s.windows := rfl
@[simp] theorem State.modQuad_parts (s : State) (q : Nat) (f : Quad → Quad) : (s.modQuad q f).parts = s.parts := rfl
@[simp] theorem State.modQuad_eccCorr (s : State) (q : Nat) (f : Quad → Quad) : (s.modQuad q f).eccCorr = s.eccCorr := rfl
@[simp] theorem State.modQuad_eccUnc (s : State) (q : Nat) (f : Quad → Quad) : (s.modQuad q f).eccUnc = s.eccUnc := rfl
@[simp] theorem State.modQuad_eccAddr (s : State) (q : Nat) (f : Quad → Quad) : (s.modQuad q f).eccAddr = s.eccAddr := rfl
@[simp] theorem State.modQuad_mailbox (s : State) (q : Nat) (f : Quad → Quad) : (s.modQuad q f).mailbox = s.mailbox := rfl
@[simp] theorem State.modQuad_ckpt (s : State) (q : Nat) (f : Quad → Quad) : (s.modQuad q f).ckpt = s.ckpt := rfl
@[simp] theorem State.modQuad_comms (s : State) (q : Nat) (f : Quad → Quad) : (s.modQuad q f).comms = s.comms := rfl
@[simp] theorem State.modQuad_colls (s : State) (q : Nat) (f : Quad → Quad) : (s.modQuad q f).colls = s.colls := rfl
@[simp] theorem State.modQuad_harvest (s : State) (q : Nat) (f : Quad → Quad) : (s.modQuad q f).harvest = s.harvest := rfl
@[simp] theorem State.modQuad_steps (s : State) (q : Nat) (f : Quad → Quad) : (s.modQuad q f).steps = s.steps := rfl
@[simp] theorem State.modQuad_pinned (s : State) (q : Nat) (f : Quad → Quad) : (s.modQuad q f).pinned = s.pinned := rfl
@[simp] theorem State.modQuad_l2 (s : State) (q : Nat) (f : Quad → Quad) : (s.modQuad q f).l2 = s.l2 := rfl
@[simp] theorem State.modQuad_chans (s : State) (q : Nat) (f : Quad → Quad) : (s.modQuad q f).chans = s.chans := rfl
@[simp] theorem State.modQuad_hostWaits (s : State) (q : Nat) (f : Quad → Quad) : (s.modQuad q f).hostWaits = s.hostWaits := rfl
@[simp] theorem State.modQuad_msix (s : State) (q : Nat) (f : Quad → Quad) : (s.modQuad q f).msix = s.msix := rfl
@[simp] theorem State.modQuad_outbox (s : State) (q : Nat) (f : Quad → Quad) : (s.modQuad q f).outbox = s.outbox := rfl
@[simp] theorem State.modQuad_free (s : State) (q : Nat) (f : Quad → Quad) : (s.modQuad q f).free = s.free := rfl
@[simp] theorem State.modQuad_nextId (s : State) (q : Nat) (f : Quad → Quad) : (s.modQuad q f).nextId = s.nextId := rfl
@[simp] theorem State.modQuad_rot (s : State) (q : Nat) (f : Quad → Quad) : (s.modQuad q f).rot = s.rot := rfl
@[simp] theorem State.modQuad_cur (s : State) (q : Nat) (f : Quad → Quad) : (s.modQuad q f).cur = s.cur := rfl
@[simp] theorem State.modQuad_mark (s : State) (q : Nat) (f : Quad → Quad) : (s.modQuad q f).mark = s.mark := rfl
@[simp] theorem State.modQuad_args (s : State) (q : Nat) (f : Quad → Quad) : (s.modQuad q f).args = s.args := rfl
@[simp] theorem State.modQuad_schedule (s : State) (q : Nat) (f : Quad → Quad) : (s.modQuad q f).schedule = s.schedule := rfl

/-! `State.modPart` -/

@[simp] theorem State.modPart_cycle (s : State) (p : Nat) (f : Part → Part) : (s.modPart p f).cycle = s.cycle := rfl
@[simp] theorem State.modPart_modid (s : State) (p : Nat) (f : Part → Part) : (s.modPart p f).modid = s.modid := rfl
@[simp] theorem State.modPart_clkMhz (s : State) (p : Nat) (f : Part → Part) : (s.modPart p f).clkMhz = s.clkMhz := rfl
@[simp] theorem State.modPart_pwrCap (s : State) (p : Nat) (f : Part → Part) : (s.modPart p f).pwrCap = s.pwrCap := rfl
@[simp] theorem State.modPart_links (s : State) (p : Nat) (f : Part → Part) : (s.modPart p f).links = s.links := rfl
@[simp] theorem State.modPart_hostLanes (s : State) (p : Nat) (f : Part → Part) : (s.modPart p f).hostLanes = s.hostLanes := rfl
@[simp] theorem State.modPart_mem (s : State) (p : Nat) (f : Part → Part) : (s.modPart p f).mem = s.mem := rfl
@[simp] theorem State.modPart_memBad (s : State) (p : Nat) (f : Part → Part) : (s.modPart p f).memBad = s.memBad := rfl
@[simp] theorem State.modPart_padBars (s : State) (p : Nat) (f : Part → Part) : (s.modPart p f).padBars = s.padBars := rfl
@[simp] theorem State.modPart_cores (s : State) (p : Nat) (f : Part → Part) : (s.modPart p f).cores = s.cores := rfl
@[simp] theorem State.modPart_blocks (s : State) (p : Nat) (f : Part → Part) : (s.modPart p f).blocks = s.blocks := rfl
@[simp] theorem State.modPart_ops (s : State) (p : Nat) (f : Part → Part) : (s.modPart p f).ops = s.ops := rfl
@[simp] theorem State.modPart_trees (s : State) (p : Nat) (f : Part → Part) : (s.modPart p f).trees = s.trees := rfl
@[simp] theorem State.modPart_grids (s : State) (p : Nat) (f : Part → Part) : (s.modPart p f).grids = s.grids := rfl
@[simp] theorem State.modPart_comps (s : State) (p : Nat) (f : Part → Part) : (s.modPart p f).comps = s.comps := rfl
@[simp] theorem State.modPart_spawns (s : State) (p : Nat) (f : Part → Part) : (s.modPart p f).spawns = s.spawns := rfl
@[simp] theorem State.modPart_queues (s : State) (p : Nat) (f : Part → Part) : (s.modPart p f).queues = s.queues := rfl
@[simp] theorem State.modPart_preempt (s : State) (p : Nat) (f : Part → Part) : (s.modPart p f).preempt = s.preempt := rfl
@[simp] theorem State.modPart_susp (s : State) (p : Nat) (f : Part → Part) : (s.modPart p f).susp = s.susp := rfl
@[simp] theorem State.modPart_lifted (s : State) (p : Nat) (f : Part → Part) : (s.modPart p f).lifted = s.lifted := rfl
@[simp] theorem State.modPart_lanes (s : State) (p : Nat) (f : Part → Part) : (s.modPart p f).lanes = s.lanes := rfl
@[simp] theorem State.modPart_quads (s : State) (p : Nat) (f : Part → Part) : (s.modPart p f).quads = s.quads := rfl
@[simp] theorem State.modPart_windows (s : State) (p : Nat) (f : Part → Part) : (s.modPart p f).windows = s.windows := rfl
@[simp] theorem State.modPart_eccCorr (s : State) (p : Nat) (f : Part → Part) : (s.modPart p f).eccCorr = s.eccCorr := rfl
@[simp] theorem State.modPart_eccUnc (s : State) (p : Nat) (f : Part → Part) : (s.modPart p f).eccUnc = s.eccUnc := rfl
@[simp] theorem State.modPart_eccAddr (s : State) (p : Nat) (f : Part → Part) : (s.modPart p f).eccAddr = s.eccAddr := rfl
@[simp] theorem State.modPart_mailbox (s : State) (p : Nat) (f : Part → Part) : (s.modPart p f).mailbox = s.mailbox := rfl
@[simp] theorem State.modPart_ckpt (s : State) (p : Nat) (f : Part → Part) : (s.modPart p f).ckpt = s.ckpt := rfl
@[simp] theorem State.modPart_comms (s : State) (p : Nat) (f : Part → Part) : (s.modPart p f).comms = s.comms := rfl
@[simp] theorem State.modPart_colls (s : State) (p : Nat) (f : Part → Part) : (s.modPart p f).colls = s.colls := rfl
@[simp] theorem State.modPart_harvest (s : State) (p : Nat) (f : Part → Part) : (s.modPart p f).harvest = s.harvest := rfl
@[simp] theorem State.modPart_steps (s : State) (p : Nat) (f : Part → Part) : (s.modPart p f).steps = s.steps := rfl
@[simp] theorem State.modPart_pinned (s : State) (p : Nat) (f : Part → Part) : (s.modPart p f).pinned = s.pinned := rfl
@[simp] theorem State.modPart_l2 (s : State) (p : Nat) (f : Part → Part) : (s.modPart p f).l2 = s.l2 := rfl
@[simp] theorem State.modPart_chans (s : State) (p : Nat) (f : Part → Part) : (s.modPart p f).chans = s.chans := rfl
@[simp] theorem State.modPart_hostWaits (s : State) (p : Nat) (f : Part → Part) : (s.modPart p f).hostWaits = s.hostWaits := rfl
@[simp] theorem State.modPart_msix (s : State) (p : Nat) (f : Part → Part) : (s.modPart p f).msix = s.msix := rfl
@[simp] theorem State.modPart_outbox (s : State) (p : Nat) (f : Part → Part) : (s.modPart p f).outbox = s.outbox := rfl
@[simp] theorem State.modPart_free (s : State) (p : Nat) (f : Part → Part) : (s.modPart p f).free = s.free := rfl
@[simp] theorem State.modPart_nextId (s : State) (p : Nat) (f : Part → Part) : (s.modPart p f).nextId = s.nextId := rfl
@[simp] theorem State.modPart_rot (s : State) (p : Nat) (f : Part → Part) : (s.modPart p f).rot = s.rot := rfl
@[simp] theorem State.modPart_cur (s : State) (p : Nat) (f : Part → Part) : (s.modPart p f).cur = s.cur := rfl
@[simp] theorem State.modPart_mark (s : State) (p : Nat) (f : Part → Part) : (s.modPart p f).mark = s.mark := rfl
@[simp] theorem State.modPart_args (s : State) (p : Nat) (f : Part → Part) : (s.modPart p f).args = s.args := rfl
@[simp] theorem State.modPart_schedule (s : State) (p : Nat) (f : Part → Part) : (s.modPart p f).schedule = s.schedule := rfl

/-! `State.modLane` -/

@[simp] theorem State.modLane_cycle (s : State) (n : Nat) (f : Lane → Lane) : (s.modLane n f).cycle = s.cycle := rfl
@[simp] theorem State.modLane_modid (s : State) (n : Nat) (f : Lane → Lane) : (s.modLane n f).modid = s.modid := rfl
@[simp] theorem State.modLane_clkMhz (s : State) (n : Nat) (f : Lane → Lane) : (s.modLane n f).clkMhz = s.clkMhz := rfl
@[simp] theorem State.modLane_pwrCap (s : State) (n : Nat) (f : Lane → Lane) : (s.modLane n f).pwrCap = s.pwrCap := rfl
@[simp] theorem State.modLane_links (s : State) (n : Nat) (f : Lane → Lane) : (s.modLane n f).links = s.links := rfl
@[simp] theorem State.modLane_hostLanes (s : State) (n : Nat) (f : Lane → Lane) : (s.modLane n f).hostLanes = s.hostLanes := rfl
@[simp] theorem State.modLane_mem (s : State) (n : Nat) (f : Lane → Lane) : (s.modLane n f).mem = s.mem := rfl
@[simp] theorem State.modLane_memBad (s : State) (n : Nat) (f : Lane → Lane) : (s.modLane n f).memBad = s.memBad := rfl
@[simp] theorem State.modLane_padBars (s : State) (n : Nat) (f : Lane → Lane) : (s.modLane n f).padBars = s.padBars := rfl
@[simp] theorem State.modLane_cores (s : State) (n : Nat) (f : Lane → Lane) : (s.modLane n f).cores = s.cores := rfl
@[simp] theorem State.modLane_blocks (s : State) (n : Nat) (f : Lane → Lane) : (s.modLane n f).blocks = s.blocks := rfl
@[simp] theorem State.modLane_ops (s : State) (n : Nat) (f : Lane → Lane) : (s.modLane n f).ops = s.ops := rfl
@[simp] theorem State.modLane_trees (s : State) (n : Nat) (f : Lane → Lane) : (s.modLane n f).trees = s.trees := rfl
@[simp] theorem State.modLane_grids (s : State) (n : Nat) (f : Lane → Lane) : (s.modLane n f).grids = s.grids := rfl
@[simp] theorem State.modLane_comps (s : State) (n : Nat) (f : Lane → Lane) : (s.modLane n f).comps = s.comps := rfl
@[simp] theorem State.modLane_spawns (s : State) (n : Nat) (f : Lane → Lane) : (s.modLane n f).spawns = s.spawns := rfl
@[simp] theorem State.modLane_queues (s : State) (n : Nat) (f : Lane → Lane) : (s.modLane n f).queues = s.queues := rfl
@[simp] theorem State.modLane_preempt (s : State) (n : Nat) (f : Lane → Lane) : (s.modLane n f).preempt = s.preempt := rfl
@[simp] theorem State.modLane_susp (s : State) (n : Nat) (f : Lane → Lane) : (s.modLane n f).susp = s.susp := rfl
@[simp] theorem State.modLane_lifted (s : State) (n : Nat) (f : Lane → Lane) : (s.modLane n f).lifted = s.lifted := rfl
@[simp] theorem State.modLane_quads (s : State) (n : Nat) (f : Lane → Lane) : (s.modLane n f).quads = s.quads := rfl
@[simp] theorem State.modLane_windows (s : State) (n : Nat) (f : Lane → Lane) : (s.modLane n f).windows = s.windows := rfl
@[simp] theorem State.modLane_parts (s : State) (n : Nat) (f : Lane → Lane) : (s.modLane n f).parts = s.parts := rfl
@[simp] theorem State.modLane_eccCorr (s : State) (n : Nat) (f : Lane → Lane) : (s.modLane n f).eccCorr = s.eccCorr := rfl
@[simp] theorem State.modLane_eccUnc (s : State) (n : Nat) (f : Lane → Lane) : (s.modLane n f).eccUnc = s.eccUnc := rfl
@[simp] theorem State.modLane_eccAddr (s : State) (n : Nat) (f : Lane → Lane) : (s.modLane n f).eccAddr = s.eccAddr := rfl
@[simp] theorem State.modLane_mailbox (s : State) (n : Nat) (f : Lane → Lane) : (s.modLane n f).mailbox = s.mailbox := rfl
@[simp] theorem State.modLane_ckpt (s : State) (n : Nat) (f : Lane → Lane) : (s.modLane n f).ckpt = s.ckpt := rfl
@[simp] theorem State.modLane_comms (s : State) (n : Nat) (f : Lane → Lane) : (s.modLane n f).comms = s.comms := rfl
@[simp] theorem State.modLane_colls (s : State) (n : Nat) (f : Lane → Lane) : (s.modLane n f).colls = s.colls := rfl
@[simp] theorem State.modLane_harvest (s : State) (n : Nat) (f : Lane → Lane) : (s.modLane n f).harvest = s.harvest := rfl
@[simp] theorem State.modLane_steps (s : State) (n : Nat) (f : Lane → Lane) : (s.modLane n f).steps = s.steps := rfl
@[simp] theorem State.modLane_pinned (s : State) (n : Nat) (f : Lane → Lane) : (s.modLane n f).pinned = s.pinned := rfl
@[simp] theorem State.modLane_l2 (s : State) (n : Nat) (f : Lane → Lane) : (s.modLane n f).l2 = s.l2 := rfl
@[simp] theorem State.modLane_chans (s : State) (n : Nat) (f : Lane → Lane) : (s.modLane n f).chans = s.chans := rfl
@[simp] theorem State.modLane_hostWaits (s : State) (n : Nat) (f : Lane → Lane) : (s.modLane n f).hostWaits = s.hostWaits := rfl
@[simp] theorem State.modLane_msix (s : State) (n : Nat) (f : Lane → Lane) : (s.modLane n f).msix = s.msix := rfl
@[simp] theorem State.modLane_outbox (s : State) (n : Nat) (f : Lane → Lane) : (s.modLane n f).outbox = s.outbox := rfl
@[simp] theorem State.modLane_free (s : State) (n : Nat) (f : Lane → Lane) : (s.modLane n f).free = s.free := rfl
@[simp] theorem State.modLane_nextId (s : State) (n : Nat) (f : Lane → Lane) : (s.modLane n f).nextId = s.nextId := rfl
@[simp] theorem State.modLane_rot (s : State) (n : Nat) (f : Lane → Lane) : (s.modLane n f).rot = s.rot := rfl
@[simp] theorem State.modLane_cur (s : State) (n : Nat) (f : Lane → Lane) : (s.modLane n f).cur = s.cur := rfl
@[simp] theorem State.modLane_mark (s : State) (n : Nat) (f : Lane → Lane) : (s.modLane n f).mark = s.mark := rfl
@[simp] theorem State.modLane_args (s : State) (n : Nat) (f : Lane → Lane) : (s.modLane n f).args = s.args := rfl
@[simp] theorem State.modLane_schedule (s : State) (n : Nat) (f : Lane → Lane) : (s.modLane n f).schedule = s.schedule := rfl

/-! `State.modWindow` -/

@[simp] theorem State.modWindow_cycle (s : State) (p c w : Nat) (f : Window → Window) : (s.modWindow p c w f).cycle = s.cycle := rfl
@[simp] theorem State.modWindow_modid (s : State) (p c w : Nat) (f : Window → Window) : (s.modWindow p c w f).modid = s.modid := rfl
@[simp] theorem State.modWindow_clkMhz (s : State) (p c w : Nat) (f : Window → Window) : (s.modWindow p c w f).clkMhz = s.clkMhz := rfl
@[simp] theorem State.modWindow_pwrCap (s : State) (p c w : Nat) (f : Window → Window) : (s.modWindow p c w f).pwrCap = s.pwrCap := rfl
@[simp] theorem State.modWindow_links (s : State) (p c w : Nat) (f : Window → Window) : (s.modWindow p c w f).links = s.links := rfl
@[simp] theorem State.modWindow_hostLanes (s : State) (p c w : Nat) (f : Window → Window) : (s.modWindow p c w f).hostLanes = s.hostLanes := rfl
@[simp] theorem State.modWindow_mem (s : State) (p c w : Nat) (f : Window → Window) : (s.modWindow p c w f).mem = s.mem := rfl
@[simp] theorem State.modWindow_memBad (s : State) (p c w : Nat) (f : Window → Window) : (s.modWindow p c w f).memBad = s.memBad := rfl
@[simp] theorem State.modWindow_padBars (s : State) (p c w : Nat) (f : Window → Window) : (s.modWindow p c w f).padBars = s.padBars := rfl
@[simp] theorem State.modWindow_cores (s : State) (p c w : Nat) (f : Window → Window) : (s.modWindow p c w f).cores = s.cores := rfl
@[simp] theorem State.modWindow_blocks (s : State) (p c w : Nat) (f : Window → Window) : (s.modWindow p c w f).blocks = s.blocks := rfl
@[simp] theorem State.modWindow_ops (s : State) (p c w : Nat) (f : Window → Window) : (s.modWindow p c w f).ops = s.ops := rfl
@[simp] theorem State.modWindow_trees (s : State) (p c w : Nat) (f : Window → Window) : (s.modWindow p c w f).trees = s.trees := rfl
@[simp] theorem State.modWindow_grids (s : State) (p c w : Nat) (f : Window → Window) : (s.modWindow p c w f).grids = s.grids := rfl
@[simp] theorem State.modWindow_comps (s : State) (p c w : Nat) (f : Window → Window) : (s.modWindow p c w f).comps = s.comps := rfl
@[simp] theorem State.modWindow_spawns (s : State) (p c w : Nat) (f : Window → Window) : (s.modWindow p c w f).spawns = s.spawns := rfl
@[simp] theorem State.modWindow_queues (s : State) (p c w : Nat) (f : Window → Window) : (s.modWindow p c w f).queues = s.queues := rfl
@[simp] theorem State.modWindow_preempt (s : State) (p c w : Nat) (f : Window → Window) : (s.modWindow p c w f).preempt = s.preempt := rfl
@[simp] theorem State.modWindow_susp (s : State) (p c w : Nat) (f : Window → Window) : (s.modWindow p c w f).susp = s.susp := rfl
@[simp] theorem State.modWindow_lifted (s : State) (p c w : Nat) (f : Window → Window) : (s.modWindow p c w f).lifted = s.lifted := rfl
@[simp] theorem State.modWindow_lanes (s : State) (p c w : Nat) (f : Window → Window) : (s.modWindow p c w f).lanes = s.lanes := rfl
@[simp] theorem State.modWindow_quads (s : State) (p c w : Nat) (f : Window → Window) : (s.modWindow p c w f).quads = s.quads := rfl
@[simp] theorem State.modWindow_parts (s : State) (p c w : Nat) (f : Window → Window) : (s.modWindow p c w f).parts = s.parts := rfl
@[simp] theorem State.modWindow_eccCorr (s : State) (p c w : Nat) (f : Window → Window) : (s.modWindow p c w f).eccCorr = s.eccCorr := rfl
@[simp] theorem State.modWindow_eccUnc (s : State) (p c w : Nat) (f : Window → Window) : (s.modWindow p c w f).eccUnc = s.eccUnc := rfl
@[simp] theorem State.modWindow_eccAddr (s : State) (p c w : Nat) (f : Window → Window) : (s.modWindow p c w f).eccAddr = s.eccAddr := rfl
@[simp] theorem State.modWindow_mailbox (s : State) (p c w : Nat) (f : Window → Window) : (s.modWindow p c w f).mailbox = s.mailbox := rfl
@[simp] theorem State.modWindow_ckpt (s : State) (p c w : Nat) (f : Window → Window) : (s.modWindow p c w f).ckpt = s.ckpt := rfl
@[simp] theorem State.modWindow_comms (s : State) (p c w : Nat) (f : Window → Window) : (s.modWindow p c w f).comms = s.comms := rfl
@[simp] theorem State.modWindow_colls (s : State) (p c w : Nat) (f : Window → Window) : (s.modWindow p c w f).colls = s.colls := rfl
@[simp] theorem State.modWindow_harvest (s : State) (p c w : Nat) (f : Window → Window) : (s.modWindow p c w f).harvest = s.harvest := rfl
@[simp] theorem State.modWindow_steps (s : State) (p c w : Nat) (f : Window → Window) : (s.modWindow p c w f).steps = s.steps := rfl
@[simp] theorem State.modWindow_pinned (s : State) (p c w : Nat) (f : Window → Window) : (s.modWindow p c w f).pinned = s.pinned := rfl
@[simp] theorem State.modWindow_l2 (s : State) (p c w : Nat) (f : Window → Window) : (s.modWindow p c w f).l2 = s.l2 := rfl
@[simp] theorem State.modWindow_chans (s : State) (p c w : Nat) (f : Window → Window) : (s.modWindow p c w f).chans = s.chans := rfl
@[simp] theorem State.modWindow_hostWaits (s : State) (p c w : Nat) (f : Window → Window) : (s.modWindow p c w f).hostWaits = s.hostWaits := rfl
@[simp] theorem State.modWindow_msix (s : State) (p c w : Nat) (f : Window → Window) : (s.modWindow p c w f).msix = s.msix := rfl
@[simp] theorem State.modWindow_outbox (s : State) (p c w : Nat) (f : Window → Window) : (s.modWindow p c w f).outbox = s.outbox := rfl
@[simp] theorem State.modWindow_free (s : State) (p c w : Nat) (f : Window → Window) : (s.modWindow p c w f).free = s.free := rfl
@[simp] theorem State.modWindow_nextId (s : State) (p c w : Nat) (f : Window → Window) : (s.modWindow p c w f).nextId = s.nextId := rfl
@[simp] theorem State.modWindow_rot (s : State) (p c w : Nat) (f : Window → Window) : (s.modWindow p c w f).rot = s.rot := rfl
@[simp] theorem State.modWindow_cur (s : State) (p c w : Nat) (f : Window → Window) : (s.modWindow p c w f).cur = s.cur := rfl
@[simp] theorem State.modWindow_mark (s : State) (p c w : Nat) (f : Window → Window) : (s.modWindow p c w f).mark = s.mark := rfl
@[simp] theorem State.modWindow_args (s : State) (p c w : Nat) (f : Window → Window) : (s.modWindow p c w f).args = s.args := rfl
@[simp] theorem State.modWindow_schedule (s : State) (p c w : Nat) (f : Window → Window) : (s.modWindow p c w f).schedule = s.schedule := rfl

/-! `State.modPre` -/

@[simp] theorem State.modPre_cycle (s : State) (d p : Nat) (f : Preempt → Preempt) : (s.modPre d p f).cycle = s.cycle := rfl
@[simp] theorem State.modPre_modid (s : State) (d p : Nat) (f : Preempt → Preempt) : (s.modPre d p f).modid = s.modid := rfl
@[simp] theorem State.modPre_clkMhz (s : State) (d p : Nat) (f : Preempt → Preempt) : (s.modPre d p f).clkMhz = s.clkMhz := rfl
@[simp] theorem State.modPre_pwrCap (s : State) (d p : Nat) (f : Preempt → Preempt) : (s.modPre d p f).pwrCap = s.pwrCap := rfl
@[simp] theorem State.modPre_links (s : State) (d p : Nat) (f : Preempt → Preempt) : (s.modPre d p f).links = s.links := rfl
@[simp] theorem State.modPre_hostLanes (s : State) (d p : Nat) (f : Preempt → Preempt) : (s.modPre d p f).hostLanes = s.hostLanes := rfl
@[simp] theorem State.modPre_mem (s : State) (d p : Nat) (f : Preempt → Preempt) : (s.modPre d p f).mem = s.mem := rfl
@[simp] theorem State.modPre_memBad (s : State) (d p : Nat) (f : Preempt → Preempt) : (s.modPre d p f).memBad = s.memBad := rfl
@[simp] theorem State.modPre_padBars (s : State) (d p : Nat) (f : Preempt → Preempt) : (s.modPre d p f).padBars = s.padBars := rfl
@[simp] theorem State.modPre_cores (s : State) (d p : Nat) (f : Preempt → Preempt) : (s.modPre d p f).cores = s.cores := rfl
@[simp] theorem State.modPre_blocks (s : State) (d p : Nat) (f : Preempt → Preempt) : (s.modPre d p f).blocks = s.blocks := rfl
@[simp] theorem State.modPre_ops (s : State) (d p : Nat) (f : Preempt → Preempt) : (s.modPre d p f).ops = s.ops := rfl
@[simp] theorem State.modPre_trees (s : State) (d p : Nat) (f : Preempt → Preempt) : (s.modPre d p f).trees = s.trees := rfl
@[simp] theorem State.modPre_grids (s : State) (d p : Nat) (f : Preempt → Preempt) : (s.modPre d p f).grids = s.grids := rfl
@[simp] theorem State.modPre_comps (s : State) (d p : Nat) (f : Preempt → Preempt) : (s.modPre d p f).comps = s.comps := rfl
@[simp] theorem State.modPre_spawns (s : State) (d p : Nat) (f : Preempt → Preempt) : (s.modPre d p f).spawns = s.spawns := rfl
@[simp] theorem State.modPre_queues (s : State) (d p : Nat) (f : Preempt → Preempt) : (s.modPre d p f).queues = s.queues := rfl
@[simp] theorem State.modPre_susp (s : State) (d p : Nat) (f : Preempt → Preempt) : (s.modPre d p f).susp = s.susp := rfl
@[simp] theorem State.modPre_lifted (s : State) (d p : Nat) (f : Preempt → Preempt) : (s.modPre d p f).lifted = s.lifted := rfl
@[simp] theorem State.modPre_lanes (s : State) (d p : Nat) (f : Preempt → Preempt) : (s.modPre d p f).lanes = s.lanes := rfl
@[simp] theorem State.modPre_quads (s : State) (d p : Nat) (f : Preempt → Preempt) : (s.modPre d p f).quads = s.quads := rfl
@[simp] theorem State.modPre_windows (s : State) (d p : Nat) (f : Preempt → Preempt) : (s.modPre d p f).windows = s.windows := rfl
@[simp] theorem State.modPre_parts (s : State) (d p : Nat) (f : Preempt → Preempt) : (s.modPre d p f).parts = s.parts := rfl
@[simp] theorem State.modPre_eccCorr (s : State) (d p : Nat) (f : Preempt → Preempt) : (s.modPre d p f).eccCorr = s.eccCorr := rfl
@[simp] theorem State.modPre_eccUnc (s : State) (d p : Nat) (f : Preempt → Preempt) : (s.modPre d p f).eccUnc = s.eccUnc := rfl
@[simp] theorem State.modPre_eccAddr (s : State) (d p : Nat) (f : Preempt → Preempt) : (s.modPre d p f).eccAddr = s.eccAddr := rfl
@[simp] theorem State.modPre_mailbox (s : State) (d p : Nat) (f : Preempt → Preempt) : (s.modPre d p f).mailbox = s.mailbox := rfl
@[simp] theorem State.modPre_ckpt (s : State) (d p : Nat) (f : Preempt → Preempt) : (s.modPre d p f).ckpt = s.ckpt := rfl
@[simp] theorem State.modPre_comms (s : State) (d p : Nat) (f : Preempt → Preempt) : (s.modPre d p f).comms = s.comms := rfl
@[simp] theorem State.modPre_colls (s : State) (d p : Nat) (f : Preempt → Preempt) : (s.modPre d p f).colls = s.colls := rfl
@[simp] theorem State.modPre_harvest (s : State) (d p : Nat) (f : Preempt → Preempt) : (s.modPre d p f).harvest = s.harvest := rfl
@[simp] theorem State.modPre_steps (s : State) (d p : Nat) (f : Preempt → Preempt) : (s.modPre d p f).steps = s.steps := rfl
@[simp] theorem State.modPre_pinned (s : State) (d p : Nat) (f : Preempt → Preempt) : (s.modPre d p f).pinned = s.pinned := rfl
@[simp] theorem State.modPre_l2 (s : State) (d p : Nat) (f : Preempt → Preempt) : (s.modPre d p f).l2 = s.l2 := rfl
@[simp] theorem State.modPre_chans (s : State) (d p : Nat) (f : Preempt → Preempt) : (s.modPre d p f).chans = s.chans := rfl
@[simp] theorem State.modPre_hostWaits (s : State) (d p : Nat) (f : Preempt → Preempt) : (s.modPre d p f).hostWaits = s.hostWaits := rfl
@[simp] theorem State.modPre_msix (s : State) (d p : Nat) (f : Preempt → Preempt) : (s.modPre d p f).msix = s.msix := rfl
@[simp] theorem State.modPre_outbox (s : State) (d p : Nat) (f : Preempt → Preempt) : (s.modPre d p f).outbox = s.outbox := rfl
@[simp] theorem State.modPre_free (s : State) (d p : Nat) (f : Preempt → Preempt) : (s.modPre d p f).free = s.free := rfl
@[simp] theorem State.modPre_nextId (s : State) (d p : Nat) (f : Preempt → Preempt) : (s.modPre d p f).nextId = s.nextId := rfl
@[simp] theorem State.modPre_rot (s : State) (d p : Nat) (f : Preempt → Preempt) : (s.modPre d p f).rot = s.rot := rfl
@[simp] theorem State.modPre_cur (s : State) (d p : Nat) (f : Preempt → Preempt) : (s.modPre d p f).cur = s.cur := rfl
@[simp] theorem State.modPre_mark (s : State) (d p : Nat) (f : Preempt → Preempt) : (s.modPre d p f).mark = s.mark := rfl
@[simp] theorem State.modPre_args (s : State) (d p : Nat) (f : Preempt → Preempt) : (s.modPre d p f).args = s.args := rfl
@[simp] theorem State.modPre_schedule (s : State) (d p : Nat) (f : Preempt → Preempt) : (s.modPre d p f).schedule = s.schedule := rfl

/-! `State.modQueue` -/

@[simp] theorem State.modQueue_cycle (s : State) (d p q : Nat) (f : EvQueue → EvQueue) : (s.modQueue d p q f).cycle = s.cycle := rfl
@[simp] theorem State.modQueue_modid (s : State) (d p q : Nat) (f : EvQueue → EvQueue) : (s.modQueue d p q f).modid = s.modid := rfl
@[simp] theorem State.modQueue_clkMhz (s : State) (d p q : Nat) (f : EvQueue → EvQueue) : (s.modQueue d p q f).clkMhz = s.clkMhz := rfl
@[simp] theorem State.modQueue_pwrCap (s : State) (d p q : Nat) (f : EvQueue → EvQueue) : (s.modQueue d p q f).pwrCap = s.pwrCap := rfl
@[simp] theorem State.modQueue_links (s : State) (d p q : Nat) (f : EvQueue → EvQueue) : (s.modQueue d p q f).links = s.links := rfl
@[simp] theorem State.modQueue_hostLanes (s : State) (d p q : Nat) (f : EvQueue → EvQueue) : (s.modQueue d p q f).hostLanes = s.hostLanes := rfl
@[simp] theorem State.modQueue_mem (s : State) (d p q : Nat) (f : EvQueue → EvQueue) : (s.modQueue d p q f).mem = s.mem := rfl
@[simp] theorem State.modQueue_memBad (s : State) (d p q : Nat) (f : EvQueue → EvQueue) : (s.modQueue d p q f).memBad = s.memBad := rfl
@[simp] theorem State.modQueue_padBars (s : State) (d p q : Nat) (f : EvQueue → EvQueue) : (s.modQueue d p q f).padBars = s.padBars := rfl
@[simp] theorem State.modQueue_cores (s : State) (d p q : Nat) (f : EvQueue → EvQueue) : (s.modQueue d p q f).cores = s.cores := rfl
@[simp] theorem State.modQueue_blocks (s : State) (d p q : Nat) (f : EvQueue → EvQueue) : (s.modQueue d p q f).blocks = s.blocks := rfl
@[simp] theorem State.modQueue_ops (s : State) (d p q : Nat) (f : EvQueue → EvQueue) : (s.modQueue d p q f).ops = s.ops := rfl
@[simp] theorem State.modQueue_trees (s : State) (d p q : Nat) (f : EvQueue → EvQueue) : (s.modQueue d p q f).trees = s.trees := rfl
@[simp] theorem State.modQueue_grids (s : State) (d p q : Nat) (f : EvQueue → EvQueue) : (s.modQueue d p q f).grids = s.grids := rfl
@[simp] theorem State.modQueue_comps (s : State) (d p q : Nat) (f : EvQueue → EvQueue) : (s.modQueue d p q f).comps = s.comps := rfl
@[simp] theorem State.modQueue_spawns (s : State) (d p q : Nat) (f : EvQueue → EvQueue) : (s.modQueue d p q f).spawns = s.spawns := rfl
@[simp] theorem State.modQueue_preempt (s : State) (d p q : Nat) (f : EvQueue → EvQueue) : (s.modQueue d p q f).preempt = s.preempt := rfl
@[simp] theorem State.modQueue_susp (s : State) (d p q : Nat) (f : EvQueue → EvQueue) : (s.modQueue d p q f).susp = s.susp := rfl
@[simp] theorem State.modQueue_lifted (s : State) (d p q : Nat) (f : EvQueue → EvQueue) : (s.modQueue d p q f).lifted = s.lifted := rfl
@[simp] theorem State.modQueue_lanes (s : State) (d p q : Nat) (f : EvQueue → EvQueue) : (s.modQueue d p q f).lanes = s.lanes := rfl
@[simp] theorem State.modQueue_quads (s : State) (d p q : Nat) (f : EvQueue → EvQueue) : (s.modQueue d p q f).quads = s.quads := rfl
@[simp] theorem State.modQueue_windows (s : State) (d p q : Nat) (f : EvQueue → EvQueue) : (s.modQueue d p q f).windows = s.windows := rfl
@[simp] theorem State.modQueue_parts (s : State) (d p q : Nat) (f : EvQueue → EvQueue) : (s.modQueue d p q f).parts = s.parts := rfl
@[simp] theorem State.modQueue_eccCorr (s : State) (d p q : Nat) (f : EvQueue → EvQueue) : (s.modQueue d p q f).eccCorr = s.eccCorr := rfl
@[simp] theorem State.modQueue_eccUnc (s : State) (d p q : Nat) (f : EvQueue → EvQueue) : (s.modQueue d p q f).eccUnc = s.eccUnc := rfl
@[simp] theorem State.modQueue_eccAddr (s : State) (d p q : Nat) (f : EvQueue → EvQueue) : (s.modQueue d p q f).eccAddr = s.eccAddr := rfl
@[simp] theorem State.modQueue_mailbox (s : State) (d p q : Nat) (f : EvQueue → EvQueue) : (s.modQueue d p q f).mailbox = s.mailbox := rfl
@[simp] theorem State.modQueue_ckpt (s : State) (d p q : Nat) (f : EvQueue → EvQueue) : (s.modQueue d p q f).ckpt = s.ckpt := rfl
@[simp] theorem State.modQueue_comms (s : State) (d p q : Nat) (f : EvQueue → EvQueue) : (s.modQueue d p q f).comms = s.comms := rfl
@[simp] theorem State.modQueue_colls (s : State) (d p q : Nat) (f : EvQueue → EvQueue) : (s.modQueue d p q f).colls = s.colls := rfl
@[simp] theorem State.modQueue_harvest (s : State) (d p q : Nat) (f : EvQueue → EvQueue) : (s.modQueue d p q f).harvest = s.harvest := rfl
@[simp] theorem State.modQueue_steps (s : State) (d p q : Nat) (f : EvQueue → EvQueue) : (s.modQueue d p q f).steps = s.steps := rfl
@[simp] theorem State.modQueue_pinned (s : State) (d p q : Nat) (f : EvQueue → EvQueue) : (s.modQueue d p q f).pinned = s.pinned := rfl
@[simp] theorem State.modQueue_l2 (s : State) (d p q : Nat) (f : EvQueue → EvQueue) : (s.modQueue d p q f).l2 = s.l2 := rfl
@[simp] theorem State.modQueue_chans (s : State) (d p q : Nat) (f : EvQueue → EvQueue) : (s.modQueue d p q f).chans = s.chans := rfl
@[simp] theorem State.modQueue_hostWaits (s : State) (d p q : Nat) (f : EvQueue → EvQueue) : (s.modQueue d p q f).hostWaits = s.hostWaits := rfl
@[simp] theorem State.modQueue_msix (s : State) (d p q : Nat) (f : EvQueue → EvQueue) : (s.modQueue d p q f).msix = s.msix := rfl
@[simp] theorem State.modQueue_outbox (s : State) (d p q : Nat) (f : EvQueue → EvQueue) : (s.modQueue d p q f).outbox = s.outbox := rfl
@[simp] theorem State.modQueue_free (s : State) (d p q : Nat) (f : EvQueue → EvQueue) : (s.modQueue d p q f).free = s.free := rfl
@[simp] theorem State.modQueue_nextId (s : State) (d p q : Nat) (f : EvQueue → EvQueue) : (s.modQueue d p q f).nextId = s.nextId := rfl
@[simp] theorem State.modQueue_rot (s : State) (d p q : Nat) (f : EvQueue → EvQueue) : (s.modQueue d p q f).rot = s.rot := rfl
@[simp] theorem State.modQueue_cur (s : State) (d p q : Nat) (f : EvQueue → EvQueue) : (s.modQueue d p q f).cur = s.cur := rfl
@[simp] theorem State.modQueue_mark (s : State) (d p q : Nat) (f : EvQueue → EvQueue) : (s.modQueue d p q f).mark = s.mark := rfl
@[simp] theorem State.modQueue_args (s : State) (d p q : Nat) (f : EvQueue → EvQueue) : (s.modQueue d p q f).args = s.args := rfl
@[simp] theorem State.modQueue_schedule (s : State) (d p q : Nat) (f : EvQueue → EvQueue) : (s.modQueue d p q f).schedule = s.schedule := rfl

/-! `State.modBox` -/

@[simp] theorem State.modBox_cycle (s : State) (n : Nat) (f : Mailbox → Mailbox) : (s.modBox n f).cycle = s.cycle := rfl
@[simp] theorem State.modBox_modid (s : State) (n : Nat) (f : Mailbox → Mailbox) : (s.modBox n f).modid = s.modid := rfl
@[simp] theorem State.modBox_clkMhz (s : State) (n : Nat) (f : Mailbox → Mailbox) : (s.modBox n f).clkMhz = s.clkMhz := rfl
@[simp] theorem State.modBox_pwrCap (s : State) (n : Nat) (f : Mailbox → Mailbox) : (s.modBox n f).pwrCap = s.pwrCap := rfl
@[simp] theorem State.modBox_links (s : State) (n : Nat) (f : Mailbox → Mailbox) : (s.modBox n f).links = s.links := rfl
@[simp] theorem State.modBox_hostLanes (s : State) (n : Nat) (f : Mailbox → Mailbox) : (s.modBox n f).hostLanes = s.hostLanes := rfl
@[simp] theorem State.modBox_mem (s : State) (n : Nat) (f : Mailbox → Mailbox) : (s.modBox n f).mem = s.mem := rfl
@[simp] theorem State.modBox_memBad (s : State) (n : Nat) (f : Mailbox → Mailbox) : (s.modBox n f).memBad = s.memBad := rfl
@[simp] theorem State.modBox_padBars (s : State) (n : Nat) (f : Mailbox → Mailbox) : (s.modBox n f).padBars = s.padBars := rfl
@[simp] theorem State.modBox_cores (s : State) (n : Nat) (f : Mailbox → Mailbox) : (s.modBox n f).cores = s.cores := rfl
@[simp] theorem State.modBox_blocks (s : State) (n : Nat) (f : Mailbox → Mailbox) : (s.modBox n f).blocks = s.blocks := rfl
@[simp] theorem State.modBox_ops (s : State) (n : Nat) (f : Mailbox → Mailbox) : (s.modBox n f).ops = s.ops := rfl
@[simp] theorem State.modBox_trees (s : State) (n : Nat) (f : Mailbox → Mailbox) : (s.modBox n f).trees = s.trees := rfl
@[simp] theorem State.modBox_grids (s : State) (n : Nat) (f : Mailbox → Mailbox) : (s.modBox n f).grids = s.grids := rfl
@[simp] theorem State.modBox_comps (s : State) (n : Nat) (f : Mailbox → Mailbox) : (s.modBox n f).comps = s.comps := rfl
@[simp] theorem State.modBox_spawns (s : State) (n : Nat) (f : Mailbox → Mailbox) : (s.modBox n f).spawns = s.spawns := rfl
@[simp] theorem State.modBox_queues (s : State) (n : Nat) (f : Mailbox → Mailbox) : (s.modBox n f).queues = s.queues := rfl
@[simp] theorem State.modBox_preempt (s : State) (n : Nat) (f : Mailbox → Mailbox) : (s.modBox n f).preempt = s.preempt := rfl
@[simp] theorem State.modBox_susp (s : State) (n : Nat) (f : Mailbox → Mailbox) : (s.modBox n f).susp = s.susp := rfl
@[simp] theorem State.modBox_lifted (s : State) (n : Nat) (f : Mailbox → Mailbox) : (s.modBox n f).lifted = s.lifted := rfl
@[simp] theorem State.modBox_lanes (s : State) (n : Nat) (f : Mailbox → Mailbox) : (s.modBox n f).lanes = s.lanes := rfl
@[simp] theorem State.modBox_quads (s : State) (n : Nat) (f : Mailbox → Mailbox) : (s.modBox n f).quads = s.quads := rfl
@[simp] theorem State.modBox_windows (s : State) (n : Nat) (f : Mailbox → Mailbox) : (s.modBox n f).windows = s.windows := rfl
@[simp] theorem State.modBox_parts (s : State) (n : Nat) (f : Mailbox → Mailbox) : (s.modBox n f).parts = s.parts := rfl
@[simp] theorem State.modBox_eccCorr (s : State) (n : Nat) (f : Mailbox → Mailbox) : (s.modBox n f).eccCorr = s.eccCorr := rfl
@[simp] theorem State.modBox_eccUnc (s : State) (n : Nat) (f : Mailbox → Mailbox) : (s.modBox n f).eccUnc = s.eccUnc := rfl
@[simp] theorem State.modBox_eccAddr (s : State) (n : Nat) (f : Mailbox → Mailbox) : (s.modBox n f).eccAddr = s.eccAddr := rfl
@[simp] theorem State.modBox_ckpt (s : State) (n : Nat) (f : Mailbox → Mailbox) : (s.modBox n f).ckpt = s.ckpt := rfl
@[simp] theorem State.modBox_comms (s : State) (n : Nat) (f : Mailbox → Mailbox) : (s.modBox n f).comms = s.comms := rfl
@[simp] theorem State.modBox_colls (s : State) (n : Nat) (f : Mailbox → Mailbox) : (s.modBox n f).colls = s.colls := rfl
@[simp] theorem State.modBox_harvest (s : State) (n : Nat) (f : Mailbox → Mailbox) : (s.modBox n f).harvest = s.harvest := rfl
@[simp] theorem State.modBox_steps (s : State) (n : Nat) (f : Mailbox → Mailbox) : (s.modBox n f).steps = s.steps := rfl
@[simp] theorem State.modBox_pinned (s : State) (n : Nat) (f : Mailbox → Mailbox) : (s.modBox n f).pinned = s.pinned := rfl
@[simp] theorem State.modBox_l2 (s : State) (n : Nat) (f : Mailbox → Mailbox) : (s.modBox n f).l2 = s.l2 := rfl
@[simp] theorem State.modBox_chans (s : State) (n : Nat) (f : Mailbox → Mailbox) : (s.modBox n f).chans = s.chans := rfl
@[simp] theorem State.modBox_hostWaits (s : State) (n : Nat) (f : Mailbox → Mailbox) : (s.modBox n f).hostWaits = s.hostWaits := rfl
@[simp] theorem State.modBox_msix (s : State) (n : Nat) (f : Mailbox → Mailbox) : (s.modBox n f).msix = s.msix := rfl
@[simp] theorem State.modBox_outbox (s : State) (n : Nat) (f : Mailbox → Mailbox) : (s.modBox n f).outbox = s.outbox := rfl
@[simp] theorem State.modBox_free (s : State) (n : Nat) (f : Mailbox → Mailbox) : (s.modBox n f).free = s.free := rfl
@[simp] theorem State.modBox_nextId (s : State) (n : Nat) (f : Mailbox → Mailbox) : (s.modBox n f).nextId = s.nextId := rfl
@[simp] theorem State.modBox_rot (s : State) (n : Nat) (f : Mailbox → Mailbox) : (s.modBox n f).rot = s.rot := rfl
@[simp] theorem State.modBox_cur (s : State) (n : Nat) (f : Mailbox → Mailbox) : (s.modBox n f).cur = s.cur := rfl
@[simp] theorem State.modBox_mark (s : State) (n : Nat) (f : Mailbox → Mailbox) : (s.modBox n f).mark = s.mark := rfl
@[simp] theorem State.modBox_args (s : State) (n : Nat) (f : Mailbox → Mailbox) : (s.modBox n f).args = s.args := rfl
@[simp] theorem State.modBox_schedule (s : State) (n : Nat) (f : Mailbox → Mailbox) : (s.modBox n f).schedule = s.schedule := rfl

/-! `State.storeCells` -/

@[simp] theorem State.storeCells_cycle (s : State) (cs : List Host.Cell) : (s.storeCells cs).cycle = s.cycle := rfl
@[simp] theorem State.storeCells_modid (s : State) (cs : List Host.Cell) : (s.storeCells cs).modid = s.modid := rfl
@[simp] theorem State.storeCells_clkMhz (s : State) (cs : List Host.Cell) : (s.storeCells cs).clkMhz = s.clkMhz := rfl
@[simp] theorem State.storeCells_pwrCap (s : State) (cs : List Host.Cell) : (s.storeCells cs).pwrCap = s.pwrCap := rfl
@[simp] theorem State.storeCells_links (s : State) (cs : List Host.Cell) : (s.storeCells cs).links = s.links := rfl
@[simp] theorem State.storeCells_hostLanes (s : State) (cs : List Host.Cell) : (s.storeCells cs).hostLanes = s.hostLanes := rfl
@[simp] theorem State.storeCells_padBars (s : State) (cs : List Host.Cell) : (s.storeCells cs).padBars = s.padBars := rfl
@[simp] theorem State.storeCells_cores (s : State) (cs : List Host.Cell) : (s.storeCells cs).cores = s.cores := rfl
@[simp] theorem State.storeCells_blocks (s : State) (cs : List Host.Cell) : (s.storeCells cs).blocks = s.blocks := rfl
@[simp] theorem State.storeCells_ops (s : State) (cs : List Host.Cell) : (s.storeCells cs).ops = s.ops := rfl
@[simp] theorem State.storeCells_trees (s : State) (cs : List Host.Cell) : (s.storeCells cs).trees = s.trees := rfl
@[simp] theorem State.storeCells_grids (s : State) (cs : List Host.Cell) : (s.storeCells cs).grids = s.grids := rfl
@[simp] theorem State.storeCells_comps (s : State) (cs : List Host.Cell) : (s.storeCells cs).comps = s.comps := rfl
@[simp] theorem State.storeCells_spawns (s : State) (cs : List Host.Cell) : (s.storeCells cs).spawns = s.spawns := rfl
@[simp] theorem State.storeCells_queues (s : State) (cs : List Host.Cell) : (s.storeCells cs).queues = s.queues := rfl
@[simp] theorem State.storeCells_preempt (s : State) (cs : List Host.Cell) : (s.storeCells cs).preempt = s.preempt := rfl
@[simp] theorem State.storeCells_susp (s : State) (cs : List Host.Cell) : (s.storeCells cs).susp = s.susp := rfl
@[simp] theorem State.storeCells_lifted (s : State) (cs : List Host.Cell) : (s.storeCells cs).lifted = s.lifted := rfl
@[simp] theorem State.storeCells_lanes (s : State) (cs : List Host.Cell) : (s.storeCells cs).lanes = s.lanes := rfl
@[simp] theorem State.storeCells_quads (s : State) (cs : List Host.Cell) : (s.storeCells cs).quads = s.quads := rfl
@[simp] theorem State.storeCells_windows (s : State) (cs : List Host.Cell) : (s.storeCells cs).windows = s.windows := rfl
@[simp] theorem State.storeCells_parts (s : State) (cs : List Host.Cell) : (s.storeCells cs).parts = s.parts := rfl
@[simp] theorem State.storeCells_eccCorr (s : State) (cs : List Host.Cell) : (s.storeCells cs).eccCorr = s.eccCorr := rfl
@[simp] theorem State.storeCells_eccUnc (s : State) (cs : List Host.Cell) : (s.storeCells cs).eccUnc = s.eccUnc := rfl
@[simp] theorem State.storeCells_eccAddr (s : State) (cs : List Host.Cell) : (s.storeCells cs).eccAddr = s.eccAddr := rfl
@[simp] theorem State.storeCells_mailbox (s : State) (cs : List Host.Cell) : (s.storeCells cs).mailbox = s.mailbox := rfl
@[simp] theorem State.storeCells_ckpt (s : State) (cs : List Host.Cell) : (s.storeCells cs).ckpt = s.ckpt := rfl
@[simp] theorem State.storeCells_comms (s : State) (cs : List Host.Cell) : (s.storeCells cs).comms = s.comms := rfl
@[simp] theorem State.storeCells_colls (s : State) (cs : List Host.Cell) : (s.storeCells cs).colls = s.colls := rfl
@[simp] theorem State.storeCells_harvest (s : State) (cs : List Host.Cell) : (s.storeCells cs).harvest = s.harvest := rfl
@[simp] theorem State.storeCells_steps (s : State) (cs : List Host.Cell) : (s.storeCells cs).steps = s.steps := rfl
@[simp] theorem State.storeCells_pinned (s : State) (cs : List Host.Cell) : (s.storeCells cs).pinned = s.pinned := rfl
@[simp] theorem State.storeCells_l2 (s : State) (cs : List Host.Cell) : (s.storeCells cs).l2 = s.l2 := rfl
@[simp] theorem State.storeCells_chans (s : State) (cs : List Host.Cell) : (s.storeCells cs).chans = s.chans := rfl
@[simp] theorem State.storeCells_hostWaits (s : State) (cs : List Host.Cell) : (s.storeCells cs).hostWaits = s.hostWaits := rfl
@[simp] theorem State.storeCells_msix (s : State) (cs : List Host.Cell) : (s.storeCells cs).msix = s.msix := rfl
@[simp] theorem State.storeCells_outbox (s : State) (cs : List Host.Cell) : (s.storeCells cs).outbox = s.outbox := rfl
@[simp] theorem State.storeCells_free (s : State) (cs : List Host.Cell) : (s.storeCells cs).free = s.free := rfl
@[simp] theorem State.storeCells_nextId (s : State) (cs : List Host.Cell) : (s.storeCells cs).nextId = s.nextId := rfl
@[simp] theorem State.storeCells_rot (s : State) (cs : List Host.Cell) : (s.storeCells cs).rot = s.rot := rfl
@[simp] theorem State.storeCells_cur (s : State) (cs : List Host.Cell) : (s.storeCells cs).cur = s.cur := rfl
@[simp] theorem State.storeCells_mark (s : State) (cs : List Host.Cell) : (s.storeCells cs).mark = s.mark := rfl
@[simp] theorem State.storeCells_args (s : State) (cs : List Host.Cell) : (s.storeCells cs).args = s.args := rfl
@[simp] theorem State.storeCells_schedule (s : State) (cs : List Host.Cell) : (s.storeCells cs).schedule = s.schedule := rfl

end Sys2Proof.Machine
end

