-- ==== Sys2Proof/Laws/Memory.lean ====
section
/-! SUPPORT. Memory and sorted tables: a read after a write gives the value written, a write leaves every other byte alone,
every memory operation keeps the canonical form, and every table operation keeps the keys rising. -/

namespace Sys2Proof.Machine

open Host (Cell)

/-! ## One byte -/

theorem Memory.get_filter_self (m : List Cell) (a : Nat) : Memory.get (m.filter fun p => p.1 != a) a = Memory.fill := by
  induction m with
  | nil => rfl
  | cons p r ih => by_cases h : p.1 = a <;> simp [h, Memory.get, ih]

theorem Memory.get_filter_of_ne (m : List Cell) {a k : Nat} (h : k ≠ a) :
    Memory.get (m.filter fun p => p.1 != a) k = Memory.get m k := by
  induction m with
  | nil => rfl
  | cons p r ih =>
    by_cases hp : p.1 = a
    · have : p.1 ≠ k := fun e => h (e.symm.trans hp)
      simp [hp, Memory.get, ih, hp ▸ this]
    · simp [hp, Memory.get, ih]

theorem Memory.get_insert (m : List Cell) (a k : Nat) (b : Byte) (h : ∀ p ∈ m, p.1 ≠ a) :
    Memory.get (Memory.insert m a b) k = if k = a then b else Memory.get m k := by
  induction m with
  | nil => simp [Memory.insert, Memory.get, eq_comm]
  | cons p r ih =>
    have hp := h p (by simp)
    have ih := ih fun q hq => h q (by simp [hq])
    unfold Memory.insert
    split
    · simp [Memory.get, eq_comm]
    · by_cases hk : k = a
      · subst hk; simp [Memory.get, hp, ih]
      · simp [Memory.get, ih, hk]

/-- A byte after a write of one byte. -/
theorem Memory.get_set (m : List Cell) (a k : Nat) (b : Byte) :
    Memory.get (Memory.set m a b) k = if k = a then b else Memory.get m k := by
  unfold Memory.set
  by_cases hb : b = Memory.fill
  · by_cases hk : k = a
    · subst hk; simp [hb, Memory.get_filter_self]
    · simp [hb, hk, Memory.get_filter_of_ne m hk]
  · simp only [hb, if_false]
    rw [Memory.get_insert _ _ _ _ (by simp)]
    by_cases hk : k = a
    · simp [hk]
    · simp [hk, Memory.get_filter_of_ne m hk]

@[simp] theorem Memory.get_set_self (m : List Cell) (a : Nat) (b : Byte) : Memory.get (Memory.set m a b) a = b := by
  simp [Memory.get_set]

theorem Memory.get_set_of_ne (m : List Cell) {a k : Nat} (b : Byte) (h : k ≠ a) :
    Memory.get (Memory.set m a b) k = Memory.get m k := by simp [Memory.get_set, h]

/-! ## Runs of bytes -/

/-- A byte after a write of a run. -/
theorem Memory.get_write (m : List Cell) (a k : Nat) (bs : List Byte) :
    Memory.get (Memory.write m a bs) k = if a ≤ k ∧ k < a + bs.length then bs.getD (k - a) 0 else Memory.get m k := by
  induction bs generalizing m a with
  | nil => rw [if_neg (by simp; try omega)]; rfl
  | cons b r ih =>
    simp only [Memory.write, ih, Memory.get_set, List.length_cons]
    by_cases h : k = a
    · subst h
      rw [if_neg (by omega), if_pos rfl, if_pos (by omega)]
      simp
    · by_cases h2 : a ≤ k ∧ k < a + (r.length + 1)
      · obtain ⟨j, rfl⟩ : ∃ j, k = a + (j + 1) := ⟨k - a - 1, by omega⟩
        have h4 : a + 1 ≤ a + (j + 1) ∧ a + (j + 1) < a + 1 + r.length := by omega
        have e1 : a + (j + 1) - (a + 1) = j := by omega
        have e2 : a + (j + 1) - a = j + 1 := by omega
        rw [if_pos h4, if_pos h2, e1, e2]
        rfl
      · have h4 : ¬(a + 1 ≤ k ∧ k < a + 1 + r.length) := by omega
        rw [if_neg h4, if_neg h2, if_neg h]

@[simp] theorem Memory.length_read (m : List Cell) (a n : Nat) : (Memory.read m a n).length = n := by
  induction n generalizing a with
  | zero => rfl
  | succ n ih => simp [Memory.read, ih]

theorem Memory.getD_read (m : List Cell) (a n k : Nat) (h : k < n) : (Memory.read m a n).getD k 0 = Memory.get m (a + k) := by
  induction n generalizing a k with
  | zero => omega
  | succ n ih =>
    cases k with
    | zero => simp [Memory.read]
    | succ k =>
      have : a + (k + 1) = a + 1 + k := by omega
      rw [this, ← ih (a + 1) k (by omega)]
      simp [Memory.read]

/-- What a write put there is read back. -/
theorem Memory.read_write (m : List Cell) (a : Nat) (bs : List Byte) :
    Memory.read (Memory.write m a bs) a bs.length = bs := by
  refine List.ext_getElem (by simp) fun k h1 h2 => ?_
  have h := Memory.getD_read (Memory.write m a bs) a bs.length k h2
  rw [List.getD_eq_getElem?_getD, List.getElem?_eq_getElem h1, Option.getD_some] at h
  rw [h, Memory.get_write, if_pos (by omega), show a + k - a = k by omega, List.getD_eq_getElem?_getD,
    List.getElem?_eq_getElem h2, Option.getD_some]

/-! ## The canonical form -/

theorem Memory.wfFrom_mono {m : List Cell} {lo hi : Nat} (h : Memory.wfFrom hi m = true) (hl : lo ≤ hi) :
    Memory.wfFrom lo m = true := by
  cases m with
  | nil => rfl
  | cons p r =>
    simp only [Memory.wfFrom, Bool.and_eq_true, decide_eq_true_eq] at h ⊢
    exact ⟨⟨by omega, h.1.2⟩, h.2⟩

theorem Memory.wfFrom_filter {m : List Cell} (f : Cell → Bool) {lo : Nat} (h : Memory.wfFrom lo m = true) :
    Memory.wfFrom lo (m.filter f) = true := by
  induction m generalizing lo with
  | nil => rfl
  | cons p r ih =>
    simp only [Memory.wfFrom, Bool.and_eq_true, decide_eq_true_eq] at h
    by_cases hf : f p = true
    · simp only [List.filter_cons, hf, if_true, Memory.wfFrom, Bool.and_eq_true, decide_eq_true_eq]
      exact ⟨h.1, ih h.2⟩
    · simp only [List.filter_cons, hf, Bool.false_eq_true, if_false]
      exact Memory.wfFrom_mono (ih h.2) (by omega)

theorem Memory.wfFrom_insert {m : List Cell} {lo a : Nat} {b : Byte} (h : Memory.wfFrom lo m = true) (hl : lo ≤ a)
    (hb : b ≠ Memory.fill) (hn : ∀ p ∈ m, p.1 ≠ a) : Memory.wfFrom lo (Memory.insert m a b) = true := by
  induction m generalizing lo with
  | nil => simp [Memory.insert, Memory.wfFrom, hl, hb]
  | cons p r ih =>
    simp only [Memory.wfFrom, Bool.and_eq_true, decide_eq_true_eq] at h
    have hp := hn p (by simp)
    unfold Memory.insert
    split
    · simp only [Memory.wfFrom, Bool.and_eq_true, decide_eq_true_eq]
      exact ⟨⟨hl, by simpa using hb⟩, ⟨by omega, h.1.2⟩, h.2⟩
    · simp only [Memory.wfFrom, Bool.and_eq_true, decide_eq_true_eq]
      exact ⟨h.1, ih h.2 (by omega) fun q hq => hn q (by simp [hq])⟩

/-- A write of one byte keeps the canonical form. -/
theorem Memory.wf_set {m : List Cell} (a : Nat) (b : Byte) (h : Memory.wf m = true) : Memory.wf (Memory.set m a b) = true := by
  unfold Memory.set
  by_cases hb : b = Memory.fill
  · simp only [hb, if_true]; exact Memory.wfFrom_filter _ h
  · simp only [hb, if_false]
    exact Memory.wfFrom_insert (Memory.wfFrom_filter _ h) (Nat.zero_le a) hb (by simp)

/-- A write of a run keeps the canonical form. -/
theorem Memory.wf_write {m : List Cell} (a : Nat) (bs : List Byte) (h : Memory.wf m = true) :
    Memory.wf (Memory.write m a bs) = true := by
  induction bs generalizing m a with
  | nil => exact h
  | cons b r ih => exact ih (a + 1) (Memory.wf_set a b h)

/-- Dropping bytes keeps the canonical form. -/
theorem Memory.wf_filter {m : List Cell} (f : Cell → Bool) (h : Memory.wf m = true) : Memory.wf (m.filter f) = true :=
  Memory.wfFrom_filter f h

theorem Memory.wf_foldl {m : List Cell} (cs : List Cell) (h : Memory.wf m = true) :
    Memory.wf (cs.foldl (fun m c => Memory.set m c.1 c.2) m) = true := by
  induction cs generalizing m with
  | nil => exact h
  | cons c r ih => exact ih (Memory.wf_set c.1 c.2 h)

/-- Storing cells keeps the canonical form. -/
theorem State.storeCells_wf {s : State} (cs : List Cell) (h : Memory.wf s.mem = true) :
    Memory.wf (s.storeCells cs).mem = true := Memory.wf_foldl cs h

/-- Storing bytes keeps the canonical form. -/
theorem State.storeBytes_wf {s : State} (key : Nat) (bs : List Byte) (h : Memory.wf s.mem = true) :
    Memory.wf (s.storeBytes key bs).mem = true := Memory.wf_foldl _ h

/-- Marking a page DIRTY keeps the canonical form. -/
theorem State.setDirty_wf {s : State} (e : Option Nat) (h : Memory.wf s.mem = true) :
    Memory.wf (s.setDirty e).mem = true := by
  cases e with
  | none => exact h
  | some a => exact Memory.wf_set _ _ h

/-- Reset memory is in its canonical form. -/
theorem State.reset_wf : Memory.wf State.reset.mem = true := rfl

/-! ## Sorted tables -/

theorem rises_filter {α : Type} {t : Table α} (f : Nat × α → Bool) (h : Rises t) :
    Rises (t.filter f : List (Nat × α)) :=
  List.Pairwise.sublist (List.Sublist.map _ List.filter_sublist) h

theorem rises_del {α : Type} {t : Table α} (k : Nat) (h : Rises t) : Rises (t.del k) := rises_filter _ h

theorem rises_adj {α : Type} {t : Table α} (k : Nat) (f : α → α) (h : Rises t) : Rises (t.adj k f) := by
  have : (t.adj k f).map Prod.fst = t.map Prod.fst := by
    unfold Table.adj
    rw [List.map_map]
    refine List.map_congr_left fun p _ => ?_
    simp only [Function.comp]
    split <;> rfl
  rw [Rises, this]
  exact h

theorem rises_mapVal {α : Type} {t : Table α} (f : Nat → α → α) (h : Rises t) : Rises (t.mapVal f) := by
  have : (t.mapVal f).map Prod.fst = t.map Prod.fst := by
    unfold Table.mapVal
    rw [List.map_map]
    rfl
  rw [Rises, this]
  exact h

theorem mem_put {α : Type} {t : Table α} {k : Nat} {v : α} {p : Nat × α} (h : p ∈ t.put k v) : p = (k, v) ∨ p ∈ t := by
  induction t with
  | nil => simpa [Table.put] using h
  | cons q r ih =>
    unfold Table.put at h
    repeat' split at h
    · simpa using h
    · simp only [List.mem_cons] at h ⊢
      exact h.imp_right .inr
    · simp only [List.mem_cons] at h ⊢
      rcases h with h | h
      · exact .inr (.inl h)
      · rcases ih h with h | h
        · exact .inl h
        · exact .inr (.inr h)

theorem rises_put {α : Type} {t : Table α} (k : Nat) (v : α) (h : Rises t) : Rises (t.put k v) := by
  induction t with
  | nil => simp [Table.put, Rises]
  | cons p r ih =>
    simp only [Rises, List.map_cons, List.pairwise_cons, List.mem_map] at h
    unfold Table.put
    repeat' split
    · rename_i hk
      simp only [Rises, List.map_cons, List.pairwise_cons, List.mem_cons, List.mem_map]
      refine ⟨?_, h⟩
      rintro x (rfl | ⟨q, hq, rfl⟩)
      · exact hk
      · exact Nat.lt_trans hk (h.1 _ ⟨q, hq, rfl⟩)
    · rename_i hk
      subst hk
      simp only [Rises, List.map_cons, List.pairwise_cons, List.mem_map]
      exact h
    · rename_i h1 h2
      simp only [Rises, List.map_cons, List.pairwise_cons, List.mem_map]
      refine ⟨?_, ih h.2⟩
      rintro x ⟨q, hq, rfl⟩
      rcases mem_put hq with rfl | hq
      · show p.1 < k
        omega
      · exact h.1 _ ⟨q, hq, rfl⟩

end Sys2Proof.Machine
end

