-- ==== Sys2Proof/Laws/Steps.lean ====
section
/-! SUPPORT. What the shared operations behind the steps of the device can do: the dispenser's steps, the accesses that are
performed late, the quadrants that leave a partition, and the entries of a segment. -/

namespace Sys2Proof.Machine

/-! ## The dispenser (R383) -/

/-- A step behind others joins them, and does nothing else. -/
theorem State.dispStep_behind (s : State) (gh : Nat) (st : DispStep) {d : Disp} (h : s.dispOf gh = some d) (hl : d.later ≠ []) :
    s.dispStep gh st = s.modDisp gh fun d => { d with later := d.later ++ [st] } := by
  unfold State.dispStep
  rw [h]
  simp [List.isEmpty_eq_false_iff.mpr hl]

/-- A step with none before it is taken, or waits. -/
theorem State.dispStep_first (s : State) (gh : Nat) (st : DispStep) {d : Disp} (h : s.dispOf gh = some d) (hl : d.later = []) :
    s.dispStep gh st = (match s.stepTry gh st with
      | (true, t) => t.modDisp gh fun d => { d with later := [] }
      | (false, t) => t.modDisp gh fun d => { d with later := [st] }) := by
  unfold State.dispStep
  rw [h]
  simp only [Option.map_some, Option.getD_some, hl, List.isEmpty_nil, Bool.not_true, Bool.false_eq_true, if_false, State.flushSteps]
  all_goals (rcases s.stepTry gh st with ⟨_ | _, t⟩ <;> rfl)

/-- The handles that keep atoms keep them under their own names. -/
theorem Disp.mem_keepAtoms (d : Disp) (keep : Nat × Handle → Nat → Bool) (x : Nat × Handle) :
    x ∈ d.keepAtoms keep ↔ x.2.left ≠ [] ∧ ∃ h ∈ d.handles, x = (h.1, { h.2 with left := h.2.left.filter (keep h) }) := by
  simp only [Disp.keepAtoms, List.mem_filter, List.mem_map, Bool.not_eq_true', List.isEmpty_eq_false_iff]
  constructor
  · rintro ⟨⟨h, hm, rfl⟩, hn⟩
    exact ⟨hn, h, hm, rfl⟩
  · rintro ⟨hn, h, hm, rfl⟩
    exact ⟨⟨h, hm, rfl⟩, hn⟩

/-! ## Accesses that are performed late (R194) -/

/-- A group without late accesses performs none before its word. -/
theorem State.landFor_none (s : State) (b gid : Nat) (k : Block) (g : Group) (i : Instr) (h : g.posted = []) :
    s.landFor b gid k g i = s := by
  simp [State.landFor, h]

/-- No access is performed before a word of a pass. -/
theorem State.landFor_pass (s : State) (b gid : Nat) (k : Block) (g : Group) (i : Instr) (h : g.split.isSome = true)
    (hh : g.handler = false) : s.landFor b gid k g i = s := by
  have hn : g.split.isNone = false := by cases hs : g.split <;> simp_all
  simp [State.landFor, hn, hh]

/-- All are performed before a word after the region. -/
theorem State.landFor_after (s : State) (b gid : Nat) (k : Block) (g : Group) (i : Instr) (h : g.split = none)
    (hp : g.posted ≠ []) : s.landFor b gid k g i = s.landAll b gid := by
  have hn : g.posted.isEmpty = false := List.isEmpty_eq_false_iff.mpr hp
  simp [State.landFor, h, hn]

/-! ## Quadrants that leave, entries of a segment, soft errors -/

/-- Nothing changes where no quadrant leaves (R400). -/
@[simp] theorem State.loseQuads_nil (s : State) : s.loseQuads [] = s := rfl

/-- A place in shared memory stays where it is (R400). -/
@[simp] theorem BarLoc.lose_shared (gone : List Nat) (b o : Nat) : BarLoc.lose gone (.shared b o) = .shared b o := rfl

/-- What a segment reads anew are entries of MTUs alone (R343). -/
theorem State.oneEntry_rest (s : State) (pages : List Nat) : { s.oneEntry pages with quads := [] } = { s with quads := [] } := by
  unfold State.oneEntry
  split <;> rfl

/-- A soft error arises, or does not (R265). -/
theorem State.softError_cases (s t : State) : s.softError t = s ∨ s.softError t = t := by
  unfold State.softError
  split
  · exact .inl rfl
  · exact .inr rfl

/-- A lane that a CPS has still to perform keeps all but its page's DIRTY entry (R415). -/
theorem LaneTgt.redirty_rest (a ia size : Nat) (t : LaneTgt) :
    (t.redirty a ia size).lane = t.lane ∧ (t.redirty a ia size).ia = t.ia ∧ (t.redirty a ia size).va = t.va
      ∧ (t.redirty a ia size).data = t.data ∧ (t.redirty a ia size).out = t.out := by
  unfold LaneTgt.redirty
  split
  · split <;> exact ⟨rfl, rfl, rfl, rfl, rfl⟩
  · exact ⟨rfl, rfl, rfl, rfl, rfl⟩

end Sys2Proof.Machine
end

