-- ==== Sys2Proof/Laws/Words.lean ====
section
/-! SUPPORT. The shapes in which words complete: a scalar, vector or predicate register written, a change of address. -/

namespace Sys2Proof.Machine

open Host (Outcome)

/-! ## Elements of a lane -/

theorem elem_packElems_aux (w : Nat) (l : List Nat) (e : Nat) :
    (l.foldr (fun v acc => v % 2 ^ w + 2 ^ w * acc) 0) / 2 ^ (w * e) % 2 ^ w = l.getD e 0 % 2 ^ w := by
  induction l generalizing e with
  | nil => simp
  | cons v r ih =>
    cases e with
    | zero => simp [Nat.add_mul_mod_self_left]
    | succ n =>
      have hp : 0 < 2 ^ w := Nat.two_pow_pos w
      have h1 : v % 2 ^ w < 2 ^ w := Nat.mod_lt _ hp
      have h2 : 2 ^ (w * (n + 1)) = 2 ^ w * 2 ^ (w * n) := by rw [Nat.mul_add, Nat.mul_one, Nat.pow_add, Nat.mul_comm]
      rw [List.foldr_cons, h2, ← Nat.div_div_eq_div_mul, Nat.add_mul_div_left _ _ hp, Nat.div_eq_of_lt h1, Nat.zero_add, ih]
      simp

theorem foldr_pack_lt (w : Nat) (l : List Nat) : l.foldr (fun v acc => v % 2 ^ w + 2 ^ w * acc) 0 < 2 ^ (w * l.length) := by
  induction l with
  | nil => simp
  | cons v r ih =>
    have hp : 0 < 2 ^ w := Nat.two_pow_pos w
    have h1 : v % 2 ^ w < 2 ^ w := Nat.mod_lt _ hp
    have h2 : 2 ^ (w * (r.length + 1)) = 2 ^ w * 2 ^ (w * r.length) := by
      rw [Nat.mul_add, Nat.mul_one, Nat.pow_add, Nat.mul_comm]
    rw [List.foldr_cons, List.length_cons, h2]
    calc v % 2 ^ w + 2 ^ w * r.foldr (fun v acc => v % 2 ^ w + 2 ^ w * acc) 0
        < 2 ^ w + 2 ^ w * r.foldr (fun v acc => v % 2 ^ w + 2 ^ w * acc) 0 := Nat.add_lt_add_right h1 _
      _ = 2 ^ w * (r.foldr (fun v acc => v % 2 ^ w + 2 ^ w * acc) 0 + 1) := by rw [Nat.mul_add, Nat.mul_one, Nat.add_comm]
      _ ≤ 2 ^ w * 2 ^ (w * r.length) := Nat.mul_le_mul_left _ ih

/-- Element `e` of a lane built from its elements. -/
theorem elem_packElems (w : Nat) (l : List Nat) (e : Nat) (h : w * l.length ≤ 64) :
    elem w e (packElems w l) = l.getD e 0 % 2 ^ w := by
  unfold elem packElems
  have hlt : l.foldr (fun v acc => v % 2 ^ w + 2 ^ w * acc) 0 < 2 ^ 64 :=
    Nat.lt_of_lt_of_le (foldr_pack_lt w l) (Nat.pow_le_pow_right (by decide) h)
  rw [BitVec.toNat_ofNat, Nat.mod_eq_of_lt hlt, elem_packElems_aux]

theorem typeWidth_mul_elems (t : Nat) : typeWidth t * typeElems t = 64 := by
  unfold typeElems typeWidth
  split <;> rfl

/-- An element of a lane computed element by element. -/
theorem elem_mapElems (t : Nat) (f : Nat → Nat) (e : Nat) (h : e < typeElems t) :
    elem (typeWidth t) e (mapElems t f) = f e % 2 ^ typeWidth t := by
  unfold mapElems
  rw [elem_packElems _ _ _ (by simp [typeWidth_mul_elems])]
  simp [List.getD_eq_getElem?_getD, h]

/-! ## Registers written -/

theorem Group.setS_lane (g : Group) (n : Nat) (v : U64) {x : Reg} (l : Nat) (h : x ≠ .s n) :
    (g.setS n v).lane x l = g.lane x l := by
  cases x with
  | s m =>
    have : m ≠ n := fun e => h (e ▸ rfl)
    simp [Group.lane, Group.getS_setS, this]
  | v m => obtain ⟨a, b, e⟩ := Group.setS_eq g n v; rw [e]; rfl
  | p m => obtain ⟨a, b, e⟩ := Group.setS_eq g n v; rw [e]; rfl
  | x m => obtain ⟨a, b, e⟩ := Group.setS_eq g n v; rw [e]; rfl

theorem Group.setP_lane (g : Group) (n : Nat) (v : BitVec 32) {x : Reg} (l : Nat) (h : x ≠ .p n) :
    (g.setP n v).lane x l = g.lane x l := by
  cases x with
  | p m =>
    have : m ≠ n := fun e => h (e ▸ rfl)
    simp [Group.lane, Group.getP_setP, this]
  | v m => obtain ⟨a, b, e⟩ := Group.setP_eq g n v; rw [e]; rfl
  | s m => obtain ⟨a, b, e⟩ := Group.setP_eq g n v; rw [e]; rfl
  | x m => obtain ⟨a, b, e⟩ := Group.setP_eq g n v; rw [e]; rfl

theorem Group.setVs_lane (g : Group) (n : Nat) (ls : List Nat) (f : Nat → U64) (hls : ∀ l ∈ ls, l < 32) (x : Reg) (l : Nat)
    (hl : l < 32) : (g.setVs n ls f).lane x l = if x = .v n ∧ l ∈ ls then f l else g.lane x l := by
  cases x with
  | v m =>
    simp only [Group.lane, Group.getV_setVs _ _ _ _ _ _ hls hl, Reg.v.injEq]
  | s m => obtain ⟨a, b, e⟩ := Group.setVs_eq g n ls f; rw [e]; simp [Group.lane, Group.getS]
  | p m => obtain ⟨a, b, e⟩ := Group.setVs_eq g n ls f; rw [e]; simp [Group.lane, Group.getP]
  | x m => obtain ⟨a, b, e⟩ := Group.setVs_eq g n ls f; rw [e]; simp [Group.lane, Group.getX]

/-! ## Words that write one register -/

theorem writesScalar_of {i : Instr} {body : Ctx → State → Res} {s : State} {c : Ctx} {v : U64} (h : Issues i s c)
    (he : exec i s = issue i body s)
    (hb : ∀ g0 free, body c (s.withGroup c.blk c.gid g0 free) = c.putS1 (s.withGroup c.blk c.gid g0 free) v) :
    WritesScalar i s c v := by
  obtain ⟨t, g0, ht, hr, _, _, hv⟩ := issue_upd (f := fun g => g.setS c.n1 v) (jump := none) (dst := [.s c.n1])
    (sp := c.g.specials) h hb
    (fun g hg => by obtain ⟨a, b, e⟩ := Group.setS_eq g c.n1 v; rw [e, ← hg]; rfl)
    (fun g => by obtain ⟨a, b, e⟩ := Group.setS_eq g c.n1 v; rw [e])
    (fun g x hx l _ => Group.setS_lane g c.n1 v l (by simpa using hx))
  refine ⟨t, he ▸ ht, hr, fun l => ?_⟩
  rw [hv]
  by_cases h0 : c.n1 = 0 <;> simp [Group.lane, Group.getS_setS, h0]

theorem writesLanes_of {i : Instr} {body : Ctx → State → Res} {s : State} {c : Ctx} {f : Nat → U64} (h : Issues i s c)
    (he : exec i s = issue i body s)
    (hb : ∀ g0 free, body c (s.withGroup c.blk c.gid g0 free) = c.putV1 (s.withGroup c.blk c.gid g0 free) f) :
    WritesLanes i s c f := by
  have hls : ∀ l ∈ c.lanes, l < 32 := fun l hl => lanesOf_lt hl
  obtain ⟨t, g0, ht, hr, h0, _, hv⟩ := issue_upd (f := fun g => g.setVs c.n1 c.lanes f) (jump := none) (dst := [.v c.n1])
    (sp := c.g.specials) h hb
    (fun g hg => by obtain ⟨a, b, e⟩ := Group.setVs_eq g c.n1 c.lanes f; rw [e, ← hg]; rfl)
    (fun g => by obtain ⟨a, b, e⟩ := Group.setVs_eq g c.n1 c.lanes f; rw [e])
    (fun g x hx l hl => by
      rw [Group.setVs_lane _ _ _ _ hls _ _ hl]
      have hx' : x ≠ .v c.n1 := by simpa using hx
      simp [hx'])
  refine ⟨t, he ▸ ht, hr, fun l hl => ?_⟩
  obtain ⟨⟨g, _, hg, _⟩, _⟩ := hr
  rw [hv, Group.setVs_lane _ _ _ _ hls _ _ hl, h0 g hg]
  simp [Ctx.lanes, hl, State.regBefore, hg]

theorem writesElems_of {i : Instr} {body : Ctx → State → Res} {s : State} {c : Ctx} {f : Nat → Nat → Nat} (h : Issues i s c)
    (he : exec i s = issue i body s)
    (hb : ∀ g0 free, body c (s.withGroup c.blk c.gid g0 free) =
      c.putV1 (s.withGroup c.blk c.gid g0 free) fun l => mapElems c.ty fun e => f l e) :
    WritesElems i s c f := by
  obtain ⟨t, ht, hr, hv⟩ := writesLanes_of h he hb
  refine ⟨t, ht, hr, fun l hl => ⟨fun hm e hn => ?_, fun hm => ?_⟩⟩
  · rw [hv l hl, if_pos hm, elem_mapElems _ _ _ hn]
  · rw [hv l hl, if_neg (by simp [hm])]

theorem writesPredicate_of {i : Instr} {body : Ctx → State → Res} {s : State} {c : Ctx} {n : Nat} {v : BitVec 32}
    (h : Issues i s c) (he : exec i s = issue i body s)
    (hb : ∀ g0 free, body c (s.withGroup c.blk c.gid g0 free) = c.putP (s.withGroup c.blk c.gid g0 free) n v) :
    WritesPredicate i s c n v := by
  obtain ⟨t, g0, ht, hr, _, _, hv⟩ := issue_upd (f := fun g => g.setP n v) (jump := none) (dst := [.p n])
    (sp := c.g.specials) h hb
    (fun g hg => by obtain ⟨a, b, e⟩ := Group.setP_eq g n v; rw [e, ← hg]; rfl)
    (fun g => by obtain ⟨a, b, e⟩ := Group.setP_eq g n v; rw [e])
    (fun g x hx l _ => Group.setP_lane g n v l (by simpa using hx))
  refine ⟨t, he ▸ ht, hr, fun hn l => ?_⟩
  rw [hv]
  simp [Group.lane, Group.getP_setP, hn]

theorem steers_of {i : Instr} {body : Ctx → State → Res} {s : State} {c : Ctx} {f : Group → Group} {jump : Option U64}
    {sp : Specials} (h : Issues i s c) (he : exec i s = issue i body s)
    (hb : ∀ g0 free, body c (s.withGroup c.blk c.gid g0 free) =
      .done ((s.withGroup c.blk c.gid g0 free).modGroup c.blk c.gid f) jump)
    (hsp : ∀ g, g.specials = c.g.specials → (f g).specials = sp) (hno : ∀ g, (f g).slotNo = g.slotNo)
    (hreg : ∀ g x l, (f g).lane x l = g.lane x l) : Steers i s c (jump.getD (c.g.pc + 4)) sp := by
  obtain ⟨t, g0, ht, hr, _⟩ := issue_upd (dst := []) (sp := sp) h hb hsp hno (fun g x _ l _ => hreg g x l)
  exact ⟨t, he ▸ ht, hr⟩

/-- A word whose effect is nothing but its next address. -/
theorem goesTo_of {i : Instr} {body : Ctx → State → Res} {s : State} {c : Ctx} {jump : Option U64} (h : Issues i s c)
    (he : exec i s = issue i body s)
    (hb : ∀ g0 free, body c (s.withGroup c.blk c.gid g0 free) = .done (s.withGroup c.blk c.gid g0 free) jump) :
    GoesTo i s c (jump.getD (c.g.pc + 4)) := by
  have hm : ∀ (u : State) (b gid : Nat), u.modGroup b gid (fun g => g) = u := by
    intro u b gid
    have ha : ∀ {α : Type} (t : Table α) (k : Nat) (f : α → α), (∀ x, f x = x) → t.adj k f = t := by
      intro α t k f hf
      unfold Table.adj
      induction t with
      | nil => rfl
      | cons p r ih => simp [hf]
    unfold State.modGroup State.modBlock
    rw [ha _ _ _ fun k => by rw [ha _ _ _ fun _ => rfl]]
  obtain ⟨t, g0, ht, hr, _⟩ := issue_upd (f := fun g => g) (dst := []) (sp := c.g.specials) h
    (fun g0 free => by rw [hm]; exact hb g0 free) (fun _ h => h) (fun _ => rfl) (fun _ _ _ _ _ => rfl)
  exact ⟨t, he ▸ ht, hr⟩

end Sys2Proof.Machine
end

