-- ==== Sys2Proof/Laws/Traps.lean ====
section
/-! SUPPORT. Taking a trap (R88, R89): the state after it, for a group with a handler and for one without. -/

namespace Sys2Proof.Machine

open Host (Outcome)

theorem State.unlock_rest (s : State) (core slot n : Nat) :
    ((s.unlock core slot).core n).rest = (s.core n).rest ∧ ((s.unlock core slot).core n).clock = (s.core n).clock := by
  unfold State.unlock State.modCore
  simp only [State.core, Table.find_put]
  by_cases h : n = core
  · subst h; simp [CoreSt.rest]
  · simp [h]

theorem State.unlock_outside (s : State) (core slot : Nat) : OutsideKept s (s.unlock core slot) :=
  ⟨rfl, fun n => (State.unlock_rest s core slot n).1, fun _ => rfl⟩

@[simp] theorem State.unlock_group (s : State) (core slot b g : Nat) : (s.unlock core slot).group b g = s.group b g := rfl
@[simp] theorem State.unlock_block (s : State) (core slot b : Nat) : (s.unlock core slot).block b = s.block b := rfl
@[simp] theorem State.unlock_grids (s : State) (core slot : Nat) : (s.unlock core slot).grids = s.grids := rfl

/-! ## The abort of a block -/

theorem State.collFail_keeps (s : State) (id r : Nat) :
    (s.collFail id r).blocks = s.blocks ∧ (s.collFail id r).grids = s.grids ∧ (s.collFail id r).ops = s.ops := ⟨rfl, rfl, rfl⟩

theorem State.commFail_keeps (s : State) (comm r : Nat) :
    (s.commFail comm r).blocks = s.blocks ∧ (s.commFail comm r).grids = s.grids ∧ (s.commFail comm r).ops = s.ops := by
  unfold State.commFail
  have : ∀ (l : Table Collective) (u : State),
      (l.foldl (fun s k => s.collFail k.1 r) u).blocks = u.blocks ∧ (l.foldl (fun s k => s.collFail k.1 r) u).grids = u.grids
        ∧ (l.foldl (fun s k => s.collFail k.1 r) u).ops = u.ops := by
    intro l
    induction l with
    | nil => intro u; exact ⟨rfl, rfl, rfl⟩
    | cons k l ih => intro u; exact ih (u.collFail k.1 r)
  exact this _ _

theorem State.barTouch_grids (s : State) (l : BarLoc) : (s.barTouch l).grids = s.grids := by
  unfold State.barTouch
  split
  · rfl
  · split <;> rfl

theorem State.barPut_grids (s : State) (l : BarLoc) (v : Nat) : (s.barPut l v).grids = s.grids := by
  unfold State.barPut
  split <;> rfl

@[simp] theorem State.barPoke_grids (s : State) (hit : BarLoc → Bool) : (s.barPoke hit).grids = s.grids := rfl

theorem State.arrive_grids (s : State) (l : BarLoc) (dec : Bool) (add : Int) : (s.arrive l dec add).2.2.grids = s.grids := by
  unfold State.arrive
  simp only
  split <;> simp [State.barTouch_grids, State.barPut_grids]

/-! ## Late accesses touch no grid -/

theorem foldl_grids {α : Type} (f : State → α → State) (h : ∀ s a, (f s a).grids = s.grids) (l : List α) (s : State) :
    (l.foldl f s).grids = s.grids := by
  induction l generalizing s with
  | nil => rfl
  | cons a l ih => exact (ih (f s a)).trans (h s a)

theorem State.barError_grids (s : State) (l : BarLoc) : (s.barError l).grids = s.grids := by
  unfold State.barError
  cases l <;> rfl

theorem State.sharedErrors_grids (s old : State) (b : Nat) (offs : List Nat) :
    (s.sharedErrors old b offs).grids = s.grids := by
  unfold State.sharedErrors
  exact foldl_grids (fun s o => s.barError (.shared b o)) (fun s o => State.barError_grids s (.shared b o)) _ s

theorem State.padErrors_grids (s old : State) (keys : List Nat) : (s.padErrors old keys).grids = s.grids := by
  unfold State.padErrors State.keyErrors
  exact foldl_grids (fun s a => (s.storeCells [(a + 12, Memory.get s.mem (a + 12) ||| 1)]).barPoke (s.barAtKey a))
    (fun _ _ => rfl) _ s

theorem State.spotWrite_grids (s : State) (b : Nat) (p : Spot) (bs : List Byte) : (s.spotWrite b p bs).grids = s.grids := by
  unfold State.spotWrite
  split
  · exact State.sharedErrors_grids _ _ _ _
  · rfl
  · exact State.padErrors_grids _ _ _

theorem State.atom_grids (s : State) (b : Nat) (fl : Bool) (op w : Nat) (p : Spot) (v n : Nat) :
    (s.atom b fl op w p v n).2.grids = s.grids := by
  unfold State.atom
  simp only
  split
  · exact State.spotWrite_grids _ _ _ _
  · rfl

theorem State.lateLane_grids (s : State) (b gid : Nat) (a : Late) (l : Nat) (sp : Option Spot) (v w : U64) :
    (s.lateLane b gid a l sp v w).grids = s.grids := by
  unfold State.lateLane
  simp only
  split
  · rfl
  · exact State.spotWrite_grids _ _ _ _
  · split
    · rw [State.modGroup_grids, State.atom_grids]
    · exact State.atom_grids _ _ _ _ _ _ _ _
  · rfl

theorem State.lateLanes_grids (b gid : Nat) (a : Late) (ls : List (Nat × Option Spot × U64 × U64)) :
    ∀ r : State × List Spot, (State.lateLanes b gid a ls r).1.grids = r.1.grids := by
  induction ls with
  | nil => exact fun _ => rfl
  | cons x l ih => exact fun r => (ih _).trans (State.lateLane_grids _ _ _ _ _ _ _ _)

theorem State.wroteAll_grids (s old : State) (b : Nat) (offs keys : List Nat) :
    (s.wroteAll old b offs keys).grids = s.grids := by
  unfold State.wroteAll
  rw [State.padErrors_grids, State.sharedErrors_grids]

theorem State.perform_grids (s : State) (b gid : Nat) (a : Late) : (s.perform b gid a).grids = s.grids := by
  have hl : ∀ (c : Bool) (n : Nat) (ls : List (Nat × Option Spot × U64 × U64)),
      (State.lateLanes b gid a ls (if c then { s with free := n } else s, [])).1.grids = s.grids := by
    intro c n ls
    rw [State.lateLanes_grids]
    cases c <;> rfl
  unfold State.perform State.atomsWritten State.spotsWritten
  simp only [State.modGroup_grids]
  split
  · split
    · split
      · exact (State.wroteAll_grids _ _ _ _ _).trans (hl _ _ _)
      · exact (State.wroteAll_grids _ _ _ _ _).trans (hl _ _ _)
    · split
      · exact (State.wroteAll_grids _ _ _ _ _).trans (hl _ _ _)
      · exact (State.wroteAll_grids _ _ _ _ _).trans (hl _ _ _)
  · split
    · exact (State.wroteAll_grids _ _ _ _ _).trans (hl _ _ _)
    · exact (State.wroteAll_grids _ _ _ _ _).trans (hl _ _ _)

theorem State.landBlock_grids (s : State) (b : Nat) : (s.landBlock b).grids = s.grids := by
  unfold State.landBlock State.landAll
  refine foldl_grids _ (fun u g => ?_) _ s
  simp only [State.modGroup_grids]
  exact foldl_grids (fun s a => s.perform b g a) (fun s a => State.perform_grids s b g a) _ u

theorem State.endOp_grids (s : State) (o : EngOp) : (s.endOp o).grids = s.grids := by
  unfold State.endOp
  simp only
  have h : ∀ u : State, u.grids = s.grids → (match o.kind with
      | .copy c =>
        (match c.kind, (u.block o.blk).bind fun k => u.redStep k.part c with
         | .rred, some t => u.commFail t.comm 1
         | _, _ => u)
      | _ => u).grids = s.grids := by
    intro u hu
    split
    · split
      · rw [(State.commFail_keeps u _ 1).2.1, hu]
      · exact hu
    · exact hu
  apply h
  split
  · rfl
  · rfl
  · exact State.arrive_grids _ _ _ _
  · rfl

theorem State.endOps_grids (s : State) (b : Nat) : (s.endOps b).grids = s.grids := by
  unfold State.endOps
  have : ∀ (l : Table EngOp) (u : State), (l.foldl (fun s o => s.endOp o.2) u).grids = u.grids := by
    intro l
    induction l with
    | nil => intro u; rfl
    | cons k l ih => intro u; exact (ih _).trans (State.endOp_grids u k.2)
  exact (this _ (s.landBlock b)).trans (State.landBlock_grids s b)

theorem State.failGrid_grids (s : State) (gh err : Nat) (cause : BitVec 8) (info : U64) (core : Nat) :
    (s.failGrid gh err cause info core).grids.find gh = (s.grids.find gh).map fun k =>
      if k.failed.isSome then k else { k with failed := some (err, cause, info, core) } := by
  unfold State.failGrid
  cases hg : s.grids.find gh with
  | none => simp [hg]
  | some g =>
    simp only
    by_cases hf : g.failed.isSome = true
    · simp [hf, hg]
    · simp only [hf, Option.map_some]
      cases g.carry with
      | none => simp [Table.find_put]
      | some k => simp [Table.find_put]

theorem State.unlockAll_keeps (l : Table Group) (s : State) :
    (l.foldl (fun s g => s.unlock g.2.core g.2.slot) s).grids = s.grids := by
  induction l generalizing s with
  | nil => rfl
  | cons g l ih => exact ih (s.unlock g.2.core g.2.slot)

theorem State.dropBlock_spec (s : State) (b : Nat) :
    (s.dropBlock b).block b = none ∧ (s.dropBlock b).grids = s.grids := by
  unfold State.dropBlock
  cases h : s.block b with
  | none => exact ⟨h, rfl⟩
  | some k =>
    simp only
    refine ⟨?_, State.unlockAll_keeps k.groups s⟩
    simp [State.block, Table.find_del]

/-- The abort of a block: the block is gone, and its grid fails unless it had failed before. -/
theorem State.abortBlock_spec (s : State) {b : Nat} {k : Block} (h : s.block b = some k) (err : Nat) (cause : BitVec 8)
    (info : U64) (core : Nat) :
    (s.abortBlock b err cause info core).block b = none
      ∧ (s.abortBlock b err cause info core).grids.find k.grid = (s.grids.find k.grid).map fun r =>
          if r.failed.isSome then r else { r with failed := some (err, cause, info, core) } := by
  unfold State.abortBlock
  rw [h]
  refine ⟨(State.dropBlock_spec _ b).1, ?_⟩
  simp only
  rw [(State.dropBlock_spec _ b).2, State.failGrid_grids, State.endOps_grids]

/-! ## A word that traps -/

/-- A block keeps its grid and everything but its groups when a group changes. -/
theorem State.block_modGroup {s : State} {b : Nat} {k : Block} (h : s.block b = some k) (gid : Nat) (f : Group → Group) :
    (s.modGroup b gid f).block b = some { k with groups := k.groups.adj gid f } := by
  unfold State.modGroup State.modBlock State.block at *
  simp [Table.find_adj, h]

/-- Whatever a word that issues raises by itself traps its group. -/
theorem traps_of {i : Instr} {body : Ctx → State → Res} {s : State} {c : Ctx} {cause : BitVec 8} {info : U64}
    (h : Issues i s c) (he : exec i s = issue i body s)
    (hb : ∀ g0 free, body c (s.withGroup c.blk c.gid g0 free) = .trap cause info) : Traps i s c cause info := by
  obtain ⟨hcur, g, hg, hclear, hc⟩ := h
  have hadm := admission_of_clear hclear c.blk c.gid
  rw [← hc] at hadm
  obtain ⟨hsv, hpc, hcore, _⟩ := wordContext_group i s c.k g (readOperands i s g).sees c.blk c.gid
  rw [← hc] at hsv hpc hcore
  have hh : c.h = s.hdr c.k := by rw [hc]; rfl
  obtain ⟨hblk, hgrp⟩ := State.group_of_curGroup hcur hg
  obtain ⟨d, n, hobs⟩ := observe_group g (readOperands i s g).sees
  generalize hdst : opRegs (readOperands i s g).ops g.bundle.mods (readOperands i s g).x Opnd.wr = wr at hadm
  generalize (readOperands i s g).free = free at hadm
  generalize (observe g (readOperands i s g).sees).2 = go at *
  have hexec : exec i s = .next ((s.withGroup c.blk c.gid g free).trap c.blk c.gid cause info) := by
    rw [he]
    unfold issue
    rw [hcur, hg]
    simp only [issueWord, hadm, hb]
    rfl
  have hgrp' : ∃ k', s.block c.blk = some c.k ∧ c.k.groups.find c.gid = some g
      ∧ (s.withGroup c.blk c.gid g free).block c.blk = some k' ∧ k'.grid = c.k.grid ∧ k'.groups.find c.gid = some g := by
    have hf : c.k.groups.find c.gid = some g := by
      simp only [State.group, hblk, Option.bind_some] at hgrp
      exact hgrp
    refine ⟨_, hblk, hf, State.block_modGroup hblk c.gid fun _ => g, rfl, ?_⟩
    simp [Table.find_adj, hf]
  obtain ⟨k', _, hf, hk', hgrid, hf'⟩ := hgrp'
  have hhdr : (s.withGroup c.blk c.gid g free).hdr k' = c.h := by
    rw [hh]
    unfold State.hdr State.gridOf
    rw [hgrid]
    rfl
  have hbase : (s.withGroup c.blk c.gid g free).kernelBase k' = s.kernelBase c.k := by
    unfold State.kernelBase State.gridOf
    rw [hgrid]
    rfl
  have hhand : g.handler = c.g.handler := by
    have := congrArg Specials.handler hsv
    rw [hobs] at this
    exact this.symm
  have hgrpw : (s.withGroup c.blk c.gid g free).group c.blk c.gid = some g := by
    simp [State.withGroup_group, hgrp]
  constructor
  · intro ⟨h1, h2⟩
    refine ⟨_, hexec, g, g.enter cause info (s.handlerOf c), by simp [State.issuer, hg], ?_, ?_, ?_, ?_, ?_, ?_, ?_⟩
    · unfold State.trap
      simp only [hk', hf', hhdr, hhand, h1, h2, Bool.false_eq_true, if_false, decide_false, Bool.or_false,
        State.group_modGroup, State.unlock_group, hgrpw, and_self, if_true, Option.map_some, hbase]
      rfl
    · have hsp : (g.enter cause info (s.handlerOf c)).specials = { g.specials with
          cause := cause, trapPc := g.bundle.entry, trapInfo := info, resume := g.pc + 4, handler := true } := rfl
      exact hsp
    · rfl
    · rfl
    · intro x l _
      cases x <;> rfl
    · intro b gid hne
      unfold State.trap
      simp only [hk', hf', hhdr, hhand, h1, h2, Bool.false_eq_true, if_false, decide_false, Bool.or_false,
        State.group_modGroup, State.unlock_group, hne]
      rw [State.withGroup_group, if_neg hne]
    · unfold State.trap
      simp only [hk', hf', hhdr, hhand, h1, h2, Bool.false_eq_true, if_false, decide_false, Bool.or_false]
      exact ((State.withGroup_outside s c.blk c.gid free g).trans (State.unlock_outside _ _ _)).trans
        (State.modGroup_outside _ _ _ _)
  · intro h12
    refine ⟨_, hexec, ?_⟩
    have hcond : (g.handler || decide (c.h.trap = 0)) = true := by
      rcases h12 with h | h
      · simp [hhand, h]
      · simp [h]
    have hc1 : (s.withGroup c.blk c.gid g free).trap c.blk c.gid cause info =
        (s.withGroup c.blk c.gid g free).abortBlock c.blk 1 cause info g.core := by
      unfold State.trap
      simp only [hk', hf', hhdr]
      rw [if_pos (by simpa using hcond)]
    have := State.abortBlock_spec (s.withGroup c.blk c.gid g free) hk' 1 cause info g.core
    rw [hc1]
    refine ⟨this.1, fun g1 hg1 => ?_⟩
    have hg1' : g1 = g := by simpa [State.issuer, hg] using hg1.symm
    rw [hgrid] at this
    rw [this.2, hg1']
    rfl

end Sys2Proof.Machine
end

