-- ==== Sys2Proof/Tests/Slice0.lean ====
section
/-! SUPPORT. Tests: ill-formed terms, words that the decoder refuses, the words of the spec's tables, and for each statement of
Obligations.lean states and operands that meet its hypotheses, at the boundaries where its clauses meet. -/

namespace Sys2Proof.Tests

open Sys2Proof.Machine
open Host (Outcome)

set_option maxRecDepth 100000
set_option Elab.async false

/-! ## Ill-formed terms: one for each check of WellFormed -/

theorem test_ill_formed_terms : ([.pfxSched 0 3, .pfxSplit 0, .pfxSplit 65, .pfxMod 0 0 1 0 0x1F 0 0 0 0, .pfxMod 0 0 0 0 0x0A 0 0 0 0,
    .pfxMod 0 0 0 0 0x1F 0 0 0 6, .brm 0 4 0, .yieldOc 5 0 0, .scmp 1 2 6, .scmpn 1 2 6, .satom 1 2 0 0 0 11, .atom 1 2 0 0 0 11,
    .sld 1 2 0 3 0, .sld 1 2 0 0 5, .sld 1 2 1 0 3, .ld 1 2 1 0 4, .sst 1 2 2 0, .st 1 2 0 5] : List Instr).all
    (fun i => !i.wellFormed) = true := by decide +kernel

theorem test_ill_formed_numbers : ([.pset 15 1, .psetLive 15 1, .pget 1 16, .pfirst 1 16, .plast 1 16, .pcnt 1 16, .plog 15 0 0 0,
    .plog 0 16 0 0, .plog 0 0 0 8, .smovv 1 2 32, .xset 4 1, .xadd 4 1, .xget 1 4, .vcmpp 15 0 1 2, .vcvt 1 2 5 0x11,
    .vcvta 1 2 0 0x0A, .vscan 1 2 0 9, .vqxSwap 1 2 0, .mxmma 0 1 2 0 1, .mxrd 1 16 0, .mxwr 1 0 64, .mxldws 1 1, .mxacq 15,
    .waitc 5 0, .waitc 0 64] : List Instr).all (fun i => !i.wellFormed) = true := by decide +kernel

/-! ## Decoding: words written out from the spec's tables -/

/-- Words with a nonzero reserved field, an xop or an fn that R22 to R25 do not allocate, or a bad prefix (R27, R28). -/
theorem test_refused_words : ([0x00000001, 0x01000000 + 0x80000000, 0x05000008, 0x06000080, 0x0B010500, 0x0B000502, 0x0E070100,
    0x2B041123, 0x7F080000, 0x7F160000, 0x7F270000, 0x7F390000, 0x7F480000, 0x7F510000, 0x7F670000, 0x7FFF0000, 0x7F050001]
    : List Word).all (fun w => (decodeWord w).toOption.isNone) = true := by decide +kernel

theorem test_written_words : writtenWords.map (fun p => (decodeWord p.1).toOption) =
    writtenWords.map fun p => some ⟨p.2.1, p.2.2⟩ := by rfl

/-- The bytes of a word stand with the lowest first (R10): VADD v3, v4, v5. -/
theorem test_byte_order : wordBytes 0x40030405 = [0x05, 0x04, 0x03, 0x40] := by decide

/-! ## Small states -/

/-- One group of a kernel with every register, both abacus families and privilege, about to issue; its element type is F32. -/
def base : State := { State.reset.boot 0 with cur := some (1, 0), schedule := [] }

/-- The issuing group changed. -/
def grp (f : Group → Group) (s : State) : State := s.modGroup 1 0 f

/-- The block changed. -/
def blk (f : Block → Block) (s : State) : State := s.modBlock 1 f

/-- The element type of the issuing group. -/
def typed (ty : Nat) (s : State) : State := grp (fun g => { g with mode := BitVec.ofNat 32 ty }) s

/-- Scalar registers from a number on. -/
def regs (n : Nat) (vs : List U64) (s : State) : State :=
  grp (fun g => ((List.range vs.length).zip vs).foldl (fun g e => g.setS (n + e.1) e.2) g) s

/-- A value in every lane of a vector register. -/
def vec (n : Nat) (f : Nat → U64) (s : State) : State := grp (fun g => g.setVs n (List.range 32) f) s

/-- The group holds the abacus of its core, with `n` operations in its queue. -/
def held (n : Nat) (s : State) : State :=
  blk (fun k => { k with abaci := [(0, { k.abacus 0 with
    holder := some 0, queue := List.replicate n ⟨0, 0, .refine⟩ })] }) s

/-- The context with which the group that the state names issues a word, if nothing keeps it from issuing. -/
def ctxNow (i : Instr) (s : State) : Option Ctx :=
  match s.cur, s.curGroup with
  | some (b, n), some (k, g) =>
    let r := readOperands i s g
    let sh := shapeOf i (typeInForce g.bundle g.mode)
    if (wordFault i s k g).isNone && (regFault (s.hdr k) g.bundle.mods r).isNone
      && (replayPark i s.mark (s.hdr k).checked r.reads r.pass g).isNone && !mustStall i s k g r
      && (observe g r.sees).1.isNone && !(sh.fam == .none && consumesPoison sh r)
    then some (wordContext i s k g (observe g r.sees).2 b n) else none
  | _, _ => none

theorem issues_of_ctxNow {i : Instr} {s : State} {c : Ctx} (h : ctxNow i s = some c) : Issues i s c := by
  unfold ctxNow at h
  split at h
  · rename_i b n k g hc hg
    simp only at h
    split at h
    · rename_i hb
      simp only [Bool.and_eq_true, Option.isNone_iff_eq_none, Bool.not_eq_true'] at hb
      obtain ⟨⟨⟨⟨⟨h1, h2⟩, h3⟩, h4⟩, h5⟩, h6⟩ := hb
      cases h
      exact ⟨hc, g, hg, ⟨h1, h2, h3, h4, h5, h6⟩, rfl⟩
    · contradiction
  · contradiction

/-- The word issues, and its context is as `p` says. -/
def meets (i : Instr) (s : State) (p : Ctx → Bool) : Bool := ((ctxNow i s).map p).getD false

/-- A state that meets a test is a witness of what the statements assume. -/
theorem witness {i : Instr} {s : State} {p : Ctx → Bool} (h : meets i s p = true) : ∃ c, Issues i s c ∧ p c = true := by
  unfold meets at h
  cases hc : ctxNow i s with
  | none => simp [hc] at h
  | some c => exact ⟨c, issues_of_ctxNow hc, by simpa [hc] using h⟩

/-- The word issues, and its group has taken one slot after it. -/
def runs (i : Instr) (s : State) : Bool :=
  (ctxNow i s).isSome && (match exec i s with
    | .next t => (t.group 1 0).map Group.slotNo == some 1
    | _ => false)

theorem noRegion_base : NoRegion base := by
  intro g hg
  have : base.issuer = some (Group.fresh 0 0 0 0x40 false 0xFFFFFFFF) := rfl
  rw [this] at hg
  cases hg
  exact ⟨rfl, .inr rfl⟩

/-! ## Words that issue and complete: a state for each family (R20 to R25) -/

theorem runs_scalar_words : ([.sadd 4 5 6, .ssub 4 5 6, .smul 4 5 6, .smulh 4 5 6, .smulhn 4 5 6, .sdiv 4 5 6, .sdivn 4 5 6, .srem 4 5 6, .sremn 4 5
    6, .sand 4 5 6, .sor 4 5 6, .sxor 4 5 6, .sshl 4 5 6, .sshr 4 5 6, .ssar 4 5 6, .ssel 4 5 6, .smin 4 5 6, .smax 4 5 6,
    .sminn 4 5 6, .smaxn 4 5 6, .saddi 4 5 7, .sli 4 1, .slih 4 1, .scmp 4 5 2, .scmpn 4 5 2, .sunPopc 4 5, .sunClz 4 5,
    .sunCtz 4 5, .sunBrev 4 5, .sunBswap 4 5, .sunNot 4 5, .sunNeg 4 5, .sunAbs 4 5] : List Instr).all
    (fun i => runs i base) = true := by decide +kernel

theorem runs_control_words : ([.nop, .bra 1, .brs 5 1, .brm 1 1 1, .call 4 1, .jmpi 5, .ret 5, .yieldNow 1, .yieldReg 5 1, .yieldOc 1 1 1,
    .yieldSleep 1 1, .waitc 1 1, .exit, .fence, .ifence, .bsync, .csync, .cpcan, .icinv 5 6] : List Instr).all
    (fun i => runs i base) = true := by decide +kernel

theorem runs_memory_words : ([.sld 4 5 1 0 2, .sst 4 5 0 2, .ld 4 5 1 0 2, .ldk 4 1, .stk 4 1, .srd 4 8, .swr 4 9] : List Instr).all
    (fun i => runs i base) = true := by decide +kernel

theorem runs_float_scalar_words : ([.sfpAdd 4 5 1, .sfpSub 4 5 1, .sfpMul 4 5 1, .sfpDiv 4 5 1, .sfpSqrt 4 5 1, .sfpMin 4 5 1, .sfpMax 4 5 1, .sfpEq 4 5
    1, .sfpLt 4 5 1, .sfpLe 4 5 1, .sfpCvti 4 5 1, .sfpCvtf 4 5 1] : List Instr).all
    (fun i => runs i base) = true := by decide +kernel

theorem runs_predicate_words : ([.pset 1 5, .psetLive 1 5, .pget 4 5, .plog 1 5 1 1, .pfirst 4 5, .plast 4 5, .pcnt 4 5, .xset 1 5, .xadd 1 5, .xget 4
    1, .mode 4 5 1, .vlane 4, .vlaneBlk 4, .vlaneQuad 4, .vmovs 4 5, .vmovsLane 4 5 1, .vmov 4 5, .smovv 4 5 1, .vseti 4 1] : List Instr).all
    (fun i => runs i base) = true := by decide +kernel

theorem runs_integer_words : ([.vadd 4 5 6, .vsub 4 5 6, .vadds 4 5 6, .vsubs 4 5 6, .vmul 4 5 6, .vmulh 4 5 6, .vmad 4 5 6, .vand 4 5 6, .vor 4 5 6,
    .vxor 4 5 6, .vshl 4 5 6, .vshr 4 5 6, .vsar 4 5 6, .vmin 4 5 6, .vmax 4 5 6, .vabsd 4 5 6, .vbitPopc 4 5, .vbitClz 4
    5, .vbitCtz 4 5, .vbitBrev 4 5, .vbitNot 4 5, .vbitNeg 4 5, .vbitAbs 4 5, .vaddi 4 5 7, .vshli 4 5 7, .vshri 4 5 7,
    .vsari 4 5 7, .vcmpp 1 1 5 6, .vmuli 4 5 7, .vltm 4 5 6, .vsel 4 5 6, .vpack 4 5 6] : List Instr).all
    (fun i => runs i (typed 2 base)) = true := by decide +kernel

theorem runs_byte_words : ([.vdot 4 5 6, .vdots 4 5 6, .vswzXor 4 5 1, .vswzBcst 4 5 1, .vswzRot 4 5 1, .vswzRev 4 5, .vunpkLo 4 5, .vunpkHi 4 5] : List Instr).all
    (fun i => runs i (typed 0 base)) = true := by decide +kernel

theorem runs_float_words : ([.vfadd 4 5 6, .vfsub 4 5 6, .vfmul 4 5 6, .vfma 4 5 6, .vfms 4 5 6, .vfnma 4 5 6, .vfmin 4 5 6, .vfmax 4 5 6, .vfminm
    4 5 6, .vfmaxm 4 5 6, .veqm 4 5 6, .vfdiv 4 5 6, .vfscl 4 5 6, .vfunNeg 4 5, .vfunAbs 4 5, .vfunRint 4 5, .vfunFloor 4
    5, .vfunCeil 4 5, .vfunTrunc 4 5, .vfunFract 4 5, .vfunRelu 4 5, .vfunSign 4 5, .vfkeyMax 4 5, .vfkeyMin 4 5,
    .vfkeyInv 4 5, .vcvt 4 5 1 1, .vcvta 4 5 1 1, .vf6Split 4 5, .vf6Join 4 5] : List Instr).all
    (fun i => runs i base) = true := by decide +kernel

theorem runs_special_function_words : ([.vfspecRcp 4 5, .vfspecRsqrt 4 5, .vfspecSqrt 4 5, .vfspecExp2 4 5, .vfspecLog2 4 5, .vfspecSinpi 4 5, .vfspecCospi 4
    5, .vfspecTanh 4 5, .vfspecSilu 4 5, .vfspecErf 4 5] : List Instr).all
    (fun i => runs i base) = true := by decide +kernel

theorem runs_lane_words : ([.vshfl 4 5 6, .vbcst 4 5 1, .vbcstFirst 4 5, .vredFadd 4 5, .vredFmin 4 5, .vredFmax 4 5, .vqxSwap 4 5 1, .vqxBcst 4 5
    1, .vvoteAny 4 5, .vvoteAll 4 5, .vvoteBallot 4 5, .vvoteUniform 4 5, .vrot 4 5 7] : List Instr).all
    (fun i => runs i base) = true := by decide +kernel

theorem runs_reduction_words : ([.vredAdd 4 5, .vredAdds 4 5, .vredAddw 4 5, .vredMin 4 5, .vredMax 4 5, .vredAnd 4 5, .vredOr 4 5, .vredXor 4 5,
    .vrediMin 4 5, .vrediMax 4 5, .vscan 4 5 1 1, .vqxAdd 4 5, .vqxMin 4 5, .vqxMax 4 5] : List Instr).all
    (fun i => runs i (typed 2 base)) = true := by decide +kernel

/-! ## Scalar words, traps and modes: what else the statements assume -/

theorem witness_trap : ∃ c, Issues (.trap 7) base c ∧ (c.h.trap == 0) = true := witness (by decide +kernel)

/-- A kernel with a trap handler at 0x80. -/
def guarded (s : State) : State :=
  { s with grids := s.grids.mapVal fun _ g => { g with hdr := g.hdr.map fun h => { h with trap := 0x80 } } }

theorem witness_handler_entry : ∃ c, Issues (.bkpt 7) (guarded base) c ∧ (!c.g.handler && c.h.trap == 0x80) = true :=
  witness (by decide +kernel)

theorem witness_handler_state : ∃ c, Issues .trapRetNext (grp (fun g => { g with handler := true }) base) c ∧ c.g.handler = true :=
  witness (by decide +kernel)

theorem witness_return_outside : ∃ c, Issues .trapRetAbort base c ∧ (!c.g.handler) = true := witness (by decide +kernel)

/-- 9 is the last integer type, 10 is none. -/
theorem witness_mode_types : (∃ c, Issues (.mode 4 5 1) (regs 5 [9] base) c ∧ (c.g.getS 5 == 9) = true)
    ∧ ∃ c, Issues (.mode 4 5 1) (regs 5 [10] base) c ∧ (c.g.getS 5 == 10) = true :=
  ⟨witness (by decide +kernel), witness (by decide +kernel)⟩

/-- Rounding mode 4 is the last, 5 is none. -/
theorem witness_mode_rounding : (∃ c, Issues (.mode 4 5 2) (regs 5 [0x80] base) c ∧ (c.g.getS 5 == 0x80) = true)
    ∧ ∃ c, Issues (.mode 4 5 2) (regs 5 [0xA0] base) c ∧ (c.g.getS 5 == 0xA0) = true :=
  ⟨witness (by decide +kernel), witness (by decide +kernel)⟩

theorem witness_misaligned_jump : ∃ c, Issues (.jmpi 5) (regs 5 [0x42] base) c ∧ ((c.g.getS c.n2).toNat % 4 == 2) = true :=
  witness (by decide +kernel)

/-- Lane 1 of v5 is poisoned. -/
def spoiled : State := grp (fun g => { g with poison := [(.v 5, 1)] }) base

theorem witness_poisoned_lane : ∃ c, Issues (.smovv 4 5 1) spoiled c ∧ c.g.poison.contains (.v c.n2, 1) = true :=
  witness (by decide +kernel)

/-! ## Numbers -/

/-- `Below` as a test. -/
def isBelow (x y : Val) : Bool :=
  let num (neg : Bool) (m : Nat) (k : Int) : Int := (if neg then -1 else 1) * (m * 2 ^ k.toNat)
  match x, y with
  | .inf true, .inf true => false
  | .inf true, _ => true
  | .inf false, _ => false
  | _, .inf neg => !neg
  | .fin n m a, .fin n' m' b => num n m (a - min a b) < num n' m' (b - min a b)
  | _, _ => false

theorem below_iff (x y : Val) : Below x y ↔ isBelow x y = true := by
  unfold Below isBelow
  split <;> simp

/-- 1.0, half a unit in its last place above it, 2^127, and the least value that overflows in every mode. -/
theorem witness_rounding : (let f := fmtOf 0x11
      ¬Below (.fin false 1 0) (f.val 0x3F800000) ∧ Below (.fin false 1 0) (f.val 0x3F800001)
        ∧ ¬Below (.fin false (2 ^ 24 + 1) (-24)) (f.val 0x3F800000) ∧ Below (.fin false (2 ^ 24 + 1) (-24)) (f.val 0x3F800001)
        ∧ ¬Below (.fin false (2 ^ 24 - 1) 104) (f.val f.maxCode) ∧ Below (.fin false (2 ^ 24 - 1) 104) (beyondMax 0x11)
        ∧ ¬Below (.fin false 1 128) (beyondMax 0x11)) := by
  simp only [below_iff]
  decide +kernel

/-- Contracts of the revisions FT1 to FT4, and inputs on both sides of the limits of their functions. -/
theorem witness_function_tables : ([1, 2, 3, 4].all fun ft => (List.range 16).any fun ct => ctFt ct == ft) = true
    ∧ Below (.fin false 1 0) (.fin false 1 12) ∧ (Val.fin false 3 0).cmp (.fin false 1 0) ≠ .eq
    ∧ Below (.fin true 1 5) (Val.ofInt (-16)) ∧ ¬Below (.fin true 1 3) (Val.ofInt (-16)) ∧ ¬Below (.fin false 1 5) (Val.ofInt 16)
    ∧ Below (.fin false 1 2) (Val.ofInt 8) ∧ ¬Below (.fin false 1 3) (Val.ofInt 8) ∧ ¬Below (.fin false 1 2) (Val.ofInt 4) := by
  simp only [below_iff]
  decide +kernel

/-- A square root that is exact, and one that is not: 2 and √2. -/
theorem test_square_roots : (specVal CoreSt.reset 0 2 (.fin false 4 0)).cmp (.fin false 2 0) = .eq
    ∧ fF32.round 0 false (specVal CoreSt.reset 0 2 (.fin false 2 0)) = 0x3FB504F3 := by decide +kernel

/-- The greatest of F32 codes is +0 before −0, the least of I8 codes 0xFF before 0; types of each kind of a conversion. -/
theorem witness_ranks : Outranks 0x11 true 0 0x80000000 ∧ ¬Outranks 0x11 true 0x80000000 0 ∧ Outranks 0 false 0xFF 0
    ∧ 0x11 ∈ tALL ∧ 0 ∈ tALL ∧ typeInt 0 = true ∧ typeInt 0x11 = false := by
  unfold Outranks
  decide +kernel

/-! ## Vector words -/

/-- Of the two F32 elements of a lane, k = 1 is the last and k = 2 is ILLEGAL. -/
theorem witness_swizzle : (∃ c, Issues (.vswzXor 4 5 1) base c ∧ (typeElems c.ty == 2) = true)
    ∧ ∃ c, Issues (.vswzXor 4 5 2) base c ∧ (typeElems c.ty == 2) = true :=
  ⟨witness (by decide +kernel), witness (by decide +kernel)⟩

theorem witness_saturating_pack : ∃ c, Issues (.vpack 4 5 6) (typed 2 base) c ∧ (c.ty == 2) = true :=
  witness (by decide +kernel)

/-- An inactive lane keeps its content: p0 without lane 31. -/
theorem witness_inactive_lane : ∃ c, Issues (.vadd 4 5 6) (grp (fun g => g.setP 0 0x7FFFFFFF) (typed 2 base)) c
    ∧ (!c.mask.getLsbD 31 && c.mask.getLsbD 30) = true := witness (by decide +kernel)

theorem witness_conversion_run : ∃ c, Issues (.vcvt 4 5 0 0x10) base c ∧ (c.ty == 0x11) = true :=
  witness (by decide +kernel)

/-- The reductions read every lane of C: with lane 1 poisoned they raise UNCORRECTABLE, without they do not. -/
theorem witness_poisoned_sources : ([.vredFmin 4 5, .vvoteAny 4 5, .vscan 4 5 0 8, .vqxMax 4 5, .vbcst 4 5 1, .vrot 4 5 7,
    .vqxSwap 4 5 1, .vqxBcst 4 5 1, .vshfl 4 5 6, .vrediMin 4 5] : List Instr).all (fun i =>
      meets i spoiled fun c => c.g.poison.contains (.v c.n2, 1)) = true := by decide +kernel

theorem witness_no_contributor : ∃ c, Issues (.vbcstFirst 4 5) (grp (fun g => g.setP 0 0) base) c ∧ (c.mask == 0) = true :=
  witness (by decide +kernel)

/-- The terms of a VDOT of four pairs, no more than a group of each contract takes. -/
theorem witness_dot_terms : let f : Fmt := ⟨8, 23, 127, .ieee⟩
    let ts : List Val := [.fin false 1 0, .fin false 1 (-24), .fin false 3 (-26), .inf true]
    (f.val 0).isNan = false ∧ (ts.all fun t => !t.isNan) = true ∧ ts.length ≤ 4 := by decide +kernel

/-- Every lane names itself alone, or a lane outside C. -/
theorem witness_members : (∃ c, Issues (.vvotem 4 5 1 0) (vec 5 (fun l => 1#64 <<< l) base) c
      ∧ (c.g.getV c.n2 31 == 0x80000000) = true)
    ∧ ∃ c, Issues (.vvotem 4 5 1 0) (vec 5 (fun _ => 1) base) c ∧ (c.g.getV c.n2 31 == 1) = true :=
  ⟨witness (by decide +kernel), witness (by decide +kernel)⟩

/-! ## Accesses -/

/-- An answer without a fault. -/
def fine {α β : Type} (r : Except α β) : Bool :=
  match r with
  | .ok _ => true
  | .error _ => false

/-- The cause of the fault of an access. -/
def causeOf {β : Type} (r : Except AccFault β) : BitVec 8 :=
  match r with
  | .ok _ => 0
  | .error f => f.cause

/-- The last byte of shared memory may be loaded, the byte after it may not, and a misaligned halfword neither (R165, R166). -/
theorem witness_scalar_load : (∃ c, Issues (.sld 4 5 0 0 0) (regs 5 [4095] base) c
      ∧ fine (base.checkAcc c.k c.h 0 1 4095 true false) = true)
    ∧ (∃ c, Issues (.sld 4 5 0 0 0) (regs 5 [4096] base) c ∧ (causeOf (base.checkAcc c.k c.h 0 1 4096 true false) == 0x06) = true)
    ∧ ∃ c, Issues (.sld 4 5 0 0 1) (regs 5 [4095] base) c
      ∧ (causeOf (base.checkAcc c.k c.h 0 2 4095 true false) == 0x05) = true :=
  ⟨witness (by decide +kernel), witness (by decide +kernel), witness (by decide +kernel)⟩

/-- Sixteen bytes at the end of shared memory. -/
theorem witness_wide_store : ∃ c, Issues (.sst 4 5 0 4) (regs 5 [4080] base) c
    ∧ fine (base.checkAcc c.k c.h 0 16 4080 false true) = true := witness (by decide +kernel)

/-- A cas that succeeds and one that fails: memory holds 0. -/
theorem witness_atomics : (∃ c, Issues (.satom 4 5 0 1 1 8) base c ∧ (atomicResult true 8 64 0 0 7 == some 7) = true)
    ∧ ∃ c, Issues (.satom 4 5 0 1 1 8) (regs 4 [1] base) c ∧ (atomicResult true 8 64 0 1 7 == none) = true :=
  ⟨witness (by decide +kernel), witness (by decide +kernel)⟩

/-- Lanes at addresses of their own, and lane 3 outside shared memory. -/
theorem witness_vector_access : (∃ c, Issues (.st 4 5 0 2) (vec 5 (fun l => BitVec.ofNat 64 (4 * l)) base) c
      ∧ ((List.range 32).all fun l => fine (laneAccess base c 0 4 false true l)) = true)
    ∧ (∃ c, Issues (.ld 4 5 0 0 2) (vec 5 (fun l => if l = 3 then 4096 else 0) base) c
      ∧ (causeOf (laneAccess base c 0 4 true false 3) == 0x06 && fine (laneAccess base c 0 4 true false 4)) = true)
    ∧ ∃ c, Issues (.atom 4 5 0 1 0 0) (vec 5 (fun _ => 8) base) c
      ∧ ((List.range 32).all fun l => fine (laneAccess base c 0 4 true true l)) = true :=
  ⟨witness (by decide +kernel), witness (by decide +kernel), witness (by decide +kernel)⟩

/-- Slot 15 is the stack's last, slot 16 is none; a poisoned slot. -/
theorem witness_stack : (∃ c, Issues (.stk 4 15) base c ∧ (c.h.stack == 16) = true)
    ∧ (∃ c, Issues (.ldk 4 16) base c ∧ (c.h.stack == 16) = true)
    ∧ ∃ c, Issues (.ldk 4 3) (blk (fun k => { k with stackBad := [(0, 96)] }) base) c ∧ c.k.stackBad.contains (0, 96) = true :=
  ⟨witness (by decide +kernel), witness (by decide +kernel), witness (by decide +kernel)⟩

/-- No range, a range that a window covers, and one that starts where no window ends. -/
theorem witness_invalidation : (∃ c, Issues (.icinv 5 6) base c ∧ (c.g.getS c.n2 == 0) = true)
    ∧ (∃ c, Issues (.icinv 5 6) (regs 5 [0x40, 64] base) c ∧ fine (base.vaPieces 0 0 0x40 64) = true)
    ∧ ∃ c, Issues (.icinv 5 6) (regs 5 [0x200000, 1] base) c ∧ (!fine (base.vaPieces 0 0 0x200000 1)) = true :=
  ⟨witness (by decide +kernel), witness (by decide +kernel), witness (by decide +kernel)⟩

/-- A hit pass whose accesses are performed later: a load, a store and an atomic in it; and a load that has still to land. -/
def inLatePass (s : State) : State :=
  grp (fun g => { g with split := some ⟨0x40, 2, none, 0x48, 7, 0xFFFFFFFE, 1, .hit, true⟩ }) s

theorem witness_late_accesses : ([.ld 4 5 0 0 2, .st 4 5 0 2, .atom 4 5 0 1 0 0] : List Instr).all (fun i =>
      meets i (inLatePass base) fun c => c.g.postpones && (List.range 32).all fun l => fine (laneAccess base c 0 4 true true l)) = true
    ∧ (let s := grp (fun g => { g with posted := [⟨7, .ld false, 4, 4, false, [(0, some (.shared 8), 0, 0)]⟩] }) base
      (s.group 1 0).map fun g => (g.posted.length, g.pend.length)) = some (1, 0)
    ∧ (let s := { grp (fun g => { g with posted := [⟨7, .ld false, 4, 4, false, [(0, some (.shared 8), 0, 0)]⟩] })
          (State.reset.withFetchWord 32 0x80000000) with schedule := [.issue 0 0] }
      (s.schedule, (({ s.l2Sync with schedule := [] } : State).tryOrder 0 0).map fun x => x.2.2.posted.length)) = ([.issue 0 0], [1]) := by
  decide +kernel

/-- Windows of a pad and of a peer beside that of HBM, and 64 KiB of the core's pad. -/
def spaces (s : State) : State :=
  { s with
    windows := (s.windows.put (winKey 0 0 1) ⟨0x40000000, 0x10000, 2 ^ 51, 0x32⟩).put (winKey 0 0 2) ⟨0x80000000, 0x10000, 0, 0x34⟩
    cores := s.cores.put 0 { CoreSt.reset with dvsize := 16, almValid := true } }

/-- An access of each way out: misaligned, beyond shared memory and beyond the constants, in no window, in a window of another
kind, of a page without R, poisoned, and one that is in order at the last place of its space. -/
theorem witness_access_checks : let at_ (s : State) (p n va : Nat) (w : Bool) := causeOf (s.checkAcc (bootBlock 1) bootHeader p n va true w)
    (at_ base 0 4 2 false = 0x05 ∧ at_ base 0 4 4096 false = 0x06 ∧ fine (base.checkAcc (bootBlock 1) bootHeader 0 4 4092 true false) = true)
    ∧ (at_ base 2 4 0 false = 0x06 ∧ fine (base.checkAcc (bootBlock 1) { bootHeader with constSize := 8 } 2 4 4 true false) = true)
    ∧ (match base.checkAcc { bootBlock 1 with sharedBad := [1] } bootHeader 0 16 0 true false with
        | .error f => (f.cause, f.addr)
        | .ok _ => (0, 0)) = (0x14, 8)
    ∧ (at_ base 1 4 0x200000 false = 0x07 ∧ at_ base 1 4 0x100 false = 0x08)
    ∧ (fine ((spaces base).checkAcc (bootBlock 1) bootHeader 1 4 0x40000000 true true) = true)
    ∧ at_ ((spaces base).modCore 0 fun k => { k with padattr := 2 }) 1 4 0x40000000 false = 0x0A := by decide +kernel

/-! ## Special registers -/

/-- Each index of the table is that of a register; 0x013 and 0xFFF name none. -/
theorem witness_special_reads : ([0x000, 0x001, 0x002, 0x003, 0x004, 0x005, 0x006, 0x007, 0x008, 0x009, 0x00A, 0x00B, 0x00C, 0x00D,
    0x00E, 0x00F, 0x010, 0x011, 0x012, 0x83F, 0x8F0, 0x8F1, 0x901, 0x902, 0xD01] : List (BitVec 12)).all
      (fun n => meets (.srd 4 n) base fun c => (c.special base n.toNat).isSome) = true
    ∧ ([0x013, 0x840, 0xFFF] : List (BitVec 12)).all (fun n =>
      meets (.srd 4 n) base fun c => (c.special base n.toNat).isNone) = true := by decide +kernel

theorem witness_special_writes : ([0x000, 0x009, 0x00A, 0x00D, 0x012, 0x803, 0x83E, 0x8F0, 0x8F1, 0x902, 0xA00, 0xA0B,
    0xB00, 0xB0D, 0xB40, 0xB42, 0xB43, 0xC00, 0xC02, 0xC03, 0xC04, 0xD00, 0xD01, 0x900]
    : List (BitVec 12)).all (fun n => meets (.swr 4 n) base fun _ => true) = true := by decide +kernel

theorem witness_windows : (base.window 0 0 0).kind = 1 ∧ (base.window 0 0 1).kind = 0 ∧ base.occupied 0 = true
    ∧ base.occupied 1 = false ∧ (base.quadsOf 0)[0]? = some 0 := by decide +kernel

/-! ## Barriers -/

/-- A handle of the object at offset 16 of shared memory in s6, the phase 1 in s5. -/
def barred (phase : U64) (s : State) : State := regs 5 [phase, 0x8000000000000010] s

theorem witness_barriers : (∃ c, Issues (.bararr 5 6) (barred 0 base) c ∧ fine (base.handle c.k c.h (c.g.getS c.n3)) = true)
    ∧ (∃ c, Issues (.barwait 5 6) (barred 1 base) c ∧ ((BarObj.of (base.barGet (.shared 1 16))).phase == 0) = true)
    ∧ (∃ c, Issues (.barwait 5 6) (barred 0 base) c ∧ (c.g.deferred.isEmpty && !(BarObj.of (base.barGet (.shared 1 16))).error) = true)
    ∧ ∃ c, Issues (.bartry 5 6) base c ∧ (causeOf (base.handle c.k c.h (c.g.getS c.n3)) == 0x06) = true :=
  ⟨witness (by decide +kernel), witness (by decide +kernel), witness (by decide +kernel), witness (by decide +kernel)⟩

/-- 65535 arrivals are the most, 65536 is ILLEGAL. -/
theorem witness_expected_count : (∃ c, Issues (.barinit 5 6) (regs 5 [0x8000000000000010, 0xFFFF] base) c
      ∧ ((c.g.getS c.n3).toNat == 0xFFFF && fine (base.handle c.k c.h (c.g.getS c.n2))) = true)
    ∧ ∃ c, Issues (.barinit 5 6) (regs 5 [0x8000000000000010, 0x10000] base) c ∧ ((c.g.getS c.n3).toNat == 0x10000) = true :=
  ⟨witness (by decide +kernel), witness (by decide +kernel)⟩

/-- One arrival of two, the last one, one too many, and bytes at the end of their range. -/
theorem test_arrivals : (BarObj.mk false 7 0 2 2 0).arrive true 0 = ⟨false, 7, 0, 1, 2, 0⟩
    ∧ (BarObj.mk false 0xFFFFFFFF 0 1 2 0).arrive true 0 = ⟨false, 0, 0, 2, 2, 0⟩
    ∧ ((BarObj.mk false 7 5 0 2 0).arrive true 0).error = true
    ∧ ((BarObj.mk false 7 0x7FFFFFFF 1 2 0).arrive false 1).error = true := by decide +kernel

/-- A second group of the block that waits, or runs. -/
def paired (p : Park) (s : State) : State :=
  blk (fun k => { k with groups := k.groups ++ [(1, { Group.fresh 0 1 1 0x40 false 0xFFFFFFFF with park := p })] }) s

theorem witness_block_barrier : (∃ c, Issues .bsync (paired (.bsync 0) base) c ∧ (c.k.groups.length == 2) = true)
    ∧ (∃ c, Issues .csync (paired .run base) c ∧ (c.k.gen == 0) = true)
    ∧ ∃ c, Issues .bsync (blk (fun k => { k with cores := [0, 1] }) base) c ∧ (c.k.cores.length == 2) = true :=
  ⟨witness (by decide +kernel), witness (by decide +kernel), witness (by decide +kernel)⟩

/-! ## Copies -/

/-- The descriptor of a copy of `n` 32-bit elements in s6 to s29. -/
def described (src dst ctl : U64) (n : Nat) (s : State) : State :=
  regs 6 [src, dst, ctl, 0, BitVec.ofNat 64 n, 0, 0, 0, 4, 0, 0, 0, 0, 0, 0, 0, 4] (spaces s)

/-- One element, none, and too many for the operation's count of bytes. -/
theorem witness_copies : [1, 0].all (fun n => meets (.cpt 5 6) (described 0x8000000000000000 0x8000000000000040 0x1F11 n base)
      fun c => (copyFault .cpt (spaces base) c).isNone && fine (copyBarrier (spaces base) c)) = true
    ∧ meets (.rld 5 6) (described 0x80000000 0x8000000000000000 0x1F11 1 base) (fun c =>
      (copyFault .rld (spaces base) c).isNone) = true
    ∧ meets (.rst 5 6) (described 0x8000000000000000 0x80000000 0x1F11 1 base) (fun c =>
      (copyFault .rst (spaces base) c).isNone) = true
    ∧ meets (.rred 5 6) (described 0x8000000000000000 0x80000000 0x1F11 1 base) (fun c =>
      (copyFault .rred (spaces base) c).isNone) = true
    ∧ meets (.cpred 5 6) (described 0x8000000000000000 0x8000000000000040 0x1F02 1 base) (fun c =>
      (copyFault .cpred (spaces base) c).isNone) = true := by decide +kernel

/-- A CPM whose channel is new, and one whose channel has a slot in use. -/
def multicast (s : State) : State := described 0x8000000000000000 0x40000000 0x00011001_00001F11 1 s

theorem witness_multicast : meets (.cpm 5 6) (multicast base) (fun c =>
      (copyFault .cpm (spaces base) c).isNone && !(spaces base).channelTaken 0 1 1) = true
    ∧ meets (.cpm 5 6) (multicast (blk (fun k => { k with channels := [(1, [(0, (1, 1))])] }) base)) (fun c =>
      (copyFault .cpm (spaces base) c).isNone && (c.k.channel 1 1 [0]).find 0 == some (1, 1)) = true := by decide +kernel

/-- The group of a state is not parked and is paced to issue: its word waits for its engine alone. -/
def unparked (i : Instr) (s : State) : Bool :=
  match s.curGroup with
  | some (k, g) =>
    let r := readOperands i s g
    (replayPark i s.mark (s.hdr k).checked r.reads r.pass g).isNone && (wordFault i s k g).isNone && mustStall i s k g r
  | none => false

/-- What its engine is not ready for: a channel without a slot, four replay records, a full queue, rows that are on their way,
operations before it that have gathered their rows, and 1,024 grids. -/
theorem witness_engine_readiness :
    unparked (.cpm 5 6) (multicast (blk (fun k => { k with channels := [(1, [(0, (0, 1))])] }) base)) = true
    ∧ unparked (.cps 5 6) (grp (fun g => { g with replay := (List.range 4).map fun n => (n, ⟨9, 1, 0, 1, false⟩) }) base) = true
    ∧ unparked .mxrel (held 8 base) = true
    ∧ unparked (.mxmma 1 1 7 0 0) (grp (fun g => { g with gather := some ⟨1, 0, 0x40, false, []⟩ }) (held 0 base)) = true
    ∧ unparked (.mxmma 1 1 7 0 0) (blk (fun k => { k with abaci := [(0, { k.abacus 0 with
        holder := some 0, queue := [⟨0, 0, .mma 0 0 false []⟩] })] }) base) = true
    ∧ unparked (.spawn 4 5) { base with grids := (List.range 1024).map fun n => (n + 2, { bootGrid 1 with next := 0 }) } = true := by
  decide +kernel

theorem witness_copy_faults : (∃ c, Issues (.cpt 5 6) (described 0 0 0x1F1A 1 base) c ∧ (copyFault .cpt (spaces base) c).isSome = true)
    ∧ ∃ c, Issues (.cpt 5 6) (blk (fun k => { k with grid := 9 }) base) c ∧ (copyFault .cpt base c == some (0x0C, 0)) = true :=
  ⟨witness (by decide +kernel), witness (by decide +kernel)⟩

/-- Lane copies: every lane fine; lane 2 misaligned; lane 2 unmapped; three records held. -/
theorem witness_lane_copies : [.cpg 5 6, .cps 5 6].all (fun i => meets i (vec 6 (fun l => BitVec.ofNat 64 (4 * l)) base) fun c =>
      (List.range 32).all fun l => (base.mapVa 0 0 (c.g.getV c.n3 l).toNat).isSome) = true
    ∧ meets (.cpg 5 6) (vec 6 (fun l => if l = 2 then 2 else 0) base) (fun c => c.gid == c.h.producer) = true
    ∧ meets (.cps 5 6) (vec 6 (fun l => if l = 2 then 0x200000 else 0) base) (fun c =>
        (base.mapVa 0 0 (c.g.getV c.n3 2).toNat).isNone) = true
    ∧ meets (.cps 5 6) (grp (fun g => { g with replay := (List.range 3).map fun n => (n, ⟨9, 1, 0, 1, false⟩) }) base) (fun c =>
        c.g.replay.length == 3) = true := by decide +kernel

theorem witness_slot_return : (∃ c, Issues (.slotret 5 6) (regs 5 [15, 63] base) c ∧ ((c.g.getS c.n3).toNat == 63) = true)
    ∧ (∃ c, Issues (.slotret 5 6) (regs 5 [16, 1] base) c ∧ ((c.g.getS c.n2).toNat == 16) = true)
    ∧ ∃ c, Issues .cpcan base c ∧ (c.gid == c.h.producer) = true :=
  ⟨witness (by decide +kernel), witness (by decide +kernel), witness (by decide +kernel)⟩

/-! ## The abacus -/

/-- Not held; held with a queue that has room. -/
theorem witness_abacus : (∃ c, Issues .mxrel base c ∧ ((abacus c).holder == none) = true)
    ∧ (∃ c, Issues .mxrel (held 7 base) c ∧ ((abacus c).holder == some c.gid && (abacus c).queue.length == 7) = true)
    ∧ ∃ c, Issues (.mxacq 14) base c ∧ ((abacus c).holder == none && !(abacus c).relPend) = true :=
  ⟨witness (by decide +kernel), witness (by decide +kernel), witness (by decide +kernel)⟩

theorem witness_abacus_images : meets (.mxldw 5 1) (regs 5 [0x40000000] (held 0 (spaces base))) (fun c =>
      fine (imageAt (spaces base) c 18432 true false)) = true
    ∧ meets (.spaff 5) (regs 5 [0x8000000000000000] (held 0 base)) (fun c => fine (imageAt base c 1152 true false)) = true
    ∧ meets (.spstc 5) (regs 5 [0x10] (held 0 base)) (fun c => causeOf (imageAt base c 294912 false true) == 0x05) = true
    ∧ meets (.mxzero 5) (regs 5 [0xFFFFFFFF] (held 0 base)) (fun _ => true) = true
    ∧ meets (.mxzero 5) (regs 5 [0x100000000] (held 0 base)) (fun _ => true) = true := by decide +kernel

/-- Formats: F16 by F16 to F32 without sparsity; a reserved bit. Knots: an interval of 1 to 14; none. -/
theorem witness_abacus_settings : meets (.mxfmt 5) (regs 5 [0x1212] (held 0 base)) (fun c => contractAllows c.eff 0x12) = true
    ∧ meets (.mxfmt 5) (regs 5 [0x1001212] (held 0 base)) (fun _ => true) = true
    ∧ meets (.spknot 5) (regs 5 [0x3F80000000000000, 1] (held 0 base)) (fun c =>
        (knotOf (c.g.getS 5).toNat (c.g.getS 6).toNat (c.g.getS 7).toNat).isSome) = true
    ∧ meets (.spknot 5) (held 0 base) (fun c => (knotOf (c.g.getS 5).toNat 0 0).isNone) = true
    ∧ meets (.spcnt 4 5) (regs 5 [143] (held 0 base)) (fun _ => true) = true
    ∧ meets (.spcnt 4 5) (regs 5 [144] (held 0 base)) (fun _ => true) = true
    ∧ meets (.spgrad 5) (regs 5 [0, 0x400000, 0] (held 0 base)) (fun _ => true) = true
    ∧ meets (.spdx 5) (regs 5 [0x8000000000000000, 4 * 2 ^ 32] (held 0 base)) (fun c =>
        fine (base.checkDesc c.k c.h c.blk 0x8000000000000000 828 false true)) = true
    ∧ meets .spref (held 0 base) (fun _ => true) = true := by decide +kernel

/-- Rows that have been gathered, and rows that have not. -/
theorem witness_abacus_data : meets (.mxmma 1 1 7 0 0)
      (grp (fun g => { g with gather := some ⟨1, 0, 0x40, true, []⟩ }) (held 0 base)) (fun c => c.g.gather.isSome) = true
    ∧ meets (.mxmma 1 1 7 0 0) (held 0 base) (fun c => c.g.gather.isNone) = true
    ∧ meets (.speval 7 1 1) (grp (fun g => { g with gather := some ⟨1, 0, 0x40, true, []⟩ }) (held 0 base)) (fun c =>
        (abacus c).queue.isEmpty) = true
    ∧ [0, 1].all (fun n => meets (.mxrd 4 15 63) (held n base) fun c => (abacus c).queue.length == n) = true
    ∧ meets (.mxst 5) (regs 5 [0x8000000000000000, 0x1F00] (held 0 base)) (fun c => (c.mask &&& c.g.live) == 0xFFFFFFFF) = true
    ∧ meets (.mxst 5) (regs 5 [0, 0x1600] (held 0 base)) (fun _ => true) = true := by decide +kernel

/-! ## Schedules, launches, collectives -/

/-- A dispenser of four atoms, whose first is claimed under handle 5. -/
def dispenser : Disp :=
  { die := 0, slotOk := true, order := 0xE4, tile := 0x0001000100010001, place := 1, season := 0, ext := [4, 1, 1, 1],
    atom := [1, 1, 1, 1], hold := false, cursor := 0, nextH := 6, handles := [(5, ⟨1, [(0, 0)], [0], false⟩)], done := [], mapLoc := 0x1000,
    zeroed := 2, wait := [], pending := [], later := [] }

/-- The grid of the issuing group has that dispenser. -/
def tiled (f : Disp → Disp) (s : State) : State :=
  { s with grids := s.grids.mapVal fun _ g => { g with disp := some (f dispenser) } }

theorem witness_schedule : ([.tnext 4, .tstat 4, .schcom 4, .schr 4 0 14, .covr 4 5, .schw 5 14] : List Instr).all (fun i =>
      meets i (tiled id base) fun c => c.gid == c.h.tuner && schOk 14 (c.g.getS 5)) = true
    ∧ [.tdone 5 6, .trel 5 6].all (fun i => meets i (regs 5 [5, 1] (tiled id base)) fun c =>
        dispenser.handles.find (c.g.getS c.n2).toNat == some ⟨1, [(0, 0)], [0], false⟩) = true
    ∧ [.tdone 5 6, .trel 5 6].all (fun i => meets i (regs 5 [4, 1] (tiled id base)) fun c =>
        dispenser.handles.find (c.g.getS c.n2).toNat == none) = true
    ∧ meets (.schw 5 14) (regs 5 [2] (tiled id base)) (fun c => !schOk 14 (c.g.getS 5)) = true
    ∧ meets (.tnext 4) (tiled (fun d => { d with hold := true }) base) (fun _ => true) = true
    ∧ meets (.tnext 4) (tiled (fun d => { d with place := 0 }) base) (fun _ => true) = true
    ∧ meets (.tnext 4) base (fun c => ((base.gridOf c.k).bind Grid.disp).isNone) = true := by decide +kernel

/-- The map of that dispenser as it wrote it: atom 0 claimed, the others free. -/
def mapped : State := tiled (fun d => { d with mapLoc := 0x3000 }) { base with mem := Memory.set base.mem 0x3000 1 }

theorem witness_map : MapAgrees mapped 0 { dispenser with mapLoc := 0x3000 } := by
  refine ⟨rfl, fun a h => ?_⟩
  have h : a < 4 := h
  match a, h with
  | 0, _ => exact ⟨0x3000, ⟨by decide +kernel, ⟨0, none, 0x3000, by decide +kernel⟩, 0, some 0x1000, 0x3000, by decide +kernel⟩, by decide +kernel⟩
  | 1, _ => exact ⟨0x3000, ⟨by decide +kernel, ⟨0, none, 0x3000, by decide +kernel⟩, 0, some 0x1000, 0x3000, by decide +kernel⟩, by decide +kernel⟩
  | 2, _ => exact ⟨0x3000, ⟨by decide +kernel, ⟨0, none, 0x3000, by decide +kernel⟩, 0, some 0x1000, 0x3000, by decide +kernel⟩, by decide +kernel⟩
  | 3, _ => exact ⟨0x3000, ⟨by decide +kernel, ⟨0, none, 0x3000, by decide +kernel⟩, 0, some 0x1000, 0x3000, by decide +kernel⟩, by decide +kernel⟩

/-- TNEXT with three atoms free, the first tile full; with none free; with 16 live handles. -/
theorem witness_tiles : meets (.tnext 4) mapped (fun c => (mapped.gridOf c.k).any fun g => g.failed.isNone && !mapped.held (mapTag c.k.grid)) = true
    ∧ dispenser.counts.2.1 = 3 ∧ dispenser.tileCount = 4 ∧ (dispenser.tileAtoms 0).map dispenser.codeOf = [1]
    ∧ (dispenser.tileAtoms 1).map dispenser.codeOf = [0]
    ∧ ({ dispenser with done := [0, 1, 2, 3], handles := [] } : Disp).counts.2.1 = 0
    ∧ ((List.range 4).map dispenser.slot).Perm [0, 1, 2, 3]
    ∧ (({ dispenser with handles := (List.range 16).map fun n => (n + 1, ⟨1, [], [], false⟩) } : Disp).handles.filter fun h => h.2.blk == 1).length = 16 := by
  decide +kernel

/-- A record in shared memory; an address between records; a grid at depth 15; a full tree. -/
theorem witness_spawn : meets (.spawn 4 5) (regs 5 [0x8000000000000000] base) (fun c => base.unplacedGrids 0 < 1024
      && fine (base.spawnRead c 0x8000000000000000).1) = true
    ∧ meets (.spawn 4 5) (regs 5 [0x8000000000000020] base) (fun c => !fine (base.spawnRead c 0x8000000000000020).1) = true
    ∧ meets (.spawn 4 5) { base with grids := base.grids.mapVal fun _ g => { g with depth := 15 } } (fun _ => true) = true
    ∧ meets (.spawn 4 5) { base with trees := base.trees.mapVal fun _ t => { t with counter := 65535 } } (fun _ => true) = true := by
  decide +kernel

/-- An open communicator of two members, whose carry grid is that of the issuing group. -/
def comm : Comm :=
  { part := 0, handle := 0, seq := 0, rank := 0, contract := 4, state := 2, members := [0, 0x10000000000008], count := 2, msgs := [],
    perDie := 1, cores := [], grid := some 1, table := 0, record := 0, word := 0, ctx := 0, lane := 0, since := 0, told := true,
    closing := false, early := [] }

/-- COLL's descriptor: an all-reduce of one F32 element from 0x1000 to 0x2000. -/
def collective (s : State) : State := regs 6 [0, 0, 0x11, 1, 0x1000, 0x2000, 0, 0] s

theorem witness_collectives : meets (.coll 5 6) (collective base) (fun c => (collFault base c).isNone
      && fine (collPlaces base c).1 && fine (collPlaces base c).2) = true
    ∧ meets (.coll 5 6) (collective { base with comms := [(0, { comm with contract := 3 })] }) (fun c =>
        (collFault { base with comms := [(0, { comm with contract := 3 })] } c).isNone && c.eff != 3) = true
    ∧ meets (.coll 5 6) (regs 6 [0, 0, 0x11, 0] base) (fun c => collFault base c == some (0x01, c.word.setWidth 64)) = true
    ∧ [1, 64].all (fun q => meets (.arqpop 4 5) (regs 5 [BitVec.ofNat 64 q] base) fun _ => true) = true
    ∧ [0, 65].all (fun q => meets (.arqpop 4 5) (regs 5 [BitVec.ofNat 64 q] base) fun _ => true) = true := by decide +kernel

/-- A step of that communicator, popped or not. -/
def carryStep (popped : Bool) : Step := ⟨1, 0, 0, 0, 0x1000, 0x2000, 0x11, 4, (0, 4), popped, [], [], false, false⟩

theorem witness_carry_steps : [false, true].all (fun p => meets (.steppop 4 5) { base with comms := [(0, comm)], steps := [(3, carryStep p)] }
      fun c => (c.carries { base with comms := [(0, comm)] } 0).isSome) = true
    ∧ [false, true].all (fun p => meets (.stepdone 5 6) (regs 5 [0, 3] { base with comms := [(0, comm)], steps := [(3, carryStep p)] })
      fun c => (c.carries { base with comms := [(0, comm)] } 0).isSome) = true
    ∧ meets (.steppop 4 5) base (fun c => (c.carries base 0).isNone) = true := by decide +kernel

/-! ## Steps of the device

Each witness gives the state and what the statement assumes of it. -/

/-- The arguments of a step. -/
def args (l : List Nat) (s : State) : State := { s with args := l }

/-- A prefix and a refused word meet a group whose pace allows it; the words of R22 to R28 on both sides of the prefixes. -/
theorem witness_prefixes : base.cur = some (1, 0) ∧ base.curGroup.isSome = true
    ∧ (base.curGroup.map fun k => (k.2.nextAt.toNat ≤ base.cycle.toNat : Bool)) = some true
    ∧ ((args [0x01000001] base).arg 0 / 2 ^ 24 % 128 = 1) ∧ ((args [0x06000000] base).arg 0 / 2 ^ 24 % 128 = 6)
    ∧ ((args [0x07FFFFFF] base).arg 0 / 2 ^ 24 % 128 = 7) := by decide +kernel

/-- Each park, in a resident group of a block. -/
theorem witness_parks : ([.sMark, .yieldNow, .yieldReg 5, .yieldOc .cp 0, .yieldSleep 0, .yieldSleep 1, .waitc .cp 0,
    .barwait 5 (.shared 1 16) 1 false, .barwait 5 (.shared 1 16) 0 false, .icinv [(0x40, 64)], .exiting] : List Park).all (fun p =>
      let s := args [1, 0] (grp (fun g => { g with park := p }) base)
      ((s.resident (s.arg 0) (s.arg 1)).map Group.park) == some p) = true := by decide +kernel

/-- What keeps a park from ending: an outstanding result, and a class counter above its limit. -/
theorem witness_parks_that_last : (let s := grp (fun g => { g with park := .sMark, pend := [⟨7, .s 5, 0xFFFFFFFF, 0, 0⟩] }) base
      (s.resident 1 0).map fun g => (g.pend.length, g.pending (.s 5))) = some (1, 0xFFFFFFFF)
    ∧ (let s := grp (fun g => { g with park := .waitc .cp 3, oc := ⟨4, 0, 0, 0, 0⟩ }) base
      (s.resident 1 0).map fun g => g.oc.get .cp) = some 4 := by decide +kernel

/-- A deferred condition of the class that a WAITC covers. -/
theorem witness_deferred : (let s := grp (fun g => { g with park := .waitc .cp 0, issued := ⟨1, 0, 0, 0, 0⟩,
                                                            deferred := [⟨0x0B, 0x1000, .cp, 1, 9, none, none, false⟩] }) base
      (s.resident 1 0).bind fun g => (observe g (g.olderThan .cp 0)).1) = some (0x0B, 0x1000) := by decide +kernel

/-- A region whose miss pass is due, and a low-class group at 63 and at 64 cycles. -/
theorem witness_regions_and_classes : (let s := grp (fun g =>
        { g with park := .splitMiss, split := some ⟨0x40, 2, none, 0x48, 7, 1, 2, .hit, false⟩ }) base
      (s.resident 1 0).map fun g => g.split.isSome) = some true
    ∧ [63, 64].all (fun n => ((grp (fun g => { g with high := false, stood := n }) base).resident 1 0).map Group.stood == some n) = true := by
  decide +kernel

/-- The last group of a block, and one of two. -/
theorem witness_exit : (let s := grp (fun g => { g with park := .exiting }) base
      (s.block 1).map fun k => k.groups.map fun g => (g.2.park, g.2.pend.isEmpty, g.2.oc)) =
        some [(.exiting, true, ⟨0, 0, 0, 0, 0⟩)]
    ∧ (let s := paired .run (grp (fun g => { g with park := .exiting }) base)
      (s.block 1).map fun k => k.groups.length) = some 2 := by decide +kernel

/-! ### Engines -/

/-- A copy of one F32 element within shared memory. -/
def oneElement : Copy := ⟨.cpt, 0x1F11, [1], 0x8000000000000000, .shared 1 0, [4], 0x8000000000000040, .shared 1 0x40, [4], 0⟩

/-- An operation of the issuing group. -/
def operation (k : OpKind) (todo : List Nat) (done : Bool) : EngOp :=
  { blk := 1, gid := 0, cls := .cp, seq := 1, status := some 5, kind := k, barrier := none, planned := 4, todo := todo, fixups := [],
    fixed := 0, waiting := [], denied := 0, code := 0, written := 8, started := false, finished := done, stamp := none, told := [] }

/-- The machine with one operation, which the step names. -/
def engaged (o : EngOp) : State := args [7, 0] { grp (fun g => { g with oc := ⟨1, 0, 0, 0, 0⟩ }) base with ops := [(7, o)] }

theorem witness_signalling : (let o := operation (.copy oneElement) [] true
      let s := engaged o
      (s.ops.find (s.arg 0) == some o && o.finished && !s.held 7 && !s.olderOp o && (s.group o.blk o.gid).isSome)) = true
    ∧ (operation (.copy oneElement) [] false).finished = false := by decide +kernel

/-- A finished operation behind an older one of its class. -/
theorem witness_signalling_order : (let o := { operation (.copy oneElement) [] true with seq := 2 }
    let s := { engaged o with ops := [(6, operation (.copy oneElement) [0] false), (7, o)] }
    s.olderOp o) = true := by decide +kernel

theorem witness_segments : (let o := operation (.copy oneElement) [0] false
      let s := engaged o
      ((s.ops.find (s.arg 0) == some o) && o.todo.contains (s.arg 1) && !s.held 7 && (oneElement.blockOf [0] == 0)
        && oneElement.same && (s.block 1).isSome && (s.segment 0 oneElement 0).1.length == 1)) = true
    ∧ (let o := { operation (.copy oneElement) [] false with fixups := [0] }
      o.fixups.head? == some ((engaged o).arg 1)) = true := by decide +kernel

/-- A segment with a denied destination, and one with a denied source. -/
theorem witness_segments_refused : (let c := { oneElement with dst := .ia (2 ^ 50) }
      ((engaged (operation (.copy c) [0] false)).segment 0 c 0).1.any fun e => e.dst.any fun d => d.2.1.denied) = true
    ∧ (let c := { oneElement with src := .ia (2 ^ 50) }
      ((engaged (operation (.copy c) [0] false)).segment 0 c 0).1.any fun e => e.src.denied) = true := by
  decide +kernel

/-- A lane copy that waits for its verdicts: one lane, whose page is present; and one whose page no quadrant owns. -/
def laneOp (ia : Nat) : LaneCopy := ⟨false, 0x7F110506, 5, 4, [(0, ia, 0x100, 0)], 1, true, 1, [], false, [], [], [], []⟩

def asking (ia : Nat) : State := args [7] { grp (fun g => { g with park := .verdict 7 }) base with
  ops := [(7, operation (.lane (laneOp ia)) [] false)] }

theorem witness_verdicts : (let s := asking 0x100
      let r := (s.verdicts 0 (laneOp 0x100) (laneOp 0x100).lanes).1
      (s.ops.find (s.arg 0)).isSome && (decodeWord (laneOp 0x100).word).toOption.isSome
        && ((s.resident 1 0).map Group.park == some (.verdict 7)) && r.all fun y => !y.out && !y.tgt.denied && !y.tgt.waits) = true
    ∧ ((asking (2 ^ 50)).verdicts 0 (laneOp (2 ^ 50)) (laneOp (2 ^ 50)).lanes).1.any (fun y => y.tgt.denied) = true
    ∧ ((asking (2 ^ 51)).verdicts 0 (laneOp (2 ^ 51)) (laneOp (2 ^ 51)).lanes).1.any (fun y => y.out) = true := by decide +kernel

/-- A replay record of that lane copy, which the release names. -/
theorem witness_release : (let s := args [0, 0, 0] { grp (fun g => { g with replay := [(0, ⟨7, 1, 0x100, 1, false⟩)], park := .replay 0 }) base with
      ops := [(7, operation (.lane (laneOp 0x100)) [] false)] }
    (s.resident 1 0).map fun g => (g.core, g.slot, (g.replay.find 0).isSome)) = some (0, 0, true)
    ∧ NamedBy base 0 0 0 1 0 (bootBlock 1) (Group.fresh 0 0 0 0x40 false 0xFFFFFFFF) := by
  refine ⟨by decide +kernel, rfl, rfl, rfl, rfl, rfl, rfl, ?_⟩
  intro x hx _ _ y hy _ _
  have hb : base.blocks = [(1, bootBlock 1)] := rfl
  rw [hb, List.mem_singleton] at hx
  subst hx
  have hg : (bootBlock 1).groups = [(0, Group.fresh 0 0 0 0x40 false 0xFFFFFFFF)] := rfl
  rw [hg, List.mem_singleton] at hy
  subst hy
  exact ⟨rfl, rfl⟩

/-- A copy of two F32 elements within shared memory, with every place in order; an RLD from memory. -/
def twoElements : Copy := { oneElement with ext := [2], sst := [4], dstr := [8] }

theorem witness_moved_elements : (let s := engaged (operation (.copy twoElements) [0] false)
      let es := (s.segment 0 twoElements 0).1
      (es.map fun e => (e.src, e.dst.map fun d => d.2.1))
          == [(.shared 1 0, [.shared 1 0x40]), (.shared 1 4, [.shared 1 0x48])]
        && s.memBad.isEmpty && s.padBars.isEmpty && s.blocks.all fun b => b.2.bars.isEmpty && b.2.sharedBad.isEmpty) = true
    ∧ (let c : Copy := { oneElement with kind := .rld, src := .ia 0x100 }
      let s := engaged (operation (.copy c) [0] false)
      ((s.segment 0 c 0).1.map fun e => e.dst.map fun d => d.2.1)) = [[.shared 1 0x40]] := by decide +kernel

/-- A lane copy of one lane whose verdict has come and which has still to be performed. -/
theorem witness_late_lanes : (let y : LaneTgt := ⟨0, 0x100, 0x100, 0, .key 0x100 0 none, false⟩
      let l := { laneOp 0x100 with ready := [y], asked := false, late := true }
      let s := { asking 0x100 with ops := [(7, operation (.lane l) [] false)] }
      (s.ops.find 7).isSome && (s.group 1 0).isSome && l.ready.filter (fun x => x.lane == 0) == [y]) = true := by decide +kernel

/-- Each kind of operation at the head of an abacus's queue, and an idle interval. -/
theorem witness_abacus_steps : ([.rel, .fmt ⟨0, false, 0x12, 0x12, 0⟩, .zero 0xFFFF 0xFFFF, .wr 15 63 [(63, 1)], .mma 15 0 false [(63, [])],
    .refine, .cnt 143 true 4] : List MxKind).all (fun m =>
      let s := args [1, 0] (blk (fun k => { k with abaci := [(0, { k.abacus 0 with holder := some 0, queue := [⟨7, 0, m⟩] })] }) base)
      ((s.block (s.arg 0)).map fun k => (k.st == .resident, (k.abacus (s.arg 1)).queue.length)) == some (true, 1)) = true
    ∧ (let s := args [1, 0] ((held 1 base).modCore 0 fun c => { c with idle := some 5 })
      ((s.block 1).map fun k => (k.abacus 0).queue.length, (s.core 0).idle)) = (some 1, some 5)
    ∧ ((args [0] (base.modCore 0 fun c => { c with idle := some 5 })).core 0).idle = some 5 := by decide +kernel

/-- Each kind of operation that moves an image or works on cells, on shared memory without poison and without barriers. -/
theorem witness_image_steps : ([.ldw (.shared 1 0) 0 1, .ldc (.shared 1 0), .aff (.shared 1 0), .stc (.shared 1 0),
    .st (.shared 1 0) (2 ^ 39 + 0x1100) [0, 1], .eval 0 [(0, [])], .grad (.shared 1 0) 0x10000 0x400000000040, .dx (.shared 1 0) (576 * 2 ^ 32),
    .refine, .rd 0 0 4 0xFFFFFFFF 0xFFFFFFFF] : List MxKind).all (fun m =>
      let s := args [1, 0] (blk (fun k => { k with abaci := [(0, { k.abacus 0 with holder := some 0, queue := [⟨7, 0, m⟩] })] }) base)
      (s.core 0).idle.isNone && !s.engBad (.shared 1 0) 1151 && ((s.block 1).map fun k => (k.bars.isEmpty, (k.abacus 0).cellBad.isEmpty,
        (k.abacus 0).tileBad.isEmpty, (k.abacus 0).queue.map MxOp.kind)) == some (true, true, true, [m])) = true := by decide +kernel

/-- A poisoned byte of an affine image. -/
theorem witness_poisoned_image : (blk (fun k => { k with sharedBad := [143] }) base).engBad (.shared 1 0) 1151 = true := by decide +kernel

/-- In the grid, below it and at its end, and a NaN. -/
theorem witness_spline_inputs : (let k : Knot := { ((bootBlock 1).abacus 0).knot with g := 1, klo := 0, kinv := 0x3F800000 }
      let u (v : BitVec 32) := (k.input (fF32.val v.toNat)).u
      ((u 0x3F000000).isNan, (u 0xBF000000).isNan, (u 0x3F800000).isNan, (u 0x7FC00000).isNan)) = (false, false, false, true) := by
  decide +kernel

/-! ### Translation -/

/-- The page of the tests is DIRTY already. -/
def dirtied : State := { base with mem := Memory.set base.mem 0x1006 0xC0 }

/-- The last byte of the window, and the byte after it; a pad window behind it. -/
theorem witness_window_mapping : ((base.window 0 0 0).ctl.toNat % 8, (base.window 0 0 0).limit) = (1, 0x200000)
    ∧ (base.mapVa 0 0 0x1FFFFF).isSome = true ∧ base.mapVa 0 0 0x200000 = none ∧ base.l2.find 0 = none := by decide +kernel

/-- The leaf decides each way: not present, migrating, no R, no W, another partition's quadrant, beyond the HBM, performed; and
an entry that cannot be read, an address beyond the table, and a leaf of level 2. -/
theorem witness_leaves : ((fun (e : Nat) => (({ base with mem := Memory.write base.mem 0x1000 (leBytes 8 e) } : State).hbmSide 0 0x100 true true)) <$>
      ([2 ^ 54 + 6, 2 ^ 57 * 3 + 2 ^ 54 + 7, 2 ^ 56 + 2 ^ 54 + 7, 2 ^ 54 + 5, 2 ^ 54 + 3, 2 ^ 54 + 7 + 2 ^ 35, 2 ^ 54 + 7 + 24001904640,
        2 ^ 54 + 7, 2 ^ 55 + 2 ^ 54 + 7, 0x2001] : List Nat)) =
    [.wait 1, .wait 1, .wait 2, .deny 3, .deny 4, .deny 5, .deny 11, .ok 0x100 0 (some 0x1000), .ok 0x100 0 none, .wait 1]
    ∧ base.hbmSide 0 (2 ^ 21) true false = .deny 6 ∧ base.hbmSide 1 0x100 true false = .deny 5
    ∧ ({ base with memBad := [0x1000] } : State).hbmSide 0 0x100 true false = .deny 7 := by decide +kernel

theorem witness_pad_pages : (spaces base).padSide 0 (2 ^ 51 + 8) true true = .ok (2 ^ 51 + 2 ^ 19 - 65536 + 8) 0 none
    ∧ (spaces base).padSide 1 (2 ^ 51 + 8) true true = .deny 5
    ∧ ((spaces base).modCore 0 fun k => { k with padattr := 2 }).padSide 0 (2 ^ 51) true false = .deny 3
    ∧ ((spaces base).modCore 0 fun k => { k with padattr := 1 }).padSide 0 (2 ^ 51) true true = .deny 4 := by decide +kernel

/-! ### Records, memory management, almanac -/

/-- The ring in the partition's HBM, and a ring outside it. -/
theorem witness_ring_places : base.ownsHbm 0 0 32 = true ∧ base.ownsHbm 0 (2 ^ 35) 32 = false := by decide +kernel

/-- An invalidation of one page of 64 KiB whose entry the MTU holds. -/
theorem witness_invalidated_entry : (let s := args [0] { base with quads := [(0, { bootQuad with
        busy := true, inv := [0x10001], cached := [(mtuKey 0x10000 true, (0, 0))] })] }
      ((s.quad 0).busy, (s.quad 0).cached.length, invRange 0 0x10001)) = (true, 1, (0x10000, 0x20000)) := by decide +kernel

/-- A record that waits at a ring with room, and a ring of 2^7 records that is full. -/
theorem witness_records : (let s := { base with queues := [(0, { EvQueue.reset with waiting := [(0, List.replicate 28 1)] })] }
      let q := s.queue 0 0 0
      (q.waiting.length, q.wr - q.rd == BitVec.ofNat 32 (2 ^ q.size))) = (1, false)
    ∧ (let s := { base with queues := [(0, { EvQueue.reset with wr := 128, waiting := [(0, [])] })] }
      let q := s.queue 0 0 0
      q.wr - q.rd == BitVec.ofNat 32 (2 ^ q.size)) = true := by decide +kernel

theorem witness_management : ((args [0, 0] { base with quads := [(0, { bootQuad with busy := true, inv := [0] })] }).quad 0).busy = true
    ∧ (base.quad 0).busy = false ∧ base.hostWaits = [] ∧ (base.grids.all fun x => x.2.disp.isNone) = true
    ∧ (args [0, 0, 15, 0x71] base).arg 2 < 16 ∧ 16 ≤ (args [0, 0, 16, 0x71] base).arg 2 := by decide +kernel

/-- A core with a block, one without, one that is locked; the image's last word, and the address after it. -/
theorem witness_almanac : (base.blocks.any fun x => x.2.st == .resident && x.2.cores.contains 0) = true
    ∧ (base.blocks.any fun x => x.2.cores.contains 1) = false ∧ (base.core 1).almLock = false
    ∧ ((base.setDvsize 1 3).modCore 2 fun k => { k with almLock := true }).core 2 = { CoreSt.reset with almLock := true }
    ∧ 24312 < 24320 ∧ 24312 % 8 = 0 := by decide +kernel

/-! ### Pre-emption -/

theorem witness_secluded : Settled base ∧ Secluded base := by
  have h : Settled base := by
    refine ⟨fun x hx y hy => ?_, fun x hx => by cases hx⟩
    have hb : base.blocks = [(1, bootBlock 1)] := rfl
    rw [hb, List.mem_singleton] at hx
    subst hx
    have hg : (bootBlock 1).groups = [(0, Group.fresh 0 0 0 0x40 false 0xFFFFFFFF)] := rfl
    rw [hg, List.mem_singleton] at hy
    subst hy
    rfl
  exact ⟨h, h, rfl, fun x hx => by cases hx⟩

theorem witness_preemption : Rises base.blocks ∧ (base.pre 0 0).busy = false ∧ base.knowsCtx 0 0 = true
    ∧ base.knowsCtx 0 9 = false ∧ base.isTarget 0 0 0 (bootBlock 1) = true
    ∧ ({ base with preempt := [(0, { Preempt.reset with busy := true, op := 1, todo := [1] })] }.pre 0 0).busy = true := by
  refine ⟨?_, ?_⟩
  · show ((base.blocks.map Prod.fst).Pairwise (· < ·))
    decide +kernel
  · decide +kernel

/-- A group that has stopped, one whose WINDOW write is still to take effect, and one inside a bundle whose next word is a NOP. -/
theorem witness_stops : GroupStops (Group.fresh 0 0 0 0x40 false 0xFFFFFFFF)
    ∧ GroupGoesOn 1 0 (bootBlock 1) { Group.fresh 0 0 0 0x40 false 0xFFFFFFFF with park := .wctl 0 1 0x31 }
    ∧ GroupGoesOn 1 0 (bootBlock 1) { Group.fresh 0 0 0 0x40 false 0xFFFFFFFF with
        bundle := { Bundle.empty 0x3C with words := [0x01000000], imm := some 0 }, ahead := [(0x40, 0)] }
    ∧ Calm (bootBlock 1) :=
  ⟨.inl ⟨rfl, .inl rfl⟩, .inl ⟨0, 1, 0x31, rfl⟩, .inr ⟨rfl, by decide, rfl, fun _ => rfl⟩, fun x hx => by cases hx⟩

/-- Blocks to save, none left, and one that is left. -/
theorem witness_requests : [[], [1]].all (fun l =>
    (({ base with preempt := [(0, { Preempt.reset with busy := true, op := 1, todo := l })] }.pre 0 0).todo == l)) = true := by decide +kernel

/-! ### Packets -/

/-- A packet of a type and an op, with numbers at bytes 8, 16, 24 and 32. -/
def packet (type op a b c d : Nat) : List Byte :=
  leBytes 8 (type + 256 * op) ++ leBytes 8 a ++ leBytes 8 b ++ leBytes 8 c ++ leBytes 32 d

/-- Lane 0 of die 0 runs and holds a packet. -/
def laned (stage : Nat) (p : List Byte) : State :=
  args [0, 0] { base with lanes := [(0, { Lane.reset with state := 1, pkt := some p, stage := stage })] }

theorem witness_packets : [0, 1, 2, 3, 4, 5, 6].all (fun t =>
      let s := laned 0 (packet t 0 0 0 0 0)
      s.lanePart s.laneArg == some 0 && (s.lane s.laneArg).state == 1 && (s.lane s.laneArg).wait.isNone
        && ((s.lane s.laneArg).pkt.map pktType == some t)) = true := by decide +kernel

theorem witness_packet_held : Holds (laned 1 (packet 3 0 0x100 0 0 0)) 0
    { Lane.reset with state := 1, pkt := some (packet 3 0 0x100 0 0 0), stage := 1 } (packet 3 0 0x100 0 0 0) :=
  ⟨by decide +kernel, rfl, rfl, rfl, rfl, by decide +kernel⟩

/-- A word that a lane's windows map, one that no window maps, and one whose page is not present. -/
theorem witness_packet_words : ((laned 0 []).sysRead 0 0 0x100 8).1 = .ok (List.replicate 8 0)
    ∧ ((laned 0 []).sysRead 0 0 0x200000 8).1 = .none
    ∧ (match ((laned 0 []).modQuad 0 fun q => { q with l1base := 8 }).sysRead 0 0 0x100 8 with
        | (.wait _ _, _) => true
        | _ => false) = true
    ∧ (match (laned 0 []).sysWord 0 0 0x100 7 false with
        | (.ok _, _) => true
        | _ => false) = true := by decide +kernel

/-- A lane whose own record waits at the arbiter. -/
theorem witness_lane_held : (let s := laned 0 (packet 0 0 0 0 0 0)
      (s.post 0 0 1 [] (laneTag 0)).held (laneTag s.laneArg)) = true := by decide +kernel

/-- A word of a page that is DIRTY. -/
theorem witness_word_of_dirty_page : (match dirtied.target 0 (.ia 0x100) 8 true true with
        | (.key k _ none, u) => k == 0x100 && u.padBars.isEmpty
        | _ => false) = true := by decide +kernel

/-- A launch record that breaks no rule; dimensions at and beyond 2^21; the last priority class, and none. -/
theorem witness_record_rules : (let r (x m : Nat) := leBytes 24 0x40 ++ leBytes 4 x ++ leBytes 4 1 ++ leBytes 4 1 ++ leBytes 4 32 ++ leBytes 4 m ++ leBytes 84 0
      (base.sysMap 0 0 (recNum (r 1 3) 0 8) 64 true false true).isSome && (r 1 3).length == 128 && recNum (r 1 3) 0 8 % 64 == 0
        && recNum (r 0x200000 3) 0x18 4 == 2 ^ 21 && recNum (r 0x200001 3) 0x18 4 == 2 ^ 21 + 1 && recNum (r 1 4) 0x28 4 == 4
        && recNum (r 1 3) 0x30 8 == 0 && recNum (r 1 3) 0x60 8 == 0 && recNum (r 1 3) 0x68 24 == 0) = true := by decide +kernel

/-- A word behind a window with its page's key, and no barrier object in a pad. -/
theorem witness_word_written : base.padBars = [] ∧ base.sysMap 0 0 0x100 8 true true false = some 0x100
    ∧ (match base.target 0 (.ia 0x100) 8 true true with
        | (.key k _ _, _) => k == 0x100
        | _ => false) = true := by decide +kernel

/-- An empty ring, and a ring with one packet at slot 0, a NOPKT. -/
theorem witness_loading : (let s := { laned 0 [] with lanes := [(0, { Lane.reset with state := 1, ring := 0x400, wrva := 0x800 })] }
      ((s.lane 0).pkt, s.sysRead 0 0 0x800 8 |>.1)) = (none, .ok (List.replicate 8 0))
    ∧ (let s := { laned 0 [] with mem := Memory.set (laned 0 []).mem 0x800 1 }
      (match s.sysRead 0 0 0x800 8 with | (.ok bs, _) => leNat bs | _ => 0)) = 1
    ∧ pktBad (packet 0 0 0 0 0 0) false = none ∧ (pktBad (packet 99 0 0 0 0 0) false).isSome = true := by decide +kernel

/-- A DISPATCH without a completion word, with one, and with one between words. -/
theorem witness_dispatch : recNum (packet 1 0 0x100 0 0 0) 16 8 = 0 ∧ base.trees.length < 2 ^ 31 ∧ base.grids.length < 2 ^ 31
    ∧ (base.sysMap 0 0 0x200 8 false true false).isSome = true ∧ recNum (packet 1 0 0x100 0x201 0 0) 16 8 % 8 ≠ 0 := by decide +kernel

/-! ### Blocks, grids and trees -/

/-- A grid whose second block waits, with a free core. -/
theorem witness_placement : (let s := { base with
        grids := [(1, { bootGrid 1 with next := 0, record := List.replicate 24 0 ++ leBytes 4 1 ++ leBytes 4 2 ++ leBytes 96 1 })], blocks := [] }
      s.waitingBlocks.length == 1 && (s.waitingBlocks.all fun c => c.resume.isNone && c.gh == 1)
        && (s.blocks.find s.nextId).isNone
        && ((s.grids.find 1).bind fun g => g.hdr.bind fun h => s.chooseCores g 1 h h.share (s.earlyOk g h h.share)).isSome) = true := by decide +kernel

theorem witness_reserving : (let g := { bootGrid 1 with passed := 0 }
      (g.passed != allOnes && g.passed.toNat + 2 ^ 20 ≤ ({ base with cycle := 2 ^ 20 } : State).cycle.toNat)) = true
    ∧ ({ base with cycle := 2 ^ 20 - 1 } : State).cycle.toNat < 2 ^ 20 := by decide +kernel

/-- A grid that waits with a block, passed over for 2^20 cycles. -/
theorem witness_reserving_grid : (let g := { bootGrid 1 with next := 0, passed := 0, record := List.replicate 24 0 ++ leBytes 4 1 ++ leBytes 4 2 ++ leBytes 96 1 }
      let s := args [1] { base with grids := [(1, g)], blocks := [], cycle := 2 ^ 20 }
      !s.heldBack 1 g && s.waitingBlocks.any fun c => c.gh == 1) = true := by decide +kernel

/-- A tree whose word can be written, one whose word no window maps, and a completion that waits already. -/
theorem witness_completion_words : (match (base.sysWord 0 0 0x100 7 false).1 with | .ok _ => true | _ => false) = true
    ∧ (base.sysWord 0 0 0x200000 7 false).1 = .none ∧ base.comps.find 3 = none ∧ base.held (compTag 3) = false
    ∧ (base.post 0 0 0 [] (compTag 3)).held (compTag 3) = true := by decide +kernel

/-- A grid with a block, and one without; a tree whose seed grid has gone. -/
theorem witness_completion : ((base.grids.find 1).map (base.gridOver 1)) = some false
    ∧ (let s := args [2] { base with blocks := [] }
      (s.grids.find 1).map (s.gridOver 1)) = some true
    ∧ (let s := args [3] { base with blocks := [], grids := [] }
      (s.trees.find 1).map fun t => (t.counter, (s.grids.find t.seed).isNone, t.word)) = some (0, true, 0) := by decide +kernel

/-! ### Partitions, the host, the package -/

/-- A free quadrant, an idle one, one with a block on it; a partition that resets. -/
theorem witness_partitions : (base.quad 1).state = 0 ∧ base.idleQuad 0 = false
    ∧ ({ base with blocks := [], grids := [], trees := [] } : State).idleQuad 0 = true ∧ (base.part 0).state = 1
    ∧ base.checkpointed 0 = false ∧ (base.part 0).pquads = 1
    ∧ ({ base with parts := [(0, { Part.reset with state := 2 })] } : State).part 0 = { Part.reset with state := 2 }
    ∧ ({ base with quads := [(0, { bootQuad with state := 3 })] }.quad 0).state = 3 := by decide +kernel

/-- A decoder of 64 KiB from host address 0, its last byte and the byte after it; a route of module 1, partition 2. -/
def hosted : State := { base with parts := [(0, { Part.reset with
  pquads := 1, state := 1, decoders := [(0, (0, 0x10000, 0))], routes := [(1, 0x0120000000000000)] })] }

theorem witness_outside : hosted.decode 0 0xFFFF = some 0xFFFF ∧ hosted.decode 0 0x10000 = none
    ∧ hosted.accepts 0 1 2 = true ∧ hosted.accepts 0 1 3 = false
    ∧ (match hosted.target 0 (.ia 0x100) 8 true false with
        | (.key k _ none, u) => k == 0x100 && !u.badRange k 8
        | _ => false) = true := by decide +kernel

/-- Bytes of a page that permit a read and, of a DIRTY page, a write; a page that is not present, and one that migrates. -/
theorem witness_permitted : Permitted base 0 0x100 8 true false 0x100 ∧ Permitted dirtied 0 0x100 8 false true 0x100
    ∧ FirstStop { base with mem := [] } 0 0x100 8 true false (.wait 1)
    ∧ FirstStop { base with mem := Memory.write base.mem 0x1000 (leBytes 8 (2 ^ 56 + 2 ^ 54 + 7)) } 0 0x100 8 false true (.wait 2)
    ∧ Refuses base 0 (2 ^ 51) 1 true false := by
  refine ⟨⟨by decide, by decide, by decide, ?_⟩, ⟨by decide, by decide, by decide, ?_⟩, ⟨[], (0x100, 8), [], by decide, by decide +kernel, ?_⟩,
    ⟨[], (0x100, 8), [], by decide, by decide +kernel, ?_⟩, .inl (by decide)⟩
  · intro x hx
    have : x = (0x100, 8) := by simpa [show lineParts 0x100 8 = [(0x100, 8)] by decide] using hx
    subst this
    exact ⟨0, by decide +kernel⟩
  · intro x hx
    have : x = (0x100, 8) := by simpa [show lineParts 0x100 8 = [(0x100, 8)] by decide] using hx
    subst this
    exact ⟨0, by decide +kernel⟩
  · intro y hy
    cases hy
  · intro y hy
    cases hy

/-- Configuration offsets on both sides of their blocks, in function 0 and in that of partition 0. -/
theorem witness_config : NoRegister base 0 0x20 ∧ ¬NoRegister base 0 0x18 ∧ NoRegister base 1 0x20000 ∧ NoRegister base 0 0x17A0
    ∧ Reaches base 0 15 ∧ Reaches base 1 0 ∧ ReachesDie base 1 0 := by
  refine ⟨by simp [NoRegister], by simp [NoRegister], by simp [NoRegister], by simp [NoRegister], .inl rfl,
    .inr ⟨by decide, by decide, by decide +kernel⟩, .inr ⟨by decide, by decide, 0, by decide, by decide +kernel⟩⟩

theorem witness_host_wait : (let w : HostWait := ⟨0, 0x100, 0, 8, [], none, (0, 0), 0⟩
      let s := args [4] { base with hostWaits := [(4, w)], cycle := 11000000 }
      (s.hostWaits.find (s.arg 0)).map fun w => (w.since.toNat + 11000000 ≤ s.cycle.toNat : Bool)) = some true := by decide +kernel

theorem witness_mailbox : (base.box 16).busy = false ∧ (base.box 0).result = none
    ∧ (({ base with mailbox := [(0, { Mailbox.reset with busy := true, result := some (0, 4096) })] } : State).box 0).result = some (0, 4096)
    ∧ (match (base.iaRead 0 0 64).1 with
        | .ok head => (headerBad head true).isSome
        | _ => false) = true := by decide +kernel

/-- No checkpoint runs; link 0 is up; quadrant 0 is assigned. -/
theorem witness_checkpoint : base.ckpt.busy = false ∧ (base.quad 0).state = 2 ∧ base.memBad = []
    ∧ (({ base with links := [(0, 0x10001)] } : State).links.find 0).map (fun v => v.getLsbD 0) = some true := by decide +kernel

/-- A full checkpoint of two quadrants, and a dirty one at an entry that is a leaf. -/
theorem witness_checkpoint_channel : (let s := args [0] { base with ckpt := { base.ckpt with busy := true, op := 1, pend := [(0, 0, 0), (1, 2, 0)] } }
      (s.ckpt.busy, s.ckpt.pend.length, s.memBad)) = (true, 2, [])
    ∧ (let s := args [1] { dirtied with ckpt := { base.ckpt with busy := true, op := 2, pend := [(0, 0, 0)] } }
      (s.l2, (s.quad 0).l1count, (Memory.num s.mem ((s.quad 0).l1base.toNat * 4096) 8).testBit 55)) = ([], 1, true) := by decide +kernel

/-- The leaf of that checkpoint lies outside the partition's quadrants once quadrant 0 belongs to another. -/
theorem witness_unreached_leaf : dirtied.ownsHbm 0 0x1000 8 = true ∧ dirtied.owns 0 0 = true
    ∧ (({ dirtied with quads := dirtied.quads.put 0 { bootQuad with part := 1 } } : State).ownsHbm 0 0x1000 8) = false := by decide +kernel

/-- A carry core, the communicator that has it, and a collective of it that runs. -/
theorem witness_carry_core : (let s := args [0] (({ base with comms := [(0, comm)] } : State).modCore 0 fun k => { k with carry := some 0 })
      ((s.core 0).carry, (s.comms.find 0).bind Comm.grid, (s.grids.find 1).map fun g => g.failed.isNone)) = (some 0, some 1, some true) := by
  decide +kernel

/-- A block on core 0 with a group there, and one on cores 0 and 1 whose only group is on core 0. -/
theorem witness_failing_cores : (base.blocks.map fun x => (x.2.st == .resident, x.2.cores, x.2.groups.map fun y => y.2.core)) = [(true, [0], [0])]
    ∧ ((blk (fun k => { k with cores := [0, 1] }) base).blocks.map fun x => (x.2.cores.contains 1, x.2.groups.map fun y => y.2.core)) = [(true, [0])] := by
  decide +kernel

theorem witness_failures : 511 < 512 ∧ 63 < 64 ∧ (base.block 1).map (fun k => k.cores.contains 0) = some true ∧ base.bad 0x100 = false
    ∧ 0x100 % 2 ^ 35 < hbmBytes := by decide +kernel

/-! ### Communicators and collectives -/

/-- A create with nothing under its handle, one with its communicator waiting for answers, and one whose answers have come. -/
theorem witness_communicators : (let p := packet 6 0 0x100 0x00000002 0x200 0x400
      let s := laned 0 p
      s.commAddrBad 0 0 p == false && (s.comms.find (commKey 0 (recNum p 4 1))).isNone && recNum p 16 2 == 2) = true
    ∧ (let p := packet 6 0 0x200000 2 0x200 0x400
      (laned 0 p).commAddrBad 0 0 p) = true
    ∧ (({ comm with msgs := [[0, 0, 0, 1, 2, 1, 0x1E] ++ comm.members.map BitVec.toNat] } : Comm).msgs.all fun m =>
        ({ comm with msgs := [] } : Comm).agrees m) = true
    ∧ carriedSet.testBit 4 = true := by decide +kernel

/-- A create that has waited for 100 ms. -/
theorem witness_create_timeout : (let s := args [0, 0] { laned 2 (packet 6 0 0 0 0 0) with
        comms := [(0, { comm with state := 1, grid := none })], cycle := 110000000 }
      (s.comms.find (commKey (s.arg 0) (s.arg 1))).map fun c =>
        (c.state == 1 && c.since.toNat + 110000000 ≤ s.cycle.toNat && (s.lane c.lane).stage == 2 && c.grid.isNone)) = some true := by
  decide +kernel

/-- A create that waits for cores: none is idle on a die where every core holds a block; and a member that has not answered. -/
theorem witness_lacking_answers : ({ base with cores := (List.range 128).map fun n => (n, { CoreSt.reset with faulted := true }) }.idleCores 0 0 0).length = 0
    ∧ base.quadsOf 0 = [0] ∧ (∀ m ∈ ({ comm with msgs := [] } : Comm).msgs, m.getD 5 0 ≠ 1) ∧ (1 : Nat) ≠ comm.rank := by
  refine ⟨by decide +kernel, by decide +kernel, ?_, by decide⟩
  intro m hm
  cases hm

/-- A description for a create that has not ended, for a collective to come, and for a communicator in error. -/
theorem witness_early_exchange : [1, 2, 3].all (fun st => (comm.state == 2) &&
      (let s := args [0, 0, 0, 1, 0] { base with comms := [(0, { comm with state := st })] }
      (s.comms.find (commKey (s.arg 0) (s.arg 1))).isSome && (s.colls.find? fun x => x.2.started).isNone)) = true := by decide +kernel

/-- A collective of the block: not started, running, over. -/
def running (started begun : Bool) (failed : Option Nat) (left : List (Nat × Nat)) : Collective :=
  { part := 0, ctx := 0, comm := 0, seq := 0, blk := 1, ops := [(0, 7)], desc := [0, 0, 0x11, 1, 0x1000, 0x2000, 0, 0], bar := none,
    die := 0, started := started, begun := begun, failed := failed, seen := [], exch := [], src := 0x1000, dst := 0x2000,
    left := left, tiles := [], wait := none, parts := [], told := [] }

def joined (k : Collective) : State := args [9, 1] { base with colls := [(9, k)], comms := [(0, comm)] }

theorem witness_collective_runs : (joined (running false false none [])).collReady (running false false none []) = true
    ∧ (joined (running true true none [])).collOver 9 (running true true none []) = true
    ∧ (joined (running true true none [(0, 4)])).collOver 9 (running true true none [(0, 4)]) = false
    ∧ (running true false none [(0, 4)]).waitsFor comm 1 = true ∧ (running true false none [(0, 4)]).waitsFor comm 0 = false
    ∧ (joined (running true false none [])).comms.find 0 = some comm := by decide +kernel

/-- A collective in error, and one after a destroy. -/
theorem witness_late_collectives : (let s : State := args [9] { base with colls := [(9, running false false none [])], comms := [(0, { comm with state := 3 })] }
      s.collReady (running false false none []) && (s.comms.find 0).map Comm.state == some 3) = true
    ∧ ({ comm with closing := true } : Comm).state = 2 := by decide +kernel

/-- A collective whose member has answered: its own pages permit it. An all-reduce, and an all-gather of one element. -/
theorem witness_begins : [(0 : U64), 1].all (fun op =>
      let k := { running true false none [(0, 4)] with exch := [1], desc := [0, op, 0x11, 1, 0x1000, 0x2000, 0, 0] }
      let s := joined k
      ((s.collPages k comm).1.all fun x => !x.1.waits && !x.1.denied) && s.steps.isEmpty && (CollDesc.of k.desc).blockBytes == 4) = true
    ∧ (let s : State := { dirtied with free := 0 }
      s.target 0 (.ia 0x1000) 4 true false = (.key 0x1000 0 none, s) ∧ s.target 0 (.ia 0x2000) 4 false true = (.key 0x2000 0 none, s)) := by
  decide +kernel

/-- An element of which a contribution is poison. -/
theorem witness_poisoned_contribution : (let k := { running true true none [(0, 4)] with parts := [(0, 1, none)] }
      (k.parts.find? fun x => x.1 == 0 && x.2.1 == 1)) = some (0, 1, none) := by decide +kernel

/-- An element whose contributions have all come; its source and its destination. -/
theorem witness_reduction : (let k := { running true true none [(0, 4)] with parts := [(0, 1, some 0x3F800000)] }
      let s := joined k
      (k.written (0, 4) == false && s.sourceBusy 9 k == false && (s.openComm k.comm).isSome)
        && (match s.target 0 (.ia 0x1000) 4 true false with
            | (.key _ _ none, u) => (match u.target 0 (.ia 0x2000) 4 false true with | (.key kd _ _, _) => kd == 0x2000 | _ => false)
            | _ => false)) = true
    ∧ (CollDesc.of (running true true none []).desc).reduces = true := by decide +kernel

/-- A tile of a harvest queue that has all its bytes. -/
theorem witness_harvest : (let k := { running true true none [] with desc := [0, 0, 0x11, 1, 0x1000, 0x2000, 0, 1] }
      (CollDesc.of k.desc).queue == 1 && k.left.isEmpty && !k.tiles.contains 0 && 0 < (joined k).collBytes k) = true := by decide +kernel

/-- The members' messages: an answer to a running collective, and a report of a failure. -/
theorem witness_exchange : (let s := args [0, 0, 0, 1, 1, 2] (joined (running true false none []))
      (s.colls.find? fun x => x.2.comm == 0 && x.2.started && x.2.failed.isNone && x.2.seq.toNat == s.arg 2).isSome
        && s.arg 3 < comm.count && s.arg 3 != comm.rank) = true := by decide +kernel

theorem witness_link : Rises (joined (running true false none [])).colls ∧ Rises (joined (running true false none [])).comms
    ∧ (args [0] { base with links := [(0, 0x10101)] }).links.find 0 = some 0x10101 := by
  refine ⟨?_, ?_, by decide +kernel⟩
  · show (((joined (running true false none [])).colls.map Prod.fst).Pairwise (· < ·))
    decide +kernel
  · show (((joined (running true false none [])).comms.map Prod.fst).Pairwise (· < ·))
    decide +kernel

/-! ## Steps, encodings, invariants -/

/-- The turn of the quarter that is about to issue the word that is loaded: NOP. -/
theorem witness_step : (let s := State.reset.withFetchWord 32 0x80000000
      let u := { s with schedule := [], cur := some (1, 0), mark := false, args := [] }
      s.schedule == [.issue 0 0] && (({ s with schedule := [] } : State).tryOrder 0 0).length == 1 && !(s.core 0).faulted
        && (match s.resident 1 0, s.block 1 with
            | some g, some k => u.fetchWord k g g.pc.toNat true == .word 0x80000000
            | _, _ => false)) = true := by decide +kernel

/-- Two ready groups of a block at the same word, which may issue together. -/
theorem witness_gang : (let two := blk (fun k => { k with groups := k.groups ++ [(1, Group.fresh 0 4 0 0x40 false 0xFFFFFFFF)] }) base
      let m := { two with schedule := [.gang 0 0 [(1, 1), (1, 0)]] }
      let s := m.l2Sync
      let u := { s with schedule := [] }
      s.schedule == [.gang 0 0 [(1, 1), (1, 0)]] && !(s.core 0).faulted
        && ((u.tryOrder 0 0).find? fun x => u.ready x.1 x.2.1 x.2.2).map (fun x => (x.1, x.2.1)) == some (1, 0)
        && (u.quarterGroups 0 0).length == 2 && (u.quarterGroups 0 0).all fun x => u.ready x.1 x.2.1 x.2.2 && u.gangWord x.1 x.2.2) = true := by
  decide +kernel

/-- A word whose page is a peer's, where no link is up. -/
theorem witness_far_word : let s := { base with mem := Memory.write base.mem 0x1000 (leBytes 8 (2 ^ 57 * 2 + 2 ^ 54 + 7)) }
    (match s.memSide 0 0x40 true false with
      | .ok k _ _ => (peerBase ≤ k : Bool) && !(((s.fabricAddr 0 (k - peerBase)).map fun a => s.linked (a / 2 ^ 56)).getD false)
      | _ => false) = true := by decide +kernel

/-- A word that nothing holds ahead, behind a window whose page is present. -/
theorem witness_fetch : (base.mapVa 0 0 0x40).map (fun w => (w.1.canX, w.1.kindOk w.2, w.1.kind)) = some (true, true, 1)
    ∧ base.memSide 0 0x40 true false = .ok 0x40 0 none ∧ (base.core 0).icache.find 0x40 = none := by decide +kernel

theorem witness_turns : isStep .nopkt = true ∧ isStep .nop = false ∧ isStep .moduleReset = true := by decide

theorem witness_encoded : encode ⟨true, .vadd 3 4 5⟩ = some 0xC0030405 ∧ (decodeWord 0xC0030405).toOption = some ⟨true, .vadd 3 4 5⟩ :=
  ⟨by decide +kernel, by rfl⟩

/-- PFX.MOD of the bundle: bank F1, ind F2 with x1; immediates with IMM, with IMX and IMM, and a patch entry. -/
def bundled (b : Bundle → Bundle) (s : State) : State := grp (fun g => { g with bundle := b g.bundle }) s

theorem witness_operand_forms : meets (.sadd 4 5 6) 
        (bundled (fun b => { b with mod := some ⟨4, 2, 1, 0, 0x1F, false, false, 0, 0⟩, words := [0x03000000], rank := 3 })
          (grp (fun g => g.setX 1 9) base)) (fun c => c.n1 == 260 && c.n2 == 14 && c.n3 == 6) = true
    ∧ meets (.saddi 4 5 0x80) (bundled (fun b => { b with imm := some 1, words := [0x01000001], rank := 2 }) base)
      (fun c => c.imm == 0x180) = true
    ∧ meets (.sli 4 0) (bundled (fun b => { b with imx := some 1, imm := some 0, words := [0x02000001, 0x01000000], rank := 2 }) base)
      (fun c => c.imm == 0x10000000000) = true
    ∧ meets (.sadd 4 5 6) (grp (fun g => { g with early := [⟨.s 5, [(0, 7)], 0, 4, [], []⟩], slotNo := 4 }) base) (fun c => c.g.getS 5 == 0) = true := by
  decide +kernel

/-- The faults of R26 in a bundle without a prefix: one word for each. -/
theorem witness_admission : Instr.wellFormed (.waitc 5 0) = false ∧ (shapeOf (.vswzXor 4 5 1) 0x0A).types.isSome = true
    ∧ tINT.contains 0x11 = false ∧ (0x800#12).toNat = 0x800 ∧ ((shapeOf (.vmov 255 5) 0x11).ops.head?.map Opnd.num) = some 255
    ∧ base.privileged (bootBlock 1) = true
    ∧ ({ base with grids := base.grids.mapVal fun _ g => { g with privOk := false } } : State).privileged (bootBlock 1) = false
    ∧ (base.curGroup.map fun k => k.2.bundle == Bundle.empty k.2.pc) = some true := by decide +kernel

/-- The group is ready for each of these words. -/
theorem witness_ready : [Instr.brm 0 4 0, .scmp 1 2 6, .waitc 5 0, .vswzXor 4 5 1, .srd 4 0x800, .vmov 255 5].all (fun i =>
      match base.curGroup with
      | some (k, g) => (replayPark i base.mark (base.hdr k).checked (readOperands i base g).reads (readOperands i base g).pass g).isNone
          && !mustStall i base k g (readOperands i base g)
      | none => false) = true := by decide +kernel

/-- A condition of BRM and a relation of SCMP that the spec does not allocate have words, and are malformed. -/
theorem witness_malformed : [Instr.brm 0 4 0, .scmp 1 2 6, .scmpn 1 2 255].all
    (fun i => (encodeLow i).isSome && !i.wellFormed && !i.isPrefix) = true := by decide

/-- A word with the switch marker, and one without. -/
theorem witness_switch_marker : [true, false].all (fun m => meets (.sadd 4 5 6) { base with mark := m } fun c => !c.h.checked) = true
    ∧ (base.curGroup.map fun k => k.2.park) = some .run := by decide +kernel

/-- The state of the tests is in its canonical form, and so is the state after reset. -/
theorem witness_forms : base.MemoryWf ∧ State.reset.MemoryWf := ⟨by unfold State.MemoryWf; decide +kernel, rfl⟩

/-! ## Operands, admission and issue -/

/-- The words that name p15 as their destination are malformed (R47), as `witness_malformed` has it for others. -/
theorem witness_live_mask_destination : [Instr.pset 15 1, .psetLive 15 1, .plog 15 0 0 0, .vcmpp 15 0 1 2, .mxacq 15].all
    (fun i => (encodeLow i).isSome && !i.wellFormed && !i.isPrefix && (match base.curGroup with
      | some (k, g) => (replayPark i base.mark (base.hdr k).checked (readOperands i base g).reads (readOperands i base g).pass g).isNone
          && !mustStall i base k g (readOperands i base g)
      | none => false)) = true := by decide +kernel

/-- A word of each class whose counter stands at 63, the most that an SD or a group counts; at 62 it issues. -/
theorem witness_full_classes : [.cpt 5 6, .cps 5 6, .mxrel, .spref, .coll 5 6].all
      (unparked · (grp (fun g => { g with oc := ⟨63, 63, 63, 63, 63⟩ }) (held 0 base))) = true
    ∧ meets .mxrel (grp (fun g => { g with oc := ⟨63, 63, 62, 63, 63⟩ }) (held 0 base)) (fun _ => true) = true := by decide +kernel

/-- Words of the families issue with their fields' operands: the first register of each, a pair at the end of the allotment. -/
theorem witness_family_words : ([.sld 4 5 0 0 2, .sst 4 5 0 2, .ld 254 5 0 0 4, .st 4 255 0 2, .atom 4 5 0 0 0 0, .pset 1 5, .pget 4 1,
    .plog 1 2 3 7, .stk 4 0, .mxwr 4 0 0, .cpg 5 6, .coll 5 6, .tnext 4, .covr 4 5] : List Instr).all (fun i =>
      (!(familyOperands i).isEmpty || !(predicatesRead i).isEmpty) && (familyOperands i).all (fun o => o.2.1 + o.2.2.2.1 ≤ 256)
        && i.wellFormed && famOk (shapeOf i 0x11) bootHeader && meets i base fun _ => true) = true
    ∧ (base.curGroup.map fun k => (k.1.abaci.isEmpty, k.1.channels.isEmpty, k.2.gather.isNone, k.2.replay.isEmpty, k.2.mode.toNat)) =
      some (true, true, true, true, 0x11)
    ∧ base.unplacedGrids 0 < 1024 := by decide +kernel

/-- An LD of 16 bytes whose second register is the first beyond the allotment, and an SST whose second is beyond s511. -/
theorem witness_register_bounds : ((familyOperands (.ld 255 5 0 0 4)).head?.map fun o => o.2.1 + o.2.2.2.1 - 1) = some 256
    ∧ (base.curGroup.map fun k => ((base.hdr k.1).allot, (wordFault (.ld 255 5 0 0 4) base k.1 k.2).isNone, k.2.early)) = some (256, true, [])
    ∧ unparked (.ld 255 5 0 0 4) base = false := by decide +kernel

/-- Predicate words with and without the switch marker. -/
theorem witness_predicate_marker : [true, false].all (fun m => [.pset 1 5, .psetLive 1 5, .plog 1 2 3 7].all fun i =>
      meets i { base with mark := m } fun c => !c.h.checked) = true := by decide +kernel

/-- A vector, a predicate and a scalar register with a result at its distance, and one whose result is still early beside a word
that does not read it. -/
theorem witness_early_registers : [Reg.v 5, .p 1, .s 5].all (fun x =>
    [.vadd 4 5 6, .pget 4 1, .sadd 4 5 6].all fun i =>
      meets i (grp (fun g => { g with early := [⟨x, [(0, 7)], 0, 4, [], []⟩], slotNo := 4 }) (typed 2 base)) (fun _ => true)
      && meets .nop (grp (fun g => { g with early := [⟨x, [(0, 7)], 0, 4, [], []⟩], slotNo := 3 }) (typed 2 base)) fun _ => true) = true := by
  decide +kernel

/-- Lanes that add to words of a barrier object that is armed, and of one that is not. -/
theorem witness_atomics_on_barriers : (let s := (blk (fun k => { k with bars := [16] }) base).barPut (.shared 1 16) 0x10001
      meets (.atom 4 5 0 1 0 0) (vec 5 (fun l => BitVec.ofNat 64 (16 + 4 * (l % 4))) s) fun c =>
        !(s.armedAt c.blk (.shared 16) 4).isEmpty) = true := by decide +kernel

/-! ## Dispensers, engines and late accesses -/

/-- A dispenser step that waits, the fields of an atom that can be read, and those of one whose page is not present. -/
theorem witness_dispenser_steps : ({ dispenser with later := [.owner 0 2 []] } : Disp).later ≠ []
    ∧ (dispenser.handles.map Prod.fst) = [5] ∧ (dispenser.handles.all fun h => h.2.blk == 1 && h.2.left.all fun a => !dispenser.done.contains a) = true
    ∧ (State.mapReach 0 { dispenser with mapLoc := 0x3000 } true false [0] mapped).1.isNone = true
    ∧ (State.mapReach 0 { dispenser with mapLoc := 0x3000 } true false [0] { mapped with mem := [] }).1.isSome = true
    ∧ meets (.covr 4 5) (tiled (fun d => { d with later := [.owner 0 2 []] }) base) (fun _ => true) = true
    ∧ meets (.covr 4 5) { mapped with mem := [] } (fun _ => true) = true := by decide +kernel

/-- A launch record on a page that is not present. -/
theorem witness_spawn_waits : meets (.spawn 4 5) (regs 5 [0x100] { base with mem := [] }) (fun c =>
      match (State.spawnRead { base with mem := [] } c 0x100).1 with
      | .ok (.wait _ ia) => ia == 0x100
      | _ => false) = true
    ∧ base.spawns = [] := by decide +kernel

/-- A group that has exited with a SPAWN still to be read. -/
theorem witness_exit_with_spawn : (let s := { grp (fun g => { g with park := .exiting, pend := [⟨9, .s 4, 0xFFFFFFFF, 9, 0⟩] }) base with
        spawns := [(9, ⟨1, 0, 4, 1, 1, 0x100, 0x100, 1⟩)] }
      (s.spawns.map fun x => (x.2.blk, x.2.gid), (s.group 1 0).map Group.park)) = ([(1, 0)], some .exiting) := by decide +kernel

/-- A COLL that failed, with its barrier object. -/
theorem witness_failed_collective_signal : (let o := { operation (.coll 0 9 (some (.shared 1 16))) [] true with
        cls := .cl, barrier := some (.shared 1 16), stamp := some 5 }
      let s := { engaged o with colls := [] }
      o.finished && !s.held 7 && !s.olderOp o && (s.block 1).isSome) = true := by decide +kernel

/-- An RRED whose destination is denied, and one whose step is there. -/
theorem witness_refused_reduction : (let c : Copy := { oneElement with kind := .rred, dst := .ia (2 ^ 50) }
      ((engaged (operation (.copy c) [0] false)).segment 0 c 0).1.any fun e => e.dst.any fun d => d.2.1.denied) = true
    ∧ (let c : Copy := { oneElement with kind := .rred, ctl := 3 * 2 ^ 32 + 0x1F11 }
      let s := { engaged (operation (.copy c) [] false) with comms := [(0, comm)], colls := [(9, running true true none [(0, 4)])] }
      let t : Step := { carryStep true with kind := 2, coll := 9, sent := [(7, 0)] }
      ((s.redStep 0 c).isSome, ({ s with steps := [(3, t)] } : State).redStep 0 c == some t,
        t.bytes / elemSize t.ety)) = (false, true, 1) := by decide +kernel

/-- A copy from two pages of memory of which the MTU holds the entry of one. -/
theorem witness_entries : (let c : Copy := { oneElement with src := .ia 0x100, dst := .ia 0x2100 }
      (base.segPages c [[0]], ((engaged (operation (.copy c) [0] false)).segment 0 c 0).1.length)) = ([0], 1) := by decide +kernel

/-- A CPG that opens a region of two words, whose verdicts have returned: one lane's page is present, another's is not. -/
theorem witness_split_by_copy : (let l := { laneOp 0x100 with mask := 1 }
      let s := args [7] { grp (fun g => { g with park := .verdict 7, bundle := { g.bundle with split := some 2 } }) base with
        ops := [(7, operation (.lane l) [] false)] }
      let p : Split := ⟨0x40, 2, some 1, 0, 0, 0, 0, .whole, false⟩
      l.asked && !l.put && (decodeWord l.word).toOption.isSome && !l.word.getLsbD 31 && p.pass == .whole
        && ((s.group 1 0).map fun g => (g.split.isNone, g.pc.toNat + 4 != 0x40 + 8, g.handler)) == some (true, true, false)
        && ((s.verdicts 0 l l.lanes).1.all fun y => !y.out && !y.tgt.denied && y.lane < 32)) = true := by decide +kernel

/-- An atomic of a hit pass in a group that runs its handler: a load of other bytes there does not touch it, one of its bytes does. -/
theorem witness_posted_accesses : [(8, false), (0, true)].all (fun w =>
      let x : Group := { Group.fresh 0 0 0 0x40 false 0xFFFFFFFF with
        split := some ⟨0x40, 2, none, 0x48, 7, 0xFFFFFFFE, 1, .miss, true⟩, handler := true,
        posted := [⟨7, .atom 0 true false, 4, 4, false, [(0, some (.shared w.1), 1, 0)]⟩] }
      let r := (grp (fun _ => x) base).reaches 1 0 (bootBlock 1) x (.ld 4 5 0 0 2)
      (x.posted.any fun a => a.touches r.1 r.2) == w.2) = true
    ∧ Instr.orders .fence (Bundle.empty 0x40).mods = true
    ∧ Instr.orders (.ld 4 5 0 0 2) (Bundle.empty 0x40).mods = false := by decide +kernel

/-- A CPS that is to be performed after an access of its group, which has landed already. -/
theorem witness_after : (let l := { laneOp 0x100 with put := true, after := [9] }
      let s := { asking 0x100 with ops := [(7, operation (.lane l) [] false)] }
      ((s.group 1 0).map fun g => g.posted.all fun a => !l.after.contains a.id)) = some true := by decide +kernel

/-! ## Abaci, packets, partitions, translation and placement -/

/-- An SPGRAD about to begin and one that has entries left, on shared memory without barrier objects; an idle core. -/
theorem witness_gradient_turns : [MxKind.grad (.shared 1 0) 0x10000 0x400000000040, .grads (.shared 1 0) [(0, 0x3F800000, false), (4, 0, true)] []].all (fun m =>
      let s := blk (fun k => { k with abaci := [(0, { k.abacus 0 with holder := some 0, queue := [⟨7, 0, m⟩] })] }) base
      ((s.block 1).map fun k => (k.st == .resident, (k.abacus 0).queue.map MxOp.kind == [m], k.bars.isEmpty)) == some (true, true, true)
        && (s.core 0).idle.isNone) = true := by decide +kernel

/-- The reads of a column and of a row's counters whose registers wait, one of them rewritten since. -/
theorem witness_abacus_reads : [(MxKind.cnt 143 true 4, Reg.s 4), (.rd 15 63 4 0xFFFFFFFF 0xFFFFFFFF, .v 4)].all (fun w => [0, 1].all fun ovr =>
      let s := grp (fun g => { g with pend := [⟨7, w.2, 0xFFFFFFFF, 7, ovr⟩] })
        (blk (fun k => { k with abaci := [(0, { k.abacus 0 with holder := some 0, tileBad := [tileKey 15 63 63], queue := [⟨7, 0, w.1⟩] })] }) base)
      (s.group 1 0).map (fun g => g.pend.map fun e => (e.id, e.ovr)) == some [(7, ovr)]) = true := by decide +kernel

/-- An MXST, with AMAX, of two rows of a tile with a poisoned entry, in a block without barrier objects. -/
theorem witness_poisoned_store : (let s := args [1, 0] (blk (fun k => { k with abaci := [(0, { k.abacus 0 with
        holder := some 0, tileBad := [tileKey 0 1 5], cellBad := [3], queue := [⟨7, 0, .st (.shared 1 0) (2 ^ 39 + 2 ^ 17 + 0x1100) [0, 1]⟩] })] }) base)
      (s.block 1).map fun k => (k.bars.isEmpty, (k.abacus 0).tileBad.length, (s.group 1 0).isSome)) = some (true, 1, true) := by decide +kernel

/-- A block whose save area has room, and one without an area. -/
theorem witness_save_area : base.saveSize (bootBlock 1) ≤ 2 ^ 30 ∧ base.savedAreas 0 0 = []
    ∧ ({ base with preempt := [(0, { Preempt.reset with psize := 2 ^ 30 })] }.pre 0 0).psize.toNat = 2 ^ 30
    ∧ ¬base.saveSize (bootBlock 1) ≤ (base.pre 0 0).psize.toNat := by decide +kernel

/-- A SIGNAL whose word a page denies, and one that waited at its record. -/
theorem witness_denied_signal : (match ((laned 0 []).sysWord 0 0 0x100 7 false), ({ laned 0 [] with
        mem := Memory.write base.mem 0x1000 (leBytes 8 (2 ^ 54 + 3)) } : State).sysWord 0 0 0x100 7 false with
      | (.ok _, _), (.deny _ _ _, _) => true
      | _, _ => false) = true
    ∧ ((laned 2 (packet 3 0 0x100 0 0 0)).lane 0).stage = 2 := by decide +kernel

/-- The stages of a create: a table that cannot be read, one that waits, one that does not name this member. -/
theorem witness_create_tables : (match ((laned 0 []).sysRead 0 0 0x200000 16).1, ({ laned 0 [] with mem := [] } : State).sysRead 0 0 0x100 16 |>.1,
        ((laned 0 []).sysRead 0 0 0x100 16).1 with
      | .none, .wait _ _, .ok bs => ((tableOf bs).all fun e => e.toNat % 2 ^ 52 < 8) && (laned 0 []).modid.toNat * 16 + 0 == ((tableOf bs).getD 1 0).toNat / 2 ^ 52
      | _, _, _ => false) = true
    ∧ (([0, 0, 0, 1, 2, 1, 0] ++ comm.members.map BitVec.toNat : List Nat).getD 6 0).testBit 4 = false
    ∧ [1, 3, 4, 5, 15, 16].all (fun st => ((laned st (packet 6 0 0x100 2 0x200 0x400)).lane 0).stage == st) = true := by decide +kernel

/-- A quadrant that a reset with scrub waits for, and one that it does not. -/
theorem witness_reset_scrub : (let s : State := { base with parts := [(0, { (base.part 0) with state := 2, resetWait := [0] })] }
      ((s.quad 0).state, (s.part (s.quad 0).part).resetWait)) = (2, [0])
    ∧ (base.part (base.quad 0).part).resetWait = [] := by decide +kernel

/-- A partition whose quadrant a checkpoint covers, and a quadrant that may leave, with an operation that will arrive on a pad object. -/
theorem witness_covered : (let s : State := { base with ckpt := { base.ckpt with busy := true, covers := 1 } }
      s.ckpt.busy && s.ckpt.covers.getLsbD 0 && (s.part 0).pquads.getLsbD 0) = true
    ∧ (let s : State := { base with blocks := [], grids := [], trees := [] }
      (s.blocks.isEmpty && (s.lane 0).state != 1 && !(s.quad 0).busy && (s.part 0).state != 2 && !s.ckpt.busy)) = true := by decide +kernel

/-- A lane of a CPS that is permitted and still to be performed, on a page that a checkpoint cleans. -/
theorem witness_redirtied : (let l := { laneOp 0x100 with put := true, asked := false, late := true, ready := [⟨0, 0x100, 0x100, 0, .key 0x100 0 none, false⟩] }
      let s := args [1] { dirtied with ops := [(7, operation (.lane l) [] false)], ckpt := { base.ckpt with busy := true, op := 2, pend := [(0, 0, 0)] } }
      (s.ops.find 7).isSome && l.ready.all fun y => decide (y.ia < 2 ^ 21)) = true := by decide +kernel

/-- A portable image at 0x100: the header of a checked kernel of one group, and a NOP, a BRA and the word `w`. -/
def imaged (w : Word) : State :=
  { base with mem := Memory.write base.mem 0x100 (leBytes 4 0x4B505359 ++ leBytes 2 1 ++ [1, 1, 1, 0xFF, 0xFF, 2] ++ leBytes 8 0 ++ leBytes 4 12
    ++ leBytes 4 0 ++ leBytes 4 64 ++ leBytes 32 0 ++ leBytes 4 0 ++ leBytes 4 0x07000001 ++ leBytes 4 w.toNat) }

/-- An image that can be read, with a JMPI and without; one whose word has an S bit. -/
theorem witness_translation : Permitted (imaged 0) 0 0x100 64 true false 0x100 ∧ Permitted (imaged 0) 0 0x100 76 true false 0x100
    ∧ headerBad (Memory.read (imaged 0).mem 0x100 64) true = none ∧ recNum (Memory.read (imaged 0).mem 0x100 64) 0x14 4 = 12
    ∧ (decodeWord 0x0B000500).toOption = some ⟨false, .jmpi 5⟩
    ∧ (imaged 0).padBars = [] ∧ (imaged 0).held (boxTag 0) = false ∧ ((imaged 0).box 0).busy = false := by
  refine ⟨⟨by decide, by decide, by decide, ?_⟩, ⟨by decide, by decide, by decide, ?_⟩, by decide +kernel, by decide +kernel, by decide +kernel,
    rfl, by decide +kernel, by decide +kernel⟩
  · intro x hx
    have : x = (0x100, 64) := by simpa [show lineParts 0x100 64 = [(0x100, 64)] by decide] using hx
    subst this
    exact ⟨0, by decide +kernel⟩
  · intro x hx
    have : x = (0x100, 76) := by simpa [show lineParts 0x100 76 = [(0x100, 76)] by decide] using hx
    subst this
    exact ⟨0, by decide +kernel⟩

/-- A block that resumes before one that its grid has still to place; a header of one core and one of two find cores. -/
theorem witness_core_choice : (let s := { base with
        grids := [(1, { bootGrid 1 with next := 0, record := List.replicate 24 0 ++ leBytes 4 1 ++ leBytes 4 2 ++ leBytes 96 1 })],
        blocks := [(1, { bootBlock 1 with st := .resuming })] }
      s.waitingBlocks.map Cand.resume == [some 1, none]
        && [1, 2].all fun n => (((s.modCore 1 fun _ => base.core 0).chooseCores (bootGrid 1) 1 { bootHeader with cores := n } (fun _ => 1) (fun _ => true)).map List.length) == some n) = true := by
  decide +kernel

/-- A word of a peer's page that a link that is up reaches. -/
theorem witness_peer_word : (let s : State := { base with links := [(0, 0x101)], parts := hosted.parts, mem := Memory.write base.mem 0x1000 (leBytes 8 (2 ^ 57 * 2 + 2 ^ 54 + 2 ^ 44 + 7)) }
      match s.curGroup with
      | some (k, g) => (s.answerer k g g.pc.toNat true, s.memSide 0 0x40 true false)
      | none => (none, .wait 0)) = (some 0x12, .ok (peerBase + 2 ^ 44 + 0x40) 0 none) := by decide +kernel

end Sys2Proof.Tests
end

section
/-! PROOF. The scalar integer words, and the branches, calls and jumps: what their functions compute, the ILLEGAL of a word that
is malformed itself, and the statements of R32, R81 to R83 and R97 to R100. -/

namespace Sys2Proof.Machine

/-! ## The functions of the scalar integer words -/

theorem toInt_signExtend_128 (a : U64) : (a.signExtend 128).toInt = a.toInt :=
  BitVec.toInt_signExtend_of_le (by decide)

theorem mulHiS_eq (a b : U64) :
    mulHiS a b = (a.signExtend 128 * b.signExtend 128).extractLsb' 64 64 := by
  have hp : a.signExtend 128 * b.signExtend 128 = BitVec.ofInt 128 (a.toInt * b.toInt) := by
    rw [BitVec.ofInt_mul, ← toInt_signExtend_128 a, ← toInt_signExtend_128 b, BitVec.ofInt_toInt, BitVec.ofInt_toInt]
  apply BitVec.eq_of_toNat_eq
  rw [hp, mulHiS, ofInt64, BitVec.extractLsb'_toNat, BitVec.toNat_ofInt, BitVec.toNat_ofInt, Nat.shiftRight_eq_div_pow]
  generalize a.toInt * b.toInt = p
  omega

theorem mulHiU_eq (a b : U64) :
    mulHiU a b = (a.setWidth 128 * b.setWidth 128).extractLsb' 64 64 := by
  have hlt : a.toNat * b.toNat < 2 ^ 128 := by
    have h := Nat.mul_lt_mul'' a.isLt b.isLt
    rwa [← Nat.pow_add] at h
  apply BitVec.eq_of_toNat_eq
  rw [mulHiU, BitVec.extractLsb'_toNat, BitVec.toNat_mul, BitVec.toNat_setWidth_of_le (by decide),
    BitVec.toNat_setWidth_of_le (by decide), Nat.mod_eq_of_lt hlt, BitVec.toNat_ofNat, Nat.shiftRight_eq_div_pow]

theorem divS_eq (a b : U64) : divS a b = if b = 0 then -1 else a.sdiv b := by
  unfold divS
  split
  · rfl
  · apply BitVec.eq_of_toInt_eq
    rw [ofInt64, BitVec.toInt_ofInt, BitVec.toInt_sdiv]

theorem divU_eq (a b : U64) : divU a b = if b = 0 then -1 else a / b := by
  rw [divU, BitVec.udiv_def]
  rfl

theorem remS_eq (a b : U64) : remS a b = if b = 0 then a else a.srem b := by
  rw [remS, ofInt64, ← BitVec.toInt_srem, BitVec.ofInt_toInt]

theorem remU_eq (a b : U64) : remU a b = if b = 0 then a else a % b := by
  rw [remU, BitVec.umod_def]

/-- A lesser operand chosen on a strict order, or on its converse. -/
theorem lesser_eq {p q : Prop} [Decidable p] [Decidable q] (x y : U64) (h : ¬q ↔ p) :
    (if decide p = true then y else x) = if q then x else y := by
  by_cases hq : q
  · have hp : ¬p := fun hp => h.mpr hp hq
    rw [decide_eq_false hp, if_neg Bool.false_ne_true, if_pos hq]
  · rw [decide_eq_true (h.mp hq), if_pos rfl, if_neg hq]

/-- A greater operand chosen on a strict order, or on the weak one, where operands in neither strict order are the same. -/
theorem greater_eq {p q : Prop} [Decidable p] [Decidable q] (x y : U64) (hpq : p → q) (heq : q → ¬p → x = y) :
    (if decide p = true then y else x) = if q then y else x := by
  by_cases hp : p
  · rw [decide_eq_true hp, if_pos rfl, if_pos (hpq hp)]
  · rw [decide_eq_false hp, if_neg Bool.false_ne_true]
    by_cases hq : q
    · rw [if_pos hq, heq hq hp]
    · rw [if_neg hq]

theorem smin_eq (x y : U64) : (if y.slt x then y else x) = if x.toInt ≤ y.toInt then x else y :=
  lesser_eq x y Int.not_le

theorem smax_eq (x y : U64) : (if x.slt y then y else x) = if x.toInt ≤ y.toInt then y else x :=
  greater_eq x y Int.le_of_lt fun hle hlt => BitVec.eq_of_toInt_eq (Int.le_antisymm hle (Int.not_lt.mp hlt))

theorem sminn_eq (x y : U64) : (if y.ult x then y else x) = if x.toNat ≤ y.toNat then x else y :=
  lesser_eq x y Nat.not_le

theorem smaxn_eq (x y : U64) : (if x.ult y then y else x) = if x.toNat ≤ y.toNat then y else x :=
  greater_eq x y Nat.le_of_lt fun hle hlt => BitVec.eq_of_toNat_eq (Nat.le_antisymm hle (Nat.not_lt.mp hlt))

theorem sunPopc_eq (x : U64) :
    BitVec.ofNat 64 (popCount 64 x.toNat) = BitVec.ofNat 64 ((List.range 64).countP fun k => x.getLsbD k) := by
  rw [popCount, List.countP_eq_length_filter]
  rfl

/-- The first set bit from the top is that of the binary logarithm. -/
theorem leadZeros_eq_find? (w v : Nat) (hv : v < 2 ^ w) :
    leadZeros w v = ((List.range w).find? fun k => v.testBit (w - 1 - k)).getD w := by
  unfold leadZeros
  rw [Nat.mod_eq_of_lt hv]
  by_cases h0 : v = 0
  · have hnone : (List.range w).find? (fun k => v.testBit (w - 1 - k)) = none := by simp [h0]
    rw [hnone, if_pos h0, Option.getD_none]
  · have hlog : v.log2 < w := (Nat.log2_lt h0).mpr hv
    have hfind : (List.range w).find? (fun k => v.testBit (w - 1 - k)) = some (w - 1 - v.log2) := by
      rw [List.find?_range_eq_some]
      refine ⟨?_, List.mem_range.mpr (by omega), fun j hj => ?_⟩
      · rw [show w - 1 - (w - 1 - v.log2) = v.log2 by omega]
        exact Nat.testBit_log2 h0
      · have hbit : v < 2 ^ (w - 1 - j) := (Nat.log2_lt h0).mp (by omega)
        simp [Nat.testBit_lt_two_pow hbit]
    simp [h0, hfind]

/-- The bits of a number built from a list of bits, the first highest. -/
theorem testBit_foldl_bits (f : Nat → Bool) (n k : Nat) :
    ((List.range n).foldl (fun r i => 2 * r + (if f i then 1 else 0)) 0).testBit k = (decide (k < n) && f (n - 1 - k)) := by
  induction n generalizing k with
  | zero => simp
  | succ n ih =>
    rw [List.range_succ, List.foldl_append, List.foldl_cons, List.foldl_nil]
    generalize (List.range n).foldl (fun r i => 2 * r + (if f i then 1 else 0)) 0 = r at ih ⊢
    cases k with
    | zero => cases h : f n <;> simp [h, Nat.testBit_zero]
    | succ k =>
      have hdiv : (2 * r + if f n then 1 else 0) / 2 = r := by split <;> omega
      rw [Nat.testBit_succ, hdiv, ih, show n + 1 - 1 - (k + 1) = n - 1 - k by omega]
      simp

theorem sunBrev_eq (x : U64) : BitVec.ofNat 64 (bitRev 64 x.toNat) = x.reverse := by
  apply BitVec.eq_of_getLsbD_eq
  intro k hk
  rw [BitVec.getLsbD_ofNat, BitVec.getLsbD_reverse, bitRev, testBit_foldl_bits, BitVec.getMsbD]
  simp [hk, BitVec.testBit_toNat]

theorem sunAbs_eq (x : U64) : (if x.slt 0 then 0 - x else x) = if x.toInt < 0 then -x else x := by
  simp [BitVec.slt_eq_decide]

/-- The digits of a little-endian number. -/
theorem leNat_div_mod (bs : List Byte) (k : Nat) : leNat bs / 256 ^ k % 256 = (bs.getD k 0).toNat := by
  induction bs generalizing k with
  | nil => simp [leNat]
  | cons b r ih =>
    have hb : b.toNat < 256 := b.isLt
    cases k with
    | zero => simp [leNat, Nat.add_mul_mod_self_left, Nat.mod_eq_of_lt hb]
    | succ k =>
      have hdiv : (b.toNat + 256 * leNat r) / 256 = leNat r := by omega
      rw [leNat, Nat.pow_succ', ← Nat.div_div_eq_div_mul, hdiv, ih]
      simp

theorem leNat_lt (bs : List Byte) : leNat bs < 256 ^ bs.length := by
  induction bs with
  | nil => simp [leNat]
  | cons b r ih =>
    have hb : b.toNat < 256 := b.isLt
    rw [leNat, List.length_cons, Nat.pow_succ']
    omega

theorem length_leBytes (n v : Nat) : (leBytes n v).length = n := by
  induction n generalizing v with
  | zero => rfl
  | succ n ih => rw [leBytes, List.length_cons, ih]

theorem getD_leBytes (n v k : Nat) (hk : k < n) : ((leBytes n v).getD k 0).toNat = v / 256 ^ k % 256 := by
  induction n generalizing v k with
  | zero => omega
  | succ n ih =>
    cases k with
    | zero => simp [leBytes]
    | succ k =>
      rw [leBytes, List.getD_cons_succ, ih _ _ (by omega), Nat.div_div_eq_div_mul, Nat.pow_succ']

/-- The bytes of a number in reverse order. -/
theorem elem_byteSwap (x : U64) (k : Nat) (hk : k < 8) :
    elem 8 k (BitVec.ofNat 64 (leNat (leBytes 8 x.toNat).reverse)) = elem 8 (7 - k) x := by
  have hlen : (leBytes 8 x.toNat).reverse.length = 8 := by rw [List.length_reverse, length_leBytes]
  have hlt : leNat (leBytes 8 x.toNat).reverse < 2 ^ 64 := by
    have h := leNat_lt (leBytes 8 x.toNat).reverse
    rw [hlen] at h
    exact h
  have hpow (j : Nat) : 2 ^ (8 * j) = 256 ^ j := Nat.pow_mul 2 8 j
  have hrev : (leBytes 8 x.toNat).reverse.getD k 0 = (leBytes 8 x.toNat).getD (7 - k) 0 := by
    rw [List.getD_eq_getElem?_getD, List.getD_eq_getElem?_getD,
      List.getElem?_reverse (by rw [length_leBytes]; exact hk), length_leBytes]
  rw [elem, elem, BitVec.toNat_ofNat, Nat.mod_eq_of_lt hlt, hpow, hpow, show 2 ^ 8 = 256 from rfl, leNat_div_mod, hrev,
    getD_leBytes _ _ _ (by omega)]

/-- Two words side by side as a number. -/
theorem toNat_append_eq_add {m n : Nat} (x : BitVec m) (y : BitVec n) :
    (x ++ y).toNat = x.toNat * 2 ^ n + y.toNat := by
  rw [BitVec.toNat_append, ← Nat.shiftLeft_add_eq_or_of_lt y.isLt, Nat.shiftLeft_eq]

theorem slih_eq (i x : U64) :
    BitVec.ofNat 64 (i.toNat % 2 ^ 32 * 2 ^ 32 + x.toNat % 2 ^ 32) = i.extractLsb' 0 32 ++ x.extractLsb' 0 32 := by
  apply BitVec.eq_of_toNat_eq
  rw [toNat_append_eq_add, BitVec.extractLsb'_toNat, BitVec.extractLsb'_toNat, BitVec.toNat_ofNat]
  exact Nat.mod_eq_of_lt (by omega)

/-- The relations of SCMP as a list, where equality is `eq` and the orders are as those of integers (R99). -/
theorem relation_eq_getD (n : Nat) (hn : n ≤ 5) {eq : Bool} {lt le gt ge : Prop} [Decidable lt] [Decidable le] [Decidable gt]
    [Decidable ge] (hle : le ↔ lt ∨ eq = true) (hgt : gt ↔ ¬le) (hge : ge ↔ ¬lt) :
    relation n eq (decide lt) = [eq, !eq, decide lt, decide le, decide gt, decide ge].getD n false := by
  have hle' : decide le = (decide lt || eq) :=
    Bool.eq_iff_iff.mpr (by rw [Bool.or_eq_true, decide_eq_true_iff, decide_eq_true_iff, hle])
  have hgt' : decide gt = (!decide lt && !eq) := by rw [← Bool.not_or, ← hle', ← decide_not, decide_eq_decide, hgt]
  have hge' : decide ge = !decide lt := by rw [← decide_not, decide_eq_decide, hge]
  rw [hle', hgt', hge']
  match n with
  | 0 => rfl
  | 1 => rfl
  | 2 => rfl
  | 3 => rfl
  | 4 => rfl
  | 5 => rfl

/-- R99: the relations of SCMP on signed operands. -/
theorem relation_toInt (n : Nat) (hn : n ≤ 5) (a b : U64) :
    relation n (a == b) (a.slt b) =
      let x := a.toInt
      let y := b.toInt
      [x == y, x != y, decide (x < y), decide (x ≤ y), decide (y < x), decide (y ≤ x)].getD n false := by
  have heq : (a == b) = (a.toInt == b.toInt) :=
    Bool.eq_iff_iff.mpr (by rw [beq_iff_eq, beq_iff_eq, BitVec.toInt_inj])
  rw [heq, BitVec.slt_eq_decide]
  exact relation_eq_getD n hn (by rw [beq_iff_eq]; omega) Int.not_le.symm Int.not_lt.symm

/-- R99: the relations of SCMPN on unsigned operands. -/
theorem relation_toNat (n : Nat) (hn : n ≤ 5) (a b : U64) :
    relation n (a == b) (a.ult b) =
      let x := a.toNat
      let y := b.toNat
      [x == y, x != y, decide (x < y), decide (x ≤ y), decide (y < x), decide (y ≤ x)].getD n false := by
  have heq : (a == b) = (a.toNat == b.toNat) :=
    Bool.eq_iff_iff.mpr (by rw [beq_iff_eq, beq_iff_eq, BitVec.toNat_inj])
  rw [heq, BitVec.ult_eq_decide]
  exact relation_eq_getD n hn (by rw [beq_iff_eq]; omega) Nat.not_le.symm Nat.not_lt.symm

/-! ## A word that raises ILLEGAL before it issues -/

/-- R88: a group outside handler state whose kernel has a handler enters it. -/
theorem State.trap_of_handler {s : State} {b gid : Nat} {k : Block} {g : Group} (hk : s.block b = some k)
    (hg : k.groups.find gid = some g) (hs : g.handler = false) (ht : (s.hdr k).trap ≠ 0) (cause : BitVec 8) (info : U64) :
    s.trap b gid cause info = (s.unlock g.core g.slot).modGroup b gid fun g =>
      g.enter cause info (BitVec.ofNat 64 (s.kernelBase k + (s.hdr k).trap)) := by
  simp [State.trap, hk, hg, hs, ht]

/-- R89: in handler state, or without a handler, the block is aborted. -/
theorem State.trap_of_no_handler {s : State} {b gid : Nat} {k : Block} {g : Group} (hk : s.block b = some k)
    (hg : k.groups.find gid = some g) (h : g.handler = true ∨ (s.hdr k).trap = 0) (cause : BitVec 8) (info : U64) :
    s.trap b gid cause info = s.abortBlock b 1 cause info g.core := by
  simp [State.trap, hk, hg, h]

/-- A word that ends in a trap of its group, which stands as it stood before the word. -/
theorem traps_of_exec {i : Instr} {s : State} {c : Ctx} {cause : BitVec 8} {info : U64}
    (hcur : s.cur = some (c.blk, c.gid)) (hg : s.curGroup = some (c.k, c.g)) (hh : c.h = s.hdr c.k)
    (he : exec i s = .next ((s.modGroup c.blk c.gid fun _ => c.g).trap c.blk c.gid cause info)) : Traps i s c cause info := by
  obtain ⟨hblk, hgrp⟩ := State.group_of_curGroup hcur hg
  have hiss : s.issuer = some c.g := by rw [State.issuer, hg, Option.map_some]
  have hfind : c.k.groups.find c.gid = some c.g := by simpa [State.group, hblk] using hgrp
  have hk := State.block_modGroup hblk c.gid fun _ => c.g
  have hfind' : (c.k.groups.adj c.gid fun _ => c.g).find c.gid = some c.g := by simp [Table.find_adj, hfind]
  have hout := State.modGroup_outside s c.blk c.gid fun _ => c.g
  have hothers : OthersKept s (s.modGroup c.blk c.gid fun _ => c.g) c := fun b gid hne => by
    rw [State.group_modGroup, if_neg hne]
  have hself : (s.modGroup c.blk c.gid fun _ => c.g).group c.blk c.gid = some c.g := by
    simp [State.group_modGroup, hgrp]
  generalize hu : (s.modGroup c.blk c.gid fun _ => c.g) = u at *
  have hhdr : u.hdr { c.k with groups := c.k.groups.adj c.gid fun _ => c.g } = c.h := by rw [hh, ← hu]; rfl
  have hbase : u.kernelBase { c.k with groups := c.k.groups.adj c.gid fun _ => c.g } = s.kernelBase c.k := by rw [← hu]; rfl
  have hgrids : u.grids = s.grids := by rw [← hu]; rfl
  refine ⟨fun ⟨hs, ht⟩ => ?_, fun h => ?_⟩
  · have htrap := State.trap_of_handler hk hfind' hs (by rwa [hhdr]) cause info
    rw [hhdr, hbase] at htrap
    refine ⟨_, he, c.g, c.g.enter cause info (s.handlerOf c), hiss, ?_, rfl, rfl, rfl, fun x l _ => by cases x <;> rfl,
      fun b gid hne => ?_, ?_⟩ <;> rw [htrap]
    · rw [State.group_modGroup, if_pos ⟨rfl, rfl⟩, State.unlock_group, hself]
      rfl
    · rw [State.group_modGroup, if_neg hne, State.unlock_group]
      exact hothers b gid hne
    · exact (hout.trans (State.unlock_outside _ _ _)).trans (State.modGroup_outside _ _ _ _)
  · have habort := State.abortBlock_spec u hk 1 cause info c.g.core
    rw [← State.trap_of_no_handler hk hfind' (by rwa [hhdr])] at habort
    refine ⟨_, he, habort.1, fun g hgi => ?_⟩
    obtain rfl : c.g = g := by simpa [hiss] using hgi
    rw [habort.2, hgrids]

/-- In a bundle of one word, the first malformed word is the instruction's own. -/
theorem malformed_empty {pc : U64} {i : Instr} (hi : i.wellFormed = false) (w : Word) (sh : Shape) (ty : Nat) (h : Header) :
    malformed (Bundle.empty pc) i w sh ty h = some w := by
  simp [malformed, Bundle.empty, Bundle.orphan, unusable, Bundle.ranked, earliest, hi]

theorem wordFault_of_malformed {i : Instr} {s : State} {kb : Block} {g : Group} (hi : i.wellFormed = false)
    (hb : g.bundle = Bundle.empty g.pc) :
    wordFault i s kb g = some (.trap cILLEGAL (((encode ⟨s.mark, i⟩).getD 0).setWidth 64) g) := by
  simp only [wordFault, hb, malformed_empty hi]

theorem admission_of_malformed {i : Instr} {s : State} {kb : Block} {g : Group} (hi : i.wellFormed = false)
    (hb : g.bundle = Bundle.empty g.pc) (hr : Ready i s kb g) (blk gid : Nat) :
    admission i s kb g blk gid = .trap cILLEGAL (((encode ⟨s.mark, i⟩).getD 0).setWidth 64) g := by
  obtain ⟨hpark, hstall⟩ := hr
  unfold admission
  simp only [hpark, hstall, wordFault_of_malformed hi hb, Bool.false_eq_true, if_false]

/-- The word of an instruction as a number. -/
theorem encode_toNat {i : Instr} {n : Nat} (hn : encodeLow i = some n) (hp : i.isPrefix = false) (hlt : n < 2 ^ 31) (m : Bool) :
    ∃ w, encode ⟨m, i⟩ = some w ∧ w.toNat = n + if m = true then 2 ^ 31 else 0 := by
  refine ⟨_, by rw [encode, hp, Bool.and_false, if_neg Bool.false_ne_true, hn]; rfl, ?_⟩
  rw [BitVec.toNat_ofNat, markBit]
  cases m <;> simp <;> omega

/-- R20: the word of an instruction from its major and its three fields of 8 bits. -/
theorem encodes_of {i : Instr} {major : BitVec 7} {f1 f2 f3 : BitVec 8} (hp : i.isPrefix = false)
    (hn : encodeLow i = some (major.toNat * 2 ^ 24 + f1.toNat * 2 ^ 16 + f2.toNat * 2 ^ 8 + f3.toNat)) :
    Encodes i major f1 f2 f3 := by
  intro m
  obtain ⟨w, hw, hnum⟩ := encode_toNat hn hp (by omega) m
  rw [hw, Option.some_inj]
  apply BitVec.eq_of_toNat_eq
  simp only [hnum, toNat_append_eq_add]
  cases m <;> simp <;> omega

/-- R26: a malformed word whose group is ready raises ILLEGAL. -/
theorem raisesIllegal_of_malformed {i : Instr} {n : Nat} {body : Ctx → State → Res} (hn : encodeLow i = some n)
    (hp : i.isPrefix = false) (hlt : n < 2 ^ 31) (he : ∀ s, exec i s = issue i body s) (hi : i.wellFormed = false) :
    RaisesIllegal i := by
  intro s c n' hn' hcur hg hh hb hr
  obtain rfl : n = n' := by simpa [hn] using hn'
  obtain ⟨w, hw, hnum⟩ := encode_toNat hn hp hlt s.mark
  have hinfo : w.setWidth 64 = BitVec.ofNat 64 (n + if s.mark = true then 2 ^ 31 else 0) := by
    rw [← hnum, BitVec.ofNat_toNat]
  refine traps_of_exec hcur hg hh ?_
  rw [he, issue, hcur, hg]
  simp only [issueWord, admission_of_malformed hi hb hr, hw, Option.getD_some, hinfo]
  rfl

/-! ## The scalar integer words -/

/-- A word in the SS format writes the value of its function to sd. -/
theorem writesScalar_of_ssBody {i : Instr} {f : U64 → U64 → U64} {s : State} {c : Ctx} (h : Issues i s c)
    (he : exec i s = issue i (ssBody f) s) : WritesScalar i s c (f (c.g.getS c.n2) (c.g.getS c.n3)) :=
  writesScalar_of h he fun _ _ => rfl

/-- SUN writes the value of its function to sd. -/
theorem writesScalar_of_sunBody {i : Instr} {f : U64 → U64} {s : State} {c : Ctx} (h : Issues i s c)
    (he : exec i s = issue i (sunBody f) s) : WritesScalar i s c (f (c.g.getS c.n2)) :=
  writesScalar_of h he fun _ _ => rfl

/-- The meaning of an SS word depends on the values of its function alone. -/
theorem issue_ssBody_congr {i : Instr} {f f' : U64 → U64 → U64} (h : ∀ x y, f x y = f' x y) (s : State) :
    issue i (ssBody f) s = issue i (ssBody f') s := by
  rw [show f = f' from funext fun x => funext (h x)]

theorem issue_sunBody_congr {i : Instr} {f f' : U64 → U64} (h : ∀ x, f x = f' x) (s : State) :
    issue i (sunBody f) s = issue i (sunBody f') s := by
  rw [show f = f' from funext h]

theorem exec_scalarBinary : ∀ p ∈ scalarBinary, ∀ (d a b : BitVec 8) (s : State),
    exec (p.1 d a b) s = issue (p.1 d a b) (ssBody p.2) s := by
  simp only [scalarBinary, List.forall_mem_cons]
  exact ⟨fun _ _ _ _ => rfl, fun _ _ _ _ => rfl, fun _ _ _ _ => rfl,
    fun _ _ _ => issue_ssBody_congr mulHiS_eq,
    fun _ _ _ => issue_ssBody_congr mulHiU_eq,
    fun _ _ _ => issue_ssBody_congr divS_eq,
    fun _ _ _ => issue_ssBody_congr divU_eq,
    fun _ _ _ => issue_ssBody_congr remS_eq,
    fun _ _ _ => issue_ssBody_congr remU_eq,
    fun _ _ _ _ => rfl, fun _ _ _ _ => rfl, fun _ _ _ _ => rfl, fun _ _ _ _ => rfl, fun _ _ _ _ => rfl,
    fun _ _ _ _ => rfl,
    fun _ _ _ => issue_ssBody_congr smin_eq,
    fun _ _ _ => issue_ssBody_congr smax_eq,
    fun _ _ _ => issue_ssBody_congr sminn_eq,
    fun _ _ _ => issue_ssBody_congr smaxn_eq,
    List.forall_mem_nil _⟩

theorem exec_scalarUnary : ∀ p ∈ scalarUnary, ∀ (d a : BitVec 8) (s : State),
    exec (p.1 d a) s = issue (p.1 d a) (sunBody p.2) s := by
  simp only [scalarUnary, List.forall_mem_cons]
  exact ⟨fun _ _ => issue_sunBody_congr sunPopc_eq,
    fun _ _ => issue_sunBody_congr fun x => congrArg (BitVec.ofNat 64) (leadZeros_eq_find? 64 x.toNat x.isLt),
    fun _ _ _ => rfl,
    fun _ _ => issue_sunBody_congr sunBrev_eq,
    fun _ _ _ => rfl,
    fun _ _ => issue_sunBody_congr fun x => BitVec.zero_sub x,
    fun _ _ => issue_sunBody_congr sunAbs_eq,
    List.forall_mem_nil _⟩

/-- R97: the two-operand scalar words. -/
theorem scalarWordResults : ScalarWordResults :=
  fun p hp d a b s _ h => writesScalar_of_ssBody h (exec_scalarBinary p hp d a b s)

/-- R98 to R100: the immediate, comparing and one-operand scalar words, and SSEL. -/
theorem scalarMoveResults : ScalarMoveResults := by
  refine ⟨?unary, ?bswap, ?ssel, ?saddi, ?sli, ?slih, ?scmp, ?scmpn⟩
  case unary => exact fun p hp d a s _ h => writesScalar_of_sunBody h (exec_scalarUnary p hp d a s)
  case bswap =>
    exact fun d a s c h => ⟨_, writesScalar_of_sunBody h rfl, elem_byteSwap (c.g.getS c.n2)⟩
  case ssel =>
    refine fun d a b s c h => writesScalar_of h rfl fun _ _ => ?_
    simp only [ne_eq, ite_not]
  case saddi => exact fun d a n s c h => writesScalar_of h rfl fun _ _ => rfl
  case sli => exact fun d n s c h => writesScalar_of h rfl fun _ _ => rfl
  case slih =>
    refine fun d n s c h => writesScalar_of h rfl fun _ _ => ?_
    rw [slih_eq]
  case scmp =>
    intro d a f s c h
    obtain ⟨hf, _⟩ := h.wellFormed
    refine writesScalar_of h rfl fun _ _ => ?_
    rw [sfBody, relation_toInt _ (of_decide_eq_true hf)]
    rfl
  case scmpn =>
    intro d a f s c h
    obtain ⟨hf, _⟩ := h.wellFormed
    refine writesScalar_of h rfl fun _ _ => ?_
    rw [sfBody, relation_toNat _ (of_decide_eq_true hf)]
    rfl

/-- R99: the words of SCMP and SCMPN, and the relations that they do not have. -/
theorem compareWordFormats : CompareWordFormats := by
  intro d a f
  have hlow : encodeLow (.scmp d a f) = some ((0x27#7).toNat * 2 ^ 24 + d.toNat * 2 ^ 16 + a.toNat * 2 ^ 8 + f.toNat) := rfl
  have hlown : encodeLow (.scmpn d a f) = some ((0x28#7).toNat * 2 ^ 24 + d.toNat * 2 ^ 16 + a.toNat * 2 ^ 8 + f.toNat) := rfl
  refine ⟨encodes_of rfl hlow, encodes_of rfl hlown, fun hf => ?_⟩
  have hbad : decide (f.toNat ≤ 5) = false := decide_eq_false (by omega)
  exact ⟨raisesIllegal_of_malformed hlow rfl (by omega) (fun _ => rfl) hbad,
    raisesIllegal_of_malformed hlown rfl (by omega) (fun _ => rfl) hbad⟩

/-- Settles O1: each word's function is the stated one, and a relation that is not allocated makes SCMP and SCMPN
malformed. -/
theorem scalarIntegerWords : Obligations.ScalarIntegerWords :=
  ⟨scalarWordResults, scalarMoveResults, compareWordFormats⟩

/-! ## Branches, calls and jumps -/

/-- The low bits of a field as a signed number. -/
theorem sext_toNat {n : Nat} (o : BitVec n) : sext n o.toNat = o.toInt := by
  rw [sext, Nat.mod_eq_of_lt o.isLt, BitVec.toInt_eq_toNat_cond]
  by_cases h : 2 * o.toNat < 2 ^ n
  · rw [if_neg (Nat.not_le.mpr h), if_pos h]
  · rw [if_pos (Nat.not_lt.mp h), if_neg h, Int.natCast_pow]
    rfl

/-- R21, R81: a branch's target, from its signed offset in words. -/
theorem Ctx.target_eq {n : Nat} (c : Ctx) (o : BitVec n) : c.target n o.toNat = c.g.pc + 4 * o.signExtend 64 := by
  rw [Ctx.target, sext_toNat, ofInt64, BitVec.ofInt_mul]
  rfl

/-- R82: the four conditions of BRM as a list. -/
theorem brmHolds_eq_getD (k : Nat) (hk : k ≤ 3) (p live : BitVec 32) :
    brmHolds k p live =
      [p &&& live != 0, p &&& live == live, p &&& live == 0, p &&& live != live].getD k false := by
  match k with
  | 0 => rfl
  | 1 => rfl
  | 2 => rfl
  | 3 => rfl

/-- R81: a word that goes to `a` when `p` holds, otherwise to the next word. -/
theorem goesTo_of_branch {i : Instr} {body : Ctx → State → Res} {s : State} {c : Ctx} {p : Prop} [Decidable p] {a : U64}
    (h : Issues i s c) (he : exec i s = issue i body s)
    (hb : ∀ g0 free, body c (s.withGroup c.blk c.gid g0 free) =
      .done (s.withGroup c.blk c.gid g0 free) (if p then some a else none)) :
    GoesTo i s c (if p then a else c.g.pc + 4) := by
  have hgo := goesTo_of h he hb
  rwa [apply_ite (Option.getD · (c.g.pc + 4)), Option.getD_some, Option.getD_none] at hgo

/-- R32, R81, R82: NOP and the branches. -/
theorem branchTargets : BranchTargets := by
  refine ⟨?nop, ?bra, ?brs, ?brm⟩
  case nop => exact fun s c h => goesTo_of (jump := none) h rfl fun _ _ => rfl
  case bra =>
    intro o s c h
    rw [← Ctx.target_eq]
    exact goesTo_of (jump := some _) h rfl fun _ _ => rfl
  case brs =>
    intro a o s c h
    rw [← Ctx.target_eq, ← ite_not]
    exact goesTo_of_branch h rfl fun _ _ => rfl
  case brm =>
    intro p k o s c h
    obtain ⟨hk, _⟩ := h.wellFormed
    dsimp only
    rw [← Ctx.target_eq, ← brmHolds_eq_getD _ (of_decide_eq_true hk)]
    exact goesTo_of_branch h rfl fun _ _ => rfl

/-- R82: the conditions that BRM has, and those that it does not have. -/
theorem branchConditions : BranchConditions := by
  intro p k o
  have hiff : (Instr.brm p k o).wellFormed = true ↔ k.toNat < 4 := decide_eq_true_iff.trans Nat.lt_succ_iff.symm
  refine ⟨hiff, fun hk => ?_⟩
  have hbad : (Instr.brm p k o).wellFormed = false := Bool.eq_false_iff.mpr fun h => absurd (hiff.mp h) (by omega)
  exact raisesIllegal_of_malformed rfl rfl (by omega) (fun _ => rfl) hbad

/-- A word that writes a value to the scalar register of field F1 and goes on at an address. -/
theorem writesScalar_jump_of {i : Instr} {body : Ctx → State → Res} {s : State} {c : Ctx} {v : U64} {jump : Option U64}
    (h : Issues i s c) (he : exec i s = issue i body s)
    (hb : ∀ g0 free, body c (s.withGroup c.blk c.gid g0 free) =
      .done ((s.withGroup c.blk c.gid g0 free).modGroup c.blk c.gid fun g => g.setS c.n1 v) jump) :
    ∃ t, exec i s = .next t ∧ RegistersOnly s t c (jump.getD (c.g.pc + 4)) [.s c.n1] c.g.specials
      ∧ ∀ l, t.regAfter c (.s c.n1) l = if c.n1 = 0 then 0 else v := by
  obtain ⟨t, g0, ht, hr, _, _, hv⟩ := issue_upd (dst := [.s c.n1]) (sp := c.g.specials) h hb
    (fun g hg => by obtain ⟨_, _, e⟩ := Group.setS_eq g c.n1 v; rw [e, ← hg]; rfl)
    (fun g => by obtain ⟨_, _, e⟩ := Group.setS_eq g c.n1 v; rw [e])
    (fun g x hx l _ => Group.setS_lane g c.n1 v l (by simpa using hx))
  refine ⟨t, he ▸ ht, hr, fun l => ?_⟩
  rw [hv]
  by_cases h0 : c.n1 = 0 <;> simp [Group.lane, Group.getS_setS, h0]

/-- R81: CALL writes the address of the next word and goes to its target. -/
theorem callResults (d : BitVec 8) (o : BitVec 16) (s : State) (c : Ctx) (h : Issues (.call d o) s c) :
    ∃ t, exec (.call d o) s = .next t
      ∧ RegistersOnly s t c (c.g.pc + 4 * o.signExtend 64) [.s c.n1] c.g.specials
      ∧ t.regAfter c (.s c.n1) 0 = if c.n1 = 0 then 0 else c.g.pc + 4 := by
  rw [← Ctx.target_eq]
  obtain ⟨t, ht, hr, hv⟩ := writesScalar_jump_of (jump := some _) h rfl fun _ _ => rfl
  exact ⟨t, ht, hr, hv 0⟩

/-- R83: a word that jumps to the address in its register. -/
theorem jumpResults {i : Instr} {s : State} {c : Ctx} (h : Issues i s c) (he : exec i s = issue i jumpBody s) :
    let v := c.g.getS c.n2
    (v.toNat % 4 = 0 → GoesTo i s c v) ∧ (v.toNat % 4 ≠ 0 → Traps i s c 0x05 v) := by
  refine ⟨fun hv => ?_, fun hv => ?_⟩
  · exact goesTo_of (jump := some _) h he fun _ _ => if_neg (not_not_intro hv)
  · exact traps_of h he fun _ _ => if_pos hv

theorem callsAndJumps : CallsAndJumps := by
  refine ⟨callResults, ?_⟩
  simp only [List.forall_mem_cons]
  exact ⟨fun _ _ _ h => jumpResults h rfl, fun _ _ _ h => jumpResults h rfl, List.forall_mem_nil _⟩

/-- Settles O3: each word ends in its target or, for a jump to no word's address, in MISALIGN; a condition that is not allocated
makes BRM malformed. -/
theorem branchesAndJumps : Obligations.BranchesAndJumps := ⟨branchTargets, branchConditions, callsAndJumps⟩

end Sys2Proof.Machine
end

section
/-! PROOF. The vector integer words: each writes its result element by element in the active lanes (R109, R111, R116 to R119). -/

namespace Sys2Proof.Machine

/-! ## Words that compute element by element -/

theorem elem_lt (w e : Nat) (x : U64) : elem w e x < 2 ^ w := Nat.mod_lt _ (Nat.two_pow_pos w)

theorem codeA_lt (c : Ctx) (l e : Nat) : codeA c l e < 2 ^ typeWidth c.ty := elem_lt _ _ _

/-- A word on the elements of va and vb, by a function of the context that agrees with `f'` on codes. -/
theorem writesElems_of_vvBody {i : Instr} {f : Ctx → Nat → Nat → Nat → Nat} {f' : Nat → Nat → Nat} {s : State} {c : Ctx}
    (h : Issues i s c) (he : exec i s = issue i (fun c s => vvBody (f c) c s) s)
    (hf : ∀ x y, x < 2 ^ typeWidth c.ty → f c c.ty x y = f' x y) :
    WritesElems i s c fun l e => f' (codeA c l e) (codeB c l e) := by
  simp only [← hf _ _ (codeA_lt c _ _)]
  exact writesElems_of h he fun _ _ => rfl

/-- A word on the elements of vd, va and vb. -/
theorem writesElems_of_vvvBody {i : Instr} {f : Ctx → Nat → Nat → Nat → Nat → Nat} {s : State} {c : Ctx}
    (h : Issues i s c) (he : exec i s = issue i (fun c s => vvvBody (f c) c s) s) :
    WritesElems i s c fun l e => f c c.ty (codeD c l e) (codeA c l e) (codeB c l e) :=
  writesElems_of h he fun _ _ => rfl

/-- A word on the elements of va, by a function of the context that agrees with `f'` on codes. -/
theorem writesElems_of_vfBody {i : Instr} {f : Ctx → Nat → Nat → Nat} {f' : Nat → Nat} {s : State} {c : Ctx}
    (h : Issues i s c) (he : exec i s = issue i (fun c s => vfBody (f c) c s) s)
    (hf : ∀ x, x < 2 ^ typeWidth c.ty → f c c.ty x = f' x) : WritesElems i s c fun l e => f' (codeA c l e) := by
  simp only [← hf _ (codeA_lt c _ _)]
  exact writesElems_of h he fun _ _ => rfl

/-- A bitwise word on va and vb. -/
theorem writesLanes_of_bitsBody {i : Instr} {f : U64 → U64 → U64} {s : State} {c : Ctx} (h : Issues i s c)
    (he : exec i s = issue i (bitsBody f) s) : WritesLanes i s c fun l => f (c.g.getV c.n2 l) (c.vb l) :=
  writesLanes_of h he fun _ _ => rfl

/-! ## The functions of the vector integer words -/

theorem shrElem_eq {t x : Nat} (n : Nat) (hx : x < 2 ^ typeWidth t) : shrElem t x n = x / 2 ^ n := by
  rw [shrElem, Nat.mod_eq_of_lt hx]

theorem popCount_eq_countP (w x : Nat) : popCount w x = (List.range w).countP fun k => x.testBit k :=
  List.countP_eq_length_filter.symm

theorem testBit_bitRev (w x k : Nat) (hk : k < w) : (bitRev w x).testBit k = x.testBit (w - 1 - k) := by
  rw [bitRev, testBit_foldl_bits, decide_eq_true hk, Bool.true_and]

/-! ## The words -/

/-- R116, R117: the two-operand words. -/
theorem vectorInteger_writes (s : State) (c : Ctx) (d a b : BitVec 8) : ∀ p ∈ vectorInteger, Issues (p.1 d a b) s c →
    WritesElems (p.1 d a b) s c fun l e => p.2 c.m.sat c.ty (codeA c l e) (codeB c l e) := by
  simp only [vectorInteger, List.forall_mem_cons]
  refine ⟨?vadd, ?vsub, ?vadds, ?vsubs, ?vmul, ?vmulh, ?vmin, ?vmax, ?vabsd, ?vshl, ?vshr, ?vsar, List.forall_mem_nil _⟩
  case vshr => exact fun h => writesElems_of_vvBody h rfl fun _ _ hx => shrElem_eq _ hx
  all_goals exact fun h => writesElems_of_vvBody h rfl fun _ _ _ => rfl

/-- R109, R111, R116, R117: the two-operand words, VMAD and the bitwise words. -/
theorem vectorIntegerResults : VectorIntegerResults := by
  refine fun s c d a b => ⟨vectorInteger_writes s c d a b, ?vmad, ?vand, ?vor, ?vxor⟩
  case vmad => exact fun h => writesElems_of_vvvBody h rfl
  all_goals exact fun h => writesLanes_of_bitsBody h rfl

/-- R119: the one-operand words. -/
theorem vectorBits_writes (s : State) (c : Ctx) (d a : BitVec 8) : ∀ p ∈ vectorBits, Issues (p.1 d a) s c →
    WritesElems (p.1 d a) s c fun l e => p.2 c.m.sat c.ty (codeA c l e) := by
  simp only [vectorBits, List.forall_mem_cons]
  refine ⟨?popc, ?clz, ?ctz, ?not, ?neg, ?abs, List.forall_mem_nil _⟩
  case popc => exact fun h => writesElems_of_vfBody h rfl fun x _ => popCount_eq_countP _ x
  case clz => exact fun h => writesElems_of_vfBody h rfl fun x hx => leadZeros_eq_find? _ x hx
  all_goals exact fun h => writesElems_of_vfBody h rfl fun _ _ => rfl

/-- R118: the words with an immediate. -/
theorem vectorImmediate_writes (s : State) (c : Ctx) (d a : BitVec 8) : ∀ p ∈ vectorImmediate, ∀ n, Issues (p.1 d a n) s c →
    WritesElems (p.1 d a n) s c fun l e => p.2 c.m.sat c.ty (codeA c l e) c.imm := by
  simp only [vectorImmediate, List.forall_mem_cons]
  refine ⟨?vaddi, ?vmuli, ?vshli, ?vshri, ?vsari, List.forall_mem_nil _⟩
  case vshri => exact fun n h => writesElems_of_vfBody h rfl fun _ hx => shrElem_eq _ hx
  all_goals exact fun n h => writesElems_of_vfBody h rfl fun _ _ => rfl

/-- R118, R119: the one-operand and immediate words. -/
theorem vectorBitResults : VectorBitResults := fun s c d a =>
  ⟨vectorBits_writes s c d a,
    fun h => ⟨_, writesElems_of_vfBody h rfl fun _ _ => rfl, fun _ _ k hk => testBit_bitRev _ _ k hk⟩,
    vectorImmediate_writes s c d a⟩

/-- R117: the words of the vector shifts. -/
theorem shiftFormats : ShiftFormats :=
  fun _ _ _ => ⟨encodes_of rfl rfl, encodes_of rfl rfl, encodes_of rfl rfl⟩

/-- Settles O8: each word is one function of the codes of its elements, the stated one. -/
theorem vectorIntegerWords : Obligations.VectorIntegerWords := ⟨vectorIntegerResults, vectorBitResults, shiftFormats⟩

end Sys2Proof.Machine
end

section
/-! PROOF. Comparisons, masks and selection: the predicate bits and elements that the words write, and what the relations of
two elements mean (R120 to R122). -/

namespace Sys2Proof.Machine

/-! ## Some bits of a predicate register written -/

theorem getLsbD_one_shiftLeft {k l : Nat} (hl : l < 32) : (1#32 <<< k).getLsbD l = decide (l = k) := by
  refine (BitVec.getLsbD_twoPow k l).trans ?_
  rw [← Bool.decide_and, decide_eq_decide]
  omega

/-- The mask of a list has the bits that the list names. -/
theorem getLsbD_maskOf (ls : List Nat) {l : Nat} (hl : l < 32) : (maskOf ls).getLsbD l = decide (l ∈ ls) := by
  have key : ∀ m : BitVec 32, (ls.foldl (fun m i => m ||| (1#32 <<< i)) m).getLsbD l = (m.getLsbD l || decide (l ∈ ls)) := by
    induction ls with
    | nil => simp
    | cons k r ih => intro m; simp [ih, getLsbD_one_shiftLeft hl, Bool.or_assoc]
  simpa [maskOf] using key 0

/-- R47: the bits of a mask are written by a write of the whole register, but for its poison. -/
theorem Group.setPBits_eq (g : Group) (n : Nat) (m v : BitVec 32) :
    ∃ q, g.setPBits n m v = { g.setP n ((g.getP n &&& ~~~m) ||| (v &&& m)) with poison := q } := by
  unfold Group.setPBits
  split <;> exact ⟨_, rfl⟩

theorem Group.setPBits_lane (g : Group) (n : Nat) (m v : BitVec 32) (x : Reg) (l : Nat) :
    (g.setPBits n m v).lane x l = (g.setP n ((g.getP n &&& ~~~m) ||| (v &&& m))).lane x l := by
  obtain ⟨q, e⟩ := Group.setPBits_eq g n m v
  rw [e]
  cases x <;> rfl

theorem Group.setPBits_specials (g : Group) (n : Nat) (m v : BitVec 32) :
    (g.setPBits n m v).specials = g.specials ∧ (g.setPBits n m v).slotNo = g.slotNo := by
  obtain ⟨q, e⟩ := Group.setPBits_eq g n m v
  obtain ⟨_, _, e'⟩ := Group.setP_eq g n ((g.getP n &&& ~~~m) ||| (v &&& m))
  rw [e, e']
  exact ⟨rfl, rfl⟩

/-- R120: a word that writes the active lanes' bits of a predicate register and keeps the other bits. -/
theorem writesPredicate_of_setPBits {i : Instr} {body : Ctx → State → Res} {s : State} {c : Ctx} {n : Nat} {v : BitVec 32}
    (h : Issues i s c) (he : exec i s = issue i body s)
    (hb : ∀ u, body c u = c.upd u fun g => g.setPBits n c.mask v) :
    ∃ v', WritesPredicate i s c n v' ∧ ∀ l < 32, v'.getLsbD l =
      if c.mask.getLsbD l then v.getLsbD l else (s.regBefore (.p n) 0).getLsbD l := by
  obtain ⟨t, g0, ht, hr, h0, _, hv⟩ := issue_upd (jump := none) (dst := [.p n]) (sp := c.g.specials) h
    (fun _ _ => hb _)
    (fun g hg => (Group.setPBits_specials g n c.mask v).1.trans hg)
    (fun g => (Group.setPBits_specials g n c.mask v).2)
    (fun g x hx l _ => (Group.setPBits_lane g n c.mask v x l).trans (Group.setP_lane g n _ l (by simpa using hx)))
  refine ⟨(g0.getP n &&& ~~~c.mask) ||| (v &&& c.mask), ⟨t, he ▸ ht, hr, fun hn l => ?_⟩, fun l hl => ?_⟩
  · rw [hv, Group.setPBits_lane, Group.lane, Group.getP_setP, if_pos ⟨rfl, hn⟩]
  · obtain ⟨⟨g, _, hg, _⟩, _⟩ := hr
    have hold : s.regBefore (.p n) 0 = (g0.getP n).setWidth 64 := by
      rw [State.regBefore, hg]
      exact (h0 g hg (.p n) 0).symm
    rw [hold, BitVec.getLsbD_setWidth]
    simp only [BitVec.getLsbD_or, BitVec.getLsbD_and, BitVec.getLsbD_not, decide_eq_true hl,
      decide_eq_true (Nat.lt_trans hl (by decide : 32 < 64)), Bool.true_and]
    cases c.mask.getLsbD l <;> simp

/-! ## The words -/

/-- R120: the bit of a lane, from the relations of its elements. -/
theorem cmpLane_eq (c : Ctx) (k l : Nat) : cmpLane c.ty k (c.g.getV c.n2 l) (c.vb l) =
    let r := (List.range (typeElems c.ty)).map fun e => relElem c.ty (k % 8) (codeA c l e) (codeB c l e)
    if k < 8 then r.all id else r.any id := by
  simp only [← Nat.not_le, ite_not]
  rfl

/-- R120: VCMPP. -/
theorem vcmpp_writes (s : State) (c : Ctx) (a b : BitVec 8) (p k : BitVec 4) (h : Issues (.vcmpp p k a b) s c) :
    ∃ v, WritesPredicate (.vcmpp p k a b) s c p.toNat v ∧ ∀ l < 32, v.getLsbD l =
      if c.mask.getLsbD l then cmpLane c.ty k.toNat (c.g.getV c.n2 l) (c.vb l)
      else (s.regBefore (.p p.toNat) 0).getLsbD l := by
  obtain ⟨v, hw, hv⟩ := writesPredicate_of_setPBits h rfl fun _ => rfl
  refine ⟨v, hw, fun l hl => ?_⟩
  rw [hv l hl, getLsbD_maskOf _ hl]
  cases hm : c.mask.getLsbD l <;> simp [Ctx.lanes, hm, hl]

/-- R120 to R122: VCMPP, the mask words and VSEL. -/
theorem comparisonResults : ComparisonResults := by
  refine fun s c d a b => ⟨fun p k h => ?vcmpp, ?vltm, ?veqm, ?vsel⟩
  case vcmpp =>
    simp only [← cmpLane_eq]
    exact vcmpp_writes s c a b p k h
  case vsel => exact fun h => writesElems_of_vvvBody h rfl
  all_goals exact fun h => writesElems_of_vvBody h rfl fun _ _ _ => rfl

/-! ## The relations of two elements -/

theorem relElem_of_int {t : Nat} (ht : typeInt t = true) {k : Nat} (hk : k ≤ 5) (a b : Nat) :
    relElem t k a b = relation k (intVal t a == intVal t b) (decide (intVal t a < intVal t b)) := by
  match k with
  | 0 | 1 | 2 | 3 | 4 | 5 => simp [relElem, ht]

/-- R120: integer elements. -/
theorem relElem_int_iff {t : Nat} (ht : typeInt t = true) (a b : Nat) :
    (relElem t 0 a b = true ↔ intVal t a = intVal t b) ∧ (relElem t 1 a b = true ↔ intVal t a ≠ intVal t b)
    ∧ (relElem t 2 a b = true ↔ intVal t a < intVal t b) ∧ (relElem t 3 a b = true ↔ intVal t a ≤ intVal t b)
    ∧ (relElem t 4 a b = true ↔ intVal t b < intVal t a) ∧ (relElem t 5 a b = true ↔ intVal t b ≤ intVal t a)
    ∧ relElem t 6 a b = false ∧ relElem t 7 a b = true := by
  have hrel (k : Nat) (hk : k ≤ 5) := (relElem_of_int ht hk a b).trans (relation_eq_getD k hk
    (le := intVal t a ≤ intVal t b) (gt := intVal t b < intVal t a)
    (by rw [beq_iff_eq]; omega) Int.not_le.symm Int.not_lt.symm)
  refine ⟨?eq, ?ne, ?lt, ?le, ?gt, ?ge, ?un, ?ord⟩
  case un | ord => simp [relElem, ht]
  all_goals simp [hrel]

theorem typeVal_of_float {t : Nat} (ht : typeInt t = false) (a : Nat) : typeVal t a = (fmtOf t).val (typeCode t a) := by
  rw [typeVal, ht, if_neg Bool.false_ne_true]

/-- R120: floating-point elements, one of them NaN. -/
theorem relElem_of_nan {t : Nat} (ht : typeInt t = false) {a b : Nat}
    (hn : (typeVal t a).isNan = true ∨ (typeVal t b).isNan = true) {k : Nat} (hk : k ≤ 7) :
    relElem t k a b = decide (k = 1 ∨ k = 6) := by
  rw [← Bool.or_eq_true] at hn
  match k with
  | 0 | 1 | 2 | 3 | 4 | 5 | 6 | 7 => simp [relElem, ht, ← typeVal_of_float, hn]

/-- R120: floating-point elements, neither of them NaN. -/
theorem relElem_of_ordered {t : Nat} (ht : typeInt t = false) {a b : Nat} (ha : (typeVal t a).isNan = false)
    (hb : (typeVal t b).isNan = false) {k : Nat} (hk : k ≤ 5) :
    relElem t k a b =
      relation k ((typeVal t a).cmp (typeVal t b) == .eq) ((typeVal t a).cmp (typeVal t b) == .lt) := by
  match k with
  | 0 | 1 | 2 | 3 | 4 | 5 => simp [relElem, ht, ← typeVal_of_float, ha, hb, relation, bne]

/-! ## The order of two values -/

theorem units_eq (s : Bool) (m : Nat) (x e : Int) : units s m x e = (if s then -1 else 1) * (m * 2 ^ (x - e).toNat) := by
  cases s <;> simp [units]

theorem Val.cmp_swap (x y : Val) : (x.cmp y).swap = y.cmp x := by
  match x, y with
  | .nan, .nan => rfl
  | .nan, .inf s => cases s <;> rfl
  | .nan, .fin _ _ _ => rfl
  | .inf s, .nan => cases s <;> rfl
  | .inf s, .inf t => cases s <;> cases t <;> rfl
  | .inf s, .fin _ _ _ => cases s <;> rfl
  | .fin _ _ _, .nan => rfl
  | .fin _ _ _, .inf s => cases s <;> rfl
  | .fin s m a, .fin t n b =>
    rw [Val.cmp, Val.cmp, Int.min_comm b a]
    exact Std.OrientedCmp.eq_swap.symm

/-- R122: the lesser of two values that are not NaN. -/
theorem Val.cmp_eq_lt_iff {x y : Val} (hx : x.isNan = false) (hy : y.isNan = false) : x.cmp y = .lt ↔ Below x y := by
  match x, y with
  | .inf s, .inf t => cases s <;> cases t <;> simp [Val.cmp, Below]
  | .inf s, .fin _ _ _ => cases s <;> simp [Val.cmp, Below]
  | .fin _ _ _, .inf s => cases s <;> simp [Val.cmp, Below]
  | .fin s m a, .fin t n b => simp only [Val.cmp, Below, Int.compare_eq_lt, units_eq]

theorem Val.cmp_eq_gt_iff {x y : Val} (hx : x.isNan = false) (hy : y.isNan = false) : x.cmp y = .gt ↔ Below y x := by
  rw [← Val.cmp_eq_lt_iff hy hx, ← Val.cmp_swap, Ordering.swap_eq_gt]

/-- R120, R122: floating-point elements that are not NaN. -/
theorem relElem_float_iff {t : Nat} (ht : typeInt t = false) {a b : Nat} (ha : (typeVal t a).isNan = false)
    (hb : (typeVal t b).isNan = false) :
    let lt := Below (typeVal t a) (typeVal t b)
    let gt := Below (typeVal t b) (typeVal t a)
    (relElem t 0 a b = true ↔ ¬lt ∧ ¬gt) ∧ (relElem t 1 a b = true ↔ lt ∨ gt) ∧ (relElem t 2 a b = true ↔ lt)
    ∧ (relElem t 3 a b = true ↔ ¬gt) ∧ (relElem t 4 a b = true ↔ gt) ∧ (relElem t 5 a b = true ↔ ¬lt)
    ∧ relElem t 6 a b = false ∧ relElem t 7 a b = true := by
  simp only [← Val.cmp_eq_lt_iff ha hb, ← Val.cmp_eq_gt_iff ha hb]
  refine ⟨?eq, ?ne, ?lt, ?le, ?gt, ?ge, ?un, ?ord⟩
  case un | ord => simp [relElem, ht, ← typeVal_of_float, ha, hb]
  all_goals
    rw [relElem_of_ordered ht ha hb (by decide)]
    cases (typeVal t a).cmp (typeVal t b) <;> decide

/-- R120, R122: what the relations of two elements mean. -/
theorem relationMeaning : RelationMeaning := by
  refine ⟨fun _ a b ht => relElem_int_iff ht a b, fun _ _ _ ht hn => ⟨?ne, ?un, ?rest⟩,
    fun _ _ _ ht ha hb => relElem_float_iff ht ha hb⟩
  case ne | un => exact relElem_of_nan ht hn (by decide)
  case rest =>
    intro k hk
    obtain ⟨hle, hne⟩ : k ≤ 7 ∧ ¬(k = 1 ∨ k = 6) := by revert k; decide
    rw [relElem_of_nan ht hn hle, decide_eq_false hne]

/-- Settles O9: the words write what the relations of their elements say, and the relations are those of the elements' values. -/
theorem comparisonWords : Obligations.ComparisonWords :=
  ⟨comparisonResults, relationMeaning, fun _ _ _ => encodes_of rfl rfl⟩

end Sys2Proof.Machine
end
